-- ==== Sys2Proof/Word.lean ====
section
/-! DEFINITION. The word types of the KZ-2240 and nothing more: the widths of Table 2-12 (R36) and the byte (R2). -/

namespace Sys2Proof

/-- A scalar register's 64 bits (R36). -/
abbrev Word := BitVec 64

/-- One byte of memory (R2). -/
abbrev Byte := BitVec 8

/-- A vector register's 1,024 bits (R36). -/
abbrev VWord := BitVec 1024

/-- A mask register's 128 bits (R36, R112). -/
abbrev MWord := BitVec 128

/-- A slot word (R21). -/
abbrev SlotWord := BitVec 32

end Sys2Proof
end

