-- ==== Sys2Proof/Config.lean ====
section
/-! DEFINITION. The free values: what the spec leaves open and this model leaves open too. Each is an opaque constant
with no body, so no proof can rest on a value of it (logs 5 to 9 name the rules that leave them open). -/

namespace Sys2Proof.Config

/-- The value that a special function computes inside the bound of R133: the function's number in Table 5-9, the
grade, the type's code and the operand's encoding. It counts only when it is within the bound (log 9). -/
opaque special : Nat → Bool → Nat → Nat → Nat

/-- Whether a fused multiply-add of zero and infinity with a quiet NaN addend sets NV, which IEEE 754 leaves to the
implementation (R116). -/
opaque fmaNanInvalid : Bool

/-- The choice an unordered reduction makes among the operands still to combine: the step's number and how many there
are (R295, R329). -/
opaque pick : Nat → Nat → Nat

/-- Whether a word that an engine operation has still to read is read in a step, of the step's number and the word's
place among those it reads (R187). -/
opaque readNow : Nat → Nat → Bool

/-- A byte of a B tile beyond those that an earlier, narrower staging brought (R207, log 63): the step's number and the
byte's place. -/
opaque stagedByte : Nat → Nat → Byte

/-- The value of a byte that two engine writes not ordered against each other may leave either way, or of a
completion order the spec leaves open (R246, R254): the step's number. -/
opaque coin : Nat → Bool

/-- A byte that a member of a switch group beyond the quarter contributes: the step's number and the byte's place (R325,
R335; log 64). -/
opaque remoteByte : Nat → Nat → Byte

/-- Where in a launch's harvest area the conflict record of a barrier stands, by the barrier's place (R279). -/
opaque harvestRecord : Nat → Nat

/-- The port by which one die reaches another over the fabric, or, for 16, what lies beyond the quarter (R316, R317). -/
opaque route : Nat → Nat → Fin 18

/-- KIND and OBJ of the record of a wait on a stamp and of one on a divider, which Table 17-5 does not list (R354, R428, log
65): the wait's number, 0 and 1. -/
opaque waitKind : Nat → BitVec 8
opaque waitObject : Nat → Word

/-- END of the record of an engine's wait that a cancellation ends, which R428 does not list (log 65). -/
opaque waitCancelled : BitVec 8

/-- The core number that `getc` selector 7 gives on the granger, which no `getc` names (R11, R369): the step's number. -/
opaque grangerCore : Nat → Nat

/-- SHA-384 of a list of bytes, as 48 bytes (R396, R398). The spec names the function and does not define it. -/
opaque sha384 : List Byte → Vector Byte 48

/-- Whether an ECDSA P-384 signature (96 bytes) by a public key (97 bytes) verifies over a digest (R396). -/
opaque ecdsaOk : List Byte → List Byte → List Byte → Bool

/-- The signature of a package over a digest, 96 bytes (R398): the package and the number of the signature. -/
opaque ecdsaSign : Nat → Nat → List Byte → Vector Byte 96

/-- The package's identity public key, 97 bytes (R398). -/
opaque identityKey : Nat → Vector Byte 97

/-- The package's identity certificate chain (Table 15-9, CERT). -/
opaque certificate : Nat → List Byte

/-- A byte of a host summary's entry whose layout the spec leaves open (Table 15-10): the section, the offset in the
entry, and the values of its fields in the order the table names them. -/
opaque summaryByte : Nat → Nat → List Nat → Byte

/-- The bytes of the CONFIG settings and fuse state that an attestation report digests, of their values (R398). -/
opaque settingsBytes : List Nat → List Byte

/-- The boot ROM's measurement of a die, 48 bytes (R398). -/
opaque romMeasurement : Nat → Vector Byte 48

end Sys2Proof.Config
end

