-- ==== Sys2Proof/Syntax.lean ====
section
/-! DEFINITION. The instruction set of the KZ-2240 as syntax: one constructor of `Instr` per row of
spec/opcode_table.json. A constructor's docstring names its row's rule. Instruction words carry the operands of
their encoding (Tables 2-8 and 2-10); an immediate that an H.imm can widen carries its extension (R30). The rows
without an encoding are operations of the engines, the dispatcher, the governor, the granger and the host
(spec/95_what_each_step_holds.md); their arguments say which agent or entry moves and are the model's own. -/

namespace Sys2Proof

/-- x0 to x63 (R36). -/
abbrev XReg := Fin 64

/-- v0 to v31 (R36). -/
abbrev VReg := Fin 32

/-- An immediate field of `m` values with the 21 extension bits of an H.imm that targets its slot (R30). -/
structure Imm (m : Nat) where
  lo : Fin m
  ext : Option (Fin 2097152)
  deriving DecidableEq, Repr

/-- Width of `sext` and `zext` (R52). The encoded value is the position in the list. -/
inductive ExtSize where
  | b | h | w
  deriving DecidableEq, Repr

/-- Condition of `cmp` and `cmpi` (Table 3-5). The encoded value is the position in the list. -/
inductive Cond where
  | eq | ne | lt | ltu | le | leu
  deriving DecidableEq, Repr

/-- Size of `ld` (Table 4-8). The encoded value is the position in the list. -/
inductive LdSize where
  | b | bu | h | hu | w | wu | d
  deriving DecidableEq, Repr

/-- Size of `st` (Table 4-8). The encoded value is the position in the list. -/
inductive StSize where
  | b | h | w | d
  deriving DecidableEq, Repr

/-- Condition of `qtst` (Table 3-10). The encoded value is the position in the list. -/
inductive QCond where
  | empty | space | fault | done
  deriving DecidableEq, Repr

/-- Vector element type et (Table 2-9). The encoded value is the position in the list. -/
inductive ElTy where
  | f32 | bf16 | f16 | i32 | i16 | i8 | u32 | u8
  deriving DecidableEq, Repr

/-- Vector width w (Table 2-4). The encoded value is the position in the list. -/
inductive Width where
  | w256 | w512 | w1024
  deriving DecidableEq, Repr

/-- Condition of `vcmp` (R124). The encoded value is the position in the list. -/
inductive VCond where
  | eq | ne | lt | le
  deriving DecidableEq, Repr

/-- Operator of `vred` and `vscan` (R129). The encoded value is the position in the list. -/
inductive RedOp where
  | add | min | max
  deriving DecidableEq, Repr

/-- Operator of `ldrd` (Table 13-2). The encoded value is the position in the list. -/
inductive RedOp2 where
  | add | min | max
  deriving DecidableEq, Repr

/-- Pattern of `vshuf` (R130). The encoded value is the position in the list. -/
inductive ShufPat where
  | p0 | p1 | p2 | p3 | p4 | p5
  deriving DecidableEq, Repr

/-- Type of the special functions (R132). The encoded value is the position in the list. -/
inductive FpTy where
  | f32 | bf16 | f16
  deriving DecidableEq, Repr

/-- Element format (Table 6-1). The encoded value is the position in the list. -/
inductive Fmt where
  | bf16 | fp16 | e4m3 | e5m2 | e3m2 | e2m3 | e2m1 | int8 | int4 | int2 | cb4 | cb2 | uint8 | e3m4 | int16 | fp32
  deriving DecidableEq, Repr

/-- Rounding mode of a conversion (R144). The encoded value is the position in the list. -/
inductive Rnd where
  | rne | rz | rd | ru
  deriving DecidableEq, Repr

/-- Selector of `qstat` (R259). The encoded value is the position in the list. -/
inductive QSel where
  | word | bytes | faddr
  deriving DecidableEq, Repr

/-- Kind of `fence` (R270). The encoded value is the position in the list. -/
inductive FenceKind where
  | acq | rel | full
  deriving DecidableEq, Repr

/-- Scope of an ordering event (Table 11-2). The encoded value is the position in the list. -/
inductive Scope where
  | core | clus | die | pkg | qtr
  deriving DecidableEq, Repr

/-- CLASS of major 0x2a (R293). The encoded value is the position in the list. -/
inductive SqClass where
  | die | pkg
  deriving DecidableEq, Repr

/-- Condition of `waitw` (R310). The encoded value is the position in the list. -/
inductive WCond where
  | eq | ne | ltu | geu | lt | ge
  deriving DecidableEq, Repr

/-- Selector of `tget` (R372). The encoded value is the position in the list. -/
inductive TgetSel where
  | dtime | frcnt | frnum | frlen | sync
  deriving DecidableEq, Repr

/-- KIND of `tlbinv` (R388). The encoded value is the position in the list. -/
inductive TlbKind where
  | page | as_ | all
  deriving DecidableEq, Repr

/-- REACH of `tlbinv` (R388). The encoded value is the position in the list. -/
inductive TlbReach where
  | die | pkg | qtr
  deriving DecidableEq, Repr

/-- Selector of `eget` (R416). The encoded value is the position in the list. -/
inductive EgetSel where
  | ecnt | eidle | ebal | bcyc | gest | gslot | gstat | wgt | estat
  deriving DecidableEq, Repr

/-- Selector of `wlrd` (R433). The encoded value is the position in the list. -/
inductive WlrdSel where
  | tail | ring | min | last
  deriving DecidableEq, Repr

/-- A hardware context by physical position: quarter position of the die, core 0 to 95 (96 is the granger), and
context 0 to 3 (R12; log 3). -/
structure CtxId where
  die : Nat
  core : Nat
  ctx : Nat
  deriving DecidableEq, Repr

/-- A core by physical position (R12). -/
structure CoreId where
  die : Nat
  core : Nat
  deriving DecidableEq, Repr

/-- The granger's choices at a placement: the harvest area's address and how many held bytes it has room for (R280). -/
structure Placement where
  harea : Nat
  hcap : Nat
  deriving DecidableEq, Repr

/-- What a precision time message leaves on a die: the rate of its time in ppm, held to 200 either way, and whether the
die is the grandmaster (R359, R360, R372). -/
structure PtpMsg where
  rate : Int
  grand : Bool
  deriving DecidableEq, Repr

/-- The granger's service of a PAGE-FAULT: whose operation, in which queue (R76; 8 for an ordered batch, 9 for the trap of
the context itself), the page-table bytes it stores, the Square blocks it backs, and whether the cause was removed (R258,
R288, R381). -/
structure Service where
  who : CtxId
  queue : Nat
  stores : List (Nat × Nat)
  back : List Nat
  fresh : List Nat
  serviced : Bool
  deriving DecidableEq, Repr

/-- A switch group: its number, its member dies in rank order and its root switch (R319). -/
structure SwitchGroup where
  swg : Nat
  members : List Nat
  root : Nat
  deriving DecidableEq, Repr

/-- A step of a write (R265 to R267): the k-th store of a context is performed on its die, or the write numbered `id`
becomes visible on another die that observes its home. -/
inductive WriteStep where
  | perform (c : CtxId) (k : Nat)
  | reach (id : Nat) (d : Nat)
  deriving DecidableEq, Repr

/-- The steps of the machine: one constructor per row of spec/opcode_table.json. -/
inductive Instr where
  /-- R21. A slot with bits [30:0] zero does nothing and occupies no unit; with S=1 it ends its group. -/
  | nop
  /-- R50. Writes xd with the 64-bit sum of xa and xb. -/
  | add (xd : XReg) (xa : XReg) (xb : XReg)
  /-- R50. Writes xd with xa minus xb modulo 2^64. -/
  | sub (xd : XReg) (xa : XReg) (xb : XReg)
  /-- R50. Writes xd with xa AND xb. -/
  | band (xd : XReg) (xa : XReg) (xb : XReg)
  /-- R50. Writes xd with xa OR xb. -/
  | bor (xd : XReg) (xa : XReg) (xb : XReg)
  /-- R50. Writes xd with xa XOR xb. -/
  | bxor (xd : XReg) (xa : XReg) (xb : XReg)
  /-- R50. Writes xd with xa AND NOT xb. -/
  | andn (xd : XReg) (xa : XReg) (xb : XReg)
  /-- R50. Shifts xa left by the whole value of xb, giving 0 for amounts of 64 or more. -/
  | shl (xd : XReg) (xa : XReg) (xb : XReg)
  /-- R50. Shifts xa right logically by xb, giving 0 for amounts of 64 or more. -/
  | shr (xd : XReg) (xa : XReg) (xb : XReg)
  /-- R50. Shifts xa right arithmetically by min(xb, 63). -/
  | sar (xd : XReg) (xa : XReg) (xb : XReg)
  /-- R50. Rotates xa right by xb mod 64. -/
  | rot (xd : XReg) (xa : XReg) (xb : XReg)
  /-- R50. Writes xd with the signed minimum of xa and xb. -/
  | smin (xd : XReg) (xa : XReg) (xb : XReg)
  /-- R50. Writes xd with the signed maximum of xa and xb. -/
  | smax (xd : XReg) (xa : XReg) (xb : XReg)
  /-- R50. Writes xd with the unsigned minimum of xa and xb. -/
  | minu (xd : XReg) (xa : XReg) (xb : XReg)
  /-- R50. Writes xd with the unsigned maximum of xa and xb. -/
  | maxu (xd : XReg) (xa : XReg) (xb : XReg)
  /-- R51. Writes the low 64 bits of the product of xa and xb. -/
  | mul (xd : XReg) (xa : XReg) (xb : XReg)
  /-- R51. Writes the high 64 bits of the signed product. -/
  | mulh (xd : XReg) (xa : XReg) (xb : XReg)
  /-- R51. Writes the high 64 bits of the unsigned product. -/
  | mulhu (xd : XReg) (xa : XReg) (xb : XReg)
  /-- R51. Signed division truncating toward zero, all ones on division by zero, using a divider for 34 cycles. -/
  | div (xd : XReg) (xa : XReg) (xb : XReg)
  /-- R51. Unsigned division, all ones on division by zero. -/
  | divu (xd : XReg) (xa : XReg) (xb : XReg)
  /-- R51. Signed remainder with the sign of the dividend; xa on division by zero. -/
  | rem (xd : XReg) (xa : XReg) (xb : XReg)
  /-- R51. Unsigned remainder; xa on division by zero. -/
  | remu (xd : XReg) (xa : XReg) (xb : XReg)
  /-- R52. Counts the zero bits above the highest set bit of xa. -/
  | clz (xd : XReg) (xa : XReg)
  /-- R52. Counts the zero bits below the lowest set bit of xa. -/
  | ctz (xd : XReg) (xa : XReg)
  /-- R52. Counts the set bits of xa. -/
  | popc (xd : XReg) (xa : XReg)
  /-- R52. Sign-extends the low 8, 16 or 32 bits of xa. -/
  | sext (sz : ExtSize) (xd : XReg) (xa : XReg)
  /-- R52. Zero-extends the low 8, 16 or 32 bits of xa. -/
  | zext (sz : ExtSize) (xd : XReg) (xa : XReg)
  /-- R52. Copies xa to xd. -/
  | mov (xd : XReg) (xa : XReg)
  /-- R57. Writes predicate qd with the comparison of xa and xb under cond. -/
  | cmp (cond : Cond) (qd : Fin 8) (xa : XReg) (xb : XReg)
  /-- R55. Extracts a zero-extended bit field of xa. -/
  | bfx (xd : XReg) (xa : XReg) (pos : Fin 64) (len : Fin 64)
  /-- R55. Inserts the low bits of xa into a bit field of xd. -/
  | bfi (xd : XReg) (xa : XReg) (pos : Fin 64) (len : Fin 64)
  /-- R53. Adds a sign-extended immediate to xa. -/
  | addi (xd : XReg) (xa : XReg) (imm : Imm 8192)
  /-- R53. ANDs xa with a sign-extended immediate. -/
  | andi (xd : XReg) (xa : XReg) (imm : Imm 8192)
  /-- R53. ORs xa with a sign-extended immediate. -/
  | ori (xd : XReg) (xa : XReg) (imm : Imm 8192)
  /-- R53. XORs xa with a sign-extended immediate. -/
  | xori (xd : XReg) (xa : XReg) (imm : Imm 8192)
  /-- R54. Shifts xa left by an immediate amount. -/
  | shli (xd : XReg) (xa : XReg) (amt : Fin 64)
  /-- R54. Shifts xa right logically by an immediate amount. -/
  | shri (xd : XReg) (xa : XReg) (amt : Fin 64)
  /-- R54. Shifts xa right arithmetically by an immediate amount. -/
  | sari (xd : XReg) (xa : XReg) (amt : Fin 64)
  /-- R54. Rotates xa right by an immediate amount. -/
  | roti (xd : XReg) (xa : XReg) (amt : Fin 64)
  /-- R57. Writes predicate qd with the comparison of xa and a sign-extended immediate. -/
  | cmpi (cond : Cond) (qd : Fin 8) (xa : XReg) (imm : Imm 8192)
  /-- R56. Loads a sign-extended constant into xd. -/
  | li (xd : XReg) (imm : Imm 524288)
  /-- R56. Shifts xd left by the field width and places an unsigned immediate below it. -/
  | lio (xd : XReg) (imm : Imm 524288)
  /-- R58. Selects xa or xb into xd by a predicate, optionally negated. -/
  | sel (xd : XReg) (qn : Fin 8) (neg : Bool) (xa : XReg) (xb : XReg)
  /-- R59. Writes qd with qa AND qb. -/
  | pand (qd : Fin 8) (qa : Fin 8) (qb : Fin 8)
  /-- R59. Writes qd with qa OR qb. -/
  | por (qd : Fin 8) (qa : Fin 8) (qb : Fin 8)
  /-- R59. Writes qd with qa XOR qb. -/
  | pxor (qd : Fin 8) (qa : Fin 8) (qb : Fin 8)
  /-- R59. Writes qd with qa AND NOT qb. -/
  | pandn (qd : Fin 8) (qa : Fin 8) (qb : Fin 8)
  /-- R59. Writes qd with xa not equal to zero. -/
  | pset (qd : Fin 8) (xa : XReg)
  /-- R59. Writes xd with 1 if qa is true, else 0. -/
  | pget (xd : XReg) (qa : Fin 8)
  /-- R60. Branches relative to the bundle when the predicate, possibly negated, is true, after the group. -/
  | br (qn : Fin 8) (neg : Bool) (off : Fin 2097152)
  /-- R61. Jumps relative to the bundle after the group. -/
  | jmp (off : Fin 16777216)
  /-- R61. Jumps relative to the bundle and writes x63 with the next bundle address. -/
  | call (off : Fin 16777216)
  /-- R62. Transfers to the address in xa. -/
  | jr (xa : XReg)
  /-- R62. Transfers to xa and writes xd with the next bundle address. -/
  | callr (xd : XReg) (xa : XReg)
  /-- R62. Transfers to xa, marked as a return. -/
  | ret (xa : XReg)
  /-- R67. Starts loop level n with the count in xa and END from the label. -/
  | lpset (lv : Fin 6) (xa : XReg) (endoff : Fin 8192)
  /-- R67. Starts loop level n with an immediate count. -/
  | lpseti (lv : Fin 6) (count : Fin 1024) (endoff : Fin 512)
  /-- R68. Adds a stride pair to a loop level, staged or from its next boundary. -/
  | lpstr (lv : Fin 6) (xr : XReg) (xs : XReg)
  /-- R70. Ends loop level n and the levels above it when the predicate holds, transferring to END + 16. -/
  | lpbrk (lv : Fin 6) (qn : Fin 8) (neg : Bool)
  /-- R71. Reads a current field of a loop level into xd. -/
  | lprd (xd : XReg) (lv : Fin 6) (sel : Fin 8)
  /-- R72. Writes a pending loop-level value installed at the next boundary. -/
  | lpwr (lv : Fin 6) (sel : Fin 8) (xa : XReg)
  /-- R101. Loads 1 to 8 bytes, signed or unsigned, into xt after the checks of R82. -/
  | ld (sz : LdSize) (xt : XReg) (xa : XReg) (off : Imm 1024)
  /-- R101. Stores the low 1 to 8 bytes of xt after the checks of R82. -/
  | st (sz : StSize) (xt : XReg) (xa : XReg) (off : Imm 1024)
  /-- R104. Reads 4 or 8 bytes of a parameter window, zero beyond the bound with POOB set. -/
  | ldp (dbl : Bool) (xd : XReg) (pw : Fin 4) (xa : XReg) (off : Imm 1024)
  /-- R76. Samples a queue's state for the context and writes the result to qd. -/
  | qtst (cond : QCond) (qd : Fin 8) (queue : Fin 8)
  /-- R120. Adds the lanes of va and vb. -/
  | vadd (et : ElTy) (w : Width) (vd : VReg) (va : VReg) (vb : VReg)
  /-- R120. Subtracts the lanes of vb from va. -/
  | vsub (et : ElTy) (w : Width) (vd : VReg) (va : VReg) (vb : VReg)
  /-- R120. Multiplies the lanes of va and vb. -/
  | vmul (et : ElTy) (w : Width) (vd : VReg) (va : VReg) (vb : VReg)
  /-- R120. Computes a × b + d per lane with one rounding. -/
  | vfma (et : ElTy) (w : Width) (vd : VReg) (va : VReg) (vb : VReg)
  /-- R120. Computes a × b − d per lane with one rounding. -/
  | vfms (et : ElTy) (w : Width) (vd : VReg) (va : VReg) (vb : VReg)
  /-- R120. Computes d − a × b per lane with one rounding. -/
  | vfnma (et : ElTy) (w : Width) (vd : VReg) (va : VReg) (vb : VReg)
  /-- R121. Writes the smaller of each lane pair. -/
  | vmin (et : ElTy) (w : Width) (vd : VReg) (va : VReg) (vb : VReg)
  /-- R121. Writes the larger of each lane pair. -/
  | vmax (et : ElTy) (w : Width) (vd : VReg) (va : VReg) (vb : VReg)
  /-- R121. Writes the absolute value of each lane. -/
  | vabs (et : ElTy) (w : Width) (vd : VReg) (va : VReg)
  /-- R121. Writes the negation of each lane. -/
  | vneg (et : ElTy) (w : Width) (vd : VReg) (va : VReg)
  /-- R120. Bitwise AND of the lanes. -/
  | vand (et : ElTy) (w : Width) (vd : VReg) (va : VReg) (vb : VReg)
  /-- R120. Bitwise OR of the lanes. -/
  | vor (et : ElTy) (w : Width) (vd : VReg) (va : VReg) (vb : VReg)
  /-- R120. Bitwise XOR of the lanes. -/
  | vxor (et : ElTy) (w : Width) (vd : VReg) (va : VReg) (vb : VReg)
  /-- R120. Bitwise AND NOT of the lanes. -/
  | vandn (et : ElTy) (w : Width) (vd : VReg) (va : VReg) (vb : VReg)
  /-- R122. Shifts integer lanes left by the lanes of vb. -/
  | vshl (et : ElTy) (w : Width) (vd : VReg) (va : VReg) (vb : VReg)
  /-- R122. Shifts integer lanes right logically. -/
  | vshr (et : ElTy) (w : Width) (vd : VReg) (va : VReg) (vb : VReg)
  /-- R122. Shifts integer lanes right arithmetically. -/
  | vsar (et : ElTy) (w : Width) (vd : VReg) (va : VReg) (vb : VReg)
  /-- R120. Copies va with its tag to vd. -/
  | vcpy (et : ElTy) (w : Width) (vd : VReg) (va : VReg)
  /-- R124. Writes mask md with the per-lane comparison of va and vb. -/
  | vcmp (cond : VCond) (et : ElTy) (w : Width) (md : Fin 8) (va : VReg) (vb : VReg)
  /-- R125. Selects bytes of va or vb into vd by mask mN. -/
  | vsel (w : Width) (vd : VReg) (va : VReg) (vb : VReg) (mn : Fin 8)
  /-- R125. Writes md with ma AND mb. -/
  | vmand (md : Fin 8) (ma : Fin 8) (mb : Fin 8)
  /-- R125. Writes md with ma OR mb. -/
  | vmor (md : Fin 8) (ma : Fin 8) (mb : Fin 8)
  /-- R125. Writes md with NOT ma. -/
  | vmnot (md : Fin 8) (ma : Fin 8)
  /-- R126. Writes xd with the number of active lanes of mN. -/
  | vmcnt (et : ElTy) (w : Width) (xd : XReg) (mn : Fin 8)
  /-- R126. Writes xd with the lowest active lane of mN, or n. -/
  | vmfst (et : ElTy) (w : Width) (xd : XReg) (mn : Fin 8)
  /-- R128. Writes every lane with the low bits of xa. -/
  | vbcast (et : ElTy) (w : Width) (vd : VReg) (xa : XReg)
  /-- R128. Writes lane xb of vd with the low bits of xa. -/
  | vins (et : ElTy) (vd : VReg) (xa : XReg) (xb : XReg)
  /-- R128. Writes xd with lane xb of va. -/
  | vext (et : ElTy) (xd : XReg) (va : VReg) (xb : XReg)
  /-- R129. Reduces the lanes of va by a fixed tree into lane 0. -/
  | vred (op : RedOp) (et : ElTy) (w : Width) (vd : VReg) (va : VReg)
  /-- R129. Writes the running prefix of the lanes of va. -/
  | vscan (op : RedOp) (et : ElTy) (w : Width) (vd : VReg) (va : VReg)
  /-- R130. Permutes lanes of va and vb by the indices in vd. -/
  | vperm (et : ElTy) (w : Width) (vd : VReg) (va : VReg) (vb : VReg)
  /-- R130. Applies one of six fixed shuffle patterns. -/
  | vshuf (pat : ShufPat) (et : ElTy) (w : Width) (vd : VReg) (va : VReg)
  /-- R130. Slides the concatenation of va and vd by s lanes. -/
  | vslide (et : ElTy) (w : Width) (vd : VReg) (va : VReg) (s : Fin 32)
  /-- R130. Compresses the active lanes of va to the bottom of vd. -/
  | vcomp (et : ElTy) (w : Width) (vd : VReg) (va : VReg) (mn : Fin 8)
  /-- R131. Writes the lane numbers ordered active first from mask mN. -/
  | vpart (et : ElTy) (w : Width) (vd : VReg) (mn : Fin 8)
  /-- R131. Gathers lanes of va by the indices in vb. -/
  | vgat (et : ElTy) (w : Width) (vd : VReg) (va : VReg) (vb : VReg)
  /-- R131. Scatters lanes of va into vd by the indices in vb. -/
  | vsct (et : ElTy) (w : Width) (vd : VReg) (va : VReg) (vb : VReg)
  /-- R106. Loads 32, 64 or 128 bytes into vt, taking the tag from records or the spatial view. -/
  | vld (w : Width) (vt : VReg) (xa : XReg) (off : Imm 512)
  /-- R106. Stores the low W bits of vt under the tag checks of R90. -/
  | vst (w : Width) (vt : VReg) (xa : XReg) (off : Imm 512)
  /-- R108. Extracts bit fields from the crib into lanes under a pack pattern. -/
  | vldx (w : Width) (vt : VReg) (xa : XReg) (off : Fin 128) (pk : Fin 4)
  /-- R109. Loads elements at a pitch from the crib into lanes. -/
  | vldt (w : Width) (vt : VReg) (xa : XReg) (off : Fin 128) (pk : Fin 4)
  /-- R107. Writes a pack pattern register from xa. -/
  | pkset (pk : Fin 4) (xa : XReg)
  /-- R133. Computes the reciprocal per lane in the fast or accurate grade. -/
  | vrcp (acc : Bool) (ft : FpTy) (w : Width) (vd : VReg) (va : VReg)
  /-- R133. Computes the reciprocal square root per lane. -/
  | vrsq (acc : Bool) (ft : FpTy) (w : Width) (vd : VReg) (va : VReg)
  /-- R133. Computes the square root per lane. -/
  | vsqrt (acc : Bool) (ft : FpTy) (w : Width) (vd : VReg) (va : VReg)
  /-- R133. Computes 2^x per lane. -/
  | vexp2 (acc : Bool) (ft : FpTy) (w : Width) (vd : VReg) (va : VReg)
  /-- R133. Computes log2 x per lane. -/
  | vlog2 (acc : Bool) (ft : FpTy) (w : Width) (vd : VReg) (va : VReg)
  /-- R133. Computes tanh x per lane. -/
  | vtanh (acc : Bool) (ft : FpTy) (w : Width) (vd : VReg) (va : VReg)
  /-- R133. Computes the logistic sigmoid per lane. -/
  | vsigm (acc : Bool) (ft : FpTy) (w : Width) (vd : VReg) (va : VReg)
  /-- R133. Computes GELU per lane. -/
  | vgelu (acc : Bool) (ft : FpTy) (w : Width) (vd : VReg) (va : VReg)
  /-- R133. Computes sin(π x) per lane. -/
  | vsin (acc : Bool) (ft : FpTy) (w : Width) (vd : VReg) (va : VReg)
  /-- R133. Computes cos(π x) per lane. -/
  | vcos (acc : Bool) (ft : FpTy) (w : Width) (vd : VReg) (va : VReg)
  /-- R135. Refines a reciprocal or reciprocal square root estimate held in vd by one Newton step. -/
  | vrfn (ft : FpTy) (w : Width) (vd : VReg) (va : VReg) (k : Fin 32)
  /-- R153. Converts packed elements between formats with rounding, dither and saturation. -/
  | vcvt (src : Fmt) (dst : Fmt) (rnd : Rnd) (sat : Bool) (dith : Bool) (w : Width) (vd : VReg) (va : VReg)
  /-- R157. Quantises one 32-element sub-block under the descriptor in vb and advances J. -/
  | vqnt (et : ElTy) (w : Width) (vd : VReg) (va : VReg) (vb : VReg)
  /-- R158. Dequantises one sub-block under the descriptor and advances J. -/
  | vdqnt (et : ElTy) (w : Width) (vd : VReg) (va : VReg) (vb : VReg)
  /-- R156. Raises TEXP of the descriptor in vd from the largest finite lane of va. -/
  | vscl (et : ElTy) (w : Width) (vd : VReg) (va : VReg)
  /-- R159. Loads a codebook register from the low 256 bits of va. -/
  | cbld (cb : Fin 4) (va : VReg)
  /-- R160. Converts lanes to nearest codebook indices. -/
  | cbq (cb2 : Bool) (et : ElTy) (w : Width) (vd : VReg) (va : VReg) (cb : Fin 4)
  /-- R160. Expands codebook indices to lane values. -/
  | cbx (cb2 : Bool) (et : ElTy) (w : Width) (vd : VReg) (va : VReg) (cb : Fin 4)
  /-- R161. Reads the dither state and optionally installs a new PHASE and STEP at the end of the group. -/
  | dthset (xd : XReg) (xa : XReg) (wr : Bool)
  /-- R162. Transposes element-major data into plane-major bits. -/
  | vpk (b : Fin 32) (w : Width) (vd : VReg) (va : VReg)
  /-- R162. Transposes plane-major bits back to elements. -/
  | vupk (b : Fin 32) (w : Width) (vd : VReg) (va : VReg)
  /-- R206. Checks, latches, claims ring positions and queues a matrix operation accumulating into tiles. -/
  | mma (acc : Fin 16) (cnt : Fin 16) (ra : Fin 16) (rb : Fin 16) (wp : Fin 8) (keep : Bool)
  /-- R206. As mma, with each tile zeroed within its pass and given the A tile's L. -/
  | mmz (acc : Fin 16) (cnt : Fin 16) (ra : Fin 16) (rb : Fin 16) (wp : Fin 8) (keep : Bool)
  /-- R208. Writes a precision control word from xa after the validity checks of R170. -/
  | pcw (wd : Fin 8) (xa : XReg)
  /-- R208. Writes a precision control word as ws with one field replaced. -/
  | pcwr (wd : Fin 8) (ws : Fin 8) (xa : XReg) (fld : Fin 16)
  /-- R209. Queues zeroing of accumulator tiles with a given tag. -/
  | accz (acc : Fin 16) (cnt : Fin 16) (tag : Fin 16)
  /-- R210. Queues a read of a 128-byte block of a tile into vd. -/
  | accrd (vd : VReg) (tile : Fin 16) (xa : XReg) (imm : Fin 128)
  /-- R211. Queues a write of 128 bytes of va into a tile. -/
  | accwr (tile : Fin 16) (va : VReg) (xa : XReg) (imm : Fin 128)
  /-- R212. Waits for the context's earlier matrix entries naming tiles in MASK to retire. -/
  | mwait (mask : Fin 65536)
  /-- R213. Installs a ring's configuration and side word and zeroes its counters. -/
  | rset (ring : Fin 16) (xa : XReg) (xb : XReg)
  /-- R214. Reads a ring field, or waits for a present or free slot and returns its offset. -/
  | rget (sel : Imm 128) (xd : XReg) (ring : Fin 16)
  /-- R215. Advances a ring's TAIL by k after earlier crib stores are performed. -/
  | rpush (ring : Fin 16) (k : Imm 128)
  /-- R215. Advances a ring's HEAD by k after earlier loads have read. -/
  | rpop (ring : Fin 16) (k : Imm 128)
  /-- R226. Checks, latches and queues a post-processing store of accumulator tiles to a ring or crib address. -/
  | ppst (acc : Fin 16) (cnt : Fin 16) (xa : XReg) (ring : Fin 16) (toRing : Bool) (set : Fin 4)
  /-- R225. Writes one word of a post-processing configuration set from xa. -/
  | ppcfgWord (set : Fin 4) (wd : Fin 4) (xa : XReg)
  /-- R225. Writes a threshold register htN from the low 32 bits of xa. -/
  | ppcfgThreshold (ht : Fin 8) (xa : XReg)
  /-- R233. Queues a rewrite of the DOM field of n side-bank records. -/
  | htag (xa : XReg) (cnt : Fin 256) (tag : Fin 16)
  /-- R232. Queues reconstruction of wavelet-domain FP32 tiles into spatial form in the crib. -/
  | hrec (xa : XReg) (xb : XReg) (cnt : Fin 16)
  /-- R234. Zeroes lanes of va below a threshold and sets tag bit 3. -/
  | hthr (w : Width) (vd : VReg) (va : VReg) (ht : Fin 8)
  /-- R235. Applies the forward Haar step to va and vb, writing vd and vd + 1. -/
  | hfwd (w : Width) (vd : VReg) (va : VReg) (vb : VReg)
  /-- R235. Applies the inverse Haar step, writing vd and vd + 1. -/
  | hinv (w : Width) (vd : VReg) (va : VReg) (vb : VReg)
  /-- R250. Queues a plain, pack or compact copy under a latched shape. -/
  | cp (cq : Fin 4) (xa : XReg) (xb : XReg) (sh : Fin 16) (sig : Bool)
  /-- R253. Queues a sheaf transpose between element-major and plane-major crib regions. -/
  | cpt (cq : Fin 4) (xa : XReg) (xb : XReg) (sh : Fin 16) (sig : Bool)
  /-- R252. Queues expansion of a packed sheaf stream into tiles, possibly into a ring. -/
  | cpx (cq : Fin 4) (xa : XReg) (xb : XReg) (sh : Fin 16) (sig : Bool)
  /-- R254. Queues a gather of rows through an index list. -/
  | cpg (cq : Fin 4) (xa : XReg) (xb : XReg) (sh : Fin 16) (sig : Bool)
  /-- R254. Queues an ordered or unordered scatter of rows through an index list. -/
  | cps (ord : Bool) (cq : Fin 4) (xa : XReg) (xb : XReg) (sh : Fin 16) (sig : Bool)
  /-- R255. Queues a batch of remote atomics at translated homes, ordered or unordered. -/
  | cpr (ord : Bool) (cq : Fin 4) (xa : XReg) (xb : XReg) (sh : Fin 16) (sig : Bool)
  /-- R256. Queues a single atomic write of xb to a crib word after earlier operations of the queue. -/
  | cpsig (cq : Fin 4) (xa : XReg) (xb : XReg)
  /-- R257. Queues a move of tiles with their records. -/
  | tmv (cq : Fin 4) (xa : XReg) (xb : XReg) (sh : Fin 16) (sig : Bool)
  /-- R240. Writes one word of a shape register. -/
  | shape (sh : Fin 16) (k : Fin 4) (xa : XReg)
  /-- R259. Reads a word of the progress record of an operation of the context in a queue. -/
  | qstat (sel : QSel) (xd : XReg) (queue : Fin 8)
  /-- R261. Cancels the context's faulted, or oldest uncompleted, operation in a queue. -/
  | qcan (queue : Fin 8)
  /-- R260. Resumes the context's faulted operation in a queue from its progress point. -/
  | qrty (queue : Fin 8)
  /-- R283. Acquire, release or full ordering event of a given scope. -/
  | fence (kind : FenceKind) (scope : Scope)
  /-- R284. Joins the named queues so later operations wait for earlier ones. -/
  | qfence (mask : Fin 256)
  /-- R285. Arrives at a barrier, waits, and has the round's buffered stores merged. -/
  | harvest (xa : XReg)
  /-- R290. Atomically adds xb at the Square and returns the old value. -/
  | amoadd (dbl : Bool) (acq : Bool) (rel : Bool) (xd : XReg) (xa : XReg) (xb : XReg)
  /-- R290. Atomic AND at the Square. -/
  | amoand (dbl : Bool) (acq : Bool) (rel : Bool) (xd : XReg) (xa : XReg) (xb : XReg)
  /-- R290. Atomic OR at the Square. -/
  | amoor (dbl : Bool) (acq : Bool) (rel : Bool) (xd : XReg) (xa : XReg) (xb : XReg)
  /-- R290. Atomic XOR at the Square. -/
  | amoxor (dbl : Bool) (acq : Bool) (rel : Bool) (xd : XReg) (xa : XReg) (xb : XReg)
  /-- R290. Atomic signed minimum at the Square. -/
  | amomin (dbl : Bool) (acq : Bool) (rel : Bool) (xd : XReg) (xa : XReg) (xb : XReg)
  /-- R290. Atomic signed maximum at the Square. -/
  | amomax (dbl : Bool) (acq : Bool) (rel : Bool) (xd : XReg) (xa : XReg) (xb : XReg)
  /-- R290. Atomic unsigned minimum at the Square. -/
  | amominu (dbl : Bool) (acq : Bool) (rel : Bool) (xd : XReg) (xa : XReg) (xb : XReg)
  /-- R290. Atomic unsigned maximum at the Square. -/
  | amomaxu (dbl : Bool) (acq : Bool) (rel : Bool) (xd : XReg) (xa : XReg) (xb : XReg)
  /-- R290. Atomic swap at the Square. -/
  | amoswap (dbl : Bool) (acq : Bool) (rel : Bool) (xd : XReg) (xa : XReg) (xb : XReg)
  /-- R290. Atomic compare-and-swap at the Square with compare value from xd. -/
  | amocas (dbl : Bool) (acq : Bool) (rel : Bool) (xd : XReg) (xa : XReg) (xb : XReg)
  /-- R295. Floating atomic add, applied at once (.u) or in a sorted batch (.o), returning the old value. -/
  | amofadd (ord : Bool) (dbl : Bool) (cls : SqClass) (xd : XReg) (xa : XReg) (xb : XReg)
  /-- R294. Order-free floating atomic minimum returning the old value. -/
  | amofmin (dbl : Bool) (cls : SqClass) (xd : XReg) (xa : XReg) (xb : XReg)
  /-- R294. Order-free floating atomic maximum returning the old value. -/
  | amofmax (dbl : Bool) (cls : SqClass) (xd : XReg) (xa : XReg) (xb : XReg)
  /-- R295. Floating add at the Square with no return, unordered or batched. -/
  | redfadd (ord : Bool) (dbl : Bool) (cls : SqClass) (xa : XReg) (xb : XReg)
  /-- R301. Adds a floating value exactly into a bin cell. -/
  | binadd (dbl : Bool) (cls : SqClass) (xa : XReg) (xb : XReg)
  /-- R302. Returns a bin cell's rounded value and rewrites it in carried form. -/
  | binfold (dbl : Bool) (cls : SqClass) (xd : XReg) (xa : XReg)
  /-- R300. Initialises a bin cell with base exponent E0. -/
  | bininit (cls : SqClass) (xa : XReg) (xb : XReg)
  /-- R306. Rewrites a barrier object with EXP, clearing counts and keeping PHASE. -/
  | barinit (xa : XReg) (xb : XReg)
  /-- R307. Arrives at a barrier as a release and returns the phase counted into. -/
  | arrive (xd : XReg) (xa : XReg)
  /-- R308. Waits until a barrier's PHASE differs from xb, then writes LERR to qd. -/
  | bwait (qd : Fin 8) (xa : XReg) (xb : XReg)
  /-- R308. Arrives at a barrier and waits for the phase it counted into. -/
  | arrwt (qd : Fin 8) (xa : XReg)
  /-- R309. Adds expected transaction bytes to a barrier's PEND. -/
  | bexpect (xa : XReg) (xb : XReg)
  /-- R310. Waits until a crib or Square word satisfies a condition. -/
  | waitw (cond : WCond) (dbl : Bool) (qd : Fin 8) (xa : XReg) (xb : XReg)
  /-- R311. Makes every waiter on a granule test its condition once more. -/
  | wake (xa : XReg)
  /-- R325. Issues an all-gather collective from a descriptor. -/
  | xag (xq : Fin 8) (xa : XReg)
  /-- R325. Issues a reduce-scatter collective, ordered or unordered. -/
  | xrs (ord : Bool) (xq : Fin 8) (xa : XReg)
  /-- R325. Issues an all-reduce collective, ordered or unordered. -/
  | xar (ord : Bool) (xq : Fin 8) (xa : XReg)
  /-- R325. Issues a broadcast collective from the root rank. -/
  | xbc (xq : Fin 8) (xa : XReg)
  /-- R331. Binds the context's next collective's output to a consumer ring. -/
  | xsig (xq : Fin 8) (xa : XReg)
  /-- R324. Fills a group entry from a group descriptor and returns the die's rank. -/
  | xgrp (xd : XReg) (g : Fin 8) (xa : XReg)
  /-- R334. Writes 4 or 8 bytes to the same offset on every member of an aperture's group. -/
  | stmc (dbl : Bool) (xa : XReg) (xb : XReg)
  /-- R335. Reads a value on every member and reduces it into xd. -/
  | ldrd (ord : Bool) (op : RedOp2) (dbl : Bool) (xd : XReg) (xa : XReg)
  /-- R364. Submits a launch record from the crib and waits for its handle after CHECK. -/
  | launch (xd : XReg) (xa : XReg)
  /-- R365. Waits for a child launch to retire and returns its completion word. -/
  | lwait (xd : XReg) (xa : XReg)
  /-- R366. Tears down a child launch without waiting. -/
  | ltear (xa : XReg)
  /-- R367. Ends the context's issue turn. -/
  | yield
  /-- R368. Drains the context's queue entries and retires the task. -/
  | done
  /-- R369. Reads a launch coordinate, task index, shape or physical position. -/
  | getc (sel : Fin 8) (xd : XReg)
  /-- R370. Pre-empts the task at live-range entry n when a request is pending. -/
  | ckpt (n : Fin 65536)
  /-- R371. Waits until die time reaches xa. -/
  | twait (xa : XReg)
  /-- R372. Reads die time, frame counters, frame length or the sync word. -/
  | tget (sel : TgetSel) (xd : XReg)
  /-- R373. Sets the context's frame length and epoch, controller only. -/
  | frset (xa : XReg) (xb : XReg)
  /-- R386. Commits and then stops with SOFTWARE-TRAP carrying a code. -/
  | trap (code : Fin 1024)
  /-- R383. Resumes the context from its trap record, re-issuing uncompleted slots or delivering a pending fault. -/
  | eret
  /-- R387. Reads a system register into xd. -/
  | sysrd (xd : XReg) (srn : Fin 1024)
  /-- R387. Writes the allowed fields of a system register that has no row of its own. -/
  | syswr (srn : Fin 1024) (xa : XReg)
  /-- R386. Commits and then stops with BREAK, routed to the granger. -/
  | brk (code : Fin 1024)
  /-- R388. Removes translations of a page, address space or all, over a die, package or quarter, and waits. -/
  | tlbinv (kind : TlbKind) (reach : TlbReach) (xa : XReg) (xb : XReg)
  /-- R416. Reads an energy or governor value, or a class weight, as at the start of the cycle. -/
  | eget (sel : EgetSel) (xd : XReg) (xa : XReg)
  /-- R417. Sets the weight of an energy class on the die, controller only. -/
  | eset (cls : Fin 16) (xa : XReg)
  /-- R418. Takes a grant of ramp slots from the pool for the context. -/
  | gvhintRsv (xd : XReg) (xa : XReg)
  /-- R418. Returns the context's unspent gvhint grants to the pool. -/
  | gvhintRel
  /-- R430. Writes a software trace record when enabled. -/
  | trc (xa : XReg) (xb : XReg)
  /-- R431. Sets the memory tag of n granules and adds a tag history entry. -/
  | tagset (xa : XReg) (xb : XReg)
  /-- R432. Reads the tag of a granule. -/
  | taggetTag (xd : XReg) (xa : XReg)
  /-- R432. Reads a word of a page's tag history. -/
  | taggetHist (xd : XReg) (xa : XReg) (xb : XReg)
  /-- R433. Reads the wait-log tail, area, threshold or the context's last wait record. -/
  | wlrd (sel : WlrdSel) (xd : XReg) (xa : XReg)
  /-- R355. After 64 bundles or 8 ready cycles without issue, the next ready context becomes primary. -/
  | issueTurnEnd (c : CtxId)
  /-- R362. A stamped bundle issues when frcnt equals its stamp, or raises OVERRUN. -/
  | stampedBundleIssue (c : CtxId)
  /-- R202. A context takes a queued entry's fault before its next bundle, or ends its wait with the trap. -/
  | asyncFaultDelivery (c : CtxId)
  /-- R49. A divide waiting for a free divider issues when one frees. -/
  | dividerFree (c : CtxId)
  /-- R195. The B operand port stages the oldest present unstaged B tile and checks its records. -/
  | bTileStaging (p : CoreId)
  /-- R195. The array starts the pass of the oldest eligible entry, filling its A tile and checking its records. -/
  | passStart (p : CoreId)
  /-- R201. A pass's drain ends and its accumulator tile commits, setting the context's flags. -/
  | passCommit (p : CoreId) (miss : Fin 3)
  /-- R196. An operation performs its ring pops in issue order and retires. -/
  | matrixRetire (p : CoreId)
  /-- R203. A cancelled entry waits until its claimed tiles are present, then pops and retires. -/
  | cancelledEntryRetire (p : CoreId)
  /-- R209. A queued accz zeroes its tiles when the scoreboard allows. -/
  | acczExecute (p : CoreId)
  /-- R210. A queued accrd reads its block into vd when the scoreboard allows. -/
  | accrdExecute (p : CoreId)
  /-- R211. A queued accwr checks the tag and writes its block when the scoreboard allows. -/
  | accwrExecute (p : CoreId)
  /-- R191. An engine producer reserves a ring slot once one is free. -/
  | ringSlotReserve (p : CoreId) (r : Fin 16)
  /-- R223. The PPE starts the next ppq entry in issue order once the previous one ends. -/
  | ppeEntryStart (p : CoreId)
  /-- R229. An output tile of a store is scaled, transformed, quantised, written with records, and its flags set. -/
  | ppstTileComplete (p : CoreId)
  /-- R232. A tile is reconstructed from wavelet coefficients into spatial form with new records. -/
  | hrecTileComplete (p : CoreId)
  /-- R233. The PPE rewrites the DOM of the named records. -/
  | htagApply (p : CoreId)
  /-- R238. A copy operation starts once the one before it in its queue has completed or been cancelled. -/
  | copyOperationStart (p : CoreId) (q : Fin 4)
  /-- R245. The engine delivers the next 256-byte unit, sheaf, row, element or tile of an operation in shape order. -/
  | copyUnitDelivery (p : CoreId) (q : Fin 4)
  /-- R248. A bound operation reports delivered bytes to its barrier at least every 64 KiB. -/
  | copyBarrierReport (p : CoreId) (q : Fin 4)
  /-- R247. An operation completes, writes its signal and makes its final barrier report. -/
  | copyCompletion (p : CoreId) (q : Fin 4)
  /-- R290. The Square applies an atomic, bin, barrier or report request in its granule order. -/
  | squareRequestApply (c : CtxId)
  /-- R296. A closed batch of ordered floating adds is sorted and applied in consecutive granule positions. -/
  | orderedBatchApply (d : Nat)
  /-- R308. A waiter on a completed phase returns with LERR and acquires. -/
  | barrierWaitReturn (c : CtxId)
  /-- R312. A satisfied or woken waitw returns within 64 cycles. -/
  | waitwReturn (c : CtxId)
  /-- R212. mwait returns after the covered entries retire. -/
  | mwaitReturn (c : CtxId)
  /-- R214. rget.haddr or rget.taddr returns once a tile is present or a slot free. -/
  | rgetWaitReturn (c : CtxId)
  /-- R365. lwait returns the completion word after the child retires. -/
  | lwaitReturn (c : CtxId)
  /-- R371. twait returns once die time reaches its value. -/
  | twaitReturn (c : CtxId)
  /-- R368. After the context's entries complete, done closes its sets and frees the context. -/
  | doneDrainEnd (c : CtxId)
  /-- R322. A collective starts once the one before it in its xq has completed or been cancelled. -/
  | collectiveStart (d : Nat) (q : Fin 8)
  /-- R327. Once all members have issued their k-th collective, the engines exchange and compare headers. -/
  | collectiveHeaderMatch (d : Nat) (q : Fin 8)
  /-- R325. The engine writes a unit of the reduced, gathered or broadcast data to DST. -/
  | collectiveDataUnit (d : Nat) (q : Fin 8)
  /-- R331. A bound collective writes an output tile with records into the consumer ring and advances TAIL. -/
  | xsigTileDelivery (d : Nat) (q : Fin 8)
  /-- R330. A die's collective completes, writing its signal and barrier report and setting flags. -/
  | collectiveCompletion (d : Nat) (q : Fin 8)
  /-- R332. A member's qcan aborts the collective on every member, which take reason 45. -/
  | peerCancel (d : Nat) (q : Fin 8)
  /-- R334. A member applies a multicast write in the root switch's order, or refuses it. -/
  | stmcMemberWrite (c : CtxId) (m : Nat)
  /-- R334. The stmc entry leaves xiq when every member has applied it. -/
  | stmcAcknowledged (c : CtxId)
  /-- R335. The members' values return, are reduced and written to xd. -/
  | ldrdReturn (c : CtxId)
  /-- R317. A receiver finding a bad CRC or gap discards and asks for a resend from the replay buffer. -/
  | flitRetry (d : Nat) (port : Nat)
  /-- R318. A receiver pauses one virtual lane for want of room. -/
  | lanePause (d : Nat) (port : Nat) (lane : Fin 4)
  /-- R317. A path without delivery after 64 resends within 1 ms fails, stopping operations with reason 41. -/
  | fabricPathFailed (d : Nat) (port : Nat)
  /-- R344. The dispatcher latches an arriving record, allots a handle and checks it; the granger has installed an address-space number and a root table for it (R96). -/
  | launchRecordArrival (d : Nat) (asn : Nat) (root : Nat)
  /-- R343. Each aging interval a queued launch waits raises its effective priority by one. -/
  | agingInterval (h : Nat)
  /-- R345. A die grants or refuses a hold on its share for the home dispatcher. -/
  | holdRequest (h : Nat) (d : Nat) (spots : List CtxId)
  /-- R346. With holds granted and slots covering STEP, every task of the launch starts. -/
  | launchPlacement (h : Nat) (p : Placement)
  /-- R347. A pre-emption request unmet by its deadline is withdrawn. -/
  | preemptDeadline (c : CtxId)
  /-- R361. A pinned task starts its first bundle at EPOCH. -/
  | pinnedTaskStart (c : CtxId)
  /-- R348. After the drains, a pre-empted task's state is saved and its context freed. -/
  | contextSave (c : CtxId)
  /-- R349. The dispatcher restores a pre-empted task on a suitable core of its die. -/
  | taskResume (h : Nat) (t : Nat) (c : CtxId)
  /-- R351. A launch retires when its tasks are done and its non-detached children retired. -/
  | launchRetire (h : Nat)
  /-- R360. A precision time message disciplines die time's rate. -/
  | ptpSyncMessage (d : Nat) (m : PtpMsg)
  /-- R360. A die whose offset leaves 12 ns clears LOCK and goes on counting. -/
  | lockLoss (d : Nat)
  /-- R401. Every 64 cycles the dies sum energy, exchange estimates, pay rises, refill the pool and set ceilings and floors. -/
  | governorTick (p : Nat)
  /-- R403. A grant 256 ticks old returns its unspent remainder to the pool. -/
  | grantExpiry (d : Nat)
  /-- R423. At the end of each sample interval a sample record names the primary context. -/
  | traceSample (p : CoreId)
  /-- R389. The scrub reads every word within its period, correcting and counting errors. -/
  | patrolScrub (d : Nat) (place : Nat) (dbl : Bool)
  /-- R393. The granger increments HEARTBEAT every 1 ms. -/
  | heartbeat (d : Nat)
  /-- R394. The granger sees a new CTAIL and takes the next command. -/
  | commandRingPoll (d : Nat)
  /-- R394. Host command NOP returns STATUS 0. -/
  | hostNop (d : Nat)
  /-- R342. Host command places a launch record in a launch queue and returns its handle or refusal. -/
  | hostLaunch (d : Nat)
  /-- R352. Host command tears down a host launch. -/
  | hostTear (d : Nat)
  /-- R395. Samples the device's state into a host summary and invalidates host handles. -/
  | hostResync (d : Nat)
  /-- R397. Verifies a firmware image and writes it into the inactive bank. -/
  | hostFwstage (d : Nat)
  /-- R397. Makes the staged bank active from the next reset, optionally raising the fused SVN. -/
  | hostFwact (d : Nat)
  /-- R398. Writes a signed attestation report over the nonce and measurements. -/
  | hostAttest (d : Nat)
  /-- R394. Writes the identity certificate chain to host memory. -/
  | hostCert (d : Nat)
  /-- R394. CONFIG selector 2 sets the aging interval. -/
  | configGage (d : Nat)
  /-- R394. CONFIG selector 3 sets the pre-emption deadline. -/
  | configGdead (d : Nat)
  /-- R399. CONFIG selector 4 gives the die its quarter die number. -/
  | configGqdn (d : Nat)
  /-- R414. CONFIG selector 16 writes gramp. -/
  | configGramp (d : Nat)
  /-- R414. CONFIG selector 17 writes gpmax. -/
  | configGpmax (d : Nat)
  /-- R414. CONFIG selector 18 writes guncore. -/
  | configGuncore (d : Nat)
  /-- R420. CONFIG selector 32 sets the trace area. -/
  | configOtring (d : Nat)
  /-- R420. CONFIG selector 33 sets the wait-log area. -/
  | configOwring (d : Nat)
  /-- R420. CONFIG selector 34 sets the least logged wait. -/
  | configOwmin (d : Nat)
  /-- R400. Warm reset tears down all launches, stops engines, reloads firmware and restarts bring-up. -/
  | hostReset (d : Nat)
  /-- R399. Power-on reset establishes check bits and starts the boot stages. -/
  | powerOnReset
  /-- R399. A die finishes a bring-up stage and BOOTSTATE advances, or reads FAILED. -/
  | bootStageAdvance (d : Nat) (ok : Bool)
  /-- R376. gcmd 1 resumes the selected trapped context as eret does. -/
  | gcmdResume (c : CtxId)
  /-- R376. gcmd 2 ends the selected context's launch with STATUS 3 and a cause. -/
  | gcmdEnd (c : CtxId) (cause : Nat)
  /-- R376. gcmd 3 delivers the selected context's pending trap to its task handler. -/
  | gcmdForward (c : CtxId)
  /-- R87. A write of cview sets the swizzle and record granule, refusing GRAN 5 to 7. -/
  | cviewWrite (c : CtxId) (v : Word)
  /-- R403. A write of gramp changes the ramp bound and cuts the pool at once when CAP falls. -/
  | grampWrite (p : Nat) (v : Word)
  /-- R410. A controller write of an energy counter takes effect at the end of its cycle. -/
  | ecntWrite (c : CtxId) (v : Word)
  /-- R421. A write of otring sets the trace area and clears ottail. -/
  | otringWrite (d : Nat) (v : Word)
  /-- R421. A write of owring sets the wait-log area and clears owtail. -/
  | owringWrite (d : Nat) (v : Word)
  /-- R103. A load's value arrives from the barn, granary, Square space or translated memory and is written to its destination register, releasing waiting groups. -/
  | loadReturn (c : CtxId) (k : Nat)
  /-- R265. A write becomes visible on a die at its visibility instant, after the writes its vector clock names, and a crib store's bank write is made. -/
  | writePerformed (w : WriteStep)
  /-- R288. The granger finishes servicing a PAGE-FAULT routed to it from an engine, Square request or batch, sets SERVICED and lets the request resume or the task's trap be delivered. -/
  | faultServiced (f : Service)
  /-- R280. The granger extends the launch's harvest area, letting a store that found it full continue, or ends the launch if it cannot. -/
  | harvestAreaExtended (c : CtxId) (n : Nat)
  /-- R319. System software installs a switch group in the switches and a member view in each member die's collective engine. -/
  | switchGroupInstall (g : SwitchGroup)
  /-- R399. A fabric manager gives a die its quarter die number through lane 3 during bring-up. -/
  | quarterDieNumberMessage (d : Nat) (n : Fin 16)
  deriving DecidableEq, Repr

/-- The extension that an H.imm gives the instruction's immediate, if its form has one (R30, Table 2-8). -/
def Instr.ext : Instr → Option (Fin 2097152)
  | .nop => none
  | .add _ _ _ => none
  | .sub _ _ _ => none
  | .band _ _ _ => none
  | .bor _ _ _ => none
  | .bxor _ _ _ => none
  | .andn _ _ _ => none
  | .shl _ _ _ => none
  | .shr _ _ _ => none
  | .sar _ _ _ => none
  | .rot _ _ _ => none
  | .smin _ _ _ => none
  | .smax _ _ _ => none
  | .minu _ _ _ => none
  | .maxu _ _ _ => none
  | .mul _ _ _ => none
  | .mulh _ _ _ => none
  | .mulhu _ _ _ => none
  | .div _ _ _ => none
  | .divu _ _ _ => none
  | .rem _ _ _ => none
  | .remu _ _ _ => none
  | .clz _ _ => none
  | .ctz _ _ => none
  | .popc _ _ => none
  | .sext _ _ _ => none
  | .zext _ _ _ => none
  | .mov _ _ => none
  | .cmp _ _ _ _ => none
  | .bfx _ _ _ _ => none
  | .bfi _ _ _ _ => none
  | .addi _ _ i => i.ext
  | .andi _ _ i => i.ext
  | .ori _ _ i => i.ext
  | .xori _ _ i => i.ext
  | .shli _ _ _ => none
  | .shri _ _ _ => none
  | .sari _ _ _ => none
  | .roti _ _ _ => none
  | .cmpi _ _ _ i => i.ext
  | .li _ i => i.ext
  | .lio _ i => i.ext
  | .sel _ _ _ _ _ => none
  | .pand _ _ _ => none
  | .por _ _ _ => none
  | .pxor _ _ _ => none
  | .pandn _ _ _ => none
  | .pset _ _ => none
  | .pget _ _ => none
  | .br _ _ _ => none
  | .jmp _ => none
  | .call _ => none
  | .jr _ => none
  | .callr _ _ => none
  | .ret _ => none
  | .lpset _ _ _ => none
  | .lpseti _ _ _ => none
  | .lpstr _ _ _ => none
  | .lpbrk _ _ _ => none
  | .lprd _ _ _ => none
  | .lpwr _ _ _ => none
  | .ld _ _ _ i => i.ext
  | .st _ _ _ i => i.ext
  | .ldp _ _ _ _ i => i.ext
  | .qtst _ _ _ => none
  | .vadd _ _ _ _ _ => none
  | .vsub _ _ _ _ _ => none
  | .vmul _ _ _ _ _ => none
  | .vfma _ _ _ _ _ => none
  | .vfms _ _ _ _ _ => none
  | .vfnma _ _ _ _ _ => none
  | .vmin _ _ _ _ _ => none
  | .vmax _ _ _ _ _ => none
  | .vabs _ _ _ _ => none
  | .vneg _ _ _ _ => none
  | .vand _ _ _ _ _ => none
  | .vor _ _ _ _ _ => none
  | .vxor _ _ _ _ _ => none
  | .vandn _ _ _ _ _ => none
  | .vshl _ _ _ _ _ => none
  | .vshr _ _ _ _ _ => none
  | .vsar _ _ _ _ _ => none
  | .vcpy _ _ _ _ => none
  | .vcmp _ _ _ _ _ _ => none
  | .vsel _ _ _ _ _ => none
  | .vmand _ _ _ => none
  | .vmor _ _ _ => none
  | .vmnot _ _ => none
  | .vmcnt _ _ _ _ => none
  | .vmfst _ _ _ _ => none
  | .vbcast _ _ _ _ => none
  | .vins _ _ _ _ => none
  | .vext _ _ _ _ => none
  | .vred _ _ _ _ _ => none
  | .vscan _ _ _ _ _ => none
  | .vperm _ _ _ _ _ => none
  | .vshuf _ _ _ _ _ => none
  | .vslide _ _ _ _ _ => none
  | .vcomp _ _ _ _ _ => none
  | .vpart _ _ _ _ => none
  | .vgat _ _ _ _ _ => none
  | .vsct _ _ _ _ _ => none
  | .vld _ _ _ i => i.ext
  | .vst _ _ _ i => i.ext
  | .vldx _ _ _ _ _ => none
  | .vldt _ _ _ _ _ => none
  | .pkset _ _ => none
  | .vrcp _ _ _ _ _ => none
  | .vrsq _ _ _ _ _ => none
  | .vsqrt _ _ _ _ _ => none
  | .vexp2 _ _ _ _ _ => none
  | .vlog2 _ _ _ _ _ => none
  | .vtanh _ _ _ _ _ => none
  | .vsigm _ _ _ _ _ => none
  | .vgelu _ _ _ _ _ => none
  | .vsin _ _ _ _ _ => none
  | .vcos _ _ _ _ _ => none
  | .vrfn _ _ _ _ _ => none
  | .vcvt _ _ _ _ _ _ _ _ => none
  | .vqnt _ _ _ _ _ => none
  | .vdqnt _ _ _ _ _ => none
  | .vscl _ _ _ _ => none
  | .cbld _ _ => none
  | .cbq _ _ _ _ _ _ => none
  | .cbx _ _ _ _ _ _ => none
  | .dthset _ _ _ => none
  | .vpk _ _ _ _ => none
  | .vupk _ _ _ _ => none
  | .mma _ _ _ _ _ _ => none
  | .mmz _ _ _ _ _ _ => none
  | .pcw _ _ => none
  | .pcwr _ _ _ _ => none
  | .accz _ _ _ => none
  | .accrd _ _ _ _ => none
  | .accwr _ _ _ _ => none
  | .mwait _ => none
  | .rset _ _ _ => none
  | .rget i _ _ => i.ext
  | .rpush _ i => i.ext
  | .rpop _ i => i.ext
  | .ppst _ _ _ _ _ _ => none
  | .ppcfgWord _ _ _ => none
  | .ppcfgThreshold _ _ => none
  | .htag _ _ _ => none
  | .hrec _ _ _ => none
  | .hthr _ _ _ _ => none
  | .hfwd _ _ _ _ => none
  | .hinv _ _ _ _ => none
  | .cp _ _ _ _ _ => none
  | .cpt _ _ _ _ _ => none
  | .cpx _ _ _ _ _ => none
  | .cpg _ _ _ _ _ => none
  | .cps _ _ _ _ _ _ => none
  | .cpr _ _ _ _ _ _ => none
  | .cpsig _ _ _ => none
  | .tmv _ _ _ _ _ => none
  | .shape _ _ _ => none
  | .qstat _ _ _ => none
  | .qcan _ => none
  | .qrty _ => none
  | .fence _ _ => none
  | .qfence _ => none
  | .harvest _ => none
  | .amoadd _ _ _ _ _ _ => none
  | .amoand _ _ _ _ _ _ => none
  | .amoor _ _ _ _ _ _ => none
  | .amoxor _ _ _ _ _ _ => none
  | .amomin _ _ _ _ _ _ => none
  | .amomax _ _ _ _ _ _ => none
  | .amominu _ _ _ _ _ _ => none
  | .amomaxu _ _ _ _ _ _ => none
  | .amoswap _ _ _ _ _ _ => none
  | .amocas _ _ _ _ _ _ => none
  | .amofadd _ _ _ _ _ _ => none
  | .amofmin _ _ _ _ _ => none
  | .amofmax _ _ _ _ _ => none
  | .redfadd _ _ _ _ _ => none
  | .binadd _ _ _ _ => none
  | .binfold _ _ _ _ => none
  | .bininit _ _ _ => none
  | .barinit _ _ => none
  | .arrive _ _ => none
  | .bwait _ _ _ => none
  | .arrwt _ _ => none
  | .bexpect _ _ => none
  | .waitw _ _ _ _ _ => none
  | .wake _ => none
  | .xag _ _ => none
  | .xrs _ _ _ => none
  | .xar _ _ _ => none
  | .xbc _ _ => none
  | .xsig _ _ => none
  | .xgrp _ _ _ => none
  | .stmc _ _ _ => none
  | .ldrd _ _ _ _ _ => none
  | .launch _ _ => none
  | .lwait _ _ => none
  | .ltear _ => none
  | .yield => none
  | .done => none
  | .getc _ _ => none
  | .ckpt _ => none
  | .twait _ => none
  | .tget _ _ => none
  | .frset _ _ => none
  | .trap _ => none
  | .eret => none
  | .sysrd _ _ => none
  | .syswr _ _ => none
  | .brk _ => none
  | .tlbinv _ _ _ _ => none
  | .eget _ _ _ => none
  | .eset _ _ => none
  | .gvhintRsv _ _ => none
  | .gvhintRel => none
  | .trc _ _ => none
  | .tagset _ _ => none
  | .taggetTag _ _ => none
  | .taggetHist _ _ _ => none
  | .wlrd _ _ _ => none
  | .issueTurnEnd _ => none
  | .stampedBundleIssue _ => none
  | .asyncFaultDelivery _ => none
  | .dividerFree _ => none
  | .bTileStaging _ => none
  | .passStart _ => none
  | .passCommit _ _ => none
  | .matrixRetire _ => none
  | .cancelledEntryRetire _ => none
  | .acczExecute _ => none
  | .accrdExecute _ => none
  | .accwrExecute _ => none
  | .ringSlotReserve _ _ => none
  | .ppeEntryStart _ => none
  | .ppstTileComplete _ => none
  | .hrecTileComplete _ => none
  | .htagApply _ => none
  | .copyOperationStart _ _ => none
  | .copyUnitDelivery _ _ => none
  | .copyBarrierReport _ _ => none
  | .copyCompletion _ _ => none
  | .squareRequestApply _ => none
  | .orderedBatchApply _ => none
  | .barrierWaitReturn _ => none
  | .waitwReturn _ => none
  | .mwaitReturn _ => none
  | .rgetWaitReturn _ => none
  | .lwaitReturn _ => none
  | .twaitReturn _ => none
  | .doneDrainEnd _ => none
  | .collectiveStart _ _ => none
  | .collectiveHeaderMatch _ _ => none
  | .collectiveDataUnit _ _ => none
  | .xsigTileDelivery _ _ => none
  | .collectiveCompletion _ _ => none
  | .peerCancel _ _ => none
  | .stmcMemberWrite _ _ => none
  | .stmcAcknowledged _ => none
  | .ldrdReturn _ => none
  | .flitRetry _ _ => none
  | .lanePause _ _ _ => none
  | .fabricPathFailed _ _ => none
  | .launchRecordArrival _ _ _ => none
  | .agingInterval _ => none
  | .holdRequest _ _ _ => none
  | .launchPlacement _ _ => none
  | .preemptDeadline _ => none
  | .pinnedTaskStart _ => none
  | .contextSave _ => none
  | .taskResume _ _ _ => none
  | .launchRetire _ => none
  | .ptpSyncMessage _ _ => none
  | .lockLoss _ => none
  | .governorTick _ => none
  | .grantExpiry _ => none
  | .traceSample _ => none
  | .patrolScrub _ _ _ => none
  | .heartbeat _ => none
  | .commandRingPoll _ => none
  | .hostNop _ => none
  | .hostLaunch _ => none
  | .hostTear _ => none
  | .hostResync _ => none
  | .hostFwstage _ => none
  | .hostFwact _ => none
  | .hostAttest _ => none
  | .hostCert _ => none
  | .configGage _ => none
  | .configGdead _ => none
  | .configGqdn _ => none
  | .configGramp _ => none
  | .configGpmax _ => none
  | .configGuncore _ => none
  | .configOtring _ => none
  | .configOwring _ => none
  | .configOwmin _ => none
  | .hostReset _ => none
  | .powerOnReset => none
  | .bootStageAdvance _ _ => none
  | .gcmdResume _ => none
  | .gcmdEnd _ _ => none
  | .gcmdForward _ => none
  | .cviewWrite _ _ => none
  | .grampWrite _ _ => none
  | .ecntWrite _ _ => none
  | .otringWrite _ _ => none
  | .owringWrite _ _ => none
  | .loadReturn _ _ => none
  | .writePerformed _ => none
  | .faultServiced _ => none
  | .harvestAreaExtended _ _ => none
  | .switchGroupInstall _ => none
  | .quarterDieNumberMessage _ _ => none

/-- The iteration test of a slot qualifier (Table 2-6). -/
inductive IterSel where
  | every | first | last
  deriving DecidableEq, Repr

/-- A slot qualifier (R29, Table 2-6); `pred` 0 is no predicate. -/
structure Qual where
  pred : Fin 8
  neg : Bool
  iter : IterSel
  zero : Bool
  deriving DecidableEq, Repr

/-- The qualifier of a slot that an H.qual does not name: always true. -/
def Qual.none : Qual := ⟨0, false, .every, false⟩

/-- A header slot (Table 2-5). -/
inductive Header where
  /-- Qualifiers of slots 1 to 3 (R29). -/
  | qual (q1 q2 q3 : Qual)
  /-- Extends the immediate of slot `tgt` (R30). -/
  | imm (tgt : Fin 4) (ext : Fin 2097152)
  /-- Pins the bundle to a frame offset (R31). -/
  | stamp (n : Fin 8388608)
  deriving DecidableEq, Repr

end Sys2Proof
end

