-- ==== Sys2Proof/Machine/State.lean ====
section
/-! DEFINITION. The state of the machine as plain data: contexts, cores, dies, packages, launches and memory, with
every register the spec names, and the machine right after reset. The context, core and die in focus stand in fields
of their own; the others stand in lists keyed by position, and one that is absent from its list is as after reset. -/

namespace Sys2Proof.Machine

/-- Why a step stops the machine. -/
inductive Fault where
  /-- An operation names a die, core or context that the quarter does not have (R12). Raised by the operations without
  an encoding when their argument is out of range. Safe: the hardware has no such agent. -/
  | noSuchAgent
  deriving DecidableEq, Repr

/-- Why an instruction is refused. -/
inductive Refusal where
  /-- The instruction has no meaning in the model yet; raised by `exec` alone. Safe. -/
  | notModelled (mnemonic : String)
  deriving DecidableEq, Repr

/-- A register as the independence rule counts it (Table 2-2, R225): `pp` is a post-processing set, `sys` a system
register by number. -/
inductive RegId where
  | x (n : Fin 64)
  | q (n : Fin 8)
  | v (n : Fin 32)
  | m (n : Fin 8)
  | w (n : Fin 8)
  | cb (n : Fin 4)
  | pk (n : Fin 4)
  | sh (n : Fin 16)
  | ht (n : Fin 8)
  | lv (n : Fin 6)
  | pp (n : Fin 4)
  | sys (n : Nat)
  deriving DecidableEq, Repr

/-- A parameter window: base and size in bytes, size 0 when unbound (R104). -/
structure ParamWindow where
  base : Word
  size : Nat
  deriving DecidableEq, Repr

/-- One stride pair of a loop level (Table 3-8): its register, its stride, whether it exists, and the pending stride. -/
structure StridePair where
  reg : XReg
  stride : Word
  valid : Bool
  pending : Option Word
  deriving DecidableEq, Repr

/-- One hardware loop level (Table 3-8). -/
structure LoopLevel where
  act : Bool
  rem : Nat
  iter : Nat
  start : Word
  stop : Word
  pairs : Vector StridePair 4
  pendRem : Option Nat
  pendStart : Option Word
  pendStop : Option Word
  deriving DecidableEq, Repr

/-- The trap record (Table 15-1: tcause, tbundle, tslot, tdone, taddr, tinfo, tnext). -/
structure TrapRecord where
  cause : Word
  bundle : Word
  slot : Word
  done : Word
  addr : Word
  info : Word
  next : Word
  deriving DecidableEq, Repr

/-- A fault that waits for delivery (R202, R382): its cause and the address and detail of its record. -/
structure AsyncFault where
  cause : Nat
  addr : Word
  info : Word
  deriving DecidableEq, Repr

/-- A taken transfer that waits for the end of its group (R25): its target, whether it is marked as a return, and the
loop level that it ends with those above it, for `lpbrk` (R70). -/
structure Transfer where
  target : Word
  isRet : Bool
  breaks : Option (Fin 6)
  deriving DecidableEq, Repr

/-- A loop start that takes effect after its group (R67). -/
structure LoopStart where
  level : Fin 6
  count : Nat
  stop : Word
  deriving DecidableEq, Repr

/-- A write that the next group is the first to see (R39, R149, R377): a codebook among them, which `mma`, `vqnt` and
`vdqnt` read without the independence rule counting it. -/
inductive Deferred where
  | sys (srn : Nat) (v : Word)
  | dither (phase step : BitVec 8)
  | frame (len : Nat) (epoch : Word)
  | ring (n : Fin 16) (cfg side : Word)
  | book (n : Fin 4) (v : BitVec 256)
  deriving DecidableEq, Repr

/-- The part of an interrupted group that `eret` takes up again (R23, R379, R383). -/
structure SavedGroup where
  reads : List RegId
  writes : List RegId
  loopStart : Option LoopStart
  /-- A new dither state that waits for the end of the group (R149). -/
  dither : List Deferred
  /-- The slot of the interrupted bundle that it had reached, and whether a slot from there on ends the group (R22). -/
  slot : Nat
  closes : Bool
  /-- The slot whose observation stopped the bundle: its first re-issue passes over the observation (R427). -/
  exempt : Option Nat
  /-- Every slot of the bundle had committed, and the bundle was counted (R379, R420). -/
  through : Bool
  deriving DecidableEq, Repr

/-- What a group reads as it was before its first slot, where the group itself or an engine may change it (R6, R23, R149,
R416): the flags of cstat, the energy counter and the dither state. -/
structure GroupStart where
  cstat : Word
  ecnt : Nat
  phase : BitVec 8
  dstep : BitVec 8
  deriving DecidableEq, Repr

/-- A kind of wait (R354, Table 17-5) with its object. -/
inductive Wait where
  | word (a : Word)
  | barrier (kind : Nat) (a : Word)
  | child (h : Word)
  | time (t : Word)
  | ringHead (r : Fin 16)
  | ringTail (r : Fin 16)
  | queueFull (q : Nat)
  | matrix (mask : Nat)
  | doneDrain
  | launch (a : Word)
  | reduce
  | stamp (n : Nat)
  | divider
  | tick
  | invalidate
  | harvestArea
  /-- A pinned task waits for EPOCH (R361). -/
  | epoch
  deriving DecidableEq, Repr

/-- What a context is doing (R354). -/
inductive CtxStatus where
  /-- Holds no task. -/
  | free
  /-- Ready to issue. -/
  | ready
  /-- Waiting; a return event, or a retry of the slot, ends the wait. -/
  | waiting (w : Wait)
  /-- Trapped while the granger services a cause. -/
  | trapped
  /-- Draining before its pre-emption is saved, at a checkpoint's entry number (R348). -/
  | saving (n : Nat)
  /-- Restored to its core and about to go on (R349). -/
  | restoring
  deriving DecidableEq, Repr

/-- How the slot that just ran ended. -/
inductive SlotEnd where
  /-- It commits. -/
  | commit
  /-- It waits at issue and is tried again; nothing of it took place. -/
  | hold
  /-- It waits for an event that ends it. -/
  | wait
  /-- It stopped with a trap, whose record is written. -/
  | trapped
  /-- The context has no task any more, or leaves the core. -/
  | gone
  deriving DecidableEq, Repr

/-- Where a returning load's value goes (R101, R104, R106). -/
inductive LoadDest where
  /-- xd, the value's low bits of the width in bytes, sign-extended or not. -/
  | scalar (xd : XReg) (signed : Bool)
  /-- vt, with tag 0. -/
  | vector (vt : VReg)
  deriving DecidableEq, Repr

/-- One aligned word of a load still outstanding (R86, R264): the places of its bytes, those of them that the task's
harvest buffer held at issue (R277), and, once read, their values. -/
structure LoadWord where
  places : List Nat
  own : List Host.Cell
  got : Option (List Byte)
  deriving DecidableEq, Repr

/-- A load whose value has not returned (R103). `seq` is its place in the task's program order, `addr` its address. -/
structure PendingLoad where
  seq : Nat
  addr : Word
  dest : LoadDest
  words : List LoadWord
  /-- Zero bytes that follow the words: the part of a parameter load beyond the bound (R104). -/
  tail : Nat
  deriving DecidableEq, Repr

/-- A store, one aligned word of a vector store, or the tag change of one granule (R431), not yet performed (R265, R268,
R434). -/
structure PendingStore where
  seq : Nat
  cells : List Host.Cell
  deriving DecidableEq, Repr

/-- An ordering event whose condition the next access of the task still has to meet (R270, R283): the kind, the scope
and the program-order bound of the accesses it orders. -/
structure OrderPoint where
  kind : FenceKind
  scope : Scope
  seq : Nat
  deriving DecidableEq, Repr

/-- A write performed on its writer's die and not yet visible on every die that observes its home (R265 to R267).
The list of these is in coherence order. -/
structure Flight where
  id : Nat
  /-- The task whose store it is, and its place in program order; none for an engine or a unit of a die. -/
  writer : Option CtxId
  seq : Nat
  /-- Its causal predecessors still in flight (R267). -/
  preds : List Nat
  cells : List Host.Cell
  /-- The dies on which it is visible. -/
  seen : List Nat
  deriving DecidableEq, Repr

/-- The state of an operation of a queue (Table 10-6, STATE). -/
inductive OpState where
  | none | queued | running | faulted | done | cancelled
  deriving DecidableEq, Repr

/-- A progress record (R259, Table 10-6). -/
structure Progress where
  units : Nat
  opn : Nat
  cause : Nat
  state : OpState
  bytes : Nat
  faddr : Word
  deriving DecidableEq, Repr

/-- What a Square request does when it is applied (R290, R294, R295, R300 to R302, R306 to R309). -/
inductive SqOp where
  /-- Integer atomic: its operation number in Table 12-2, operand and compare value. -/
  | int (op : Nat) (v c : Word)
  /-- Unordered floating add, minimum or maximum: 0, 1, 2. -/
  | float (op : Nat) (v : Word)
  /-- Ordered floating add: accepted into a batch. -/
  | ordered (v : Word)
  | binAdd (v : Word)
  | binFold
  | binInit (v : Word)
  | barInit (v : Word)
  /-- Arrival: `harvest` contributes its buffer. -/
  | arrive (harvest : Bool)
  | expect (v : Word)
  deriving DecidableEq, Repr

/-- One entry of a Square request queue (R287). -/
structure SqRequest where
  op : SqOp
  dbl : Bool
  acq : Bool
  rel : Bool
  addr : Word
  /-- The place of its first byte. -/
  place : Nat
  /-- Where a returned value goes. -/
  xd : Option XReg
  /-- Program-order number, issue number, slot and bundle of the instruction. -/
  seq : Nat
  opn : Nat
  slot : Nat
  bundle : Word
  /-- Joins of `qfence` it waits for (R284). -/
  after : List (Nat × Nat)
  /-- Cause and reason of a fault that stopped it, and whether it was posted to the task (R288). -/
  fault : Option (Nat × Nat × Bool)
  deriving DecidableEq, Repr

/-- An ordered add accepted by a Square and not yet applied (R295). -/
structure OrderedAdd where
  who : CtxId
  launch : Nat
  task : Nat
  /-- Its number among the task's ordered requests, and its place in the task's program order. -/
  seq : Nat
  prog : Nat
  dbl : Bool
  addr : Word
  place : Nat
  v : Word
  xd : Option XReg
  opn : Nat
  slot : Nat
  bundle : Word
  /-- The issue number of the arrival whose phase batch it joins, once the task has issued one (Table 12-4). -/
  claim : Option Nat
  deriving DecidableEq, Repr

/-- A condition a context waits for on a word (R310). `hit` says that a test was true, or that a `wake` made a test
whose result it holds (R311). `fault` is the cause and reason of a fault that the Square found for it, and whether its
task has been told (R288). -/
structure WordWait where
  cond : WCond
  dbl : Bool
  qd : Fin 8
  place : Nat
  square : Bool
  other : Bool
  y : Word
  hit : Option Bool
  fault : Option (Nat × Nat × Bool)
  deriving DecidableEq, Repr

/-- A batch of ordered adds: what is left of it, the barrier whose phase it belongs to, whether it is closed, and the
fault that stopped it (R295, R296, R298). -/
structure Batch where
  adds : List OrderedAdd
  barrier : Option Nat
  closed : Bool
  fault : Option (Nat × Nat × Bool)
  deriving DecidableEq, Repr

/-- An arrival at a barrier, as it is counted or held until the next phase (R307): `err` says that it sets ERR, and `adds`
are the ordered adds that join the batch of the phase it is counted into (Table 12-4). -/
structure HeldArrival where
  place : Nat
  who : CtxId
  launch : Nat
  task : Nat
  harvest : Bool
  xd : Option XReg
  opn : Nat
  err : Bool
  adds : List OrderedAdd
  deriving DecidableEq, Repr

/-- The arrival that an `arrwt` or a `harvest` made: the bundle and slot of its instruction, its place in the Square
request queue, the barrier, the phase it was counted into, and the conflict record of its merge with its count (R279,
R308). -/
structure ArrivedAt where
  bundle : Word
  slot : Nat
  opn : Nat
  place : Nat
  phase : Option Nat
  conflict : Option (Word × Nat)
  deriving DecidableEq, Repr

/-- A task that arrived at a barrier by `harvest` in the current phase (R278). -/
structure Harvester where
  place : Nat
  launch : Nat
  task : Nat
  deriving DecidableEq, Repr

/-- A group entry g0 to g7 of a launch on a die (Table 13-1). -/
structure GroupEntry where
  swg : Nat
  abase : Nat
  asize : Nat
  rbase : Nat
  deriving DecidableEq, Repr

/-- An address lies in an entry's aperture (R321). -/
def GroupEntry.covers (g : GroupEntry) (a : Nat) : Bool := g.abase ≤ a && a < g.abase + g.asize

/-- The consumer ring of a bound collective (R331): the core and the ring. -/
structure RingBinding where
  core : CoreId
  ring : Fin 16
  deriving DecidableEq, Repr

/-- What an entry of a collective issue queue is (R322). -/
inductive XiOp where
  /-- A collective that has passed to its xq; its operation is found there by task and number. -/
  | passed (q : Fin 8)
  | bind (q : Fin 8) (v : Word)
  /-- A multicast write: the group entry, the offset, the bytes, and the members that have not applied it. -/
  | store (g : GroupEntry) (off : Nat) (bytes : List Byte) (left : List Nat)
  /-- A reducing load: the group entry, the offset, its form and operation, its format, its destination, and the values
  of the members that have read theirs (R335). -/
  | reduce (g : GroupEntry) (off : Nat) (ord : Bool) (op : RedOp2) (dbl : Bool) (xd : XReg) (got : List (Nat × Nat))
  deriving DecidableEq, Repr

/-- An entry of a collective issue queue. -/
structure XiEntry where
  op : XiOp
  opn : Nat
  slot : Nat
  seq : Nat
  /-- Joins of `qfence` it waits for (R284). -/
  after : List (Nat × Nat)
  /-- Its place in the order of its group's root switch, once a member has applied it, and the members that refused it
  (R334). -/
  rootNo : Option Nat
  refused : List Nat
  fault : Option (Nat × Nat × Word)
  /-- The places it has written on other dies, which its completion covers (R275). -/
  cast : List Nat
  deriving DecidableEq, Repr

/-- The kind of a collective (R325). -/
inductive XKind where
  | allGather | reduceScatter | allReduce | broadcast
  deriving DecidableEq, Repr

/-- A collective in an xq of a die (R322, R325). -/
structure XOp where
  who : CtxId
  launch : Nat
  task : Nat
  opn : Nat
  slot : Nat
  seq : Nat
  kind : XKind
  ord : Bool
  g : GroupEntry
  /-- Its place in the die's sequence on the switch group (R327). -/
  seqNo : Nat
  src : Nat
  dst : Nat
  /-- Bytes of its DST (R325). -/
  dlen : Nat
  ctl : Nat
  bsw : Nat
  bind : Option RingBinding
  asn : Nat
  root : Nat
  /-- The cycles of its issue and of its start (R428). -/
  issued : Nat
  since : Nat
  state : OpState
  /-- Its own side is checked (R328); the headers of all members agree (R327). -/
  checked : Bool
  matched : Bool
  units : Nat
  bytes : Nat
  reported : Nat
  reserved : Option Nat
  faddr : Nat
  cause : Nat
  reason : Nat
  told : Bool
  flags : Nat
  /-- Bytes of its source as they stood before it wrote over them in place (R325, R326), and before the task's own stores
  after the issue (R328). -/
  old : List Host.Cell
  late : List Host.Cell
  /-- The position of the last ring tile it finished (R191, R330), and whether its signal is written. -/
  lastPos : Option Nat
  signalled : Bool
  /-- KiB of its delivery charged (R411). -/
  kib : Nat
  /-- Joins of `qfence` it waits for (R284). -/
  after : List (Nat × Nat)
  deriving DecidableEq, Repr

/-- An element of an unordered `cpr` that has been translated and checked and is not yet applied (R255): its number, the
place of its target and its operands. -/
structure CheckedAtomic where
  elem : Nat
  target : Nat
  operands : List Byte
  deriving DecidableEq, Repr

/-- A command of the copy engine (Table 10-3). -/
inductive CopyKind where
  | cp | cpt | cpx | cpg | cps | cpr | cpsig | tmv
  deriving DecidableEq, Repr

/-- An operation of a copy queue with its latched operands and its progress (R241, R245, R259). -/
structure CopyOp where
  who : CtxId
  kind : CopyKind
  ord : Bool
  sig : Bool
  xa : Word
  xb : Word
  shape : Vector Word 4
  view : Word
  opn : Nat
  slot : Nat
  seq : Nat
  since : Nat
  state : OpState
  units : Nat
  bytes : Nat
  /-- Stream position of the source or destination, in bytes (R251, R252). -/
  pos : Nat
  reported : Nat
  reserved : Option Nat
  faddr : Word
  cause : Nat
  reason : Nat
  /-- Its fault has been posted to its task: a PAGE-FAULT goes to the granger first (R258). -/
  told : Bool
  /-- cstat flags gathered by the floating operators of `cpr` (R255). -/
  flags : Nat
  /-- Former bytes of places that it has written (R246), or its task has stored to since its issue (R238). -/
  old : List Host.Cell
  /-- The places that an unordered scatter has written, each with the row whose byte it holds, and the indices read and
  still needed, by row (R254). -/
  won : List (Nat × Nat)
  idx : List (Nat × Nat)
  /-- The group entries of its launch at its issue (R320), and the places on other dies written since its last completion
  event (R275). -/
  entries : List GroupEntry
  cast : List Nat
  /-- Number of its first free value (R254). -/
  free : Nat
  /-- Elements of an unordered `cpr` applied beyond the prefix that `units` counts (R255). -/
  applied : List Nat
  ahead : List CheckedAtomic
  /-- The position of the last ring tile it finished (R191), and whether its signal is written (R247). -/
  lastPos : Option Nat
  signalled : Bool
  /-- KiB of its delivery charged (R411). -/
  kib : Nat
  /-- Joins of `qfence` it waits for: earlier operations of other queues, by queue and issue number (R284). -/
  after : List (Nat × Nat)
  deriving DecidableEq, Repr

/-- An `mma`, or an `mmz` (`zero`), with all it latched: the first tile and the number of passes, the rings and the
positions claimed, whether it keeps its B tile, the precision control word, the codebooks and the tensor scales (R187,
R206). -/
structure MulArgs where
  zero : Bool
  acc : Nat
  np : Nat
  ra : Fin 16
  rb : Fin 16
  pa : Nat
  pb : Nat
  keep : Bool
  pcw : Word
  cba : BitVec 256
  cbb : BitVec 256
  tsa : Nat
  tsb : Nat
  deriving DecidableEq, Repr

/-- What a matrix-queue entry does (R194, R206, R209 to R211). -/
inductive MqOp where
  | mul (m : MulArgs)
  | zero (acc n : Nat) (tag : BitVec 3)
  | read (vd : VReg) (tile : Fin 16) (j : Nat)
  | write (tile : Fin 16) (v : VWord) (tag : BitVec 4) (j : Nat)
  deriving DecidableEq, Repr

/-- A tile as fetched: its bytes and its records, read once (R187, R200). -/
structure FetchedTile where
  bytes : List Byte
  records : List Nat
  deriving DecidableEq, Repr

/-- A tile being read (R187): the words and records read so far, each by its place among those of the tile with its
value, and how many steps may still pass before the last of them is read. -/
structure TileRead where
  got : List (Nat × Nat)
  left : Nat
  deriving DecidableEq, Repr

/-- A fault of a matrix-queue or post-processing entry (Table 8-4). -/
structure EntryFault where
  cause : Nat
  addr : Word
  btile : Bool
  sheaf : Nat
  pass : Nat
  /-- The mask of Table 8-4's DONE as it stood. -/
  doneMask : Nat
  deriving DecidableEq, Repr

/-- An entry of a core's matrix queue (R194). `ord` is its place in the issue order of the core's matrix and
post-processing entries (R197). -/
structure MqEntry where
  who : CtxId
  ord : Nat
  op : MqOp
  bundle : Word
  slot : Nat
  opn : Nat
  /-- Its place in its task's program order (R273), and the cycle of its last progress (R428). -/
  seq : Nat
  since : Nat
  /-- Its B tile once staged (R195). -/
  staged : Option FetchedTile
  /-- The A tiles of the passes started, in order, and each one's place among the passes the array has started (R184). -/
  fetched : List FetchedTile
  starts : List Nat
  /-- Its B tile while the operand port stages it, and the next A tile while the array fills (R187). -/
  bread : Option TileRead
  aread : Option TileRead
  committed : Nat
  fault : Option EntryFault
  cancelled : Bool
  after : List (Nat × Nat)
  deriving DecidableEq, Repr

/-- A B tile in the staging buffer (R207). -/
structure StagedTile where
  ring : Fin 16
  pos : Nat
  tile : FetchedTile
  deriving DecidableEq, Repr

/-- A `ppst` with all it latched (R226): the first tile and the tiles read, the ring or the crib address, the words of
its set, the thresholds, the codebook, the dither state and the serial number. -/
structure PpArgs where
  acc : Nat
  n : Nat
  ring : Option (Fin 16)
  addr : Nat
  words : Vector Word 3
  ht : Vector (BitVec 32) 8
  cb : BitVec 256
  phase : BitVec 8
  step : BitVec 8
  ser : Nat
  deriving DecidableEq, Repr

/-- What a post-processing entry does (R226, R232, R233). -/
inductive PpOp where
  | store (a : PpArgs)
  | rebuild (dst src n : Nat)
  | retag (first n : Nat) (tag : BitVec 4)
  deriving DecidableEq, Repr

/-- An entry of a core's post-processing queue (R223). -/
structure PpEntry where
  who : CtxId
  ord : Nat
  op : PpOp
  bundle : Word
  slot : Nat
  opn : Nat
  seq : Nat
  since : Nat
  started : Bool
  /-- Output tiles done. -/
  units : Nat
  reserved : Option Nat
  fault : Option EntryFault
  after : List (Nat × Nat)
  deriving DecidableEq, Repr

/-- A ring (Tables 8-1 to 8-3). `filled` lists the positions whose tile is written while an earlier reservation's is
not (R191). -/
structure Ring where
  cfg : Word
  side : Word
  head : Nat
  tail : Nat
  claim : Nat
  resv : Nat
  filled : List Nat
  /-- The identity of the agent whose pop last freed a slot, and the cycle in which the ring last stopped being full, for
  the records of R428. -/
  popper : Nat
  opened : Nat
  deriving DecidableEq, Repr

/-- The task a context runs: its launch, its coordinates and index (R19, R338), its code range (R63), its resources
(R38, R237) and its address space (R96). -/
structure Task where
  launch : Nat
  index : Nat
  t : Nat
  c : Nat
  k : Nat
  d : Nat
  stage : Nat
  shape : Nat
  codeBase : Word
  codeLen : Nat
  bale : Nat
  rmask : Nat
  amask : Nat
  cqm : Nat
  xqm : Nat
  asn : Nat
  root : Nat
  harea : Nat
  deriving DecidableEq, Repr

/-- The post-processing configuration sets (R224): three words each. -/
abbrev PpSets := Vector (Vector Word 3) 4

/-- The end of a wait, with its record, until its slot issues (R428): the wait, the cycle it began, its record and the cycles
waited. -/
structure OwedWait where
  wait : Wait
  start : Nat
  record : Vector Word 4
  cycles : Nat
  deriving DecidableEq, Repr

/-- One hardware context: its registers (Table 2-12), its system registers (Tables 15-1, 16-2, 17-1), its trap state
(R377 to R383), the bundle it issues, its outstanding accesses and its queues. -/
structure Ctx where
  /-- x0 to x63; x0 reads 0 through `getX`. -/
  x : Vector Word 64
  /-- q0 to q7; q0 reads true through `getQ`. -/
  q : Vector Bool 8
  v : Vector VWord 32
  vtag : Vector (BitVec 4) 32
  /-- m0 to m7; m0 reads all ones through `getM`. -/
  m : Vector MWord 8
  w : Vector Word 8
  /-- Writes of w registers not yet seen: register, word, and the bundle count from which it is seen (R39). -/
  wpend : List (Fin 8 × Word × Nat)
  cb : Vector (BitVec 256) 4
  pk : Vector Word 4
  sh : Vector (Vector Word 4) 16
  ht : Vector (BitVec 32) 8
  pw : Vector ParamWindow 4
  lv : Vector LoopLevel 6
  cstat : Word
  cview : Word
  pp : PpSets
  /-- Dither PHASE and STEP (R149). -/
  phase : BitVec 8
  dstep : BitVec 8
  /-- What the running group found, once it has begun (R23). -/
  gstart : Option GroupStart
  pc : Word
  /-- tvec, tscr0, tscr1 and the trap record (Table 15-1). -/
  tvec : Word
  tscr : Vector Word 2
  trap : TrapRecord
  /-- tstat INH and FWD; PEND is whether `pend` is not empty (Table 15-2). -/
  inh : Bool
  fwd : Bool
  pend : List AsyncFault
  /-- The bundle in issue: its four words, its done mask, the slot reached, and how the last slot ended. -/
  ib : Option (Vector SlotWord 4)
  done : BitVec 4
  slot : Nat
  slotEnd : SlotEnd
  /-- A taken transfer, a loop start or an `eret` that waits for the end of the group (R25). -/
  xfer : Option Transfer
  loopStart : Option LoopStart
  eretPend : Bool
  /-- The done mask and the decided successor with which an `eret` re-issues a bundle (R383). -/
  reissue : Option (BitVec 4 × Option Word)
  /-- A slot of the bundle that the observation of R425 and R426 passes over (R427). -/
  exempt : Option Nat
  /-- Registers read and written by the running group so far (R23). -/
  grpR : List RegId
  grpW : List RegId
  saved : Option SavedGroup
  defer : List Deferred
  /-- The bundle that transferred here, for the record of R63. -/
  from_ : Word
  /-- Bundles executed (R39). -/
  bundles : Nat
  ecnt : Nat
  /-- Charges of the running cycle, added at its end, and what a controller wrote in it, taken at its end (R410). -/
  echg : Nat
  eput : Option Nat
  obk : Vector Word 2
  owa : Vector Word 2
  frlen : Nat
  epoch : Word
  status : CtxStatus
  /-- Controller privilege (R375). -/
  ctrl : Bool
  task : Option Task
  /-- Program order of its accesses (R268). -/
  seq : Nat
  loads : List PendingLoad
  stores : List PendingStore
  points : List OrderPoint
  sq : List SqRequest
  ordSet : List OrderedAdd
  ordSeq : Nat
  xiq : List XiEntry
  /-- Issue numbers and last progress records by queue number (R76, R259). -/
  opn : Vector Nat 8
  lastOp : Vector Progress 8
  /-- Joins of `qfence`: the queues joined, and the operations to wait for by queue and number (R284). -/
  joins : List (Nat × List (Nat × Nat))
  /-- What the first `qtst` of the running bundle found of a queue: whether it is empty, has space, has a fault, and is done
  (R77). -/
  qsam : List (Nat × List Bool)
  wordWait : Option WordWait
  /-- Arrivals of `arrwt` and `harvest` that still have to return (R308). -/
  arrived : List ArrivedAt
  /-- The harvest buffer, and the address under which each of its bytes was last stored (R276, Table 11-4). -/
  hbuf : List Host.Cell
  haddr : List (Nat × Word)
  /-- Cycle at which the running wait began, and the most recent wait record (R428, R433). -/
  waitStart : Nat
  lastWait : Vector Word 4
  /-- A wait that has ended and begins again if what it waited for is gone when its slot is tried (R354, R428). -/
  owed : Option OwedWait
  /-- The identity whose action is to end the running wait, 0xffff for none so far (R428, SETTER). -/
  setter : Nat
  /-- A pre-emption request: the launch it makes room for, and the cycle of its deadline (R347). -/
  preq : Option (Nat × Nat)
  deriving DecidableEq, Repr

/-- Events of a core in the running cycle, added to its counters at the cycle's end (R410, R421). -/
structure Tally where
  obnd : Nat
  omrg : Nat
  ospl : Nat
  otrm : Nat
  oskr : Nat
  otag : Nat
  deriving DecidableEq, Repr

/-- One core: its rings, tiles, queues and engines (R13), its issue state (R355), and its counters (Tables 16-2,
17-1). -/
structure Core where
  rings : Vector Ring 16
  tileL : Vector (BitVec 3) 16
  mq : List MqEntry
  staged : List StagedTile
  ppq : List PpEntry
  cq : Vector (List CopyOp) 4
  /-- The next place in the issue order of R197, and among the passes the array starts (R184). -/
  ord : Nat
  passNo : Nat
  /-- The copy queue whose unit comes next in the round (R238). -/
  cqTurn : Nat
  /-- Work of its engines waits to the next governor tick (R406). -/
  held : Bool
  /-- Contexts whose divide holds a divider, at most two (R49). -/
  divBusy : List Nat
  /-- The primary context, bundles of its turn, and whether the turn ended (R355, R367). -/
  primary : Nat
  turn : Nat
  dry : Nat
  /-- The slots used in the last issue cycle, each with its lane groups; what a secondary may merge beside (R356). -/
  used : List (Nat × Instr × Nat)
  /-- The primary has had its turn in this cycle, whether it issued a slot in it, and the slots it committed in it. -/
  issued : Bool
  out : Bool
  own : List Nat
  /-- Static charge that the primary of the running cycle has been given (R412). -/
  paid : Nat
  tally : Tally
  /-- What a controller wrote to its counters in the running cycle, taken at its end (R410, R421). -/
  late : List (Nat × Word)
  /-- 0x050: the cycle count at which ocyc read 0. -/
  ocycBase : Int
  obnd : Word
  omrg : Word
  ospl : Word
  otrm : Word
  oskr : Word
  orst : Word
  oqst : Word
  othr : Word
  otag : Word
  otctl : Word
  /-- eidle as of a mark of the die's static sum; what has accrued since is the die's sum less the mark (R412). -/
  eidle : Nat
  eidleMark : Int
  ebal : Nat
  bcyc : Nat
  /-- Array charge of the running tick and of the tick before (R407). -/
  arrNow : Nat
  arrLast : Nat
  /-- Cycles of the running tick in which a pass used the array (R407). -/
  arrBusy : Nat
  /-- The cycle up to which samples have been taken (R423). -/
  sampleAt : Nat
  deriving DecidableEq, Repr

/-- A translation-buffer entry (R96, R99): who holds it (a core 0 to 96, 97 the collective engine, 128 + k the second
level of cluster k), the address space, the first address and size of its page, and its table entry. -/
structure TlbEntry where
  owner : Nat
  asn : Nat
  base : Nat
  size : Nat
  pte : Nat
  deriving DecidableEq, Repr

/-- A grant of ramp slots (R403, R404), in units of 1/194,560 mW. -/
structure Grant where
  owner : Option CtxId
  launch : Option Nat
  left : Nat
  /-- The cycle at which it expires; none while it is a reserve. -/
  expires : Option Nat
  deriving DecidableEq, Repr

/-- A piece of work that the governor admits (R406): what does it (0 a context's issue, 1 an array, 2 a post-processing
engine, 3 + q a copy queue, 7 + q a collective queue), and its context or core. -/
structure WorkId where
  kind : Nat
  c : CtxId
  deriving DecidableEq, Repr

/-- A launch record on its way into a die's dispatcher: its bytes, its queue, and the issuing context with the
address of its record, or the host's command tag. -/
structure Arrival where
  record : List Byte
  queue : Nat
  issuer : Option (CtxId × Word)
  deriving DecidableEq, Repr

/-- A member view of a switch group (R319): its number, its size, the die's rank and the root switch. -/
structure MemberView where
  swg : Nat
  n : Nat
  rank : Nat
  root : Nat
  deriving DecidableEq, Repr

/-- A bank of the package flash (R397): the image, and whether it is marked valid. -/
structure Bank where
  image : List Byte
  valid : Bool
  deriving DecidableEq, Repr

/-- One die: its system registers, governor agent, dispatcher, Square, collective engine, ports, time and control
window. -/
structure Die where
  gsel : Word
  gage : Nat
  gdead : Nat
  gqdn : Word
  gecc : Word
  estat : Nat
  guncore : Nat
  weights : Vector Nat 16
  /-- Weights set in this cycle, for charges from the next (R417). -/
  reweigh : List (Fin 16 × Nat)
  owmin : Nat
  otring : Word
  owring : Word
  ottail : Nat
  owtail : Nat
  /-- Energy charged in the running tick, in 1/16 pJ, and the estimate P_d of the last tick, in 1/194,560 mW (R401). -/
  etick : Nat
  pLast : Nat
  /-- What earlier values of `estat` and `guncore` in the running tick add to those of the present ones, in value times
  cycles (R401). -/
  estAdj : Int
  uncAdj : Int
  /-- Twice the ceiling set at the start of the tick, in 1/194,560 mW, and whether gpmax set it (R406). -/
  ceil2 : Nat
  byMax : Bool
  /-- Work that waited in the tick before, oldest first, and work that waits in this one (R406). -/
  heldOld : List WorkId
  heldNew : List WorkId
  /-- `gslot`, `gstat` and `estat` at the start of the cycle, from the first cycle that has passed (R416). -/
  gov0 : Option (Word × Word × Nat)
  /-- Static charge of one core over all cycles since power-on, less `estat` for each (R412): 0 until `estat` is
  written. -/
  staticSum : Int
  grants : List Grant
  thrt : Nat
  balt : Nat
  fmiss : Bool
  pmx : Bool
  throttled : Bool
  lq : Vector (List Nat) 32
  serial : Nat
  arrivals : List Arrival
  tlb : List TlbEntry
  backed : List Nat
  batches : List Batch
  heldArr : List HeldArrival
  harvesters : List Harvester
  xq : Vector (List XOp) 8
  swSeq : List (Nat × Nat)
  /-- Collectives that a member has cancelled, by switch group and number, still to end here (R332). -/
  dead : List (Nat × Nat)
  views : List MemberView
  /-- Ports: paused lanes (R318), the cycles of resends since a flit was last delivered, and the ports of failed paths
  (R317). -/
  paused : List (Nat × Nat)
  resends : List (Nat × List Nat)
  lost : List Nat
  /-- Die time less the time derived from the cycle count, in 2^-16 ns, as of a cycle, and its rate since then in ppm;
  lock, offset magnitude in ns, grandmaster (R359 to R372). -/
  timeOff : Int
  timeMark : Nat
  slew : Int
  lock : Bool
  offMag : Nat
  grand : Bool
  /-- Status page (Table 15-8). -/
  boot : Nat
  failcode : Nat
  heartbeat : Nat
  bank : Nat
  version : Nat
  svn : Nat
  digest : List Byte
  /-- Pointers page. -/
  ctail : Nat
  chead : Nat
  rtail : Nat
  rhead : Nat
  /-- The command taken and not yet answered: its 256 bytes. -/
  cmd : Option (List Byte)
  deriving DecidableEq, Repr

/-- One package: its ramp pool and bounds (R402, R403, R414), its fuses and its flash (R396, R397). -/
structure Package where
  pool : Nat
  rate : Nat
  burst : Nat
  pmax : Nat
  viol : Nat
  /-- Ticks done. -/
  tick : Nat
  keys : List (List Byte)
  revoked : List Nat
  minSvn : Nat
  banks : Vector Bank 2
  active : Nat
  deriving DecidableEq, Repr

/-- The state of a launch (Table 14-4). -/
inductive LaunchState where
  | check | queued | running | draining | retired
  deriving DecidableEq, Repr

/-- Where a task of a launch is. -/
inductive TaskPlace where
  | on (c : CtxId)
  | saved
  | done
  deriving DecidableEq, Repr

/-- Bytes and poisoned words as saved (R348, R390), by offset. -/
structure SavedBytes where
  cells : List Host.Cell
  poison : List Nat
  deriving DecidableEq, Repr

/-- A pre-empted task as saved (R348): its index, its die, its context, its copy operations by queue, its writes still in
flight, and the shared
state of its live-range entry: crib ranges, tiles with their tags, and rings with their records; and the side-bank ranges
of all its rings, which read 0 where it resumes alone (R349). -/
structure SavedTask where
  index : Nat
  die : Nat
  ctx : Ctx
  ops : List (Nat × CopyOp)
  writes : List Nat
  crib : SavedBytes
  tiles : List (Nat × BitVec 3 × SavedBytes)
  rings : List (Nat × Ring × SavedBytes)
  recs : List (Nat × Nat)
  deriving DecidableEq, Repr

/-- A launch (R337 to R353). -/
structure Launch where
  handle : Nat
  home : Nat
  record : List Byte
  /-- The image of its bale as the dispatcher checked it (R45 to R47). -/
  bale : List Byte
  state : LaunchState
  prio : Nat
  arrival : Nat
  /-- Aging intervals already counted. -/
  aged : Nat
  parent : Option Nat
  depth : Nat
  fromHost : Bool
  hostValid : Bool
  status : Nat
  cause : Nat
  tplace : Nat
  tend : Nat
  dropped : Nat
  preempt : Nat
  /-- The contexts that dies hold for it, by die position, in the order stage, cluster, core, context (R345). -/
  holds : List (Nat × List CtxId)
  /-- Tasks, by launch and index, whose pre-emption for it lapsed at its deadline (R347). -/
  spared : List (Nat × Nat)
  asn : Nat
  root : Nat
  /-- The harvest area and how many held bytes it has room for (R280). -/
  harea : Nat
  hcap : Nat
  tasks : List (Nat × TaskPlace)
  saved : List SavedTask
  groups : List (Nat × Nat × GroupEntry)
  deriving DecidableEq, Repr

/-- One turn of the machine, as `agenda` schedules it (log 4): an operation of an agent, the next slot of a core's
primary context, a slot of its secondary merged beside it, cycles that pass (log 5), the loss of an entry of a die's
translation buffers (R99), a parity error of a die's register files that the second copy corrects, or one in both copies
of a context's registers (R389), or a write of the host into a die's control window (R393). -/
inductive Turn where
  | event (i : Instr)
  | issue (p : CoreId)
  | merge (p : CoreId) (k : Fin 4)
  | idle (n : Nat)
  | drop (d k : Nat)
  | retry (d : Nat)
  | parity (c : CtxId)
  | host (d off : Nat) (bs : List Byte)
  | hostMem (a : Nat) (bs : List Byte)
  | flit (d port : Nat)
  deriving DecidableEq, Repr

/-- The machine. -/
structure State where
  /-- The bundle of the context in focus is being issued: its next slot runs in this cycle (R355). -/
  going : Bool
  /-- The context in focus; `ctx`, `core` and `die` are its context, its core and its die. -/
  foc : CtxId
  ctx : Ctx
  core : Core
  die : Die
  /-- The contexts, cores, dies and packages not in focus that differ from their state after reset. -/
  ctxs : List (CtxId × Ctx)
  cores : List (CoreId × Core)
  dies : List (Nat × Die)
  pkgs : List (Nat × Package)
  /-- Packages in the quarter (R15). -/
  npkg : Nat
  launches : List Launch
  /-- Switch groups installed in the switches (R319). -/
  groups : List SwitchGroup
  /-- Every byte of memory that is not 0, by place (log 3), in rising order. -/
  mem : List Host.Cell
  /-- Places of poisoned 8-byte words (R390). -/
  poison : List Nat
  /-- Tag history by place of the page's first byte, newest first (R431). -/
  hist : List (Nat × List (Word × Word))
  /-- Writes to HBM not yet visible everywhere, oldest in coherence order first (R265 to R267). -/
  flight : List Flight
  /-- Cycles since power-on (R1). -/
  cycle : Nat
  /-- The model's own: the number of the next free value, and the turns scheduled (log 4, log 5). -/
  fresh : Nat
  agenda : List Turn
  deriving DecidableEq, Repr

/-- A loop level at task start (R65). -/
def LoopLevel.init : LoopLevel :=
  { act := false, rem := 0, iter := 0, start := 0, stop := 0,
    pairs := Vector.replicate 4 ⟨0, 0, false, none⟩, pendRem := none, pendStart := none, pendStop := none }

/-- A progress record of a queue without an operation (R259). -/
def Progress.init : Progress :=
  { units := 0, opn := 0, cause := 0, state := .none, bytes := 0, faddr := 0 }

/-- A context as a task finds it (R36); `n` is its hardware number (Table 2-13, CTX), `ctrl` whether it is the
granger's. -/
def Ctx.init (n : Nat) (ctrl : Bool) : Ctx :=
  { x := Vector.replicate 64 0, q := (Vector.replicate 8 false).set 0 true, v := Vector.replicate 32 0,
    vtag := Vector.replicate 32 0, m := (Vector.replicate 8 0).set 0 (BitVec.allOnes 128), w := Vector.replicate 8 0,
    wpend := [], cb := Vector.replicate 4 0, pk := Vector.replicate 4 0,
    sh := Vector.replicate 16 (Vector.replicate 4 0), ht := Vector.replicate 8 0,
    pw := Vector.replicate 4 ⟨0, 0⟩, lv := Vector.replicate 6 LoopLevel.init,
    cstat := BitVec.ofNat 64 (n % 4 * 262144), cview := 0, pp := Vector.replicate 4 (Vector.replicate 3 0),
    phase := 0, dstep := 0, gstart := none, pc := 0, tvec := 0, tscr := Vector.replicate 2 0,
    trap := ⟨0, 0, 0, 0, 0, 0, 0⟩, inh := false, fwd := false, pend := [], ib := none, done := 0, slot := 0,
    slotEnd := .commit, xfer := none, loopStart := none, eretPend := false, reissue := none, exempt := none,
    grpR := [], grpW := [], saved := none, defer := [], from_ := 0, bundles := 0, ecnt := 0, echg := 0, eput := none,
    obk := Vector.replicate 2 0, owa := Vector.replicate 2 0, frlen := 0, epoch := 0, status := .free, ctrl := ctrl,
    task := none, seq := 0, loads := [], stores := [], points := [], sq := [], ordSet := [], ordSeq := 0, xiq := [],
    opn := Vector.replicate 8 0, lastOp := Vector.replicate 8 Progress.init, joins := [], qsam := [], wordWait := none,
    arrived := [], hbuf := [], haddr := [], waitStart := 0, lastWait := Vector.replicate 4 0, owed := none,
    setter := 65535, preq := none }

/-- A core after power-on (R188, R193, R399, R421). -/
def Core.init : Core :=
  { rings := Vector.replicate 16 ⟨0, 0, 0, 0, 0, 0, [], 65535, 0⟩, tileL := Vector.replicate 16 0, mq := [], staged := [],
    ppq := [], cq := Vector.replicate 4 [], ord := 0, passNo := 0, cqTurn := 0, held := false, divBusy := [], primary := 0, turn := 0, dry := 0, used := [],
    issued := false, out := false, own := [], paid := 0, tally := ⟨0, 0, 0, 0, 0, 0⟩, late := [],
    ocycBase := 0, obnd := 0, omrg := 0, ospl := 0, otrm := 0, oskr := 0, orst := 0, oqst := 0, othr := 0, otag := 0,
    otctl := 0, eidle := 0, eidleMark := 0, ebal := 0, bcyc := 0, arrNow := 0, arrLast := 0, arrBusy := 0, sampleAt := 0 }

/-- A die after power-on (R399; Tables 15-1, 16-1, 16-2, 17-1). -/
def Die.init : Die :=
  { gsel := 0, gage := 10000, gdead := 2000, gqdn := 0, gecc := 0, estat := 8000, guncore := 150000,
    weights := #v[16, 48, 16, 40, 96, 64, 128, 32, 64000, 6400, 4096, 131072, 256, 196608, 32, 32],
    reweigh := [],
    owmin := 0, otring := 0, owring := 0, ottail := 0, owtail := 0, etick := 0, pLast := 0, estAdj := 0, uncAdj := 0,
    ceil2 := 600000 * 194560, byMax := false, heldOld := [], heldNew := [], gov0 := none, staticSum := 0,
    grants := [], thrt := 0, balt := 0, fmiss := false, pmx := false, throttled := false,
    lq := Vector.replicate 32 [], serial := 0, arrivals := [], tlb := [], backed := [], batches := [], heldArr := [],
    harvesters := [], xq := Vector.replicate 8 [], swSeq := [], dead := [], views := [], paused := [], resends := [], lost := [],
    timeOff := 0, timeMark := 0, slew := 0, lock := false, offMag := 0, grand := false, boot := 0, failcode := 0, heartbeat := 0, bank := 0,
    version := 0, svn := 0, digest := [], ctail := 0, chead := 0, rtail := 0, rhead := 0, cmd := none }

/-- A package after power-on: the pool starts full (R402, R403, Tables 16-2, 16-3). Powers are in units of
1/194,560 mW, in which every quantity of R401 and R402 is whole. -/
def Package.init : Package :=
  { pool := 600000 * 194560, rate := 120, burst := 20, pmax := 2400, viol := 0, tick := 0, keys := [],
    revoked := [], minSvn := 0, banks := Vector.replicate 2 ⟨[], false⟩, active := 0 }

/-- The machine right after power-on reset (R399), before a bring-up stage is done (log 2 names the values the spec
does not give). -/
def State.reset : State :=
  { going := false, foc := ⟨0, 0, 0⟩, ctx := Ctx.init 0 false, core := Core.init, die := Die.init, ctxs := [], cores := [],
    dies := [], pkgs := [], npkg := 8, launches := [], groups := [], mem := [], poison := [], hist := [],
    flight := [], cycle := 0, fresh := 0, agenda := [] }

end Sys2Proof.Machine
end

