-- ==== Sys2Proof/Machine/Flags.lean ====
section
/-! DEFINITION. The context status register (R37, Table 2-13): its flags, its fields, the flags an operation gathers
and how they are set. -/

namespace Sys2Proof.Machine

/-- Sticky flags of cstat by bit number (Table 2-13). -/
def bitNV : Nat := 8
def bitDZ : Nat := 9
def bitOF : Nat := 10
def bitUF : Nat := 11
def bitNX : Nat := 12
def bitNFS : Nat := 13
def bitALS : Nat := 14
def bitSAT : Nat := 15
def bitPOOB : Nat := 16
def bitESAT : Nat := 17

/-- Flags gathered by one operation, each of them an OR over its lanes (R37, R116). -/
structure FlagSet where
  nv : Bool
  dz : Bool
  ov : Bool
  uf : Bool
  nx : Bool
  nfs : Bool
  als : Bool
  sat : Bool
  deriving DecidableEq, Repr

/-- No flag. -/
def FlagSet.none : FlagSet := ⟨false, false, false, false, false, false, false, false⟩

/-- The flags of two operations together. -/
def FlagSet.or (a b : FlagSet) : FlagSet :=
  ⟨a.nv || b.nv, a.dz || b.dz, a.ov || b.ov, a.uf || b.uf, a.nx || b.nx, a.nfs || b.nfs, a.als || b.als,
    a.sat || b.sat⟩

/-- The invalid flag alone. -/
def FlagSet.invalid : FlagSet := { FlagSet.none with nv := true }

/-- The flags as cstat bits (Table 2-13). -/
def FlagSet.bits (f : FlagSet) : Nat :=
  f.nv.toNat * 256 + f.dz.toNat * 512 + f.ov.toNat * 1024 + f.uf.toNat * 2048 + f.nx.toNat * 4096 +
    f.nfs.toNat * 8192 + f.als.toNat * 16384 + f.sat.toNat * 32768

/-- Sets flags in cstat: an OR that never clears (R37). -/
def orCstat (c : Word) (bits : Nat) : Word := c ||| BitVec.ofNat 64 bits

/-- cstat.RM (Table 2-13). -/
def rmOf (c : Word) : Nat := c.toNat % 4

/-- cstat.FPTE as a mask over NV, DZ, OF, UF, NX from bit 0 (Table 2-13). -/
def fpteOf (c : Word) : Nat := c.toNat / 67108864 % 32

/-- Whether an enabled floating exception is among the flags (R116): a set FPTE bit of a raised flag. -/
def FlagSet.trapped (f : FlagSet) (c : Word) : Bool :=
  (f.bits / 256 % 32) &&& fpteOf c != 0

/-- cstat.MODE: 0 free, 1 harvest-strict, 2 harvest-resolve. -/
def modeOf (c : Word) : Nat := c.toNat / 4194304 % 4

/-- cstat.PIN. -/
def pinOf (c : Word) : Bool := c.toNat / 2097152 % 2 == 1

/-- A write of cstat: the flags [17:8] clear on a 1 (R37, R387). -/
def clearFlags (old v : Word) : Word := old &&& ~~~(v &&& 0x3ff00)

/-- A write of cstat: FPTE and RM are written, the rest keeps its value (R37, R387). -/
def setModes (old v : Word) : Word := (old &&& ~~~(0x7c000003 : Word)) ||| (v &&& 0x7c000003)

/-- The cause codes of Table 15-3. -/
def causeIllegal : Nat := 0x01
def causeDependence : Nat := 0x02
def causePriv : Nat := 0x03
def causeUnbound : Nat := 0x04
def causeMisalign : Nat := 0x05
def causePageFault : Nat := 0x06
def causeAccess : Nat := 0x07
def causeTagMismatch : Nat := 0x08
def causeScaleSkew : Nat := 0x09
def causeDomain : Nat := 0x0a
def causeAlignLoss : Nat := 0x0b
def causePcwInvalid : Nat := 0x0c
def causeLoopShape : Nat := 0x0d
def causeOverrun : Nat := 0x0e
def causeRamp : Nat := 0x0f
def causeHarvest : Nat := 0x10
def causeArrayCheck : Nat := 0x11
def causeEcc : Nat := 0x12
def causeSoftware : Nat := 0x13
def causeBreak : Nat := 0x14
def causeWatch : Nat := 0x15
def causeEngine : Nat := 0x16
def causeRingConfig : Nat := 0x17
def causeFpTrap : Nat := 0x18
def causeLaunch : Nat := 0x19

/-- The three routes of R378. -/
inductive Route where
  | task | granger | grangerThenTask
  deriving DecidableEq, Repr

/-- The route of a cause (Table 15-3). -/
def routeOf (cause : Nat) : Route :=
  if cause = 0x06 ∨ cause = 0x14 ∨ cause = 0x15 then .granger
  else if cause = 0x11 ∨ cause = 0x12 then .grangerThenTask else .task

end Sys2Proof.Machine
end

