-- ==== Sys2Proof/Machine/Fp.lean ====
section
/-! DEFINITION. Floating-point arithmetic (R114 to R116, R121, R124, R144 to R146): values as exact dyadic numbers, one
rounding into a format, and the operations of IEEE 754 that the spec takes over, with their flags. -/

namespace Sys2Proof.Machine

/-- An IEEE binary format: its exponent and fraction widths. -/
structure FpFmt where
  ew : Nat
  mw : Nat
  deriving DecidableEq, Repr

def fmt32 : FpFmt := ⟨8, 23⟩
def fmtBf16 : FpFmt := ⟨8, 7⟩
def fmt16 : FpFmt := ⟨5, 10⟩
def fmt64 : FpFmt := ⟨11, 52⟩

/-- Bits of a format. -/
def FpFmt.bits (f : FpFmt) : Nat := 1 + f.ew + f.mw

/-- The exponent bias. -/
def FpFmt.bias (f : FpFmt) : Int := 2 ^ (f.ew - 1) - 1

/-- The exponent of the smallest normal. -/
def FpFmt.emin (f : FpFmt) : Int := 1 - f.bias

/-- Codes without a sign: infinity and the default NaN (R115). -/
def FpFmt.infCode (f : FpFmt) : Nat := (2 ^ f.ew - 1) * 2 ^ f.mw
def FpFmt.nanCode (f : FpFmt) : Nat := f.infCode + 2 ^ (f.mw - 1)

/-- A sign put on a code. -/
def FpFmt.signed (f : FpFmt) (neg : Bool) (code : Nat) : Nat := code + if neg then 2 ^ (f.ew + f.mw) else 0

/-- A value: NaN, signalling or quiet; infinity; or (-1)^neg x m x 2^e, where m = 0 is zero with its sign. -/
inductive FVal where
  | nan (signalling : Bool)
  | inf (neg : Bool)
  | num (neg : Bool) (m : Nat) (e : Int)
  deriving DecidableEq, Repr

/-- The value of a code of a format. -/
def FpFmt.decode (f : FpFmt) (code : Nat) : FVal :=
  let neg := code / 2 ^ (f.ew + f.mw) % 2 = 1
  let ex := code / 2 ^ f.mw % 2 ^ f.ew
  let fr := code % 2 ^ f.mw
  if ex = 2 ^ f.ew - 1 then (if fr = 0 then .inf neg else .nan (fr / 2 ^ (f.mw - 1) = 0))
  else if ex = 0 then .num neg fr (f.emin - f.mw)
  else .num neg (fr + 2 ^ f.mw) (ex - f.bias - f.mw)

/-- A rounded integer part: `m` shifted right by `sh` under a rounding mode (0 nearest even, 1 toward zero, 2 down,
3 up), for a value of a sign; and whether it was inexact (R114, R144). -/
def roundShift (rm : Nat) (neg : Bool) (m sh : Nat) : Nat × Bool :=
  let q := m / 2 ^ sh
  let r := m % 2 ^ sh
  let up :=
    if rm = 0 then 2 ^ sh < 2 * r ∨ (2 * r = 2 ^ sh ∧ q % 2 = 1 ∧ r ≠ 0)
    else if rm = 1 then False
    else if rm = 2 then neg = true ∧ r ≠ 0
    else neg = false ∧ r ≠ 0
  (if up then q + 1 else q, r != 0)

/-- `m x 2^e` in units of `2^q`, rounded. -/
def roundTo (rm : Nat) (neg : Bool) (m : Nat) (e q : Int) : Nat × Bool :=
  if q ≤ e then (m * 2 ^ (e - q).toNat, false) else roundShift rm neg m (q - e).toNat

/-- The largest finite code or infinity, as the mode has an overflow (R145). -/
def FpFmt.overflow (f : FpFmt) (rm : Nat) (neg : Bool) : Nat :=
  let toInf := rm = 0 ∨ (rm = 2 ∧ neg = true) ∨ (rm = 3 ∧ neg = false)
  f.signed neg (if toInf then f.infCode else f.infCode - 1)

/-- A non-zero exact value rounded once into a format, with its flags; tininess is detected after rounding (R114,
R116). -/
def FpFmt.round (f : FpFmt) (rm : Nat) (neg : Bool) (m : Nat) (e : Int) : Nat × FlagSet :=
  let top : Int := e + Nat.log2 m
  let qmin := f.emin - f.mw
  let q := max (top - f.mw) qmin
  let r := roundTo rm neg m e q
  let code := (q - qmin).toNat * 2 ^ f.mw + r.1
  if f.infCode ≤ code then
    (f.overflow rm neg, { FlagSet.none with ov := true, nx := true })
  else
    let free := roundTo rm neg m e (top - f.mw)
    let tiny := top < f.emin ∧ ¬(top + 1 = f.emin ∧ free.1 = 2 ^ (f.mw + 1))
    (f.signed neg code, { FlagSet.none with nx := r.2, uf := r.2 && decide tiny })

/-- A value as a code: rounded, with NaN the default NaN (R115). -/
def FpFmt.encode (f : FpFmt) (rm : Nat) : FVal → Nat × FlagSet
  | .nan _ => (f.nanCode, FlagSet.none)
  | .inf neg => (f.signed neg f.infCode, FlagSet.none)
  | .num neg m e => if m = 0 then (f.signed neg 0, FlagSet.none) else f.round rm neg m e

/-- A rounded result with the flags of a conversion in place of an operation's: it is tiny when the result itself lies
below the smallest normal (R145). -/
def FpFmt.asConverted (f : FpFmt) (r : Nat × FlagSet) : Nat × FlagSet :=
  (r.1, { r.2 with uf := r.2.nx && r.1 % 2 ^ (f.ew + f.mw) < 2 ^ f.mw })

/-- A code holds infinity or NaN (R116, NFS). -/
def FpFmt.nonFinite (f : FpFmt) (code : Nat) : Bool := code / 2 ^ f.mw % 2 ^ f.ew == 2 ^ f.ew - 1

/-- The result code with NFS set when it is not finite (R116). -/
def FpFmt.markNfs (f : FpFmt) (r : Nat × FlagSet) : Nat × FlagSet :=
  (r.1, { r.2 with nfs := r.2.nfs || f.nonFinite r.1 })

/-- A signed integer times `2^e` as a value, with the sign a zero takes. -/
def ofScaled (zeroNeg : Bool) (n : Int) (e : Int) : FVal :=
  if n = 0 then .num zeroNeg 0 0 else .num (n < 0) n.natAbs e

/-- The signed mantissa of a number. -/
def signedM (neg : Bool) (m : Nat) : Int := if neg then -(m : Int) else m

def FVal.isSnan : FVal → Bool
  | .nan s => s
  | _ => false

def FVal.isNan : FVal → Bool
  | .nan _ => true
  | _ => false

def FVal.neg : FVal → FVal
  | .nan s => .nan s
  | .inf n => .inf !n
  | .num n m e => .num (!n) m e

def FVal.abs : FVal → FVal
  | .nan s => .nan s
  | .inf _ => .inf false
  | .num _ m e => .num false m e

def FVal.isZero : FVal → Bool
  | .num _ m _ => m == 0
  | _ => false

def FVal.isNeg : FVal → Bool
  | .nan _ => false
  | .inf n => n
  | .num n _ _ => n

/-- The invalid flag for signalling operands (R115). -/
def snanFlag (vs : List FVal) : FlagSet := if vs.any FVal.isSnan then FlagSet.invalid else FlagSet.none

/-- The exact sum of two values under a mode, before rounding (R114): an exact zero of operands of opposite sign is +0,
or -0 rounding down. -/
def exactAdd (rm : Nat) (a b : FVal) : FVal × FlagSet :=
  match a, b with
  | .nan _, _ | _, .nan _ => (.nan false, snanFlag [a, b])
  | .inf x, .inf y => if x = y then (.inf x, FlagSet.none) else (.nan false, FlagSet.invalid)
  | .inf x, .num _ _ _ => (.inf x, FlagSet.none)
  | .num _ _ _, .inf y => (.inf y, FlagSet.none)
  | .num x m e, .num y n g =>
    let q := min e g
    let t := signedM x (m * 2 ^ (e - q).toNat) + signedM y (n * 2 ^ (g - q).toNat)
    let z := if x = y then x else rm = 2
    (ofScaled z t q, FlagSet.none)

/-- The exact product (R114). -/
def exactMul (a b : FVal) : FVal × FlagSet :=
  match a, b with
  | .nan _, _ | _, .nan _ => (.nan false, snanFlag [a, b])
  | .inf x, .inf y => (.inf (x != y), FlagSet.none)
  | .inf x, .num y m _ | .num y m _, .inf x => if m = 0 then (.nan false, FlagSet.invalid) else (.inf (x != y), FlagSet.none)
  | .num x m e, .num y n g => (.num (x != y) (m * n) (e + g), FlagSet.none)

/-- The exact value of a x b + d (R114, R120). A product of zero and infinity is invalid; with a quiet NaN addend IEEE
754 leaves the flag open (Config.fmaNanInvalid). -/
def exactFma (rm : Nat) (a b d : FVal) : FVal × FlagSet :=
  if a.isNan || b.isNan then (.nan false, snanFlag [a, b, d])
  else
    let p := exactMul a b
    match p.1 with
    | .nan _ =>
      if d.isNan then (.nan false, if d.isSnan || Config.fmaNanInvalid then FlagSet.invalid else FlagSet.none)
      else (.nan false, FlagSet.invalid)
    | v =>
      let r := exactAdd rm v d
      (r.1, r.2)

/-- An operation's exact value rounded into a format, all flags together (R114, R116). -/
def FpFmt.finish (f : FpFmt) (rm : Nat) (r : FVal × FlagSet) : Nat × FlagSet :=
  let c := f.encode rm r.1
  f.markNfs (c.1, c.2.or r.2)

def FpFmt.add (f : FpFmt) (rm a b : Nat) : Nat × FlagSet := f.finish rm (exactAdd rm (f.decode a) (f.decode b))
def FpFmt.mul (f : FpFmt) (rm a b : Nat) : Nat × FlagSet := f.finish rm (exactMul (f.decode a) (f.decode b))
def FpFmt.fma (f : FpFmt) (rm a b d : Nat) : Nat × FlagSet :=
  f.finish rm (exactFma rm (f.decode a) (f.decode b) (f.decode d))

/-- The order of two values that are not NaN: less, by value. -/
def FVal.lt (a b : FVal) : Bool :=
  match a, b with
  | .inf x, .inf y => x && !y
  | .inf x, _ => x
  | _, .inf y => !y
  | .num x m e, .num y n g =>
    let q := min e g
    signedM x (m * 2 ^ (e - q).toNat) < signedM y (n * 2 ^ (g - q).toNat)
  | _, _ => false

/-- Equal by value (R124). -/
def FVal.eqv (a b : FVal) : Bool := !a.isNan && !b.isNan && !a.lt b && !b.lt a

/-- The order of R121, in which -0 lies below +0. -/
def FVal.below (a b : FVal) : Bool := a.lt b || (a.isZero && b.isZero && a.isNeg && !b.isNeg)

/-- Minimum and maximum of codes (R121): a NaN yields to a number, two give the default NaN. -/
def FpFmt.minMax (f : FpFmt) (wantMax : Bool) (a b : Nat) : Nat × FlagSet :=
  let x := f.decode a
  let y := f.decode b
  let fl := snanFlag [x, y]
  f.markNfs (
    if x.isNan && y.isNan then (f.nanCode, fl)
    else if x.isNan then (b, fl)
    else if y.isNan then (a, fl)
    else if wantMax then (if x.below y then b else a, fl)
    else (if y.below x then b else a, fl))

/-- The integer square root, by bits. -/
def isqrtAux (n : Nat) : Nat → Nat → Nat
  | 0, r => r
  | k + 1, r =>
    let c := r + 2 ^ k
    isqrtAux n k (if c * c ≤ n then c else r)

def isqrt (n : Nat) : Nat := isqrtAux n (Nat.log2 n / 2 + 1) 0

/-- The square root of m x 2^e, as a dyadic with enough bits to round it correctly: the last bit is sticky. -/
def sqrtDyadic (m : Nat) (e : Int) (bits : Nat) : Nat × Int :=
  let k := 2 * bits + 4 + (if (e - (2 * bits + 4 : Nat)) % 2 = 0 then 0 else 1)
  let n := m * 2 ^ k
  let r := isqrt n
  (2 * r + (if r * r = n then 0 else 1), (e - k) / 2 - 1)

/-- The quotient of two dyadics with enough bits to round it correctly: the last bit is sticky. -/
def divDyadic (m : Nat) (e : Int) (n : Nat) (g : Int) (bits : Nat) : Nat × Int :=
  let k := bits + Nat.log2 n + 4
  let q := m * 2 ^ k / n
  (2 * q + (if m * 2 ^ k % n = 0 then 0 else 1), e - g - k - 1)

/-- An integer rounded into a format. -/
def FpFmt.ofInt (f : FpFmt) (rm : Nat) (n : Int) : Nat × FlagSet := f.finish rm (ofScaled false n 0, FlagSet.none)

/-- A code of one format as a code of another, rounded (R114); a signalling NaN sets NV. -/
def FpFmt.convert (f g : FpFmt) (rm code : Nat) : Nat × FlagSet :=
  let v := f.decode code
  g.finish rm (v, snanFlag [v])

end Sys2Proof.Machine
end

