-- ==== Sys2Proof/WellFormed.lean ====
section
/-! DEFINITION. Which instructions of the syntax are defined: the conditions on operands that R34 and the
instructions' own entries state beyond the layout of their fields. A word whose operands break one is an undefined
encoding. -/

namespace Sys2Proof

/-- A floating element type: the codes 0 to 2 (Table 2-9). -/
def ElTy.isFloat : ElTy → Bool
  | .f32 | .bf16 | .f16 => true
  | .i32 | .i16 | .i8 | .u32 | .u8 => false

/-- `q0` may not be negated (R58, R60, Table 3-9). -/
def predOk (q : Fin 8) (neg : Bool) : Bool := q != 0 || !neg

/-- The value of an immediate field read without sign, extended by an H.imm or not (R30). -/
def Imm.uval {m : Nat} (i : Imm m) : Nat := (i.ext.elim 0 Fin.val) * m + i.lo.val

/-- The value of an immediate field read with sign, extended by an H.imm or not (R30, Table 2-8). -/
def Imm.sval {m : Nat} (i : Imm m) : Int :=
  let w := if i.ext.isSome then m * 2097152 else m
  if 2 * i.uval < w then i.uval else (i.uval : Int) - w

/-- A push or pop count: 1 to 64 (R215). -/
def tileCountOk {m : Nat} (k : Imm m) : Bool := 1 ≤ k.uval && k.uval ≤ 64

/-- One sub-block of 32 lanes fills the width (R155). -/
def subBlockOk (et : ElTy) (w : Width) : Bool :=
  match et, w with
  | .f32, .w1024 | .bf16, .w512 | .f16, .w512 => true
  | _, _ => false

/-- A codebook format is no source or destination of `vcvt` (R153). -/
def Fmt.isCodebook : Fmt → Bool
  | .cb4 | .cb2 => true
  | _ => false

/-- A context of a quarter: a die position, a core or the granger, and a context number (R12). -/
def CtxId.ok (c : CtxId) : Bool := c.die < 16 && c.core ≤ 96 && c.ctx < 4

/-- A core of a quarter (R12). -/
def CoreId.ok (c : CoreId) : Bool := c.die < 16 && c.core ≤ 96

/-- The agent of a write step exists. -/
def WriteStep.ok : WriteStep → Bool
  | .perform c _ => c.ok
  | .reach _ d => d < 16

/-- The defined instructions: the operand conditions of each entry. An operation without an encoding is well formed
when the agent it names exists. -/
def Instr.wf : Instr → Bool
  | .bfx _ _ pos len => pos.val + len.val + 1 ≤ 64
  | .bfi _ _ pos len => pos.val + len.val + 1 ≤ 64
  | .sel _ qn neg _ _ => predOk qn neg
  | .br qn neg _ => predOk qn neg
  | .lpset _ _ endoff => endoff != 0
  | .lpseti _ _ endoff => endoff != 0
  | .lpbrk _ qn neg => predOk qn neg
  | .lpwr _ k _ => k != 1
  | .vshl et _ _ _ _ => !et.isFloat
  | .vshr et _ _ _ _ => !et.isFloat
  | .vsar et _ _ _ _ => !et.isFloat
  | .vpart et _ _ _ => !et.isFloat
  | .vrfn _ _ _ _ k => k.val ≤ 1
  | .vcvt src dst rnd _ dith _ _ _ => !src.isCodebook && !dst.isCodebook && (!dith || rnd == .rne)
  | .vqnt et w _ _ _ => subBlockOk et w
  | .vdqnt et w _ _ _ => subBlockOk et w
  | .vscl et _ _ _ => et.isFloat
  | .cbq _ et _ _ _ _ => et.isFloat
  | .cbx _ et _ _ _ _ => et.isFloat
  | .dthset _ xa wr => wr || xa == 0
  | .mma acc cnt _ _ _ _ => acc.val + cnt.val + 1 ≤ 16
  | .mmz acc cnt _ _ _ _ => acc.val + cnt.val + 1 ≤ 16
  | .pcwr _ _ _ fld => fld.val != 15
  | .accz acc cnt tag => acc.val + cnt.val + 1 ≤ 16 && tag.val ≤ 5
  | .rget k _ _ => k.uval ≤ 7
  | .rpush _ k => tileCountOk k
  | .rpop _ k => tileCountOk k
  | .ppst acc cnt xa ring toRing _ =>
    acc.val + cnt.val + 1 ≤ 16 && (if toRing then xa == 0 else ring == 0)
  | .ppcfgWord _ wd _ => wd != 3
  | .htag _ _ tag => tag.val % 8 ≤ 5
  | .hfwd _ vd _ _ => vd.val % 2 == 0
  | .hinv _ vd _ _ => vd.val % 2 == 0
  | .qfence mask => mask != 0
  | .amofadd ord _ cls _ _ _ => !(ord && cls == .pkg)
  | .redfadd ord _ cls _ _ => !(ord && cls == .pkg)
  | .eget k _ xa => k == .wgt || xa == 0
  | .wlrd k _ xa => k == .last || xa == 0
  | .nop => true
  | .add _ _ _ => true
  | .sub _ _ _ => true
  | .band _ _ _ => true
  | .bor _ _ _ => true
  | .bxor _ _ _ => true
  | .andn _ _ _ => true
  | .shl _ _ _ => true
  | .shr _ _ _ => true
  | .sar _ _ _ => true
  | .rot _ _ _ => true
  | .smin _ _ _ => true
  | .smax _ _ _ => true
  | .minu _ _ _ => true
  | .maxu _ _ _ => true
  | .mul _ _ _ => true
  | .mulh _ _ _ => true
  | .mulhu _ _ _ => true
  | .div _ _ _ => true
  | .divu _ _ _ => true
  | .rem _ _ _ => true
  | .remu _ _ _ => true
  | .clz _ _ => true
  | .ctz _ _ => true
  | .popc _ _ => true
  | .sext _ _ _ => true
  | .zext _ _ _ => true
  | .mov _ _ => true
  | .cmp _ _ _ _ => true
  | .addi _ _ _ => true
  | .andi _ _ _ => true
  | .ori _ _ _ => true
  | .xori _ _ _ => true
  | .shli _ _ _ => true
  | .shri _ _ _ => true
  | .sari _ _ _ => true
  | .roti _ _ _ => true
  | .cmpi _ _ _ _ => true
  | .li _ _ => true
  | .lio _ _ => true
  | .pand _ _ _ => true
  | .por _ _ _ => true
  | .pxor _ _ _ => true
  | .pandn _ _ _ => true
  | .pset _ _ => true
  | .pget _ _ => true
  | .jmp _ => true
  | .call _ => true
  | .jr _ => true
  | .callr _ _ => true
  | .ret _ => true
  | .lpstr _ _ _ => true
  | .lprd _ _ _ => true
  | .ld _ _ _ _ => true
  | .st _ _ _ _ => true
  | .ldp _ _ _ _ _ => true
  | .qtst _ _ _ => true
  | .vadd _ _ _ _ _ => true
  | .vsub _ _ _ _ _ => true
  | .vmul _ _ _ _ _ => true
  | .vfma _ _ _ _ _ => true
  | .vfms _ _ _ _ _ => true
  | .vfnma _ _ _ _ _ => true
  | .vmin _ _ _ _ _ => true
  | .vmax _ _ _ _ _ => true
  | .vabs _ _ _ _ => true
  | .vneg _ _ _ _ => true
  | .vand _ _ _ _ _ => true
  | .vor _ _ _ _ _ => true
  | .vxor _ _ _ _ _ => true
  | .vandn _ _ _ _ _ => true
  | .vcpy _ _ _ _ => true
  | .vcmp _ _ _ _ _ _ => true
  | .vsel _ _ _ _ _ => true
  | .vmand _ _ _ => true
  | .vmor _ _ _ => true
  | .vmnot _ _ => true
  | .vmcnt _ _ _ _ => true
  | .vmfst _ _ _ _ => true
  | .vbcast _ _ _ _ => true
  | .vins _ _ _ _ => true
  | .vext _ _ _ _ => true
  | .vred _ _ _ _ _ => true
  | .vscan _ _ _ _ _ => true
  | .vperm _ _ _ _ _ => true
  | .vshuf _ _ _ _ _ => true
  | .vslide _ _ _ _ _ => true
  | .vcomp _ _ _ _ _ => true
  | .vgat _ _ _ _ _ => true
  | .vsct _ _ _ _ _ => true
  | .vld _ _ _ _ => true
  | .vst _ _ _ _ => true
  | .vldx _ _ _ _ _ => true
  | .vldt _ _ _ _ _ => true
  | .pkset _ _ => true
  | .vrcp _ _ _ _ _ => true
  | .vrsq _ _ _ _ _ => true
  | .vsqrt _ _ _ _ _ => true
  | .vexp2 _ _ _ _ _ => true
  | .vlog2 _ _ _ _ _ => true
  | .vtanh _ _ _ _ _ => true
  | .vsigm _ _ _ _ _ => true
  | .vgelu _ _ _ _ _ => true
  | .vsin _ _ _ _ _ => true
  | .vcos _ _ _ _ _ => true
  | .cbld _ _ => true
  | .vpk _ _ _ _ => true
  | .vupk _ _ _ _ => true
  | .pcw _ _ => true
  | .accrd _ _ _ _ => true
  | .accwr _ _ _ _ => true
  | .mwait _ => true
  | .rset _ _ _ => true
  | .ppcfgThreshold _ _ => true
  | .hrec _ _ _ => true
  | .hthr _ _ _ _ => true
  | .cp _ _ _ _ _ => true
  | .cpt _ _ _ _ _ => true
  | .cpx _ _ _ _ _ => true
  | .cpg _ _ _ _ _ => true
  | .cps _ _ _ _ _ _ => true
  | .cpr _ _ _ _ _ _ => true
  | .cpsig _ _ _ => true
  | .tmv _ _ _ _ _ => true
  | .shape _ _ _ => true
  | .qstat _ _ _ => true
  | .qcan _ => true
  | .qrty _ => true
  | .fence _ _ => true
  | .harvest _ => true
  | .amoadd _ _ _ _ _ _ => true
  | .amoand _ _ _ _ _ _ => true
  | .amoor _ _ _ _ _ _ => true
  | .amoxor _ _ _ _ _ _ => true
  | .amomin _ _ _ _ _ _ => true
  | .amomax _ _ _ _ _ _ => true
  | .amominu _ _ _ _ _ _ => true
  | .amomaxu _ _ _ _ _ _ => true
  | .amoswap _ _ _ _ _ _ => true
  | .amocas _ _ _ _ _ _ => true
  | .amofmin _ _ _ _ _ => true
  | .amofmax _ _ _ _ _ => true
  | .binadd _ _ _ _ => true
  | .binfold _ _ _ _ => true
  | .bininit _ _ _ => true
  | .barinit _ _ => true
  | .arrive _ _ => true
  | .bwait _ _ _ => true
  | .arrwt _ _ => true
  | .bexpect _ _ => true
  | .waitw _ _ _ _ _ => true
  | .wake _ => true
  | .xag _ _ => true
  | .xrs _ _ _ => true
  | .xar _ _ _ => true
  | .xbc _ _ => true
  | .xsig _ _ => true
  | .xgrp _ _ _ => true
  | .stmc _ _ _ => true
  | .ldrd _ _ _ _ _ => true
  | .launch _ _ => true
  | .lwait _ _ => true
  | .ltear _ => true
  | .yield => true
  | .done => true
  | .getc _ _ => true
  | .ckpt _ => true
  | .twait _ => true
  | .tget _ _ => true
  | .frset _ _ => true
  | .trap _ => true
  | .eret => true
  | .sysrd _ _ => true
  | .syswr _ _ => true
  | .brk _ => true
  | .tlbinv _ _ _ _ => true
  | .eset _ _ => true
  | .gvhintRsv _ _ => true
  | .gvhintRel => true
  | .trc _ _ => true
  | .tagset _ _ => true
  | .taggetTag _ _ => true
  | .taggetHist _ _ _ => true
  | .issueTurnEnd c => c.ok
  | .stampedBundleIssue c => c.ok
  | .asyncFaultDelivery c => c.ok
  | .dividerFree c => c.ok
  | .bTileStaging p => p.ok
  | .passStart p => p.ok
  | .passCommit p _ => p.ok
  | .matrixRetire p => p.ok
  | .cancelledEntryRetire p => p.ok
  | .acczExecute p => p.ok
  | .accrdExecute p => p.ok
  | .accwrExecute p => p.ok
  | .ringSlotReserve p _ => p.ok
  | .ppeEntryStart p => p.ok
  | .ppstTileComplete p => p.ok
  | .hrecTileComplete p => p.ok
  | .htagApply p => p.ok
  | .copyOperationStart p _ => p.ok
  | .copyUnitDelivery p _ => p.ok
  | .copyBarrierReport p _ => p.ok
  | .copyCompletion p _ => p.ok
  | .squareRequestApply c => c.ok
  | .orderedBatchApply d => d < 16
  | .barrierWaitReturn c => c.ok
  | .waitwReturn c => c.ok
  | .mwaitReturn c => c.ok
  | .rgetWaitReturn c => c.ok
  | .lwaitReturn c => c.ok
  | .twaitReturn c => c.ok
  | .doneDrainEnd c => c.ok
  | .collectiveStart d _ => d < 16
  | .collectiveHeaderMatch d _ => d < 16
  | .collectiveDataUnit d _ => d < 16
  | .xsigTileDelivery d _ => d < 16
  | .collectiveCompletion d _ => d < 16
  | .peerCancel d _ => d < 16
  | .stmcMemberWrite c m => c.ok && m < 8208
  | .stmcAcknowledged c => c.ok
  | .ldrdReturn c => c.ok
  | .flitRetry d port => d < 16 && port < 18
  | .lanePause d port _ => d < 16 && port < 18
  | .fabricPathFailed d port => d < 16 && port < 18
  | .launchRecordArrival d asn _ => d < 16 && asn < 256
  | .agingInterval _ => true
  | .holdRequest _ d spots => d < 16 && spots.all CtxId.ok
  | .launchPlacement _ _ => true
  | .preemptDeadline c => c.ok
  | .pinnedTaskStart c => c.ok
  | .contextSave c => c.ok
  | .taskResume _ _ c => c.ok
  | .launchRetire _ => true
  | .ptpSyncMessage d _ => d < 16
  | .lockLoss d => d < 16
  | .governorTick p => p < 8
  | .grantExpiry d => d < 16
  | .traceSample p => p.ok
  | .patrolScrub d _ _ => d < 16
  | .heartbeat d => d < 16
  | .commandRingPoll d => d < 16
  | .hostNop d => d < 16
  | .hostLaunch d => d < 16
  | .hostTear d => d < 16
  | .hostResync d => d < 16
  | .hostFwstage d => d < 16
  | .hostFwact d => d < 16
  | .hostAttest d => d < 16
  | .hostCert d => d < 16
  | .configGage d => d < 16
  | .configGdead d => d < 16
  | .configGqdn d => d < 16
  | .configGramp d => d < 16
  | .configGpmax d => d < 16
  | .configGuncore d => d < 16
  | .configOtring d => d < 16
  | .configOwring d => d < 16
  | .configOwmin d => d < 16
  | .hostReset d => d < 16
  | .powerOnReset => true
  | .bootStageAdvance d _ => d < 16
  | .gcmdResume c => c.ok
  | .gcmdEnd c _ => c.ok
  | .gcmdForward c => c.ok
  | .cviewWrite c _ => c.ok
  | .grampWrite p _ => p < 8
  | .ecntWrite c _ => c.ok
  | .otringWrite d _ => d < 16
  | .owringWrite d _ => d < 16
  | .loadReturn c _ => c.ok
  | .writePerformed k => k.ok
  | .faultServiced f => f.who.ok
  | .harvestAreaExtended c _ => c.ok
  | .switchGroupInstall g => g.members.all fun m => m < 8208
  | .quarterDieNumberMessage d _ => d < 16

/-- A slot qualifier without the values that R29 leaves undefined whatever the slot holds. -/
def Qual.wf (q : Qual) : Bool :=
  predOk q.pred q.neg && !(q.zero && q.pred == 0 && q.iter == .every)

/-- A header without the values that Table 2-5 leaves undefined. -/
def Header.wf : Header → Bool
  | .qual a b c => a.wf && b.wf && c.wf
  | .imm tgt _ => tgt != 0
  | .stamp _ => true

end Sys2Proof
end

