-- ==== Sys2Proof/Decode.lean ====
section
/-! DEFINITION. Reading and writing instruction words (R21, R28 to R35, Tables 2-5 to 2-11). A word is a natural
number below 2^31: the slot word without its stop bit. Decoding is total; a word that is no instruction, or one whose
operands R34 and the instruction's own entry call undefined, gives none. -/

namespace Sys2Proof

/-- The encoded value of a `ExtSize` (R33). -/
def ExtSize.code : ExtSize → Nat
  | .b => 0
  | .h => 1
  | .w => 2

/-- The `ExtSize` of an encoded value; the values beyond the list are undefined (R33). -/
def ExtSize.ofCode : Nat → Option ExtSize
  | 0 => some .b
  | 1 => some .h
  | 2 => some .w
  | _ => none

@[simp] theorem ExtSize.ofCode_code (c : ExtSize) : ExtSize.ofCode c.code = some c := by cases c <;> rfl

theorem ExtSize.code_lt (c : ExtSize) : c.code < 3 := by cases c <;> decide

/-- The encoded value of a `Cond` (R33). -/
def Cond.code : Cond → Nat
  | .eq => 0
  | .ne => 1
  | .lt => 2
  | .ltu => 3
  | .le => 4
  | .leu => 5

/-- The `Cond` of an encoded value; the values beyond the list are undefined (R33). -/
def Cond.ofCode : Nat → Option Cond
  | 0 => some .eq
  | 1 => some .ne
  | 2 => some .lt
  | 3 => some .ltu
  | 4 => some .le
  | 5 => some .leu
  | _ => none

@[simp] theorem Cond.ofCode_code (c : Cond) : Cond.ofCode c.code = some c := by cases c <;> rfl

theorem Cond.code_lt (c : Cond) : c.code < 6 := by cases c <;> decide

/-- The encoded value of a `LdSize` (R33). -/
def LdSize.code : LdSize → Nat
  | .b => 0
  | .bu => 1
  | .h => 2
  | .hu => 3
  | .w => 4
  | .wu => 5
  | .d => 6

/-- The `LdSize` of an encoded value; the values beyond the list are undefined (R33). -/
def LdSize.ofCode : Nat → Option LdSize
  | 0 => some .b
  | 1 => some .bu
  | 2 => some .h
  | 3 => some .hu
  | 4 => some .w
  | 5 => some .wu
  | 6 => some .d
  | _ => none

@[simp] theorem LdSize.ofCode_code (c : LdSize) : LdSize.ofCode c.code = some c := by cases c <;> rfl

theorem LdSize.code_lt (c : LdSize) : c.code < 7 := by cases c <;> decide

/-- The encoded value of a `StSize` (R33). -/
def StSize.code : StSize → Nat
  | .b => 0
  | .h => 1
  | .w => 2
  | .d => 3

/-- The `StSize` of an encoded value; the values beyond the list are undefined (R33). -/
def StSize.ofCode : Nat → Option StSize
  | 0 => some .b
  | 1 => some .h
  | 2 => some .w
  | 3 => some .d
  | _ => none

@[simp] theorem StSize.ofCode_code (c : StSize) : StSize.ofCode c.code = some c := by cases c <;> rfl

theorem StSize.code_lt (c : StSize) : c.code < 4 := by cases c <;> decide

/-- The encoded value of a `QCond` (R33). -/
def QCond.code : QCond → Nat
  | .empty => 0
  | .space => 1
  | .fault => 2
  | .done => 3

/-- The `QCond` of an encoded value; the values beyond the list are undefined (R33). -/
def QCond.ofCode : Nat → Option QCond
  | 0 => some .empty
  | 1 => some .space
  | 2 => some .fault
  | 3 => some .done
  | _ => none

@[simp] theorem QCond.ofCode_code (c : QCond) : QCond.ofCode c.code = some c := by cases c <;> rfl

theorem QCond.code_lt (c : QCond) : c.code < 4 := by cases c <;> decide

/-- The encoded value of a `ElTy` (R33). -/
def ElTy.code : ElTy → Nat
  | .f32 => 0
  | .bf16 => 1
  | .f16 => 2
  | .i32 => 3
  | .i16 => 4
  | .i8 => 5
  | .u32 => 6
  | .u8 => 7

/-- The `ElTy` of an encoded value; the values beyond the list are undefined (R33). -/
def ElTy.ofCode : Nat → Option ElTy
  | 0 => some .f32
  | 1 => some .bf16
  | 2 => some .f16
  | 3 => some .i32
  | 4 => some .i16
  | 5 => some .i8
  | 6 => some .u32
  | 7 => some .u8
  | _ => none

@[simp] theorem ElTy.ofCode_code (c : ElTy) : ElTy.ofCode c.code = some c := by cases c <;> rfl

theorem ElTy.code_lt (c : ElTy) : c.code < 8 := by cases c <;> decide

/-- The encoded value of a `Width` (R33). -/
def Width.code : Width → Nat
  | .w256 => 0
  | .w512 => 1
  | .w1024 => 2

/-- The `Width` of an encoded value; the values beyond the list are undefined (R33). -/
def Width.ofCode : Nat → Option Width
  | 0 => some .w256
  | 1 => some .w512
  | 2 => some .w1024
  | _ => none

@[simp] theorem Width.ofCode_code (c : Width) : Width.ofCode c.code = some c := by cases c <;> rfl

theorem Width.code_lt (c : Width) : c.code < 3 := by cases c <;> decide

/-- The encoded value of a `VCond` (R33). -/
def VCond.code : VCond → Nat
  | .eq => 0
  | .ne => 1
  | .lt => 2
  | .le => 3

/-- The `VCond` of an encoded value; the values beyond the list are undefined (R33). -/
def VCond.ofCode : Nat → Option VCond
  | 0 => some .eq
  | 1 => some .ne
  | 2 => some .lt
  | 3 => some .le
  | _ => none

@[simp] theorem VCond.ofCode_code (c : VCond) : VCond.ofCode c.code = some c := by cases c <;> rfl

theorem VCond.code_lt (c : VCond) : c.code < 4 := by cases c <;> decide

/-- The encoded value of a `RedOp` (R33). -/
def RedOp.code : RedOp → Nat
  | .add => 0
  | .min => 1
  | .max => 2

/-- The `RedOp` of an encoded value; the values beyond the list are undefined (R33). -/
def RedOp.ofCode : Nat → Option RedOp
  | 0 => some .add
  | 1 => some .min
  | 2 => some .max
  | _ => none

@[simp] theorem RedOp.ofCode_code (c : RedOp) : RedOp.ofCode c.code = some c := by cases c <;> rfl

theorem RedOp.code_lt (c : RedOp) : c.code < 3 := by cases c <;> decide

/-- The encoded value of a `RedOp2` (R33). -/
def RedOp2.code : RedOp2 → Nat
  | .add => 0
  | .min => 1
  | .max => 2

/-- The `RedOp2` of an encoded value; the values beyond the list are undefined (R33). -/
def RedOp2.ofCode : Nat → Option RedOp2
  | 0 => some .add
  | 1 => some .min
  | 2 => some .max
  | _ => none

@[simp] theorem RedOp2.ofCode_code (c : RedOp2) : RedOp2.ofCode c.code = some c := by cases c <;> rfl

theorem RedOp2.code_lt (c : RedOp2) : c.code < 3 := by cases c <;> decide

/-- The encoded value of a `ShufPat` (R33). -/
def ShufPat.code : ShufPat → Nat
  | .p0 => 0
  | .p1 => 1
  | .p2 => 2
  | .p3 => 3
  | .p4 => 4
  | .p5 => 5

/-- The `ShufPat` of an encoded value; the values beyond the list are undefined (R33). -/
def ShufPat.ofCode : Nat → Option ShufPat
  | 0 => some .p0
  | 1 => some .p1
  | 2 => some .p2
  | 3 => some .p3
  | 4 => some .p4
  | 5 => some .p5
  | _ => none

@[simp] theorem ShufPat.ofCode_code (c : ShufPat) : ShufPat.ofCode c.code = some c := by cases c <;> rfl

theorem ShufPat.code_lt (c : ShufPat) : c.code < 6 := by cases c <;> decide

/-- The encoded value of a `FpTy` (R33). -/
def FpTy.code : FpTy → Nat
  | .f32 => 0
  | .bf16 => 1
  | .f16 => 2

/-- The `FpTy` of an encoded value; the values beyond the list are undefined (R33). -/
def FpTy.ofCode : Nat → Option FpTy
  | 0 => some .f32
  | 1 => some .bf16
  | 2 => some .f16
  | _ => none

@[simp] theorem FpTy.ofCode_code (c : FpTy) : FpTy.ofCode c.code = some c := by cases c <;> rfl

theorem FpTy.code_lt (c : FpTy) : c.code < 3 := by cases c <;> decide

/-- The encoded value of a `Fmt` (R33). -/
def Fmt.code : Fmt → Nat
  | .bf16 => 0
  | .fp16 => 1
  | .e4m3 => 2
  | .e5m2 => 3
  | .e3m2 => 4
  | .e2m3 => 5
  | .e2m1 => 6
  | .int8 => 7
  | .int4 => 8
  | .int2 => 9
  | .cb4 => 10
  | .cb2 => 11
  | .uint8 => 12
  | .e3m4 => 13
  | .int16 => 14
  | .fp32 => 15

/-- The `Fmt` of an encoded value; the values beyond the list are undefined (R33). -/
def Fmt.ofCode : Nat → Option Fmt
  | 0 => some .bf16
  | 1 => some .fp16
  | 2 => some .e4m3
  | 3 => some .e5m2
  | 4 => some .e3m2
  | 5 => some .e2m3
  | 6 => some .e2m1
  | 7 => some .int8
  | 8 => some .int4
  | 9 => some .int2
  | 10 => some .cb4
  | 11 => some .cb2
  | 12 => some .uint8
  | 13 => some .e3m4
  | 14 => some .int16
  | 15 => some .fp32
  | _ => none

@[simp] theorem Fmt.ofCode_code (c : Fmt) : Fmt.ofCode c.code = some c := by cases c <;> rfl

theorem Fmt.code_lt (c : Fmt) : c.code < 16 := by cases c <;> decide

/-- The encoded value of a `Rnd` (R33). -/
def Rnd.code : Rnd → Nat
  | .rne => 0
  | .rz => 1
  | .rd => 2
  | .ru => 3

/-- The `Rnd` of an encoded value; the values beyond the list are undefined (R33). -/
def Rnd.ofCode : Nat → Option Rnd
  | 0 => some .rne
  | 1 => some .rz
  | 2 => some .rd
  | 3 => some .ru
  | _ => none

@[simp] theorem Rnd.ofCode_code (c : Rnd) : Rnd.ofCode c.code = some c := by cases c <;> rfl

theorem Rnd.code_lt (c : Rnd) : c.code < 4 := by cases c <;> decide

/-- The encoded value of a `QSel` (R33). -/
def QSel.code : QSel → Nat
  | .word => 0
  | .bytes => 1
  | .faddr => 2

/-- The `QSel` of an encoded value; the values beyond the list are undefined (R33). -/
def QSel.ofCode : Nat → Option QSel
  | 0 => some .word
  | 1 => some .bytes
  | 2 => some .faddr
  | _ => none

@[simp] theorem QSel.ofCode_code (c : QSel) : QSel.ofCode c.code = some c := by cases c <;> rfl

theorem QSel.code_lt (c : QSel) : c.code < 3 := by cases c <;> decide

/-- The encoded value of a `FenceKind` (R33). -/
def FenceKind.code : FenceKind → Nat
  | .acq => 0
  | .rel => 1
  | .full => 2

/-- The `FenceKind` of an encoded value; the values beyond the list are undefined (R33). -/
def FenceKind.ofCode : Nat → Option FenceKind
  | 0 => some .acq
  | 1 => some .rel
  | 2 => some .full
  | _ => none

@[simp] theorem FenceKind.ofCode_code (c : FenceKind) : FenceKind.ofCode c.code = some c := by cases c <;> rfl

theorem FenceKind.code_lt (c : FenceKind) : c.code < 3 := by cases c <;> decide

/-- The encoded value of a `Scope` (R33). -/
def Scope.code : Scope → Nat
  | .core => 0
  | .clus => 1
  | .die => 2
  | .pkg => 3
  | .qtr => 4

/-- The `Scope` of an encoded value; the values beyond the list are undefined (R33). -/
def Scope.ofCode : Nat → Option Scope
  | 0 => some .core
  | 1 => some .clus
  | 2 => some .die
  | 3 => some .pkg
  | 4 => some .qtr
  | _ => none

@[simp] theorem Scope.ofCode_code (c : Scope) : Scope.ofCode c.code = some c := by cases c <;> rfl

theorem Scope.code_lt (c : Scope) : c.code < 5 := by cases c <;> decide

/-- The encoded value of a `SqClass` (R33). -/
def SqClass.code : SqClass → Nat
  | .die => 0
  | .pkg => 1

/-- The `SqClass` of an encoded value; the values beyond the list are undefined (R33). -/
def SqClass.ofCode : Nat → Option SqClass
  | 0 => some .die
  | 1 => some .pkg
  | _ => none

@[simp] theorem SqClass.ofCode_code (c : SqClass) : SqClass.ofCode c.code = some c := by cases c <;> rfl

theorem SqClass.code_lt (c : SqClass) : c.code < 2 := by cases c <;> decide

/-- The encoded value of a `WCond` (R33). -/
def WCond.code : WCond → Nat
  | .eq => 0
  | .ne => 1
  | .ltu => 2
  | .geu => 3
  | .lt => 4
  | .ge => 5

/-- The `WCond` of an encoded value; the values beyond the list are undefined (R33). -/
def WCond.ofCode : Nat → Option WCond
  | 0 => some .eq
  | 1 => some .ne
  | 2 => some .ltu
  | 3 => some .geu
  | 4 => some .lt
  | 5 => some .ge
  | _ => none

@[simp] theorem WCond.ofCode_code (c : WCond) : WCond.ofCode c.code = some c := by cases c <;> rfl

theorem WCond.code_lt (c : WCond) : c.code < 6 := by cases c <;> decide

/-- The encoded value of a `TgetSel` (R33). -/
def TgetSel.code : TgetSel → Nat
  | .dtime => 0
  | .frcnt => 1
  | .frnum => 2
  | .frlen => 3
  | .sync => 4

/-- The `TgetSel` of an encoded value; the values beyond the list are undefined (R33). -/
def TgetSel.ofCode : Nat → Option TgetSel
  | 0 => some .dtime
  | 1 => some .frcnt
  | 2 => some .frnum
  | 3 => some .frlen
  | 4 => some .sync
  | _ => none

@[simp] theorem TgetSel.ofCode_code (c : TgetSel) : TgetSel.ofCode c.code = some c := by cases c <;> rfl

theorem TgetSel.code_lt (c : TgetSel) : c.code < 5 := by cases c <;> decide

/-- The encoded value of a `TlbKind` (R33). -/
def TlbKind.code : TlbKind → Nat
  | .page => 0
  | .as_ => 1
  | .all => 2

/-- The `TlbKind` of an encoded value; the values beyond the list are undefined (R33). -/
def TlbKind.ofCode : Nat → Option TlbKind
  | 0 => some .page
  | 1 => some .as_
  | 2 => some .all
  | _ => none

@[simp] theorem TlbKind.ofCode_code (c : TlbKind) : TlbKind.ofCode c.code = some c := by cases c <;> rfl

theorem TlbKind.code_lt (c : TlbKind) : c.code < 3 := by cases c <;> decide

/-- The encoded value of a `TlbReach` (R33). -/
def TlbReach.code : TlbReach → Nat
  | .die => 0
  | .pkg => 1
  | .qtr => 2

/-- The `TlbReach` of an encoded value; the values beyond the list are undefined (R33). -/
def TlbReach.ofCode : Nat → Option TlbReach
  | 0 => some .die
  | 1 => some .pkg
  | 2 => some .qtr
  | _ => none

@[simp] theorem TlbReach.ofCode_code (c : TlbReach) : TlbReach.ofCode c.code = some c := by cases c <;> rfl

theorem TlbReach.code_lt (c : TlbReach) : c.code < 3 := by cases c <;> decide

/-- The encoded value of a `EgetSel` (R33). -/
def EgetSel.code : EgetSel → Nat
  | .ecnt => 0
  | .eidle => 1
  | .ebal => 2
  | .bcyc => 3
  | .gest => 4
  | .gslot => 5
  | .gstat => 6
  | .wgt => 7
  | .estat => 8

/-- The `EgetSel` of an encoded value; the values beyond the list are undefined (R33). -/
def EgetSel.ofCode : Nat → Option EgetSel
  | 0 => some .ecnt
  | 1 => some .eidle
  | 2 => some .ebal
  | 3 => some .bcyc
  | 4 => some .gest
  | 5 => some .gslot
  | 6 => some .gstat
  | 7 => some .wgt
  | 8 => some .estat
  | _ => none

@[simp] theorem EgetSel.ofCode_code (c : EgetSel) : EgetSel.ofCode c.code = some c := by cases c <;> rfl

theorem EgetSel.code_lt (c : EgetSel) : c.code < 9 := by cases c <;> decide

/-- The encoded value of a `WlrdSel` (R33). -/
def WlrdSel.code : WlrdSel → Nat
  | .tail => 0
  | .ring => 1
  | .min => 2
  | .last => 3

/-- The `WlrdSel` of an encoded value; the values beyond the list are undefined (R33). -/
def WlrdSel.ofCode : Nat → Option WlrdSel
  | 0 => some .tail
  | 1 => some .ring
  | 2 => some .min
  | 3 => some .last
  | _ => none

@[simp] theorem WlrdSel.ofCode_code (c : WlrdSel) : WlrdSel.ofCode c.code = some c := by cases c <;> rfl

theorem WlrdSel.code_lt (c : WlrdSel) : c.code < 4 := by cases c <;> decide

/-- A one-bit field of a word. -/
def bitOf (w k : Nat) : Bool := w / k % 2 == 1

@[simp] theorem bitOf_toNat (w k : Nat) (b : Bool) (h : w / k % 2 = b.toNat) : bitOf w k = b := by
  cases b <;> simp_all [bitOf]

/-- A loop level field; the values 6 and 7 are undefined (R36, R66). -/
def Lv.ofCode (n : Nat) : Option (Fin 6) := if h : n < 6 then some ⟨n, h⟩ else none

/-- The queue field of `qtst`; the values 8 to 63 are undefined (R76). -/
def queueOfCode (n : Nat) : Option (Fin 8) := if h : n < 8 then some ⟨n, h⟩ else none

/-- Major 0x00: `nop` (R21). -/
def dec00 (z : Nat) : Option Instr :=
  if z % 33554432 = 0 then some .nop else none

/-- Major 0x01 (Table 2-10): add sub and or xor andn shl shr sar rot min max minu maxu. -/
def dec01 (z : Nat) : Option Instr :=
  match z % 16 with
  | 0 => if z / 16 % 8 = 0 then some (.add (Fin.ofNat 64 (z / 524288)) (Fin.ofNat 64 (z / 8192)) (Fin.ofNat 64 (z / 128))) else none
  | 1 => if z / 16 % 8 = 0 then some (.sub (Fin.ofNat 64 (z / 524288)) (Fin.ofNat 64 (z / 8192)) (Fin.ofNat 64 (z / 128))) else none
  | 2 => if z / 16 % 8 = 0 then some (.band (Fin.ofNat 64 (z / 524288)) (Fin.ofNat 64 (z / 8192)) (Fin.ofNat 64 (z / 128))) else none
  | 3 => if z / 16 % 8 = 0 then some (.bor (Fin.ofNat 64 (z / 524288)) (Fin.ofNat 64 (z / 8192)) (Fin.ofNat 64 (z / 128))) else none
  | 4 => if z / 16 % 8 = 0 then some (.bxor (Fin.ofNat 64 (z / 524288)) (Fin.ofNat 64 (z / 8192)) (Fin.ofNat 64 (z / 128))) else none
  | 5 => if z / 16 % 8 = 0 then some (.andn (Fin.ofNat 64 (z / 524288)) (Fin.ofNat 64 (z / 8192)) (Fin.ofNat 64 (z / 128))) else none
  | 6 => if z / 16 % 8 = 0 then some (.shl (Fin.ofNat 64 (z / 524288)) (Fin.ofNat 64 (z / 8192)) (Fin.ofNat 64 (z / 128))) else none
  | 7 => if z / 16 % 8 = 0 then some (.shr (Fin.ofNat 64 (z / 524288)) (Fin.ofNat 64 (z / 8192)) (Fin.ofNat 64 (z / 128))) else none
  | 8 => if z / 16 % 8 = 0 then some (.sar (Fin.ofNat 64 (z / 524288)) (Fin.ofNat 64 (z / 8192)) (Fin.ofNat 64 (z / 128))) else none
  | 9 => if z / 16 % 8 = 0 then some (.rot (Fin.ofNat 64 (z / 524288)) (Fin.ofNat 64 (z / 8192)) (Fin.ofNat 64 (z / 128))) else none
  | 10 => if z / 16 % 8 = 0 then some (.smin (Fin.ofNat 64 (z / 524288)) (Fin.ofNat 64 (z / 8192)) (Fin.ofNat 64 (z / 128))) else none
  | 11 => if z / 16 % 8 = 0 then some (.smax (Fin.ofNat 64 (z / 524288)) (Fin.ofNat 64 (z / 8192)) (Fin.ofNat 64 (z / 128))) else none
  | 12 => if z / 16 % 8 = 0 then some (.minu (Fin.ofNat 64 (z / 524288)) (Fin.ofNat 64 (z / 8192)) (Fin.ofNat 64 (z / 128))) else none
  | 13 => if z / 16 % 8 = 0 then some (.maxu (Fin.ofNat 64 (z / 524288)) (Fin.ofNat 64 (z / 8192)) (Fin.ofNat 64 (z / 128))) else none
  | _ => none

/-- Major 0x02 (Table 2-10): mul mulh mulhu div divu rem remu. -/
def dec02 (z : Nat) : Option Instr :=
  match z % 8 with
  | 0 => if z / 8 % 16 = 0 then some (.mul (Fin.ofNat 64 (z / 524288)) (Fin.ofNat 64 (z / 8192)) (Fin.ofNat 64 (z / 128))) else none
  | 1 => if z / 8 % 16 = 0 then some (.mulh (Fin.ofNat 64 (z / 524288)) (Fin.ofNat 64 (z / 8192)) (Fin.ofNat 64 (z / 128))) else none
  | 2 => if z / 8 % 16 = 0 then some (.mulhu (Fin.ofNat 64 (z / 524288)) (Fin.ofNat 64 (z / 8192)) (Fin.ofNat 64 (z / 128))) else none
  | 3 => if z / 8 % 16 = 0 then some (.div (Fin.ofNat 64 (z / 524288)) (Fin.ofNat 64 (z / 8192)) (Fin.ofNat 64 (z / 128))) else none
  | 4 => if z / 8 % 16 = 0 then some (.divu (Fin.ofNat 64 (z / 524288)) (Fin.ofNat 64 (z / 8192)) (Fin.ofNat 64 (z / 128))) else none
  | 5 => if z / 8 % 16 = 0 then some (.rem (Fin.ofNat 64 (z / 524288)) (Fin.ofNat 64 (z / 8192)) (Fin.ofNat 64 (z / 128))) else none
  | 6 => if z / 8 % 16 = 0 then some (.remu (Fin.ofNat 64 (z / 524288)) (Fin.ofNat 64 (z / 8192)) (Fin.ofNat 64 (z / 128))) else none
  | _ => none

/-- Major 0x03 (Table 2-10): clz ctz popc sext zext mov. -/
def dec03 (z : Nat) : Option Instr :=
  match z % 8 with
  | 0 => if z / 8 % 1024 = 0 then some (.clz (Fin.ofNat 64 (z / 524288)) (Fin.ofNat 64 (z / 8192))) else none
  | 1 => if z / 8 % 1024 = 0 then some (.ctz (Fin.ofNat 64 (z / 524288)) (Fin.ofNat 64 (z / 8192))) else none
  | 2 => if z / 8 % 1024 = 0 then some (.popc (Fin.ofNat 64 (z / 524288)) (Fin.ofNat 64 (z / 8192))) else none
  | 3 => if z / 8 % 16 = 0 ∧ z / 512 % 16 = 0 then (ExtSize.ofCode (z / 128 % 4)).bind fun sz => some (.sext sz (Fin.ofNat 64 (z / 524288)) (Fin.ofNat 64 (z / 8192))) else none
  | 4 => if z / 8 % 16 = 0 ∧ z / 512 % 16 = 0 then (ExtSize.ofCode (z / 128 % 4)).bind fun sz => some (.zext sz (Fin.ofNat 64 (z / 524288)) (Fin.ofNat 64 (z / 8192))) else none
  | 5 => if z / 8 % 1024 = 0 then some (.mov (Fin.ofNat 64 (z / 524288)) (Fin.ofNat 64 (z / 8192))) else none
  | _ => none

/-- Major 0x04 (Table 2-10): cmp. -/
def dec04 (z : Nat) : Option Instr :=
  if z / 8 % 16 = 0 ∧ z / 524288 % 8 = 0 then (Cond.ofCode (z % 8)).bind fun cond => some (.cmp cond (Fin.ofNat 8 (z / 4194304)) (Fin.ofNat 64 (z / 8192)) (Fin.ofNat 64 (z / 128))) else none

/-- Major 0x05 (Table 2-10): bfx bfi. -/
def dec05 (z : Nat) : Option Instr :=
  match z % 2 with
  | 0 => some (.bfx (Fin.ofNat 64 (z / 524288)) (Fin.ofNat 64 (z / 8192)) (Fin.ofNat 64 (z / 128)) (Fin.ofNat 64 (z / 2)))
  | 1 => some (.bfi (Fin.ofNat 64 (z / 524288)) (Fin.ofNat 64 (z / 8192)) (Fin.ofNat 64 (z / 128)) (Fin.ofNat 64 (z / 2)))
  | _ => none

/-- Major 0x06 (Table 2-10): addi. -/
def dec06 (ext : Option (Fin 2097152)) (z : Nat) : Option Instr :=
  some (.addi (Fin.ofNat 64 (z / 524288)) (Fin.ofNat 64 (z / 8192)) ⟨Fin.ofNat 8192 z, ext⟩)

/-- Major 0x07 (Table 2-10): andi. -/
def dec07 (ext : Option (Fin 2097152)) (z : Nat) : Option Instr :=
  some (.andi (Fin.ofNat 64 (z / 524288)) (Fin.ofNat 64 (z / 8192)) ⟨Fin.ofNat 8192 z, ext⟩)

/-- Major 0x08 (Table 2-10): ori. -/
def dec08 (ext : Option (Fin 2097152)) (z : Nat) : Option Instr :=
  some (.ori (Fin.ofNat 64 (z / 524288)) (Fin.ofNat 64 (z / 8192)) ⟨Fin.ofNat 8192 z, ext⟩)

/-- Major 0x09 (Table 2-10): xori. -/
def dec09 (ext : Option (Fin 2097152)) (z : Nat) : Option Instr :=
  some (.xori (Fin.ofNat 64 (z / 524288)) (Fin.ofNat 64 (z / 8192)) ⟨Fin.ofNat 8192 z, ext⟩)

/-- Major 0x0a (Table 2-10): shli shri sari roti. -/
def dec0a (z : Nat) : Option Instr :=
  match z % 4 with
  | 0 => if z / 4 % 32 = 0 then some (.shli (Fin.ofNat 64 (z / 524288)) (Fin.ofNat 64 (z / 8192)) (Fin.ofNat 64 (z / 128))) else none
  | 1 => if z / 4 % 32 = 0 then some (.shri (Fin.ofNat 64 (z / 524288)) (Fin.ofNat 64 (z / 8192)) (Fin.ofNat 64 (z / 128))) else none
  | 2 => if z / 4 % 32 = 0 then some (.sari (Fin.ofNat 64 (z / 524288)) (Fin.ofNat 64 (z / 8192)) (Fin.ofNat 64 (z / 128))) else none
  | 3 => if z / 4 % 32 = 0 then some (.roti (Fin.ofNat 64 (z / 524288)) (Fin.ofNat 64 (z / 8192)) (Fin.ofNat 64 (z / 128))) else none
  | _ => none

/-- Major 0x0b (Table 2-10): cmpi. -/
def dec0b (ext : Option (Fin 2097152)) (z : Nat) : Option Instr :=
  (Cond.ofCode (z / 524288 % 8)).bind fun cond => some (.cmpi cond (Fin.ofNat 8 (z / 4194304)) (Fin.ofNat 64 (z / 8192)) ⟨Fin.ofNat 8192 z, ext⟩)

/-- Major 0x0c (Table 2-10): li. -/
def dec0c (ext : Option (Fin 2097152)) (z : Nat) : Option Instr :=
  some (.li (Fin.ofNat 64 (z / 524288)) ⟨Fin.ofNat 524288 z, ext⟩)

/-- Major 0x0d (Table 2-10): lio. -/
def dec0d (ext : Option (Fin 2097152)) (z : Nat) : Option Instr :=
  some (.lio (Fin.ofNat 64 (z / 524288)) ⟨Fin.ofNat 524288 z, ext⟩)

/-- Major 0x0e (Table 2-10): sel. -/
def dec0e (z : Nat) : Option Instr :=
  if z % 8 = 0 then some (.sel (Fin.ofNat 64 (z / 524288)) (Fin.ofNat 8 (z / 16)) (bitOf z 8) (Fin.ofNat 64 (z / 8192)) (Fin.ofNat 64 (z / 128))) else none

/-- Major 0x0f (Table 2-10): pand por pxor pandn pset pget. -/
def dec0f (z : Nat) : Option Instr :=
  match z % 8 with
  | 0 => if z / 8 % 8192 = 0 then some (.pand (Fin.ofNat 8 (z / 4194304)) (Fin.ofNat 8 (z / 524288)) (Fin.ofNat 8 (z / 65536))) else none
  | 1 => if z / 8 % 8192 = 0 then some (.por (Fin.ofNat 8 (z / 4194304)) (Fin.ofNat 8 (z / 524288)) (Fin.ofNat 8 (z / 65536))) else none
  | 2 => if z / 8 % 8192 = 0 then some (.pxor (Fin.ofNat 8 (z / 4194304)) (Fin.ofNat 8 (z / 524288)) (Fin.ofNat 8 (z / 65536))) else none
  | 3 => if z / 8 % 8192 = 0 then some (.pandn (Fin.ofNat 8 (z / 4194304)) (Fin.ofNat 8 (z / 524288)) (Fin.ofNat 8 (z / 65536))) else none
  | 4 => if z / 8 % 128 = 0 ∧ z / 65536 % 64 = 0 then some (.pset (Fin.ofNat 8 (z / 4194304)) (Fin.ofNat 64 (z / 1024))) else none
  | 5 => if z / 8 % 128 = 0 ∧ z / 65536 % 8 = 0 ∧ z / 4194304 % 8 = 0 then some (.pget (Fin.ofNat 64 (z / 1024)) (Fin.ofNat 8 (z / 524288))) else none
  | _ => none

/-- Major 0x10 (Table 2-10): br. -/
def dec10 (z : Nat) : Option Instr :=
  some (.br (Fin.ofNat 8 (z / 4194304)) (bitOf z 2097152) (Fin.ofNat 2097152 z))

/-- Major 0x11 (Table 2-10): jmp call. -/
def dec11 (z : Nat) : Option Instr :=
  match z / 16777216 % 2 with
  | 0 => some (.jmp (Fin.ofNat 16777216 z))
  | 1 => some (.call (Fin.ofNat 16777216 z))
  | _ => none

/-- Major 0x12 (Table 2-10): jr callr ret. -/
def dec12 (z : Nat) : Option Instr :=
  match z % 4 with
  | 0 => if z / 4 % 2048 = 0 ∧ z / 524288 % 64 = 0 then some (.jr (Fin.ofNat 64 (z / 8192))) else none
  | 1 => if z / 4 % 2048 = 0 then some (.callr (Fin.ofNat 64 (z / 524288)) (Fin.ofNat 64 (z / 8192))) else none
  | 2 => if z / 4 % 2048 = 0 ∧ z / 524288 % 64 = 0 then some (.ret (Fin.ofNat 64 (z / 8192))) else none
  | _ => none

/-- Major 0x13 (Table 2-10): lpset lpseti lpstr lpbrk lprd lpwr. -/
def dec13 (z : Nat) : Option Instr :=
  match z / 524288 % 8 with
  | 0 => (Lv.ofCode (z / 4194304 % 8)).bind fun lv => some (.lpset lv (Fin.ofNat 64 (z / 8192)) (Fin.ofNat 8192 z))
  | 1 => (Lv.ofCode (z / 4194304 % 8)).bind fun lv => some (.lpseti lv (Fin.ofNat 1024 (z / 512)) (Fin.ofNat 512 z))
  | 2 => if z % 128 = 0 then (Lv.ofCode (z / 4194304 % 8)).bind fun lv => some (.lpstr lv (Fin.ofNat 64 (z / 8192)) (Fin.ofNat 64 (z / 128))) else none
  | 3 => if z % 32768 = 0 then (Lv.ofCode (z / 4194304 % 8)).bind fun lv => some (.lpbrk lv (Fin.ofNat 8 (z / 65536)) (bitOf z 32768)) else none
  | 4 => if z % 1024 = 0 then (Lv.ofCode (z / 4194304 % 8)).bind fun lv => some (.lprd (Fin.ofNat 64 (z / 8192)) lv (Fin.ofNat 8 (z / 1024))) else none
  | 5 => if z % 1024 = 0 then (Lv.ofCode (z / 4194304 % 8)).bind fun lv => some (.lpwr lv (Fin.ofNat 8 (z / 1024)) (Fin.ofNat 64 (z / 8192))) else none
  | _ => none

/-- Major 0x14 (Table 2-10): ld. -/
def dec14 (ext : Option (Fin 2097152)) (z : Nat) : Option Instr :=
  (LdSize.ofCode (z / 1024 % 8)).bind fun sz => some (.ld sz (Fin.ofNat 64 (z / 524288)) (Fin.ofNat 64 (z / 8192)) ⟨Fin.ofNat 1024 z, ext⟩)

/-- Major 0x15 (Table 2-10): st. -/
def dec15 (ext : Option (Fin 2097152)) (z : Nat) : Option Instr :=
  (StSize.ofCode (z / 1024 % 8)).bind fun sz => some (.st sz (Fin.ofNat 64 (z / 524288)) (Fin.ofNat 64 (z / 8192)) ⟨Fin.ofNat 1024 z, ext⟩)

/-- Major 0x16 (Table 2-10): ldp. -/
def dec16 (ext : Option (Fin 2097152)) (z : Nat) : Option Instr :=
  some (.ldp (bitOf z 1024) (Fin.ofNat 64 (z / 524288)) (Fin.ofNat 4 (z / 131072)) (Fin.ofNat 64 (z / 2048)) ⟨Fin.ofNat 1024 z, ext⟩)

/-- Major 0x17 (Table 2-10): qtst. -/
def dec17 (z : Nat) : Option Instr :=
  if z % 8192 = 0 then (QCond.ofCode (z / 8192 % 8)).bind fun cond => (queueOfCode (z / 65536 % 64)).bind fun queue => some (.qtst cond (Fin.ofNat 8 (z / 4194304)) queue) else none

/-- Major 0x18 (Table 2-10): vadd vsub vmul vfma vfms vfnma vmin vmax vabs vneg vand vor vxor vandn vshl vshr vsar vcpy. -/
def dec18 (z : Nat) : Option Instr :=
  match z % 32 with
  | 0 => (ElTy.ofCode (z / 32 % 8)).bind fun et => (Width.ofCode (z / 256 % 4)).bind fun w => some (.vadd et w (Fin.ofNat 32 (z / 1048576)) (Fin.ofNat 32 (z / 32768)) (Fin.ofNat 32 (z / 1024)))
  | 1 => (ElTy.ofCode (z / 32 % 8)).bind fun et => (Width.ofCode (z / 256 % 4)).bind fun w => some (.vsub et w (Fin.ofNat 32 (z / 1048576)) (Fin.ofNat 32 (z / 32768)) (Fin.ofNat 32 (z / 1024)))
  | 2 => (ElTy.ofCode (z / 32 % 8)).bind fun et => (Width.ofCode (z / 256 % 4)).bind fun w => some (.vmul et w (Fin.ofNat 32 (z / 1048576)) (Fin.ofNat 32 (z / 32768)) (Fin.ofNat 32 (z / 1024)))
  | 3 => (ElTy.ofCode (z / 32 % 8)).bind fun et => (Width.ofCode (z / 256 % 4)).bind fun w => some (.vfma et w (Fin.ofNat 32 (z / 1048576)) (Fin.ofNat 32 (z / 32768)) (Fin.ofNat 32 (z / 1024)))
  | 4 => (ElTy.ofCode (z / 32 % 8)).bind fun et => (Width.ofCode (z / 256 % 4)).bind fun w => some (.vfms et w (Fin.ofNat 32 (z / 1048576)) (Fin.ofNat 32 (z / 32768)) (Fin.ofNat 32 (z / 1024)))
  | 5 => (ElTy.ofCode (z / 32 % 8)).bind fun et => (Width.ofCode (z / 256 % 4)).bind fun w => some (.vfnma et w (Fin.ofNat 32 (z / 1048576)) (Fin.ofNat 32 (z / 32768)) (Fin.ofNat 32 (z / 1024)))
  | 6 => (ElTy.ofCode (z / 32 % 8)).bind fun et => (Width.ofCode (z / 256 % 4)).bind fun w => some (.vmin et w (Fin.ofNat 32 (z / 1048576)) (Fin.ofNat 32 (z / 32768)) (Fin.ofNat 32 (z / 1024)))
  | 7 => (ElTy.ofCode (z / 32 % 8)).bind fun et => (Width.ofCode (z / 256 % 4)).bind fun w => some (.vmax et w (Fin.ofNat 32 (z / 1048576)) (Fin.ofNat 32 (z / 32768)) (Fin.ofNat 32 (z / 1024)))
  | 8 => if z / 1024 % 32 = 0 then (ElTy.ofCode (z / 32 % 8)).bind fun et => (Width.ofCode (z / 256 % 4)).bind fun w => some (.vabs et w (Fin.ofNat 32 (z / 1048576)) (Fin.ofNat 32 (z / 32768))) else none
  | 9 => if z / 1024 % 32 = 0 then (ElTy.ofCode (z / 32 % 8)).bind fun et => (Width.ofCode (z / 256 % 4)).bind fun w => some (.vneg et w (Fin.ofNat 32 (z / 1048576)) (Fin.ofNat 32 (z / 32768))) else none
  | 10 => (ElTy.ofCode (z / 32 % 8)).bind fun et => (Width.ofCode (z / 256 % 4)).bind fun w => some (.vand et w (Fin.ofNat 32 (z / 1048576)) (Fin.ofNat 32 (z / 32768)) (Fin.ofNat 32 (z / 1024)))
  | 11 => (ElTy.ofCode (z / 32 % 8)).bind fun et => (Width.ofCode (z / 256 % 4)).bind fun w => some (.vor et w (Fin.ofNat 32 (z / 1048576)) (Fin.ofNat 32 (z / 32768)) (Fin.ofNat 32 (z / 1024)))
  | 12 => (ElTy.ofCode (z / 32 % 8)).bind fun et => (Width.ofCode (z / 256 % 4)).bind fun w => some (.vxor et w (Fin.ofNat 32 (z / 1048576)) (Fin.ofNat 32 (z / 32768)) (Fin.ofNat 32 (z / 1024)))
  | 13 => (ElTy.ofCode (z / 32 % 8)).bind fun et => (Width.ofCode (z / 256 % 4)).bind fun w => some (.vandn et w (Fin.ofNat 32 (z / 1048576)) (Fin.ofNat 32 (z / 32768)) (Fin.ofNat 32 (z / 1024)))
  | 14 => (ElTy.ofCode (z / 32 % 8)).bind fun et => (Width.ofCode (z / 256 % 4)).bind fun w => some (.vshl et w (Fin.ofNat 32 (z / 1048576)) (Fin.ofNat 32 (z / 32768)) (Fin.ofNat 32 (z / 1024)))
  | 15 => (ElTy.ofCode (z / 32 % 8)).bind fun et => (Width.ofCode (z / 256 % 4)).bind fun w => some (.vshr et w (Fin.ofNat 32 (z / 1048576)) (Fin.ofNat 32 (z / 32768)) (Fin.ofNat 32 (z / 1024)))
  | 16 => (ElTy.ofCode (z / 32 % 8)).bind fun et => (Width.ofCode (z / 256 % 4)).bind fun w => some (.vsar et w (Fin.ofNat 32 (z / 1048576)) (Fin.ofNat 32 (z / 32768)) (Fin.ofNat 32 (z / 1024)))
  | 17 => if z / 1024 % 32 = 0 then (ElTy.ofCode (z / 32 % 8)).bind fun et => (Width.ofCode (z / 256 % 4)).bind fun w => some (.vcpy et w (Fin.ofNat 32 (z / 1048576)) (Fin.ofNat 32 (z / 32768))) else none
  | _ => none

/-- Major 0x19 (Table 2-10): vcmp vsel vmand vmor vmnot vmcnt vmfst. -/
def dec19 (z : Nat) : Option Instr :=
  match z % 8 with
  | 0 => if z / 8 % 4 = 0 then (VCond.ofCode (z / 8388608 % 4)).bind fun cond => (ElTy.ofCode (z / 32 % 8)).bind fun et => (Width.ofCode (z / 256 % 4)).bind fun w => some (.vcmp cond et w (Fin.ofNat 8 (z / 1048576)) (Fin.ofNat 32 (z / 32768)) (Fin.ofNat 32 (z / 1024))) else none
  | 1 => if z / 8 % 4 = 0 then (Width.ofCode (z / 256 % 4)).bind fun w => some (.vsel w (Fin.ofNat 32 (z / 1048576)) (Fin.ofNat 32 (z / 32768)) (Fin.ofNat 32 (z / 1024)) (Fin.ofNat 8 (z / 32))) else none
  | 2 => if z / 8 % 512 = 0 ∧ z / 32768 % 4 = 0 ∧ z / 8388608 % 4 = 0 then some (.vmand (Fin.ofNat 8 (z / 1048576)) (Fin.ofNat 8 (z / 131072)) (Fin.ofNat 8 (z / 4096))) else none
  | 3 => if z / 8 % 512 = 0 ∧ z / 32768 % 4 = 0 ∧ z / 8388608 % 4 = 0 then some (.vmor (Fin.ofNat 8 (z / 1048576)) (Fin.ofNat 8 (z / 131072)) (Fin.ofNat 8 (z / 4096))) else none
  | 4 => if z / 8 % 16384 = 0 ∧ z / 8388608 % 4 = 0 then some (.vmnot (Fin.ofNat 8 (z / 1048576)) (Fin.ofNat 8 (z / 131072))) else none
  | 5 => if z / 8 % 4 = 0 ∧ z / 1024 % 64 = 0 then (ElTy.ofCode (z / 32 % 8)).bind fun et => (Width.ofCode (z / 256 % 4)).bind fun w => some (.vmcnt et w (Fin.ofNat 64 (z / 524288)) (Fin.ofNat 8 (z / 65536))) else none
  | 6 => if z / 8 % 4 = 0 ∧ z / 1024 % 64 = 0 then (ElTy.ofCode (z / 32 % 8)).bind fun et => (Width.ofCode (z / 256 % 4)).bind fun w => some (.vmfst et w (Fin.ofNat 64 (z / 524288)) (Fin.ofNat 8 (z / 65536))) else none
  | _ => none

/-- Major 0x1a (Table 2-10): vbcast vins vext vred vscan vperm vshuf vslide vcomp. -/
def dec1a (z : Nat) : Option Instr :=
  match z % 16 with
  | 0 => if z / 16 % 2 = 0 ∧ z / 1024 % 16 = 0 then (ElTy.ofCode (z / 32 % 8)).bind fun et => (Width.ofCode (z / 256 % 4)).bind fun w => some (.vbcast et w (Fin.ofNat 32 (z / 1048576)) (Fin.ofNat 64 (z / 16384))) else none
  | 1 => if z / 16 % 2 = 0 then (ElTy.ofCode (z / 32 % 8)).bind fun et => some (.vins et (Fin.ofNat 32 (z / 1048576)) (Fin.ofNat 64 (z / 16384)) (Fin.ofNat 64 (z / 256))) else none
  | 2 => if z / 16 % 2 = 0 then (ElTy.ofCode (z / 32 % 8)).bind fun et => some (.vext et (Fin.ofNat 64 (z / 524288)) (Fin.ofNat 32 (z / 16384)) (Fin.ofNat 64 (z / 256))) else none
  | 3 => if z / 16 % 2 = 0 then (RedOp.ofCode (z / 1024 % 32)).bind fun op => (ElTy.ofCode (z / 32 % 8)).bind fun et => (Width.ofCode (z / 256 % 4)).bind fun w => some (.vred op et w (Fin.ofNat 32 (z / 1048576)) (Fin.ofNat 32 (z / 32768))) else none
  | 4 => if z / 16 % 2 = 0 then (RedOp.ofCode (z / 1024 % 32)).bind fun op => (ElTy.ofCode (z / 32 % 8)).bind fun et => (Width.ofCode (z / 256 % 4)).bind fun w => some (.vscan op et w (Fin.ofNat 32 (z / 1048576)) (Fin.ofNat 32 (z / 32768))) else none
  | 5 => if z / 16 % 2 = 0 then (ElTy.ofCode (z / 32 % 8)).bind fun et => (Width.ofCode (z / 256 % 4)).bind fun w => some (.vperm et w (Fin.ofNat 32 (z / 1048576)) (Fin.ofNat 32 (z / 32768)) (Fin.ofNat 32 (z / 1024))) else none
  | 6 => if z / 16 % 2 = 0 then (ShufPat.ofCode (z / 1024 % 32)).bind fun pat => (ElTy.ofCode (z / 32 % 8)).bind fun et => (Width.ofCode (z / 256 % 4)).bind fun w => some (.vshuf pat et w (Fin.ofNat 32 (z / 1048576)) (Fin.ofNat 32 (z / 32768))) else none
  | 7 => if z / 16 % 2 = 0 then (ElTy.ofCode (z / 32 % 8)).bind fun et => (Width.ofCode (z / 256 % 4)).bind fun w => some (.vslide et w (Fin.ofNat 32 (z / 1048576)) (Fin.ofNat 32 (z / 32768)) (Fin.ofNat 32 (z / 1024))) else none
  | 8 => if z / 16 % 2 = 0 ∧ z / 8192 % 4 = 0 then (ElTy.ofCode (z / 32 % 8)).bind fun et => (Width.ofCode (z / 256 % 4)).bind fun w => some (.vcomp et w (Fin.ofNat 32 (z / 1048576)) (Fin.ofNat 32 (z / 32768)) (Fin.ofNat 8 (z / 1024))) else none
  | _ => none

/-- Major 0x1b (Table 2-10): vpart vgat vsct. -/
def dec1b (z : Nat) : Option Instr :=
  match z % 4 with
  | 0 => if z / 4 % 8 = 0 ∧ z / 8192 % 128 = 0 then (ElTy.ofCode (z / 32 % 8)).bind fun et => (Width.ofCode (z / 256 % 4)).bind fun w => some (.vpart et w (Fin.ofNat 32 (z / 1048576)) (Fin.ofNat 8 (z / 1024))) else none
  | 1 => if z / 4 % 8 = 0 then (ElTy.ofCode (z / 32 % 8)).bind fun et => (Width.ofCode (z / 256 % 4)).bind fun w => some (.vgat et w (Fin.ofNat 32 (z / 1048576)) (Fin.ofNat 32 (z / 32768)) (Fin.ofNat 32 (z / 1024))) else none
  | 2 => if z / 4 % 8 = 0 then (ElTy.ofCode (z / 32 % 8)).bind fun et => (Width.ofCode (z / 256 % 4)).bind fun w => some (.vsct et w (Fin.ofNat 32 (z / 1048576)) (Fin.ofNat 32 (z / 32768)) (Fin.ofNat 32 (z / 1024))) else none
  | _ => none

/-- Major 0x1c (Table 2-10): vld vst vldx vldt pkset. -/
def dec1c (ext : Option (Fin 2097152)) (z : Nat) : Option Instr :=
  match z / 512 % 8 with
  | 0 => (Width.ofCode (z / 4096 % 4)).bind fun w => some (.vld w (Fin.ofNat 32 (z / 1048576)) (Fin.ofNat 64 (z / 16384)) ⟨Fin.ofNat 512 z, ext⟩)
  | 1 => (Width.ofCode (z / 4096 % 4)).bind fun w => some (.vst w (Fin.ofNat 32 (z / 1048576)) (Fin.ofNat 64 (z / 16384)) ⟨Fin.ofNat 512 z, ext⟩)
  | 2 => (Width.ofCode (z / 4096 % 4)).bind fun w => some (.vldx w (Fin.ofNat 32 (z / 1048576)) (Fin.ofNat 64 (z / 16384)) (Fin.ofNat 128 z) (Fin.ofNat 4 (z / 128)))
  | 3 => (Width.ofCode (z / 4096 % 4)).bind fun w => some (.vldt w (Fin.ofNat 32 (z / 1048576)) (Fin.ofNat 64 (z / 16384)) (Fin.ofNat 128 z) (Fin.ofNat 4 (z / 128)))
  | 4 => if z % 512 = 0 ∧ z / 4096 % 4 = 0 ∧ z / 4194304 % 8 = 0 then some (.pkset (Fin.ofNat 4 (z / 1048576)) (Fin.ofNat 64 (z / 16384))) else none
  | _ => none

/-- Major 0x1d (Table 2-10): vrcp vrsq vsqrt vexp2 vlog2 vtanh vsigm vgelu vsin vcos vrfn. -/
def dec1d (z : Nat) : Option Instr :=
  match z % 16 with
  | 0 => if z / 16 % 2 = 0 ∧ z / 1024 % 32 = 0 then (FpTy.ofCode (z / 32 % 4)).bind fun ft => (Width.ofCode (z / 256 % 4)).bind fun w => some (.vrcp (bitOf z 128) ft w (Fin.ofNat 32 (z / 1048576)) (Fin.ofNat 32 (z / 32768))) else none
  | 1 => if z / 16 % 2 = 0 ∧ z / 1024 % 32 = 0 then (FpTy.ofCode (z / 32 % 4)).bind fun ft => (Width.ofCode (z / 256 % 4)).bind fun w => some (.vrsq (bitOf z 128) ft w (Fin.ofNat 32 (z / 1048576)) (Fin.ofNat 32 (z / 32768))) else none
  | 2 => if z / 16 % 2 = 0 ∧ z / 1024 % 32 = 0 then (FpTy.ofCode (z / 32 % 4)).bind fun ft => (Width.ofCode (z / 256 % 4)).bind fun w => some (.vsqrt (bitOf z 128) ft w (Fin.ofNat 32 (z / 1048576)) (Fin.ofNat 32 (z / 32768))) else none
  | 3 => if z / 16 % 2 = 0 ∧ z / 1024 % 32 = 0 then (FpTy.ofCode (z / 32 % 4)).bind fun ft => (Width.ofCode (z / 256 % 4)).bind fun w => some (.vexp2 (bitOf z 128) ft w (Fin.ofNat 32 (z / 1048576)) (Fin.ofNat 32 (z / 32768))) else none
  | 4 => if z / 16 % 2 = 0 ∧ z / 1024 % 32 = 0 then (FpTy.ofCode (z / 32 % 4)).bind fun ft => (Width.ofCode (z / 256 % 4)).bind fun w => some (.vlog2 (bitOf z 128) ft w (Fin.ofNat 32 (z / 1048576)) (Fin.ofNat 32 (z / 32768))) else none
  | 5 => if z / 16 % 2 = 0 ∧ z / 1024 % 32 = 0 then (FpTy.ofCode (z / 32 % 4)).bind fun ft => (Width.ofCode (z / 256 % 4)).bind fun w => some (.vtanh (bitOf z 128) ft w (Fin.ofNat 32 (z / 1048576)) (Fin.ofNat 32 (z / 32768))) else none
  | 6 => if z / 16 % 2 = 0 ∧ z / 1024 % 32 = 0 then (FpTy.ofCode (z / 32 % 4)).bind fun ft => (Width.ofCode (z / 256 % 4)).bind fun w => some (.vsigm (bitOf z 128) ft w (Fin.ofNat 32 (z / 1048576)) (Fin.ofNat 32 (z / 32768))) else none
  | 7 => if z / 16 % 2 = 0 ∧ z / 1024 % 32 = 0 then (FpTy.ofCode (z / 32 % 4)).bind fun ft => (Width.ofCode (z / 256 % 4)).bind fun w => some (.vgelu (bitOf z 128) ft w (Fin.ofNat 32 (z / 1048576)) (Fin.ofNat 32 (z / 32768))) else none
  | 8 => if z / 16 % 2 = 0 ∧ z / 1024 % 32 = 0 then (FpTy.ofCode (z / 32 % 4)).bind fun ft => (Width.ofCode (z / 256 % 4)).bind fun w => some (.vsin (bitOf z 128) ft w (Fin.ofNat 32 (z / 1048576)) (Fin.ofNat 32 (z / 32768))) else none
  | 9 => if z / 16 % 2 = 0 ∧ z / 1024 % 32 = 0 then (FpTy.ofCode (z / 32 % 4)).bind fun ft => (Width.ofCode (z / 256 % 4)).bind fun w => some (.vcos (bitOf z 128) ft w (Fin.ofNat 32 (z / 1048576)) (Fin.ofNat 32 (z / 32768))) else none
  | 10 => if z / 16 % 2 = 0 ∧ z / 128 % 2 = 0 then (FpTy.ofCode (z / 32 % 4)).bind fun ft => (Width.ofCode (z / 256 % 4)).bind fun w => some (.vrfn ft w (Fin.ofNat 32 (z / 1048576)) (Fin.ofNat 32 (z / 32768)) (Fin.ofNat 32 (z / 1024))) else none
  | _ => none

/-- Major 0x1e (Table 2-10): vcvt. -/
def dec1e (z : Nat) : Option Instr :=
  if z % 2 = 0 then (Fmt.ofCode (z / 2048 % 16)).bind fun src => (Fmt.ofCode (z / 128 % 16)).bind fun dst => (Rnd.ofCode (z / 32 % 4)).bind fun rnd => (Width.ofCode (z / 2 % 4)).bind fun w => some (.vcvt src dst rnd (bitOf z 16) (bitOf z 8) w (Fin.ofNat 32 (z / 1048576)) (Fin.ofNat 32 (z / 32768))) else none

/-- Major 0x1f (Table 2-10): vqnt vdqnt vscl cbld cbq cbx dthset vpk vupk. -/
def dec1f (z : Nat) : Option Instr :=
  match z % 16 with
  | 0 => if z / 16 % 2 = 0 then (ElTy.ofCode (z / 32 % 8)).bind fun et => (Width.ofCode (z / 256 % 4)).bind fun w => some (.vqnt et w (Fin.ofNat 32 (z / 1048576)) (Fin.ofNat 32 (z / 32768)) (Fin.ofNat 32 (z / 1024))) else none
  | 1 => if z / 16 % 2 = 0 then (ElTy.ofCode (z / 32 % 8)).bind fun et => (Width.ofCode (z / 256 % 4)).bind fun w => some (.vdqnt et w (Fin.ofNat 32 (z / 1048576)) (Fin.ofNat 32 (z / 32768)) (Fin.ofNat 32 (z / 1024))) else none
  | 2 => if z / 16 % 2 = 0 ∧ z / 1024 % 32 = 0 then (ElTy.ofCode (z / 32 % 8)).bind fun et => (Width.ofCode (z / 256 % 4)).bind fun w => some (.vscl et w (Fin.ofNat 32 (z / 1048576)) (Fin.ofNat 32 (z / 32768))) else none
  | 3 => if z / 16 % 2048 = 0 ∧ z / 4194304 % 8 = 0 then some (.cbld (Fin.ofNat 4 (z / 1048576)) (Fin.ofNat 32 (z / 32768))) else none
  | 4 => if z / 16 % 2 = 0 ∧ z / 4096 % 4 = 0 then (ElTy.ofCode (z / 32 % 8)).bind fun et => (Width.ofCode (z / 256 % 4)).bind fun w => some (.cbq (bitOf z 16384) et w (Fin.ofNat 32 (z / 1048576)) (Fin.ofNat 32 (z / 32768)) (Fin.ofNat 4 (z / 1024))) else none
  | 5 => if z / 16 % 2 = 0 ∧ z / 4096 % 4 = 0 then (ElTy.ofCode (z / 32 % 8)).bind fun et => (Width.ofCode (z / 256 % 4)).bind fun w => some (.cbx (bitOf z 16384) et w (Fin.ofNat 32 (z / 1048576)) (Fin.ofNat 32 (z / 32768)) (Fin.ofNat 4 (z / 1024))) else none
  | 6 => if z / 16 % 256 = 0 then some (.dthset (Fin.ofNat 64 (z / 524288)) (Fin.ofNat 64 (z / 8192)) (bitOf z 4096)) else none
  | 7 => if z / 16 % 16 = 0 then (Width.ofCode (z / 256 % 4)).bind fun w => some (.vpk (Fin.ofNat 32 (z / 1024)) w (Fin.ofNat 32 (z / 1048576)) (Fin.ofNat 32 (z / 32768))) else none
  | 8 => if z / 16 % 16 = 0 then (Width.ofCode (z / 256 % 4)).bind fun w => some (.vupk (Fin.ofNat 32 (z / 1024)) w (Fin.ofNat 32 (z / 1048576)) (Fin.ofNat 32 (z / 32768))) else none
  | _ => none

/-- Major 0x20 (Table 2-10): mma mmz. -/
def dec20 (z : Nat) : Option Instr :=
  match z / 16 % 2 with
  | 0 => if z % 16 = 0 then some (.mma (Fin.ofNat 16 (z / 2097152)) (Fin.ofNat 16 (z / 131072)) (Fin.ofNat 16 (z / 8192)) (Fin.ofNat 16 (z / 512)) (Fin.ofNat 8 (z / 64)) (bitOf z 32)) else none
  | 1 => if z % 16 = 0 then some (.mmz (Fin.ofNat 16 (z / 2097152)) (Fin.ofNat 16 (z / 131072)) (Fin.ofNat 16 (z / 8192)) (Fin.ofNat 16 (z / 512)) (Fin.ofNat 8 (z / 64)) (bitOf z 32)) else none
  | _ => none

/-- Major 0x21 (Table 2-10): pcw pcwr accz accrd accwr mwait. -/
def dec21 (z : Nat) : Option Instr :=
  match z / 4194304 % 8 with
  | 0 => if z % 8192 = 0 then some (.pcw (Fin.ofNat 8 (z / 524288)) (Fin.ofNat 64 (z / 8192))) else none
  | 1 => if z % 64 = 0 then some (.pcwr (Fin.ofNat 8 (z / 524288)) (Fin.ofNat 8 (z / 65536)) (Fin.ofNat 64 (z / 1024)) (Fin.ofNat 16 (z / 64))) else none
  | 2 => if z % 1024 = 0 then some (.accz (Fin.ofNat 16 (z / 262144)) (Fin.ofNat 16 (z / 16384)) (Fin.ofNat 16 (z / 1024))) else none
  | 3 => some (.accrd (Fin.ofNat 32 (z / 131072)) (Fin.ofNat 16 (z / 8192)) (Fin.ofNat 64 (z / 128)) (Fin.ofNat 128 z))
  | 4 => some (.accwr (Fin.ofNat 16 (z / 262144)) (Fin.ofNat 32 (z / 8192)) (Fin.ofNat 64 (z / 128)) (Fin.ofNat 128 z))
  | 5 => if z % 64 = 0 then some (.mwait (Fin.ofNat 65536 (z / 64))) else none
  | _ => none

/-- Major 0x22 (Table 2-10): rset rget rpush rpop. -/
def dec22 (ext : Option (Fin 2097152)) (z : Nat) : Option Instr :=
  match z / 524288 % 4 with
  | 0 => if z % 128 = 0 then some (.rset (Fin.ofNat 16 (z / 2097152)) (Fin.ofNat 64 (z / 8192)) (Fin.ofNat 64 (z / 128))) else none
  | 1 => if z / 128 % 64 = 0 then some (.rget ⟨Fin.ofNat 128 z, ext⟩ (Fin.ofNat 64 (z / 8192)) (Fin.ofNat 16 (z / 2097152))) else none
  | 2 => if z / 128 % 4096 = 0 then some (.rpush (Fin.ofNat 16 (z / 2097152)) ⟨Fin.ofNat 128 z, ext⟩) else none
  | 3 => if z / 128 % 4096 = 0 then some (.rpop (Fin.ofNat 16 (z / 2097152)) ⟨Fin.ofNat 128 z, ext⟩) else none
  | _ => none

/-- Major 0x24 (Table 2-10): ppst ppcfg_word ppcfg_threshold htag hrec. -/
def dec24 (z : Nat) : Option Instr :=
  match z / 8388608 % 4 with
  | 0 => if z % 4 = 0 then some (.ppst (Fin.ofNat 16 (z / 524288)) (Fin.ofNat 16 (z / 32768)) (Fin.ofNat 64 (z / 512)) (Fin.ofNat 16 (z / 32)) (bitOf z 16) (Fin.ofNat 4 (z / 4))) else none
  | 1 => (if z % 4096 = 0 ∧ z / 4194304 % 2 = 0 then some (.ppcfgWord (Fin.ofNat 4 (z / 1048576)) (Fin.ofNat 4 (z / 262144)) (Fin.ofNat 64 (z / 4096))) else none).or (if z % 4096 = 0 ∧ z / 262144 % 2 = 0 ∧ z / 4194304 % 2 = 1 then some (.ppcfgThreshold (Fin.ofNat 8 (z / 524288)) (Fin.ofNat 64 (z / 4096))) else none)
  | 2 => if z % 32 = 0 then some (.htag (Fin.ofNat 64 (z / 131072)) (Fin.ofNat 256 (z / 512)) (Fin.ofNat 16 (z / 32))) else none
  | 3 => if z % 128 = 0 then some (.hrec (Fin.ofNat 64 (z / 131072)) (Fin.ofNat 64 (z / 2048)) (Fin.ofNat 16 (z / 128))) else none
  | _ => none

/-- Major 0x25 (Table 2-10): hthr hfwd hinv. -/
def dec25 (z : Nat) : Option Instr :=
  match z % 4 with
  | 0 => if z / 4 % 64 = 0 ∧ z / 8192 % 4 = 0 then (Width.ofCode (z / 256 % 4)).bind fun w => some (.hthr w (Fin.ofNat 32 (z / 1048576)) (Fin.ofNat 32 (z / 32768)) (Fin.ofNat 8 (z / 1024))) else none
  | 1 => if z / 4 % 64 = 0 then (Width.ofCode (z / 256 % 4)).bind fun w => some (.hfwd w (Fin.ofNat 32 (z / 1048576)) (Fin.ofNat 32 (z / 32768)) (Fin.ofNat 32 (z / 1024))) else none
  | 2 => if z / 4 % 64 = 0 then (Width.ofCode (z / 256 % 4)).bind fun w => some (.hinv w (Fin.ofNat 32 (z / 1048576)) (Fin.ofNat 32 (z / 32768)) (Fin.ofNat 32 (z / 1024))) else none
  | _ => none

/-- Major 0x26 (Table 2-10): cp cpt cpx cpg cps cpr cpsig tmv. -/
def dec26 (z : Nat) : Option Instr :=
  match z / 16 % 8 with
  | 0 => if z / 2 % 2 = 0 ∧ z / 2048 % 4 = 0 then some (.cp (Fin.ofNat 4 (z / 4)) (Fin.ofNat 64 (z / 524288)) (Fin.ofNat 64 (z / 8192)) (Fin.ofNat 16 (z / 128)) (bitOf z 1)) else none
  | 1 => if z / 2 % 2 = 0 ∧ z / 2048 % 4 = 0 then some (.cpt (Fin.ofNat 4 (z / 4)) (Fin.ofNat 64 (z / 524288)) (Fin.ofNat 64 (z / 8192)) (Fin.ofNat 16 (z / 128)) (bitOf z 1)) else none
  | 2 => if z / 2 % 2 = 0 ∧ z / 2048 % 4 = 0 then some (.cpx (Fin.ofNat 4 (z / 4)) (Fin.ofNat 64 (z / 524288)) (Fin.ofNat 64 (z / 8192)) (Fin.ofNat 16 (z / 128)) (bitOf z 1)) else none
  | 3 => if z / 2 % 2 = 0 ∧ z / 2048 % 4 = 0 then some (.cpg (Fin.ofNat 4 (z / 4)) (Fin.ofNat 64 (z / 524288)) (Fin.ofNat 64 (z / 8192)) (Fin.ofNat 16 (z / 128)) (bitOf z 1)) else none
  | 4 => if z / 2048 % 4 = 0 then some (.cps (bitOf z 2) (Fin.ofNat 4 (z / 4)) (Fin.ofNat 64 (z / 524288)) (Fin.ofNat 64 (z / 8192)) (Fin.ofNat 16 (z / 128)) (bitOf z 1)) else none
  | 5 => if z / 2048 % 4 = 0 then some (.cpr (bitOf z 2) (Fin.ofNat 4 (z / 4)) (Fin.ofNat 64 (z / 524288)) (Fin.ofNat 64 (z / 8192)) (Fin.ofNat 16 (z / 128)) (bitOf z 1)) else none
  | 6 => if z % 4 = 0 ∧ z / 128 % 64 = 0 then some (.cpsig (Fin.ofNat 4 (z / 4)) (Fin.ofNat 64 (z / 524288)) (Fin.ofNat 64 (z / 8192))) else none
  | 7 => if z / 2 % 2 = 0 ∧ z / 2048 % 4 = 0 then some (.tmv (Fin.ofNat 4 (z / 4)) (Fin.ofNat 64 (z / 524288)) (Fin.ofNat 64 (z / 8192)) (Fin.ofNat 16 (z / 128)) (bitOf z 1)) else none
  | _ => none

/-- Major 0x27 (Table 2-10): shape qstat qcan qrty. -/
def dec27 (z : Nat) : Option Instr :=
  match z / 8388608 % 4 with
  | 0 => if z % 2048 = 0 then some (.shape (Fin.ofNat 16 (z / 524288)) (Fin.ofNat 4 (z / 131072)) (Fin.ofNat 64 (z / 2048))) else none
  | 1 => if z % 4096 = 0 then (QSel.ofCode (z / 4096 % 4)).bind fun sel => some (.qstat sel (Fin.ofNat 64 (z / 131072)) (Fin.ofNat 8 (z / 16384))) else none
  | 2 => if z % 1048576 = 0 then some (.qcan (Fin.ofNat 8 (z / 1048576))) else none
  | 3 => if z % 1048576 = 0 then some (.qrty (Fin.ofNat 8 (z / 1048576))) else none
  | _ => none

/-- Major 0x28 (Table 2-10): fence qfence harvest. -/
def dec28 (z : Nat) : Option Instr :=
  match z / 8388608 % 4 with
  | 0 => if z % 262144 = 0 then (FenceKind.ofCode (z / 262144 % 4)).bind fun kind => (Scope.ofCode (z / 1048576 % 8)).bind fun scope => some (.fence kind scope) else none
  | 1 => if z % 1024 = 0 ∧ z / 262144 % 32 = 0 then some (.qfence (Fin.ofNat 256 (z / 1024))) else none
  | 2 => if z % 4096 = 0 ∧ z / 262144 % 32 = 0 then some (.harvest (Fin.ofNat 64 (z / 4096))) else none
  | _ => none

/-- Major 0x29 (Table 2-10): amoadd amoand amoor amoxor amomin amomax amominu amomaxu amoswap amocas. -/
def dec29 (z : Nat) : Option Instr :=
  match z % 16 with
  | 0 => some (.amoadd (bitOf z 64) (bitOf z 32) (bitOf z 16) (Fin.ofNat 64 (z / 524288)) (Fin.ofNat 64 (z / 8192)) (Fin.ofNat 64 (z / 128)))
  | 1 => some (.amoand (bitOf z 64) (bitOf z 32) (bitOf z 16) (Fin.ofNat 64 (z / 524288)) (Fin.ofNat 64 (z / 8192)) (Fin.ofNat 64 (z / 128)))
  | 2 => some (.amoor (bitOf z 64) (bitOf z 32) (bitOf z 16) (Fin.ofNat 64 (z / 524288)) (Fin.ofNat 64 (z / 8192)) (Fin.ofNat 64 (z / 128)))
  | 3 => some (.amoxor (bitOf z 64) (bitOf z 32) (bitOf z 16) (Fin.ofNat 64 (z / 524288)) (Fin.ofNat 64 (z / 8192)) (Fin.ofNat 64 (z / 128)))
  | 4 => some (.amomin (bitOf z 64) (bitOf z 32) (bitOf z 16) (Fin.ofNat 64 (z / 524288)) (Fin.ofNat 64 (z / 8192)) (Fin.ofNat 64 (z / 128)))
  | 5 => some (.amomax (bitOf z 64) (bitOf z 32) (bitOf z 16) (Fin.ofNat 64 (z / 524288)) (Fin.ofNat 64 (z / 8192)) (Fin.ofNat 64 (z / 128)))
  | 6 => some (.amominu (bitOf z 64) (bitOf z 32) (bitOf z 16) (Fin.ofNat 64 (z / 524288)) (Fin.ofNat 64 (z / 8192)) (Fin.ofNat 64 (z / 128)))
  | 7 => some (.amomaxu (bitOf z 64) (bitOf z 32) (bitOf z 16) (Fin.ofNat 64 (z / 524288)) (Fin.ofNat 64 (z / 8192)) (Fin.ofNat 64 (z / 128)))
  | 8 => some (.amoswap (bitOf z 64) (bitOf z 32) (bitOf z 16) (Fin.ofNat 64 (z / 524288)) (Fin.ofNat 64 (z / 8192)) (Fin.ofNat 64 (z / 128)))
  | 9 => some (.amocas (bitOf z 64) (bitOf z 32) (bitOf z 16) (Fin.ofNat 64 (z / 524288)) (Fin.ofNat 64 (z / 8192)) (Fin.ofNat 64 (z / 128)))
  | _ => none

/-- Major 0x2a (Table 2-10): amofadd amofmin amofmax redfadd binadd binfold bininit. -/
def dec2a (z : Nat) : Option Instr :=
  match z % 8 with
  | 0 => (SqClass.ofCode (z / 8 % 4)).bind fun cls => some (.amofadd (bitOf z 32) (bitOf z 64) cls (Fin.ofNat 64 (z / 524288)) (Fin.ofNat 64 (z / 8192)) (Fin.ofNat 64 (z / 128)))
  | 1 => if z / 32 % 2 = 0 then (SqClass.ofCode (z / 8 % 4)).bind fun cls => some (.amofmin (bitOf z 64) cls (Fin.ofNat 64 (z / 524288)) (Fin.ofNat 64 (z / 8192)) (Fin.ofNat 64 (z / 128))) else none
  | 2 => if z / 32 % 2 = 0 then (SqClass.ofCode (z / 8 % 4)).bind fun cls => some (.amofmax (bitOf z 64) cls (Fin.ofNat 64 (z / 524288)) (Fin.ofNat 64 (z / 8192)) (Fin.ofNat 64 (z / 128))) else none
  | 3 => if z / 524288 % 64 = 0 then (SqClass.ofCode (z / 8 % 4)).bind fun cls => some (.redfadd (bitOf z 32) (bitOf z 64) cls (Fin.ofNat 64 (z / 8192)) (Fin.ofNat 64 (z / 128))) else none
  | 4 => if z / 32 % 2 = 0 ∧ z / 524288 % 64 = 0 then (SqClass.ofCode (z / 8 % 4)).bind fun cls => some (.binadd (bitOf z 64) cls (Fin.ofNat 64 (z / 8192)) (Fin.ofNat 64 (z / 128))) else none
  | 5 => if z / 32 % 2 = 0 ∧ z / 128 % 64 = 0 then (SqClass.ofCode (z / 8 % 4)).bind fun cls => some (.binfold (bitOf z 64) cls (Fin.ofNat 64 (z / 524288)) (Fin.ofNat 64 (z / 8192))) else none
  | 6 => if z / 32 % 4 = 0 ∧ z / 524288 % 64 = 0 then (SqClass.ofCode (z / 8 % 4)).bind fun cls => some (.bininit cls (Fin.ofNat 64 (z / 8192)) (Fin.ofNat 64 (z / 128))) else none
  | _ => none

/-- Major 0x2b (Table 2-10): barinit arrive bwait arrwt bexpect waitw wake. -/
def dec2b (z : Nat) : Option Instr :=
  match z % 8 with
  | 0 => if z / 8 % 16 = 0 ∧ z / 524288 % 64 = 0 then some (.barinit (Fin.ofNat 64 (z / 8192)) (Fin.ofNat 64 (z / 128))) else none
  | 1 => if z / 8 % 1024 = 0 then some (.arrive (Fin.ofNat 64 (z / 524288)) (Fin.ofNat 64 (z / 8192))) else none
  | 2 => if z / 8 % 16 = 0 ∧ z / 524288 % 8 = 0 then some (.bwait (Fin.ofNat 8 (z / 4194304)) (Fin.ofNat 64 (z / 8192)) (Fin.ofNat 64 (z / 128))) else none
  | 3 => if z / 8 % 1024 = 0 ∧ z / 524288 % 8 = 0 then some (.arrwt (Fin.ofNat 8 (z / 4194304)) (Fin.ofNat 64 (z / 8192))) else none
  | 4 => if z / 8 % 16 = 0 ∧ z / 524288 % 64 = 0 then some (.bexpect (Fin.ofNat 64 (z / 8192)) (Fin.ofNat 64 (z / 128))) else none
  | 5 => if z / 524288 % 8 = 0 then (WCond.ofCode (z / 8 % 8)).bind fun cond => some (.waitw cond (bitOf z 64) (Fin.ofNat 8 (z / 4194304)) (Fin.ofNat 64 (z / 8192)) (Fin.ofNat 64 (z / 128))) else none
  | 6 => if z / 8 % 1024 = 0 ∧ z / 524288 % 64 = 0 then some (.wake (Fin.ofNat 64 (z / 8192))) else none
  | _ => none

/-- Major 0x2c (Table 2-10): xag xrs xar xbc xsig xgrp stmc ldrd. -/
def dec2c (z : Nat) : Option Instr :=
  match z % 8 with
  | 0 => if z / 8 % 2 = 0 ∧ z / 128 % 64 = 0 ∧ z / 524288 % 64 = 0 then some (.xag (Fin.ofNat 8 (z / 16)) (Fin.ofNat 64 (z / 8192))) else none
  | 1 => if z / 128 % 64 = 0 ∧ z / 524288 % 64 = 0 then some (.xrs (bitOf z 8) (Fin.ofNat 8 (z / 16)) (Fin.ofNat 64 (z / 8192))) else none
  | 2 => if z / 128 % 64 = 0 ∧ z / 524288 % 64 = 0 then some (.xar (bitOf z 8) (Fin.ofNat 8 (z / 16)) (Fin.ofNat 64 (z / 8192))) else none
  | 3 => if z / 8 % 2 = 0 ∧ z / 128 % 64 = 0 ∧ z / 524288 % 64 = 0 then some (.xbc (Fin.ofNat 8 (z / 16)) (Fin.ofNat 64 (z / 8192))) else none
  | 4 => if z / 8 % 2 = 0 ∧ z / 128 % 64 = 0 ∧ z / 524288 % 64 = 0 then some (.xsig (Fin.ofNat 8 (z / 16)) (Fin.ofNat 64 (z / 8192))) else none
  | 5 => if z / 8 % 2 = 0 ∧ z / 128 % 64 = 0 then some (.xgrp (Fin.ofNat 64 (z / 524288)) (Fin.ofNat 8 (z / 16)) (Fin.ofNat 64 (z / 8192))) else none
  | 6 => if z / 8 % 2 = 0 ∧ z / 32 % 4 = 0 ∧ z / 524288 % 64 = 0 then some (.stmc (bitOf z 16) (Fin.ofNat 64 (z / 8192)) (Fin.ofNat 64 (z / 128))) else none
  | 7 => if z / 128 % 64 = 0 then (RedOp2.ofCode (z / 16 % 4)).bind fun op => some (.ldrd (bitOf z 8) op (bitOf z 64) (Fin.ofNat 64 (z / 524288)) (Fin.ofNat 64 (z / 8192))) else none
  | _ => none

/-- Major 0x2d (Table 2-10): launch lwait ltear yield done getc ckpt twait tget frset. -/
def dec2d (z : Nat) : Option Instr :=
  match z % 16 with
  | 0 => if z / 16 % 512 = 0 then some (.launch (Fin.ofNat 64 (z / 524288)) (Fin.ofNat 64 (z / 8192))) else none
  | 1 => if z / 16 % 512 = 0 then some (.lwait (Fin.ofNat 64 (z / 524288)) (Fin.ofNat 64 (z / 8192))) else none
  | 2 => if z / 16 % 512 = 0 ∧ z / 524288 % 64 = 0 then some (.ltear (Fin.ofNat 64 (z / 8192))) else none
  | 3 => if z / 16 % 2097152 = 0 then some (.yield) else none
  | 4 => if z / 16 % 2097152 = 0 then some (.done) else none
  | 5 => if z / 128 % 4096 = 0 then some (.getc (Fin.ofNat 8 (z / 16)) (Fin.ofNat 64 (z / 524288))) else none
  | 6 => if z / 16 % 8 = 0 ∧ z / 8388608 % 4 = 0 then some (.ckpt (Fin.ofNat 65536 (z / 128))) else none
  | 7 => if z / 16 % 512 = 0 ∧ z / 524288 % 64 = 0 then some (.twait (Fin.ofNat 64 (z / 8192))) else none
  | 8 => if z / 128 % 4096 = 0 then (TgetSel.ofCode (z / 16 % 8)).bind fun sel => some (.tget sel (Fin.ofNat 64 (z / 524288))) else none
  | 9 => if z / 16 % 8 = 0 ∧ z / 524288 % 64 = 0 then some (.frset (Fin.ofNat 64 (z / 8192)) (Fin.ofNat 64 (z / 128))) else none
  | _ => none

/-- Major 0x2e (Table 2-10): trap eret sysrd syswr brk tlbinv. -/
def dec2e (z : Nat) : Option Instr :=
  match z % 8 with
  | 0 => if z / 8192 % 4096 = 0 then some (.trap (Fin.ofNat 1024 (z / 8))) else none
  | 1 => if z / 8 % 4194304 = 0 then some (.eret) else none
  | 2 => if z / 8192 % 64 = 0 then some (.sysrd (Fin.ofNat 64 (z / 524288)) (Fin.ofNat 1024 (z / 8))) else none
  | 3 => if z / 524288 % 64 = 0 then some (.syswr (Fin.ofNat 1024 (z / 8)) (Fin.ofNat 64 (z / 8192))) else none
  | 4 => if z / 8192 % 4096 = 0 then some (.brk (Fin.ofNat 1024 (z / 8))) else none
  | 5 => if z / 524288 % 64 = 0 then (TlbKind.ofCode (z / 8 % 4)).bind fun kind => (TlbReach.ofCode (z / 32 % 4)).bind fun reach => some (.tlbinv kind reach (Fin.ofNat 64 (z / 8192)) (Fin.ofNat 64 (z / 128))) else none
  | _ => none

/-- Major 0x2f (Table 2-10): eget eset gvhint_rsv gvhint_rel trc tagset tagget_tag tagget_hist wlrd. -/
def dec2f (z : Nat) : Option Instr :=
  match z % 8 with
  | 0 => if z / 128 % 64 = 0 then (EgetSel.ofCode (z / 8 % 16)).bind fun sel => some (.eget sel (Fin.ofNat 64 (z / 524288)) (Fin.ofNat 64 (z / 8192))) else none
  | 1 => if z / 128 % 64 = 0 ∧ z / 524288 % 64 = 0 then some (.eset (Fin.ofNat 16 (z / 8)) (Fin.ofNat 64 (z / 8192))) else none
  | 2 => (if z / 8 % 1024 = 0 then some (.gvhintRsv (Fin.ofNat 64 (z / 524288)) (Fin.ofNat 64 (z / 8192))) else none).or (if z / 8 % 4194304 = 1 then some (.gvhintRel) else none)
  | 3 => if z / 8 % 16 = 0 ∧ z / 524288 % 64 = 0 then some (.trc (Fin.ofNat 64 (z / 8192)) (Fin.ofNat 64 (z / 128))) else none
  | 4 => if z / 8 % 16 = 0 ∧ z / 524288 % 64 = 0 then some (.tagset (Fin.ofNat 64 (z / 8192)) (Fin.ofNat 64 (z / 128))) else none
  | 5 => (if z / 8 % 1024 = 0 then some (.taggetTag (Fin.ofNat 64 (z / 524288)) (Fin.ofNat 64 (z / 8192))) else none).or (if z / 8 % 16 = 1 then some (.taggetHist (Fin.ofNat 64 (z / 524288)) (Fin.ofNat 64 (z / 8192)) (Fin.ofNat 64 (z / 128))) else none)
  | 6 => if z / 128 % 64 = 0 then (WlrdSel.ofCode (z / 8 % 16)).bind fun sel => some (.wlrd sel (Fin.ofNat 64 (z / 524288)) (Fin.ofNat 64 (z / 8192))) else none
  | _ => none

/-- The instruction of a word by its major (Table 2-10); the majors without a row are reserved (R34). -/
def decodeRaw (ext : Option (Fin 2097152)) (w : Nat) : Option Instr :=
  match w / 33554432 % 64 with
  | 0 => dec00 w
  | 1 => dec01 w
  | 2 => dec02 w
  | 3 => dec03 w
  | 4 => dec04 w
  | 5 => dec05 w
  | 6 => dec06 ext w
  | 7 => dec07 ext w
  | 8 => dec08 ext w
  | 9 => dec09 ext w
  | 10 => dec0a w
  | 11 => dec0b ext w
  | 12 => dec0c ext w
  | 13 => dec0d ext w
  | 14 => dec0e w
  | 15 => dec0f w
  | 16 => dec10 w
  | 17 => dec11 w
  | 18 => dec12 w
  | 19 => dec13 w
  | 20 => dec14 ext w
  | 21 => dec15 ext w
  | 22 => dec16 ext w
  | 23 => dec17 w
  | 24 => dec18 w
  | 25 => dec19 w
  | 26 => dec1a w
  | 27 => dec1b w
  | 28 => dec1c ext w
  | 29 => dec1d w
  | 30 => dec1e w
  | 31 => dec1f w
  | 32 => dec20 w
  | 33 => dec21 w
  | 34 => dec22 ext w
  | 36 => dec24 w
  | 37 => dec25 w
  | 38 => dec26 w
  | 39 => dec27 w
  | 40 => dec28 w
  | 41 => dec29 w
  | 42 => dec2a w
  | 43 => dec2b w
  | 44 => dec2c w
  | 45 => dec2d w
  | 46 => dec2e w
  | 47 => dec2f w
  | _ => none

/-- The instruction of a word whose slot an H.imm extends (some) or not (none). The extension must reach an
immediate (R30), and the operands must be defined (R34). -/
def decode (ext : Option (Fin 2097152)) (w : Nat) : Option Instr :=
  (decodeRaw ext w).bind fun i => if i.ext = ext ∧ i.wf then some i else none

/-- The instruction of a table word: one slot word without a header, its stop bit left out (R21). -/
def decodeTableWord (nbits w : Nat) : Option Instr :=
  if 0 < nbits ∧ nbits ≤ 32 then decode none (w % 2147483648) else none

/-- The iteration test of a slot qualifier (Table 2-6); 3 is undefined. -/
def IterSel.ofCode : Nat → Option IterSel
  | 0 => some .every
  | 1 => some .first
  | 2 => some .last
  | _ => none

/-- The encoded value of an iteration test (Table 2-6). -/
def IterSel.code : IterSel → Nat
  | .every => 0
  | .first => 1
  | .last => 2

/-- A slot qualifier from its 7 bits (R29): the undefined values that do not depend on the slot give none. -/
def decodeQual (n : Nat) : Option Qual :=
  (IterSel.ofCode (n / 2 % 4)).bind fun it =>
    let q : Qual := ⟨Fin.ofNat 8 (n / 16), bitOf n 8, it, bitOf n 1⟩
    if q.wf then some q else none

/-- The 7 bits of a slot qualifier (Table 2-6). -/
def encodeQual (q : Qual) : Nat := q.pred.val * 16 + q.neg.toNat * 8 + q.iter.code * 2 + q.zero.toNat

/-- The header in a slot 0 word without its stop bit (R28, Table 2-5); none where undefined or no header. -/
def decodeHeader (w : Nat) : Option Header :=
  if w / 33554432 % 64 = 63 then
    match w / 8388608 % 4 with
    | 0 =>
      if w / 2097152 % 4 = 0 then
        (decodeQual (w / 16384 % 128)).bind fun a => (decodeQual (w / 128 % 128)).bind fun b =>
          (decodeQual (w % 128)).bind fun c => some (.qual a b c)
      else none
    | 1 => if w / 2097152 % 4 = 0 then none else some (.imm (Fin.ofNat 4 (w / 2097152)) (Fin.ofNat 2097152 w))
    | 2 => some (.stamp (Fin.ofNat 8388608 w))
    | _ => none
  else none

/-- The slot 0 word of a header, without a stop bit (Table 2-5). -/
def encodeHeader : Header → Nat
  | .qual a b c => 2113929216 + encodeQual a * 16384 + encodeQual b * 128 + encodeQual c
  | .imm t e => 2113929216 + 8388608 + t.val * 2097152 + e.val
  | .stamp n => 2113929216 + 16777216 + n.val

/-- The word of an instruction, without its stop bit; none for a row of the table that has no encoding. -/
def encode : Instr → Option Nat
  | .nop => some (0)
  | .add xd xa xb => some (33554432 + xd.val * 524288 + xa.val * 8192 + xb.val * 128)
  | .sub xd xa xb => some (33554433 + xd.val * 524288 + xa.val * 8192 + xb.val * 128)
  | .band xd xa xb => some (33554434 + xd.val * 524288 + xa.val * 8192 + xb.val * 128)
  | .bor xd xa xb => some (33554435 + xd.val * 524288 + xa.val * 8192 + xb.val * 128)
  | .bxor xd xa xb => some (33554436 + xd.val * 524288 + xa.val * 8192 + xb.val * 128)
  | .andn xd xa xb => some (33554437 + xd.val * 524288 + xa.val * 8192 + xb.val * 128)
  | .shl xd xa xb => some (33554438 + xd.val * 524288 + xa.val * 8192 + xb.val * 128)
  | .shr xd xa xb => some (33554439 + xd.val * 524288 + xa.val * 8192 + xb.val * 128)
  | .sar xd xa xb => some (33554440 + xd.val * 524288 + xa.val * 8192 + xb.val * 128)
  | .rot xd xa xb => some (33554441 + xd.val * 524288 + xa.val * 8192 + xb.val * 128)
  | .smin xd xa xb => some (33554442 + xd.val * 524288 + xa.val * 8192 + xb.val * 128)
  | .smax xd xa xb => some (33554443 + xd.val * 524288 + xa.val * 8192 + xb.val * 128)
  | .minu xd xa xb => some (33554444 + xd.val * 524288 + xa.val * 8192 + xb.val * 128)
  | .maxu xd xa xb => some (33554445 + xd.val * 524288 + xa.val * 8192 + xb.val * 128)
  | .mul xd xa xb => some (67108864 + xd.val * 524288 + xa.val * 8192 + xb.val * 128)
  | .mulh xd xa xb => some (67108865 + xd.val * 524288 + xa.val * 8192 + xb.val * 128)
  | .mulhu xd xa xb => some (67108866 + xd.val * 524288 + xa.val * 8192 + xb.val * 128)
  | .div xd xa xb => some (67108867 + xd.val * 524288 + xa.val * 8192 + xb.val * 128)
  | .divu xd xa xb => some (67108868 + xd.val * 524288 + xa.val * 8192 + xb.val * 128)
  | .rem xd xa xb => some (67108869 + xd.val * 524288 + xa.val * 8192 + xb.val * 128)
  | .remu xd xa xb => some (67108870 + xd.val * 524288 + xa.val * 8192 + xb.val * 128)
  | .clz xd xa => some (100663296 + xd.val * 524288 + xa.val * 8192)
  | .ctz xd xa => some (100663297 + xd.val * 524288 + xa.val * 8192)
  | .popc xd xa => some (100663298 + xd.val * 524288 + xa.val * 8192)
  | .sext sz xd xa => some (100663299 + sz.code * 128 + xd.val * 524288 + xa.val * 8192)
  | .zext sz xd xa => some (100663300 + sz.code * 128 + xd.val * 524288 + xa.val * 8192)
  | .mov xd xa => some (100663301 + xd.val * 524288 + xa.val * 8192)
  | .cmp cond qd xa xb => some (134217728 + cond.code + qd.val * 4194304 + xa.val * 8192 + xb.val * 128)
  | .bfx xd xa pos len => some (167772160 + xd.val * 524288 + xa.val * 8192 + pos.val * 128 + len.val * 2)
  | .bfi xd xa pos len => some (167772161 + xd.val * 524288 + xa.val * 8192 + pos.val * 128 + len.val * 2)
  | .addi xd xa imm => some (201326592 + xd.val * 524288 + xa.val * 8192 + imm.lo.val)
  | .andi xd xa imm => some (234881024 + xd.val * 524288 + xa.val * 8192 + imm.lo.val)
  | .ori xd xa imm => some (268435456 + xd.val * 524288 + xa.val * 8192 + imm.lo.val)
  | .xori xd xa imm => some (301989888 + xd.val * 524288 + xa.val * 8192 + imm.lo.val)
  | .shli xd xa amt => some (335544320 + xd.val * 524288 + xa.val * 8192 + amt.val * 128)
  | .shri xd xa amt => some (335544321 + xd.val * 524288 + xa.val * 8192 + amt.val * 128)
  | .sari xd xa amt => some (335544322 + xd.val * 524288 + xa.val * 8192 + amt.val * 128)
  | .roti xd xa amt => some (335544323 + xd.val * 524288 + xa.val * 8192 + amt.val * 128)
  | .cmpi cond qd xa imm => some (369098752 + cond.code * 524288 + qd.val * 4194304 + xa.val * 8192 + imm.lo.val)
  | .li xd imm => some (402653184 + xd.val * 524288 + imm.lo.val)
  | .lio xd imm => some (436207616 + xd.val * 524288 + imm.lo.val)
  | .sel xd qn neg xa xb => some (469762048 + xd.val * 524288 + qn.val * 16 + neg.toNat * 8 + xa.val * 8192 + xb.val * 128)
  | .pand qd qa qb => some (503316480 + qd.val * 4194304 + qa.val * 524288 + qb.val * 65536)
  | .por qd qa qb => some (503316481 + qd.val * 4194304 + qa.val * 524288 + qb.val * 65536)
  | .pxor qd qa qb => some (503316482 + qd.val * 4194304 + qa.val * 524288 + qb.val * 65536)
  | .pandn qd qa qb => some (503316483 + qd.val * 4194304 + qa.val * 524288 + qb.val * 65536)
  | .pset qd xa => some (503316484 + qd.val * 4194304 + xa.val * 1024)
  | .pget xd qa => some (503316485 + xd.val * 1024 + qa.val * 524288)
  | .br qn neg off => some (536870912 + qn.val * 4194304 + neg.toNat * 2097152 + off.val)
  | .jmp off => some (570425344 + off.val)
  | .call off => some (587202560 + off.val)
  | .jr xa => some (603979776 + xa.val * 8192)
  | .callr xd xa => some (603979777 + xd.val * 524288 + xa.val * 8192)
  | .ret xa => some (603979778 + xa.val * 8192)
  | .lpset lv xa endoff => some (637534208 + lv.val * 4194304 + xa.val * 8192 + endoff.val)
  | .lpseti lv count endoff => some (638058496 + lv.val * 4194304 + count.val * 512 + endoff.val)
  | .lpstr lv xr xs => some (638582784 + lv.val * 4194304 + xr.val * 8192 + xs.val * 128)
  | .lpbrk lv qn neg => some (639107072 + lv.val * 4194304 + qn.val * 65536 + neg.toNat * 32768)
  | .lprd xd lv sel => some (639631360 + xd.val * 8192 + lv.val * 4194304 + sel.val * 1024)
  | .lpwr lv sel xa => some (640155648 + lv.val * 4194304 + sel.val * 1024 + xa.val * 8192)
  | .ld sz xt xa off => some (671088640 + sz.code * 1024 + xt.val * 524288 + xa.val * 8192 + off.lo.val)
  | .st sz xt xa off => some (704643072 + sz.code * 1024 + xt.val * 524288 + xa.val * 8192 + off.lo.val)
  | .ldp dbl xd pw xa off => some (738197504 + dbl.toNat * 1024 + xd.val * 524288 + pw.val * 131072 + xa.val * 2048 + off.lo.val)
  | .qtst cond qd queue => some (771751936 + cond.code * 8192 + qd.val * 4194304 + queue.val * 65536)
  | .vadd et w vd va vb => some (805306368 + et.code * 32 + w.code * 256 + vd.val * 1048576 + va.val * 32768 + vb.val * 1024)
  | .vsub et w vd va vb => some (805306369 + et.code * 32 + w.code * 256 + vd.val * 1048576 + va.val * 32768 + vb.val * 1024)
  | .vmul et w vd va vb => some (805306370 + et.code * 32 + w.code * 256 + vd.val * 1048576 + va.val * 32768 + vb.val * 1024)
  | .vfma et w vd va vb => some (805306371 + et.code * 32 + w.code * 256 + vd.val * 1048576 + va.val * 32768 + vb.val * 1024)
  | .vfms et w vd va vb => some (805306372 + et.code * 32 + w.code * 256 + vd.val * 1048576 + va.val * 32768 + vb.val * 1024)
  | .vfnma et w vd va vb => some (805306373 + et.code * 32 + w.code * 256 + vd.val * 1048576 + va.val * 32768 + vb.val * 1024)
  | .vmin et w vd va vb => some (805306374 + et.code * 32 + w.code * 256 + vd.val * 1048576 + va.val * 32768 + vb.val * 1024)
  | .vmax et w vd va vb => some (805306375 + et.code * 32 + w.code * 256 + vd.val * 1048576 + va.val * 32768 + vb.val * 1024)
  | .vabs et w vd va => some (805306376 + et.code * 32 + w.code * 256 + vd.val * 1048576 + va.val * 32768)
  | .vneg et w vd va => some (805306377 + et.code * 32 + w.code * 256 + vd.val * 1048576 + va.val * 32768)
  | .vand et w vd va vb => some (805306378 + et.code * 32 + w.code * 256 + vd.val * 1048576 + va.val * 32768 + vb.val * 1024)
  | .vor et w vd va vb => some (805306379 + et.code * 32 + w.code * 256 + vd.val * 1048576 + va.val * 32768 + vb.val * 1024)
  | .vxor et w vd va vb => some (805306380 + et.code * 32 + w.code * 256 + vd.val * 1048576 + va.val * 32768 + vb.val * 1024)
  | .vandn et w vd va vb => some (805306381 + et.code * 32 + w.code * 256 + vd.val * 1048576 + va.val * 32768 + vb.val * 1024)
  | .vshl et w vd va vb => some (805306382 + et.code * 32 + w.code * 256 + vd.val * 1048576 + va.val * 32768 + vb.val * 1024)
  | .vshr et w vd va vb => some (805306383 + et.code * 32 + w.code * 256 + vd.val * 1048576 + va.val * 32768 + vb.val * 1024)
  | .vsar et w vd va vb => some (805306384 + et.code * 32 + w.code * 256 + vd.val * 1048576 + va.val * 32768 + vb.val * 1024)
  | .vcpy et w vd va => some (805306385 + et.code * 32 + w.code * 256 + vd.val * 1048576 + va.val * 32768)
  | .vcmp cond et w md va vb => some (838860800 + cond.code * 8388608 + et.code * 32 + w.code * 256 + md.val * 1048576 + va.val * 32768 + vb.val * 1024)
  | .vsel w vd va vb mn => some (838860801 + w.code * 256 + vd.val * 1048576 + va.val * 32768 + vb.val * 1024 + mn.val * 32)
  | .vmand md ma mb => some (838860802 + md.val * 1048576 + ma.val * 131072 + mb.val * 4096)
  | .vmor md ma mb => some (838860803 + md.val * 1048576 + ma.val * 131072 + mb.val * 4096)
  | .vmnot md ma => some (838860804 + md.val * 1048576 + ma.val * 131072)
  | .vmcnt et w xd mn => some (838860805 + et.code * 32 + w.code * 256 + xd.val * 524288 + mn.val * 65536)
  | .vmfst et w xd mn => some (838860806 + et.code * 32 + w.code * 256 + xd.val * 524288 + mn.val * 65536)
  | .vbcast et w vd xa => some (872415232 + et.code * 32 + w.code * 256 + vd.val * 1048576 + xa.val * 16384)
  | .vins et vd xa xb => some (872415233 + et.code * 32 + vd.val * 1048576 + xa.val * 16384 + xb.val * 256)
  | .vext et xd va xb => some (872415234 + et.code * 32 + xd.val * 524288 + va.val * 16384 + xb.val * 256)
  | .vred op et w vd va => some (872415235 + op.code * 1024 + et.code * 32 + w.code * 256 + vd.val * 1048576 + va.val * 32768)
  | .vscan op et w vd va => some (872415236 + op.code * 1024 + et.code * 32 + w.code * 256 + vd.val * 1048576 + va.val * 32768)
  | .vperm et w vd va vb => some (872415237 + et.code * 32 + w.code * 256 + vd.val * 1048576 + va.val * 32768 + vb.val * 1024)
  | .vshuf pat et w vd va => some (872415238 + pat.code * 1024 + et.code * 32 + w.code * 256 + vd.val * 1048576 + va.val * 32768)
  | .vslide et w vd va s => some (872415239 + et.code * 32 + w.code * 256 + vd.val * 1048576 + va.val * 32768 + s.val * 1024)
  | .vcomp et w vd va mn => some (872415240 + et.code * 32 + w.code * 256 + vd.val * 1048576 + va.val * 32768 + mn.val * 1024)
  | .vpart et w vd mn => some (905969664 + et.code * 32 + w.code * 256 + vd.val * 1048576 + mn.val * 1024)
  | .vgat et w vd va vb => some (905969665 + et.code * 32 + w.code * 256 + vd.val * 1048576 + va.val * 32768 + vb.val * 1024)
  | .vsct et w vd va vb => some (905969666 + et.code * 32 + w.code * 256 + vd.val * 1048576 + va.val * 32768 + vb.val * 1024)
  | .vld w vt xa off => some (939524096 + w.code * 4096 + vt.val * 1048576 + xa.val * 16384 + off.lo.val)
  | .vst w vt xa off => some (939524608 + w.code * 4096 + vt.val * 1048576 + xa.val * 16384 + off.lo.val)
  | .vldx w vt xa off pk => some (939525120 + w.code * 4096 + vt.val * 1048576 + xa.val * 16384 + off.val + pk.val * 128)
  | .vldt w vt xa off pk => some (939525632 + w.code * 4096 + vt.val * 1048576 + xa.val * 16384 + off.val + pk.val * 128)
  | .pkset pk xa => some (939526144 + pk.val * 1048576 + xa.val * 16384)
  | .vrcp acc ft w vd va => some (973078528 + acc.toNat * 128 + ft.code * 32 + w.code * 256 + vd.val * 1048576 + va.val * 32768)
  | .vrsq acc ft w vd va => some (973078529 + acc.toNat * 128 + ft.code * 32 + w.code * 256 + vd.val * 1048576 + va.val * 32768)
  | .vsqrt acc ft w vd va => some (973078530 + acc.toNat * 128 + ft.code * 32 + w.code * 256 + vd.val * 1048576 + va.val * 32768)
  | .vexp2 acc ft w vd va => some (973078531 + acc.toNat * 128 + ft.code * 32 + w.code * 256 + vd.val * 1048576 + va.val * 32768)
  | .vlog2 acc ft w vd va => some (973078532 + acc.toNat * 128 + ft.code * 32 + w.code * 256 + vd.val * 1048576 + va.val * 32768)
  | .vtanh acc ft w vd va => some (973078533 + acc.toNat * 128 + ft.code * 32 + w.code * 256 + vd.val * 1048576 + va.val * 32768)
  | .vsigm acc ft w vd va => some (973078534 + acc.toNat * 128 + ft.code * 32 + w.code * 256 + vd.val * 1048576 + va.val * 32768)
  | .vgelu acc ft w vd va => some (973078535 + acc.toNat * 128 + ft.code * 32 + w.code * 256 + vd.val * 1048576 + va.val * 32768)
  | .vsin acc ft w vd va => some (973078536 + acc.toNat * 128 + ft.code * 32 + w.code * 256 + vd.val * 1048576 + va.val * 32768)
  | .vcos acc ft w vd va => some (973078537 + acc.toNat * 128 + ft.code * 32 + w.code * 256 + vd.val * 1048576 + va.val * 32768)
  | .vrfn ft w vd va k => some (973078538 + ft.code * 32 + w.code * 256 + vd.val * 1048576 + va.val * 32768 + k.val * 1024)
  | .vcvt src dst rnd sat dith w vd va => some (1006632960 + src.code * 2048 + dst.code * 128 + rnd.code * 32 + sat.toNat * 16 + dith.toNat * 8 + w.code * 2 + vd.val * 1048576 + va.val * 32768)
  | .vqnt et w vd va vb => some (1040187392 + et.code * 32 + w.code * 256 + vd.val * 1048576 + va.val * 32768 + vb.val * 1024)
  | .vdqnt et w vd va vb => some (1040187393 + et.code * 32 + w.code * 256 + vd.val * 1048576 + va.val * 32768 + vb.val * 1024)
  | .vscl et w vd va => some (1040187394 + et.code * 32 + w.code * 256 + vd.val * 1048576 + va.val * 32768)
  | .cbld cb va => some (1040187395 + cb.val * 1048576 + va.val * 32768)
  | .cbq cb2 et w vd va cb => some (1040187396 + cb2.toNat * 16384 + et.code * 32 + w.code * 256 + vd.val * 1048576 + va.val * 32768 + cb.val * 1024)
  | .cbx cb2 et w vd va cb => some (1040187397 + cb2.toNat * 16384 + et.code * 32 + w.code * 256 + vd.val * 1048576 + va.val * 32768 + cb.val * 1024)
  | .dthset xd xa wr => some (1040187398 + xd.val * 524288 + xa.val * 8192 + wr.toNat * 4096)
  | .vpk b w vd va => some (1040187399 + b.val * 1024 + w.code * 256 + vd.val * 1048576 + va.val * 32768)
  | .vupk b w vd va => some (1040187400 + b.val * 1024 + w.code * 256 + vd.val * 1048576 + va.val * 32768)
  | .mma acc cnt ra rb wp keep => some (1073741824 + acc.val * 2097152 + cnt.val * 131072 + ra.val * 8192 + rb.val * 512 + wp.val * 64 + keep.toNat * 32)
  | .mmz acc cnt ra rb wp keep => some (1073741840 + acc.val * 2097152 + cnt.val * 131072 + ra.val * 8192 + rb.val * 512 + wp.val * 64 + keep.toNat * 32)
  | .pcw wd xa => some (1107296256 + wd.val * 524288 + xa.val * 8192)
  | .pcwr wd ws xa fld => some (1111490560 + wd.val * 524288 + ws.val * 65536 + xa.val * 1024 + fld.val * 64)
  | .accz acc cnt tag => some (1115684864 + acc.val * 262144 + cnt.val * 16384 + tag.val * 1024)
  | .accrd vd tile xa imm => some (1119879168 + vd.val * 131072 + tile.val * 8192 + xa.val * 128 + imm.val)
  | .accwr tile va xa imm => some (1124073472 + tile.val * 262144 + va.val * 8192 + xa.val * 128 + imm.val)
  | .mwait mask => some (1128267776 + mask.val * 64)
  | .rset ring xa xb => some (1140850688 + ring.val * 2097152 + xa.val * 8192 + xb.val * 128)
  | .rget sel xd ring => some (1141374976 + sel.lo.val + xd.val * 8192 + ring.val * 2097152)
  | .rpush ring k => some (1141899264 + ring.val * 2097152 + k.lo.val)
  | .rpop ring k => some (1142423552 + ring.val * 2097152 + k.lo.val)
  | .ppst acc cnt xa ring toRing set => some (1207959552 + acc.val * 524288 + cnt.val * 32768 + xa.val * 512 + ring.val * 32 + toRing.toNat * 16 + set.val * 4)
  | .ppcfgWord set wd xa => some (1216348160 + set.val * 1048576 + wd.val * 262144 + xa.val * 4096)
  | .ppcfgThreshold ht xa => some (1220542464 + ht.val * 524288 + xa.val * 4096)
  | .htag xa cnt tag => some (1224736768 + xa.val * 131072 + cnt.val * 512 + tag.val * 32)
  | .hrec xa xb cnt => some (1233125376 + xa.val * 131072 + xb.val * 2048 + cnt.val * 128)
  | .hthr w vd va ht => some (1241513984 + w.code * 256 + vd.val * 1048576 + va.val * 32768 + ht.val * 1024)
  | .hfwd w vd va vb => some (1241513985 + w.code * 256 + vd.val * 1048576 + va.val * 32768 + vb.val * 1024)
  | .hinv w vd va vb => some (1241513986 + w.code * 256 + vd.val * 1048576 + va.val * 32768 + vb.val * 1024)
  | .cp cq xa xb sh sig => some (1275068416 + cq.val * 4 + xa.val * 524288 + xb.val * 8192 + sh.val * 128 + sig.toNat)
  | .cpt cq xa xb sh sig => some (1275068432 + cq.val * 4 + xa.val * 524288 + xb.val * 8192 + sh.val * 128 + sig.toNat)
  | .cpx cq xa xb sh sig => some (1275068448 + cq.val * 4 + xa.val * 524288 + xb.val * 8192 + sh.val * 128 + sig.toNat)
  | .cpg cq xa xb sh sig => some (1275068464 + cq.val * 4 + xa.val * 524288 + xb.val * 8192 + sh.val * 128 + sig.toNat)
  | .cps ord cq xa xb sh sig => some (1275068480 + ord.toNat * 2 + cq.val * 4 + xa.val * 524288 + xb.val * 8192 + sh.val * 128 + sig.toNat)
  | .cpr ord cq xa xb sh sig => some (1275068496 + ord.toNat * 2 + cq.val * 4 + xa.val * 524288 + xb.val * 8192 + sh.val * 128 + sig.toNat)
  | .cpsig cq xa xb => some (1275068512 + cq.val * 4 + xa.val * 524288 + xb.val * 8192)
  | .tmv cq xa xb sh sig => some (1275068528 + cq.val * 4 + xa.val * 524288 + xb.val * 8192 + sh.val * 128 + sig.toNat)
  | .shape sh k xa => some (1308622848 + sh.val * 524288 + k.val * 131072 + xa.val * 2048)
  | .qstat sel xd queue => some (1317011456 + sel.code * 4096 + xd.val * 131072 + queue.val * 16384)
  | .qcan queue => some (1325400064 + queue.val * 1048576)
  | .qrty queue => some (1333788672 + queue.val * 1048576)
  | .fence kind scope => some (1342177280 + kind.code * 262144 + scope.code * 1048576)
  | .qfence mask => some (1350565888 + mask.val * 1024)
  | .harvest xa => some (1358954496 + xa.val * 4096)
  | .amoadd dbl acq rel xd xa xb => some (1375731712 + dbl.toNat * 64 + acq.toNat * 32 + rel.toNat * 16 + xd.val * 524288 + xa.val * 8192 + xb.val * 128)
  | .amoand dbl acq rel xd xa xb => some (1375731713 + dbl.toNat * 64 + acq.toNat * 32 + rel.toNat * 16 + xd.val * 524288 + xa.val * 8192 + xb.val * 128)
  | .amoor dbl acq rel xd xa xb => some (1375731714 + dbl.toNat * 64 + acq.toNat * 32 + rel.toNat * 16 + xd.val * 524288 + xa.val * 8192 + xb.val * 128)
  | .amoxor dbl acq rel xd xa xb => some (1375731715 + dbl.toNat * 64 + acq.toNat * 32 + rel.toNat * 16 + xd.val * 524288 + xa.val * 8192 + xb.val * 128)
  | .amomin dbl acq rel xd xa xb => some (1375731716 + dbl.toNat * 64 + acq.toNat * 32 + rel.toNat * 16 + xd.val * 524288 + xa.val * 8192 + xb.val * 128)
  | .amomax dbl acq rel xd xa xb => some (1375731717 + dbl.toNat * 64 + acq.toNat * 32 + rel.toNat * 16 + xd.val * 524288 + xa.val * 8192 + xb.val * 128)
  | .amominu dbl acq rel xd xa xb => some (1375731718 + dbl.toNat * 64 + acq.toNat * 32 + rel.toNat * 16 + xd.val * 524288 + xa.val * 8192 + xb.val * 128)
  | .amomaxu dbl acq rel xd xa xb => some (1375731719 + dbl.toNat * 64 + acq.toNat * 32 + rel.toNat * 16 + xd.val * 524288 + xa.val * 8192 + xb.val * 128)
  | .amoswap dbl acq rel xd xa xb => some (1375731720 + dbl.toNat * 64 + acq.toNat * 32 + rel.toNat * 16 + xd.val * 524288 + xa.val * 8192 + xb.val * 128)
  | .amocas dbl acq rel xd xa xb => some (1375731721 + dbl.toNat * 64 + acq.toNat * 32 + rel.toNat * 16 + xd.val * 524288 + xa.val * 8192 + xb.val * 128)
  | .amofadd ord dbl cls xd xa xb => some (1409286144 + ord.toNat * 32 + dbl.toNat * 64 + cls.code * 8 + xd.val * 524288 + xa.val * 8192 + xb.val * 128)
  | .amofmin dbl cls xd xa xb => some (1409286145 + dbl.toNat * 64 + cls.code * 8 + xd.val * 524288 + xa.val * 8192 + xb.val * 128)
  | .amofmax dbl cls xd xa xb => some (1409286146 + dbl.toNat * 64 + cls.code * 8 + xd.val * 524288 + xa.val * 8192 + xb.val * 128)
  | .redfadd ord dbl cls xa xb => some (1409286147 + ord.toNat * 32 + dbl.toNat * 64 + cls.code * 8 + xa.val * 8192 + xb.val * 128)
  | .binadd dbl cls xa xb => some (1409286148 + dbl.toNat * 64 + cls.code * 8 + xa.val * 8192 + xb.val * 128)
  | .binfold dbl cls xd xa => some (1409286149 + dbl.toNat * 64 + cls.code * 8 + xd.val * 524288 + xa.val * 8192)
  | .bininit cls xa xb => some (1409286150 + cls.code * 8 + xa.val * 8192 + xb.val * 128)
  | .barinit xa xb => some (1442840576 + xa.val * 8192 + xb.val * 128)
  | .arrive xd xa => some (1442840577 + xd.val * 524288 + xa.val * 8192)
  | .bwait qd xa xb => some (1442840578 + qd.val * 4194304 + xa.val * 8192 + xb.val * 128)
  | .arrwt qd xa => some (1442840579 + qd.val * 4194304 + xa.val * 8192)
  | .bexpect xa xb => some (1442840580 + xa.val * 8192 + xb.val * 128)
  | .waitw cond dbl qd xa xb => some (1442840581 + cond.code * 8 + dbl.toNat * 64 + qd.val * 4194304 + xa.val * 8192 + xb.val * 128)
  | .wake xa => some (1442840582 + xa.val * 8192)
  | .xag xq xa => some (1476395008 + xq.val * 16 + xa.val * 8192)
  | .xrs ord xq xa => some (1476395009 + ord.toNat * 8 + xq.val * 16 + xa.val * 8192)
  | .xar ord xq xa => some (1476395010 + ord.toNat * 8 + xq.val * 16 + xa.val * 8192)
  | .xbc xq xa => some (1476395011 + xq.val * 16 + xa.val * 8192)
  | .xsig xq xa => some (1476395012 + xq.val * 16 + xa.val * 8192)
  | .xgrp xd g xa => some (1476395013 + xd.val * 524288 + g.val * 16 + xa.val * 8192)
  | .stmc dbl xa xb => some (1476395014 + dbl.toNat * 16 + xa.val * 8192 + xb.val * 128)
  | .ldrd ord op dbl xd xa => some (1476395015 + ord.toNat * 8 + op.code * 16 + dbl.toNat * 64 + xd.val * 524288 + xa.val * 8192)
  | .launch xd xa => some (1509949440 + xd.val * 524288 + xa.val * 8192)
  | .lwait xd xa => some (1509949441 + xd.val * 524288 + xa.val * 8192)
  | .ltear xa => some (1509949442 + xa.val * 8192)
  | .yield => some (1509949443)
  | .done => some (1509949444)
  | .getc sel xd => some (1509949445 + sel.val * 16 + xd.val * 524288)
  | .ckpt n => some (1509949446 + n.val * 128)
  | .twait xa => some (1509949447 + xa.val * 8192)
  | .tget sel xd => some (1509949448 + sel.code * 16 + xd.val * 524288)
  | .frset xa xb => some (1509949449 + xa.val * 8192 + xb.val * 128)
  | .trap code => some (1543503872 + code.val * 8)
  | .eret => some (1543503873)
  | .sysrd xd srn => some (1543503874 + xd.val * 524288 + srn.val * 8)
  | .syswr srn xa => some (1543503875 + srn.val * 8 + xa.val * 8192)
  | .brk code => some (1543503876 + code.val * 8)
  | .tlbinv kind reach xa xb => some (1543503877 + kind.code * 8 + reach.code * 32 + xa.val * 8192 + xb.val * 128)
  | .eget sel xd xa => some (1577058304 + sel.code * 8 + xd.val * 524288 + xa.val * 8192)
  | .eset cls xa => some (1577058305 + cls.val * 8 + xa.val * 8192)
  | .gvhintRsv xd xa => some (1577058306 + xd.val * 524288 + xa.val * 8192)
  | .gvhintRel => some (1577058314)
  | .trc xa xb => some (1577058307 + xa.val * 8192 + xb.val * 128)
  | .tagset xa xb => some (1577058308 + xa.val * 8192 + xb.val * 128)
  | .taggetTag xd xa => some (1577058309 + xd.val * 524288 + xa.val * 8192)
  | .taggetHist xd xa xb => some (1577058317 + xd.val * 524288 + xa.val * 8192 + xb.val * 128)
  | .wlrd sel xd xa => some (1577058310 + sel.code * 8 + xd.val * 524288 + xa.val * 8192)
  | .issueTurnEnd _ => none
  | .stampedBundleIssue _ => none
  | .asyncFaultDelivery _ => none
  | .dividerFree _ => none
  | .bTileStaging _ => none
  | .passStart _ => none
  | .passCommit _ _ => none
  | .matrixRetire _ => none
  | .cancelledEntryRetire _ => none
  | .acczExecute _ => none
  | .accrdExecute _ => none
  | .accwrExecute _ => none
  | .ringSlotReserve _ _ => none
  | .ppeEntryStart _ => none
  | .ppstTileComplete _ => none
  | .hrecTileComplete _ => none
  | .htagApply _ => none
  | .copyOperationStart _ _ => none
  | .copyUnitDelivery _ _ => none
  | .copyBarrierReport _ _ => none
  | .copyCompletion _ _ => none
  | .squareRequestApply _ => none
  | .orderedBatchApply _ => none
  | .barrierWaitReturn _ => none
  | .waitwReturn _ => none
  | .mwaitReturn _ => none
  | .rgetWaitReturn _ => none
  | .lwaitReturn _ => none
  | .twaitReturn _ => none
  | .doneDrainEnd _ => none
  | .collectiveStart _ _ => none
  | .collectiveHeaderMatch _ _ => none
  | .collectiveDataUnit _ _ => none
  | .xsigTileDelivery _ _ => none
  | .collectiveCompletion _ _ => none
  | .peerCancel _ _ => none
  | .stmcMemberWrite _ _ => none
  | .stmcAcknowledged _ => none
  | .ldrdReturn _ => none
  | .flitRetry _ _ => none
  | .lanePause _ _ _ => none
  | .fabricPathFailed _ _ => none
  | .launchRecordArrival _ _ _ => none
  | .agingInterval _ => none
  | .holdRequest _ _ _ => none
  | .launchPlacement _ _ => none
  | .preemptDeadline _ => none
  | .pinnedTaskStart _ => none
  | .contextSave _ => none
  | .taskResume _ _ _ => none
  | .launchRetire _ => none
  | .ptpSyncMessage _ _ => none
  | .lockLoss _ => none
  | .governorTick _ => none
  | .grantExpiry _ => none
  | .traceSample _ => none
  | .patrolScrub _ _ _ => none
  | .heartbeat _ => none
  | .commandRingPoll _ => none
  | .hostNop _ => none
  | .hostLaunch _ => none
  | .hostTear _ => none
  | .hostResync _ => none
  | .hostFwstage _ => none
  | .hostFwact _ => none
  | .hostAttest _ => none
  | .hostCert _ => none
  | .configGage _ => none
  | .configGdead _ => none
  | .configGqdn _ => none
  | .configGramp _ => none
  | .configGpmax _ => none
  | .configGuncore _ => none
  | .configOtring _ => none
  | .configOwring _ => none
  | .configOwmin _ => none
  | .hostReset _ => none
  | .powerOnReset => none
  | .bootStageAdvance _ _ => none
  | .gcmdResume _ => none
  | .gcmdEnd _ _ => none
  | .gcmdForward _ => none
  | .cviewWrite _ _ => none
  | .grampWrite _ _ => none
  | .ecntWrite _ _ => none
  | .otringWrite _ _ => none
  | .owringWrite _ _ => none
  | .loadReturn _ _ => none
  | .writePerformed _ => none
  | .faultServiced _ => none
  | .harvestAreaExtended _ _ => none
  | .switchGroupInstall _ => none
  | .quarterDieNumberMessage _ _ => none

end Sys2Proof
end

