-- ==== Sys2Proof/Machine/Operands.lean ====
section
/-! DEFINITION. The operand side of an instruction: its unit and slots (R26), its lane groups (R113), its energy class
(R411), the registers that the independence rule counts (Table 2-2), and the bundle as its four words read (R21 to
R31): header, slots, and what makes it illegal (R27) or dependent (R23, R24). -/

namespace Sys2Proof.Machine

/-- The units of Table 2-3. -/
inductive FU where
  | sa | br | ls | vx | mx | eq | sy
  deriving DecidableEq, Repr

/-- The slots a unit's majors may stand in (Table 2-3). -/
def FU.slots : FU → List Nat
  | .sa => [0, 1, 3]
  | .br => [0]
  | .ls => [1, 2]
  | .vx => [2, 3]
  | .mx => [3]
  | .eq => [1, 2]
  | .sy => [0]

/-- How many slots of a bundle may ask for the unit (Table 2-3). -/
def FU.count : FU → Nat
  | .sa => 2
  | .br => 1
  | .ls => 1
  | .vx => 2
  | .mx => 1
  | .eq => 1
  | .sy => 1

/-- Lane groups of a width (Table 2-4), which is also the count of its 32-byte parts. -/
def widthGroups : Width → Nat
  | .w256 => 1
  | .w512 => 2
  | .w1024 => 4

/-- Bits of a width (Table 2-4). -/
def widthBits (w : Width) : Nat := 256 * widthGroups w

/-- The system register that a selector of `eget` reads (R416); the weights count as register 1,024. -/
def egetReg : EgetSel → RegId
  | .ecnt => .sys 0x040
  | .eidle => .sys 0x041
  | .ebal => .sys 0x042
  | .bcyc => .sys 0x043
  | .gest => .sys 0x044
  | .gslot => .sys 0x045
  | .gstat => .sys 0x046
  | .wgt => .sys 1024
  | .estat => .sys 0x048

/-- The register that a system register number is to the independence rule: cstat, the trap record and the power
registers count, of the context itself and of the one that `gsel` selects; no other does (Table 2-2). -/
def sysRegs (n : Nat) : List RegId :=
  let own := if 0x200 ≤ n then n - 0x200 else n
  if n < 0x100 ∨ (0x200 ≤ n ∧ n < 0x300) then
    if own = 0 ∨ (0x008 ≤ own ∧ own ≤ 0x00e) ∨ (0x040 ≤ own ∧ own ≤ 0x04b) then [.sys n] else []
  else []

/-- What the issue of a slot needs to know of its instruction: its unit; its energy class and the units of charge
(Table 16-1); its lane groups (Table 2-4); the registers counted as read and as written (Table 2-2); and its explicit
destinations, which ZERO clears (R29). -/
structure SlotInfo where
  unit : Option FU
  cls : Nat
  amount : Nat
  lanes : Nat
  reads : List RegId
  writes : List RegId
  dests : List RegId
  deriving DecidableEq, Repr

/-- `nop`, and the operations that are no slot. -/
def SlotInfo.idle : SlotInfo := ⟨none, 0, 0, 0, [], [], []⟩

/-- The issue facts of every instruction (Tables 2-3, 2-10, 2-2, 16-1; the independence clauses of the entries). -/
def slotInfo : Instr → SlotInfo
  | .nop => .idle
  | .add xd xa xb => ⟨some .sa, 0, 1, 0, [.x xa, .x xb], [.x xd], [.x xd]⟩
  | .sub xd xa xb => ⟨some .sa, 0, 1, 0, [.x xa, .x xb], [.x xd], [.x xd]⟩
  | .band xd xa xb => ⟨some .sa, 0, 1, 0, [.x xa, .x xb], [.x xd], [.x xd]⟩
  | .bor xd xa xb => ⟨some .sa, 0, 1, 0, [.x xa, .x xb], [.x xd], [.x xd]⟩
  | .bxor xd xa xb => ⟨some .sa, 0, 1, 0, [.x xa, .x xb], [.x xd], [.x xd]⟩
  | .andn xd xa xb => ⟨some .sa, 0, 1, 0, [.x xa, .x xb], [.x xd], [.x xd]⟩
  | .shl xd xa xb => ⟨some .sa, 0, 1, 0, [.x xa, .x xb], [.x xd], [.x xd]⟩
  | .shr xd xa xb => ⟨some .sa, 0, 1, 0, [.x xa, .x xb], [.x xd], [.x xd]⟩
  | .sar xd xa xb => ⟨some .sa, 0, 1, 0, [.x xa, .x xb], [.x xd], [.x xd]⟩
  | .rot xd xa xb => ⟨some .sa, 0, 1, 0, [.x xa, .x xb], [.x xd], [.x xd]⟩
  | .smin xd xa xb => ⟨some .sa, 0, 1, 0, [.x xa, .x xb], [.x xd], [.x xd]⟩
  | .smax xd xa xb => ⟨some .sa, 0, 1, 0, [.x xa, .x xb], [.x xd], [.x xd]⟩
  | .minu xd xa xb => ⟨some .sa, 0, 1, 0, [.x xa, .x xb], [.x xd], [.x xd]⟩
  | .maxu xd xa xb => ⟨some .sa, 0, 1, 0, [.x xa, .x xb], [.x xd], [.x xd]⟩
  | .mul xd xa xb => ⟨some .sa, 1, 1, 0, [.x xa, .x xb], [.x xd], [.x xd]⟩
  | .mulh xd xa xb => ⟨some .sa, 1, 1, 0, [.x xa, .x xb], [.x xd], [.x xd]⟩
  | .mulhu xd xa xb => ⟨some .sa, 1, 1, 0, [.x xa, .x xb], [.x xd], [.x xd]⟩
  | .div xd xa xb => ⟨some .sa, 1, 1, 0, [.x xa, .x xb], [.x xd], [.x xd]⟩
  | .divu xd xa xb => ⟨some .sa, 1, 1, 0, [.x xa, .x xb], [.x xd], [.x xd]⟩
  | .rem xd xa xb => ⟨some .sa, 1, 1, 0, [.x xa, .x xb], [.x xd], [.x xd]⟩
  | .remu xd xa xb => ⟨some .sa, 1, 1, 0, [.x xa, .x xb], [.x xd], [.x xd]⟩
  | .clz xd xa => ⟨some .sa, 0, 1, 0, [.x xa], [.x xd], [.x xd]⟩
  | .ctz xd xa => ⟨some .sa, 0, 1, 0, [.x xa], [.x xd], [.x xd]⟩
  | .popc xd xa => ⟨some .sa, 0, 1, 0, [.x xa], [.x xd], [.x xd]⟩
  | .sext _ xd xa => ⟨some .sa, 0, 1, 0, [.x xa], [.x xd], [.x xd]⟩
  | .zext _ xd xa => ⟨some .sa, 0, 1, 0, [.x xa], [.x xd], [.x xd]⟩
  | .mov xd xa => ⟨some .sa, 0, 1, 0, [.x xa], [.x xd], [.x xd]⟩
  | .cmp _ qd xa xb => ⟨some .sa, 0, 1, 0, [.x xa, .x xb], [.q qd], [.q qd]⟩
  | .bfx xd xa _ _ => ⟨some .sa, 0, 1, 0, [.x xa], [.x xd], [.x xd]⟩
  | .bfi xd xa _ _ => ⟨some .sa, 0, 1, 0, [.x xa, .x xd], [.x xd], [.x xd]⟩
  | .addi xd xa _ => ⟨some .sa, 0, 1, 0, [.x xa], [.x xd], [.x xd]⟩
  | .andi xd xa _ => ⟨some .sa, 0, 1, 0, [.x xa], [.x xd], [.x xd]⟩
  | .ori xd xa _ => ⟨some .sa, 0, 1, 0, [.x xa], [.x xd], [.x xd]⟩
  | .xori xd xa _ => ⟨some .sa, 0, 1, 0, [.x xa], [.x xd], [.x xd]⟩
  | .shli xd xa _ => ⟨some .sa, 0, 1, 0, [.x xa], [.x xd], [.x xd]⟩
  | .shri xd xa _ => ⟨some .sa, 0, 1, 0, [.x xa], [.x xd], [.x xd]⟩
  | .sari xd xa _ => ⟨some .sa, 0, 1, 0, [.x xa], [.x xd], [.x xd]⟩
  | .roti xd xa _ => ⟨some .sa, 0, 1, 0, [.x xa], [.x xd], [.x xd]⟩
  | .cmpi _ qd xa _ => ⟨some .sa, 0, 1, 0, [.x xa], [.q qd], [.q qd]⟩
  | .li xd _ => ⟨some .sa, 0, 1, 0, [], [.x xd], [.x xd]⟩
  | .lio xd _ => ⟨some .sa, 0, 1, 0, [.x xd], [.x xd], [.x xd]⟩
  | .sel xd qn _ xa xb => ⟨some .sa, 0, 1, 0, [.q qn, .x xa, .x xb], [.x xd], [.x xd]⟩
  | .pand qd qa qb => ⟨some .sa, 0, 1, 0, [.q qa, .q qb], [.q qd], [.q qd]⟩
  | .por qd qa qb => ⟨some .sa, 0, 1, 0, [.q qa, .q qb], [.q qd], [.q qd]⟩
  | .pxor qd qa qb => ⟨some .sa, 0, 1, 0, [.q qa, .q qb], [.q qd], [.q qd]⟩
  | .pandn qd qa qb => ⟨some .sa, 0, 1, 0, [.q qa, .q qb], [.q qd], [.q qd]⟩
  | .pset qd xa => ⟨some .sa, 0, 1, 0, [.x xa], [.q qd], [.q qd]⟩
  | .pget xd qa => ⟨some .sa, 0, 1, 0, [.q qa], [.x xd], [.x xd]⟩
  | .br qn _ _ => ⟨some .br, 2, 1, 0, [.q qn], [], []⟩
  | .jmp _ => ⟨some .br, 2, 1, 0, [], [], []⟩
  | .call _ => ⟨some .br, 2, 1, 0, [], [.x 63], []⟩
  | .jr xa => ⟨some .br, 2, 1, 0, [.x xa], [], []⟩
  | .callr xd xa => ⟨some .br, 2, 1, 0, [.x xa], [.x xd], [.x xd]⟩
  | .ret xa => ⟨some .br, 2, 1, 0, [.x xa], [], []⟩
  | .lpset lv xa _ => ⟨some .br, 2, 1, 0, [.x xa], [.lv lv], []⟩
  | .lpseti lv _ _ => ⟨some .br, 2, 1, 0, [], [.lv lv], []⟩
  | .lpstr lv xr xs => ⟨some .br, 2, 1, 0, [.x xr, .x xs], [.lv lv], []⟩
  | .lpbrk lv qn _ => ⟨some .br, 2, 1, 0, [.q qn], [.lv lv], []⟩
  | .lprd xd lv _ => ⟨some .br, 2, 1, 0, [.lv lv], [.x xd], [.x xd]⟩
  | .lpwr lv _ xa => ⟨some .br, 2, 1, 0, [.x xa], [.lv lv], []⟩
  | .ld _ xt xa _ => ⟨some .ls, 3, 1, 0, [.x xa], [.x xt], [.x xt]⟩
  | .st _ xt xa _ => ⟨some .ls, 3, 1, 0, [.x xt, .x xa], [], []⟩
  | .ldp _ xd _ xa _ => ⟨some .ls, 3, 1, 0, [.x xa], [.x xd], [.x xd]⟩
  | .qtst _ qd _ => ⟨some .sa, 0, 1, 0, [], [.q qd], [.q qd]⟩
  | .vadd _ w vd va vb => ⟨some .vx, 5, widthGroups w, widthGroups w, [.v va, .v vb], [.v vd], [.v vd]⟩
  | .vsub _ w vd va vb => ⟨some .vx, 5, widthGroups w, widthGroups w, [.v va, .v vb], [.v vd], [.v vd]⟩
  | .vmul _ w vd va vb => ⟨some .vx, 5, widthGroups w, widthGroups w, [.v va, .v vb], [.v vd], [.v vd]⟩
  | .vfma _ w vd va vb => ⟨some .vx, 5, widthGroups w, widthGroups w, [.v va, .v vb, .v vd], [.v vd], [.v vd]⟩
  | .vfms _ w vd va vb => ⟨some .vx, 5, widthGroups w, widthGroups w, [.v va, .v vb, .v vd], [.v vd], [.v vd]⟩
  | .vfnma _ w vd va vb => ⟨some .vx, 5, widthGroups w, widthGroups w, [.v va, .v vb, .v vd], [.v vd], [.v vd]⟩
  | .vmin _ w vd va vb => ⟨some .vx, 5, widthGroups w, widthGroups w, [.v va, .v vb], [.v vd], [.v vd]⟩
  | .vmax _ w vd va vb => ⟨some .vx, 5, widthGroups w, widthGroups w, [.v va, .v vb], [.v vd], [.v vd]⟩
  | .vabs _ w vd va => ⟨some .vx, 5, widthGroups w, widthGroups w, [.v va], [.v vd], [.v vd]⟩
  | .vneg _ w vd va => ⟨some .vx, 5, widthGroups w, widthGroups w, [.v va], [.v vd], [.v vd]⟩
  | .vand _ w vd va vb => ⟨some .vx, 5, widthGroups w, widthGroups w, [.v va, .v vb], [.v vd], [.v vd]⟩
  | .vor _ w vd va vb => ⟨some .vx, 5, widthGroups w, widthGroups w, [.v va, .v vb], [.v vd], [.v vd]⟩
  | .vxor _ w vd va vb => ⟨some .vx, 5, widthGroups w, widthGroups w, [.v va, .v vb], [.v vd], [.v vd]⟩
  | .vandn _ w vd va vb => ⟨some .vx, 5, widthGroups w, widthGroups w, [.v va, .v vb], [.v vd], [.v vd]⟩
  | .vshl _ w vd va vb => ⟨some .vx, 5, widthGroups w, widthGroups w, [.v va, .v vb], [.v vd], [.v vd]⟩
  | .vshr _ w vd va vb => ⟨some .vx, 5, widthGroups w, widthGroups w, [.v va, .v vb], [.v vd], [.v vd]⟩
  | .vsar _ w vd va vb => ⟨some .vx, 5, widthGroups w, widthGroups w, [.v va, .v vb], [.v vd], [.v vd]⟩
  | .vcpy _ w vd va => ⟨some .vx, 5, widthGroups w, widthGroups w, [.v va], [.v vd], [.v vd]⟩
  | .vcmp _ _ w md va vb => ⟨some .vx, 5, widthGroups w, widthGroups w, [.v va, .v vb], [.m md], [.m md]⟩
  | .vsel w vd va vb mn => ⟨some .vx, 5, widthGroups w, widthGroups w, [.v va, .v vb, .m mn], [.v vd], [.v vd]⟩
  | .vmand md ma mb => ⟨some .vx, 5, 1, 1, [.m ma, .m mb], [.m md], [.m md]⟩
  | .vmor md ma mb => ⟨some .vx, 5, 1, 1, [.m ma, .m mb], [.m md], [.m md]⟩
  | .vmnot md ma => ⟨some .vx, 5, 1, 1, [.m ma], [.m md], [.m md]⟩
  | .vmcnt _ w xd mn => ⟨some .vx, 5, widthGroups w, widthGroups w, [.m mn], [.x xd], [.x xd]⟩
  | .vmfst _ w xd mn => ⟨some .vx, 5, widthGroups w, widthGroups w, [.m mn], [.x xd], [.x xd]⟩
  | .vbcast _ w vd xa => ⟨some .vx, 5, widthGroups w, widthGroups w, [.x xa], [.v vd], [.v vd]⟩
  | .vins _ vd xa xb => ⟨some .vx, 5, 1, 1, [.x xa, .x xb, .v vd], [.v vd], [.v vd]⟩
  | .vext _ xd va xb => ⟨some .vx, 5, 1, 1, [.v va, .x xb], [.x xd], [.x xd]⟩
  | .vred _ _ w vd va => ⟨some .vx, 5, widthGroups w, widthGroups w, [.v va], [.v vd], [.v vd]⟩
  | .vscan _ _ w vd va => ⟨some .vx, 5, widthGroups w, widthGroups w, [.v va], [.v vd], [.v vd]⟩
  | .vperm _ w vd va vb => ⟨some .vx, 5, (2 * widthGroups w), (2 * widthGroups w), [.v va, .v vb, .v vd], [.v vd], [.v vd]⟩
  | .vshuf pat _ w vd va => ⟨some .vx, 5, (2 * widthGroups w), (2 * widthGroups w), ([.v va] ++ if pat == .p4 || pat == .p5 then [] else [.v vd]), [.v vd], [.v vd]⟩
  | .vslide _ w vd va _ => ⟨some .vx, 5, widthGroups w, widthGroups w, [.v va, .v vd], [.v vd], [.v vd]⟩
  | .vcomp _ w vd va mn => ⟨some .vx, 5, widthGroups w, widthGroups w, [.v va, .m mn], [.v vd], [.v vd]⟩
  | .vpart _ w vd mn => ⟨some .vx, 5, widthGroups w, widthGroups w, [.m mn], [.v vd], [.v vd]⟩
  | .vgat _ w vd va vb => ⟨some .vx, 5, widthGroups w, widthGroups w, [.v va, .v vb], [.v vd], [.v vd]⟩
  | .vsct _ w vd va vb => ⟨some .vx, 5, widthGroups w, widthGroups w, [.v va, .v vb, .v vd], [.v vd], [.v vd]⟩
  | .vld w vt xa _ => ⟨some .ls, 4, widthGroups w, 0, [.x xa], [.v vt], [.v vt]⟩
  | .vst w vt xa _ => ⟨some .ls, 4, widthGroups w, 0, [.v vt, .x xa], [], []⟩
  | .vldx w vt xa _ pk => ⟨some .ls, 4, widthGroups w, 0, [.x xa, .pk pk], [.v vt], [.v vt]⟩
  | .vldt w vt xa _ pk => ⟨some .ls, 4, widthGroups w, 0, [.x xa, .pk pk], [.v vt], [.v vt]⟩
  | .pkset pk xa => ⟨some .ls, 4, 1, 0, [.x xa], [.pk pk], [.pk pk]⟩
  | .vrcp acc _ w vd va => ⟨some .vx, 6, (if acc then 2 * widthGroups w else widthGroups w), (if acc then 2 * widthGroups w else widthGroups w), [.v va], [.v vd], [.v vd]⟩
  | .vrsq acc _ w vd va => ⟨some .vx, 6, (if acc then 2 * widthGroups w else widthGroups w), (if acc then 2 * widthGroups w else widthGroups w), [.v va], [.v vd], [.v vd]⟩
  | .vsqrt acc _ w vd va => ⟨some .vx, 6, (if acc then 2 * widthGroups w else widthGroups w), (if acc then 2 * widthGroups w else widthGroups w), [.v va], [.v vd], [.v vd]⟩
  | .vexp2 acc _ w vd va => ⟨some .vx, 6, (if acc then 2 * widthGroups w else widthGroups w), (if acc then 2 * widthGroups w else widthGroups w), [.v va], [.v vd], [.v vd]⟩
  | .vlog2 acc _ w vd va => ⟨some .vx, 6, (if acc then 2 * widthGroups w else widthGroups w), (if acc then 2 * widthGroups w else widthGroups w), [.v va], [.v vd], [.v vd]⟩
  | .vtanh acc _ w vd va => ⟨some .vx, 6, (if acc then 2 * widthGroups w else widthGroups w), (if acc then 2 * widthGroups w else widthGroups w), [.v va], [.v vd], [.v vd]⟩
  | .vsigm acc _ w vd va => ⟨some .vx, 6, (if acc then 2 * widthGroups w else widthGroups w), (if acc then 2 * widthGroups w else widthGroups w), [.v va], [.v vd], [.v vd]⟩
  | .vgelu acc _ w vd va => ⟨some .vx, 6, (if acc then 2 * widthGroups w else widthGroups w), (if acc then 2 * widthGroups w else widthGroups w), [.v va], [.v vd], [.v vd]⟩
  | .vsin acc _ w vd va => ⟨some .vx, 6, (if acc then 2 * widthGroups w else widthGroups w), (if acc then 2 * widthGroups w else widthGroups w), [.v va], [.v vd], [.v vd]⟩
  | .vcos acc _ w vd va => ⟨some .vx, 6, (if acc then 2 * widthGroups w else widthGroups w), (if acc then 2 * widthGroups w else widthGroups w), [.v va], [.v vd], [.v vd]⟩
  | .vrfn _ w vd va _ => ⟨some .vx, 6, widthGroups w, widthGroups w, [.v va, .v vd], [.v vd], [.v vd]⟩
  | .vcvt _ _ _ _ _ w vd va => ⟨some .vx, 6, widthGroups w, widthGroups w, [.v va], [.v vd], [.v vd]⟩
  | .vqnt _ w vd va vb => ⟨some .vx, 6, widthGroups w, widthGroups w, [.v va, .v vb], [.v vd, .v vb], [.v vd]⟩
  | .vdqnt _ w vd va vb => ⟨some .vx, 6, widthGroups w, widthGroups w, [.v va, .v vb], [.v vd, .v vb], [.v vd]⟩
  | .vscl _ w vd va => ⟨some .vx, 6, widthGroups w, widthGroups w, [.v va, .v vd], [.v vd], [.v vd]⟩
  | .cbld cb va => ⟨some .vx, 6, 1, 1, [.v va], [.cb cb], [.cb cb]⟩
  | .cbq _ _ w vd va cb => ⟨some .vx, 6, widthGroups w, widthGroups w, [.v va, .cb cb], [.v vd], [.v vd]⟩
  | .cbx _ _ w vd va cb => ⟨some .vx, 6, widthGroups w, widthGroups w, [.v va, .cb cb], [.v vd], [.v vd]⟩
  | .dthset xd xa wr => ⟨some .vx, 6, 1, 1, (if wr then [.x xa] else []), [.x xd], [.x xd]⟩
  | .vpk _ w vd va => ⟨some .vx, 6, widthGroups w, widthGroups w, [.v va], [.v vd], [.v vd]⟩
  | .vupk _ w vd va => ⟨some .vx, 6, widthGroups w, widthGroups w, [.v va], [.v vd], [.v vd]⟩
  | .mma _ _ _ _ wp _ => ⟨some .mx, 7, 1, 0, [.w wp], [], []⟩
  | .mmz _ _ _ _ wp _ => ⟨some .mx, 7, 1, 0, [.w wp], [], []⟩
  | .pcw wd xa => ⟨some .mx, 7, 1, 0, [.x xa], [.w wd], [.w wd]⟩
  | .pcwr wd ws xa _ => ⟨some .mx, 7, 1, 0, [.w ws, .x xa], [.w wd], [.w wd]⟩
  | .accz _ _ _ => ⟨some .mx, 7, 1, 0, [], [], []⟩
  | .accrd vd _ xa _ => ⟨some .mx, 7, 1, 0, [.x xa], [.v vd], [.v vd]⟩
  | .accwr _ va xa _ => ⟨some .mx, 7, 1, 0, [.v va, .x xa], [], []⟩
  | .mwait _ => ⟨some .mx, 7, 1, 0, [], [], []⟩
  | .rset _ xa xb => ⟨some .mx, 7, 1, 0, [.x xa, .x xb], [], []⟩
  | .rget _ xd _ => ⟨some .mx, 7, 1, 0, [], [.x xd], [.x xd]⟩
  | .rpush _ _ => ⟨some .mx, 7, 1, 0, [], [], []⟩
  | .rpop _ _ => ⟨some .mx, 7, 1, 0, [], [], []⟩
  | .ppst _ _ xa _ toRing set => ⟨some .eq, 14, 1, 0, ([.pp set, .ht 1, .ht 2, .ht 3, .ht 4, .ht 5] ++ if toRing then [] else [.x xa]), [.pp set], []⟩
  | .ppcfgWord set _ xa => ⟨some .eq, 14, 1, 0, [.x xa], [.pp set], [.pp set]⟩
  | .ppcfgThreshold ht xa => ⟨some .eq, 14, 1, 0, [.x xa], [.ht ht], [.ht ht]⟩
  | .htag xa _ _ => ⟨some .eq, 14, 1, 0, [.x xa], [], []⟩
  | .hrec xa xb _ => ⟨some .eq, 14, 1, 0, [.x xa, .x xb], [], []⟩
  | .hthr w vd va ht => ⟨some .vx, 5, widthGroups w, widthGroups w, [.v va, .ht ht], [.v vd], [.v vd]⟩
  | .hfwd w vd va vb => ⟨some .vx, 5, widthGroups w, widthGroups w, [.v va, .v vb], [.v vd, .v (vd + 1)], [.v vd]⟩
  | .hinv w vd va vb => ⟨some .vx, 5, widthGroups w, widthGroups w, [.v va, .v vb], [.v vd, .v (vd + 1)], [.v vd]⟩
  | .cp _ xa xb sh _ => ⟨some .eq, 14, 1, 0, [.x xa, .x xb, .sh sh], [], []⟩
  | .cpt _ xa xb sh _ => ⟨some .eq, 14, 1, 0, [.x xa, .x xb, .sh sh], [], []⟩
  | .cpx _ xa xb sh _ => ⟨some .eq, 14, 1, 0, [.x xa, .x xb, .sh sh], [], []⟩
  | .cpg _ xa xb sh _ => ⟨some .eq, 14, 1, 0, [.x xa, .x xb, .sh sh], [], []⟩
  | .cps _ _ xa xb sh _ => ⟨some .eq, 14, 1, 0, [.x xa, .x xb, .sh sh], [], []⟩
  | .cpr _ _ xa xb sh _ => ⟨some .eq, 14, 1, 0, [.x xa, .x xb, .sh sh], [], []⟩
  | .cpsig _ xa xb => ⟨some .eq, 14, 1, 0, [.x xa, .x xb], [], []⟩
  | .tmv _ xa xb sh _ => ⟨some .eq, 14, 1, 0, [.x xa, .x xb, .sh sh], [], []⟩
  | .shape sh _ xa => ⟨some .eq, 14, 1, 0, [.x xa], [.sh sh], [.sh sh]⟩
  | .qstat _ xd _ => ⟨some .eq, 14, 1, 0, [], [.x xd], [.x xd]⟩
  | .qcan _ => ⟨some .eq, 14, 1, 0, [], [], []⟩
  | .qrty _ => ⟨some .eq, 14, 1, 0, [], [], []⟩
  | .fence _ _ => ⟨some .eq, 14, 1, 0, [], [], []⟩
  | .qfence _ => ⟨some .eq, 14, 1, 0, [], [], []⟩
  | .harvest xa => ⟨some .eq, 14, 1, 0, [.x xa], [], []⟩
  | .amoadd _ _ _ xd xa xb => ⟨some .eq, 12, 1, 0, [.x xa, .x xb], [.x xd], [.x xd]⟩
  | .amoand _ _ _ xd xa xb => ⟨some .eq, 12, 1, 0, [.x xa, .x xb], [.x xd], [.x xd]⟩
  | .amoor _ _ _ xd xa xb => ⟨some .eq, 12, 1, 0, [.x xa, .x xb], [.x xd], [.x xd]⟩
  | .amoxor _ _ _ xd xa xb => ⟨some .eq, 12, 1, 0, [.x xa, .x xb], [.x xd], [.x xd]⟩
  | .amomin _ _ _ xd xa xb => ⟨some .eq, 12, 1, 0, [.x xa, .x xb], [.x xd], [.x xd]⟩
  | .amomax _ _ _ xd xa xb => ⟨some .eq, 12, 1, 0, [.x xa, .x xb], [.x xd], [.x xd]⟩
  | .amominu _ _ _ xd xa xb => ⟨some .eq, 12, 1, 0, [.x xa, .x xb], [.x xd], [.x xd]⟩
  | .amomaxu _ _ _ xd xa xb => ⟨some .eq, 12, 1, 0, [.x xa, .x xb], [.x xd], [.x xd]⟩
  | .amoswap _ _ _ xd xa xb => ⟨some .eq, 12, 1, 0, [.x xa, .x xb], [.x xd], [.x xd]⟩
  | .amocas _ _ _ xd xa xb => ⟨some .eq, 12, 1, 0, [.x xa, .x xb, .x xd], [.x xd], [.x xd]⟩
  | .amofadd _ _ _ xd xa xb => ⟨some .eq, 12, 1, 0, [.x xa, .x xb], [.x xd], [.x xd]⟩
  | .amofmin _ _ xd xa xb => ⟨some .eq, 12, 1, 0, [.x xa, .x xb], [.x xd], [.x xd]⟩
  | .amofmax _ _ xd xa xb => ⟨some .eq, 12, 1, 0, [.x xa, .x xb], [.x xd], [.x xd]⟩
  | .redfadd _ _ _ xa xb => ⟨some .eq, 12, 1, 0, [.x xa, .x xb], [], []⟩
  | .binadd _ _ xa xb => ⟨some .eq, 12, 1, 0, [.x xa, .x xb], [], []⟩
  | .binfold _ _ xd xa => ⟨some .eq, 12, 1, 0, [.x xa], [.x xd], [.x xd]⟩
  | .bininit _ xa xb => ⟨some .eq, 12, 1, 0, [.x xa, .x xb], [], []⟩
  | .barinit xa xb => ⟨some .eq, 12, 1, 0, [.x xa, .x xb], [], []⟩
  | .arrive xd xa => ⟨some .eq, 12, 1, 0, [.x xa], [.x xd], [.x xd]⟩
  | .bwait qd xa xb => ⟨some .eq, 12, 1, 0, [.x xa, .x xb], [.q qd], [.q qd]⟩
  | .arrwt qd xa => ⟨some .eq, 12, 1, 0, [.x xa], [.q qd], [.q qd]⟩
  | .bexpect xa xb => ⟨some .eq, 12, 1, 0, [.x xa, .x xb], [], []⟩
  | .waitw _ _ qd xa xb => ⟨some .eq, 12, 1, 0, [.x xa, .x xb], [.q qd], [.q qd]⟩
  | .wake xa => ⟨some .eq, 12, 1, 0, [.x xa], [], []⟩
  | .xag _ xa => ⟨some .eq, 14, 1, 0, [.x xa], [], []⟩
  | .xrs _ _ xa => ⟨some .eq, 14, 1, 0, [.x xa], [], []⟩
  | .xar _ _ xa => ⟨some .eq, 14, 1, 0, [.x xa], [], []⟩
  | .xbc _ xa => ⟨some .eq, 14, 1, 0, [.x xa], [], []⟩
  | .xsig _ xa => ⟨some .eq, 14, 1, 0, [.x xa], [], []⟩
  | .xgrp xd _ xa => ⟨some .eq, 14, 1, 0, [.x xa], [.x xd], [.x xd]⟩
  | .stmc _ xa xb => ⟨some .eq, 14, 1, 0, [.x xa, .x xb], [], []⟩
  | .ldrd _ _ _ xd xa => ⟨some .eq, 14, 1, 0, [.x xa], [.x xd], [.x xd]⟩
  | .launch xd xa => ⟨some .sy, 15, 1, 0, [.x xa], [.x xd], [.x xd]⟩
  | .lwait xd xa => ⟨some .sy, 15, 1, 0, [.x xa], [.x xd], [.x xd]⟩
  | .ltear xa => ⟨some .sy, 15, 1, 0, [.x xa], [], []⟩
  | .yield => ⟨some .sy, 15, 1, 0, [], [], []⟩
  | .done => ⟨some .sy, 15, 1, 0, [], [], []⟩
  | .getc _ xd => ⟨some .sy, 15, 1, 0, [], [.x xd], [.x xd]⟩
  | .ckpt _ => ⟨some .sy, 15, 1, 0, [], [], []⟩
  | .twait xa => ⟨some .sy, 15, 1, 0, [.x xa], [], []⟩
  | .tget _ xd => ⟨some .sy, 15, 1, 0, [], [.x xd], [.x xd]⟩
  | .frset xa xb => ⟨some .sy, 15, 1, 0, [.x xa, .x xb], [], []⟩
  | .trap _ => ⟨some .sy, 15, 1, 0, [], [], []⟩
  | .eret => ⟨some .sy, 15, 1, 0, [], [], []⟩
  | .sysrd xd srn => ⟨some .sy, 15, 1, 0, sysRegs srn.val, [.x xd], [.x xd]⟩
  | .syswr srn xa => ⟨some .sy, 15, 1, 0, [.x xa], sysRegs srn.val, []⟩
  | .brk _ => ⟨some .sy, 15, 1, 0, [], [], []⟩
  | .tlbinv _ _ xa xb => ⟨some .sy, 15, 1, 0, [.x xa, .x xb], [], []⟩
  | .eget sel xd xa => ⟨some .sy, 15, 1, 0, ([.x xa] ++ [egetReg sel]), [.x xd], [.x xd]⟩
  | .eset _ xa => ⟨some .sy, 15, 1, 0, [.x xa], [.sys 1024], []⟩
  | .gvhintRsv xd xa => ⟨some .sy, 15, 1, 0, [.x xa], [.x xd], [.x xd]⟩
  | .gvhintRel => ⟨some .sy, 15, 1, 0, [], [], []⟩
  | .trc xa xb => ⟨some .sy, 15, 1, 0, [.x xa, .x xb], [], []⟩
  | .tagset xa xb => ⟨some .sy, 15, 1, 0, [.x xa, .x xb], [], []⟩
  | .taggetTag xd xa => ⟨some .sy, 15, 1, 0, [.x xa], [.x xd], [.x xd]⟩
  | .taggetHist xd xa xb => ⟨some .sy, 15, 1, 0, [.x xa, .x xb], [.x xd], [.x xd]⟩
  | .wlrd _ xd xa => ⟨some .sy, 15, 1, 0, [.x xa], [.x xd], [.x xd]⟩
  | .issueTurnEnd _ => .idle
  | .stampedBundleIssue _ => .idle
  | .asyncFaultDelivery _ => .idle
  | .dividerFree _ => .idle
  | .bTileStaging _ => .idle
  | .passStart _ => .idle
  | .passCommit _ _ => .idle
  | .matrixRetire _ => .idle
  | .cancelledEntryRetire _ => .idle
  | .acczExecute _ => .idle
  | .accrdExecute _ => .idle
  | .accwrExecute _ => .idle
  | .ringSlotReserve _ _ => .idle
  | .ppeEntryStart _ => .idle
  | .ppstTileComplete _ => .idle
  | .hrecTileComplete _ => .idle
  | .htagApply _ => .idle
  | .copyOperationStart _ _ => .idle
  | .copyUnitDelivery _ _ => .idle
  | .copyBarrierReport _ _ => .idle
  | .copyCompletion _ _ => .idle
  | .squareRequestApply _ => .idle
  | .orderedBatchApply _ => .idle
  | .barrierWaitReturn _ => .idle
  | .waitwReturn _ => .idle
  | .mwaitReturn _ => .idle
  | .rgetWaitReturn _ => .idle
  | .lwaitReturn _ => .idle
  | .twaitReturn _ => .idle
  | .doneDrainEnd _ => .idle
  | .collectiveStart _ _ => .idle
  | .collectiveHeaderMatch _ _ => .idle
  | .collectiveDataUnit _ _ => .idle
  | .xsigTileDelivery _ _ => .idle
  | .collectiveCompletion _ _ => .idle
  | .peerCancel _ _ => .idle
  | .stmcMemberWrite _ _ => .idle
  | .stmcAcknowledged _ => .idle
  | .ldrdReturn _ => .idle
  | .flitRetry _ _ => .idle
  | .lanePause _ _ _ => .idle
  | .fabricPathFailed _ _ => .idle
  | .launchRecordArrival _ _ _ => .idle
  | .agingInterval _ => .idle
  | .holdRequest _ _ _ => .idle
  | .launchPlacement _ _ => .idle
  | .preemptDeadline _ => .idle
  | .pinnedTaskStart _ => .idle
  | .contextSave _ => .idle
  | .taskResume _ _ _ => .idle
  | .launchRetire _ => .idle
  | .ptpSyncMessage _ _ => .idle
  | .lockLoss _ => .idle
  | .governorTick _ => .idle
  | .grantExpiry _ => .idle
  | .traceSample _ => .idle
  | .patrolScrub _ _ _ => .idle
  | .heartbeat _ => .idle
  | .commandRingPoll _ => .idle
  | .hostNop _ => .idle
  | .hostLaunch _ => .idle
  | .hostTear _ => .idle
  | .hostResync _ => .idle
  | .hostFwstage _ => .idle
  | .hostFwact _ => .idle
  | .hostAttest _ => .idle
  | .hostCert _ => .idle
  | .configGage _ => .idle
  | .configGdead _ => .idle
  | .configGqdn _ => .idle
  | .configGramp _ => .idle
  | .configGpmax _ => .idle
  | .configGuncore _ => .idle
  | .configOtring _ => .idle
  | .configOwring _ => .idle
  | .configOwmin _ => .idle
  | .hostReset _ => .idle
  | .powerOnReset => .idle
  | .bootStageAdvance _ _ => .idle
  | .gcmdResume _ => .idle
  | .gcmdEnd _ _ => .idle
  | .gcmdForward _ => .idle
  | .cviewWrite _ _ => .idle
  | .grampWrite _ _ => .idle
  | .ecntWrite _ _ => .idle
  | .otringWrite _ _ => .idle
  | .owringWrite _ _ => .idle
  | .loadReturn _ _ => .idle
  | .writePerformed _ => .idle
  | .faultServiced _ => .idle
  | .harvestAreaExtended _ _ => .idle
  | .switchGroupInstall _ => .idle
  | .quarterDieNumberMessage _ _ => .idle

/-- Whether the independence rule counts a register at all: x0, q0 and m0 never (Table 2-2). -/
def RegId.counts : RegId → Bool
  | .x n => n != 0
  | .q n => n != 0
  | .m n => n != 0
  | _ => true

/-- Registers a slot reads: its instruction's, and the predicate of its qualifier (Table 2-2). -/
def slotReads (i : Instr) (q : Qual) : List RegId :=
  ((slotInfo i).reads ++ [RegId.q q.pred]).filter RegId.counts

/-- Registers a slot writes (Table 2-2). -/
def slotWrites (i : Instr) : List RegId := (slotInfo i).writes.filter RegId.counts

/-- The stop bit of a slot word (R21). -/
def wordStop (w : SlotWord) : Bool := w.getLsbD 31

/-- The bits [30:0] of a slot word (R21). -/
def wordBody (w : SlotWord) : Nat := w.toNat % 2147483648

/-- A slot word has the header's major (R28). -/
def isHeader (w : SlotWord) : Bool := wordBody w / 33554432 == 63

/-- The header of a bundle, where slot 0 holds a defined one (R28 to R31). -/
def bundleHeader (ws : Vector SlotWord 4) : Option Header :=
  if wordStop ws[0] then none else decodeHeader (wordBody ws[0])

/-- The extension an H.imm gives slot k (R30). -/
def slotExt (h : Option Header) (k : Nat) : Option (Fin 2097152) :=
  match h with
  | some (.imm tgt ext) => if tgt.val = k then some ext else none
  | _ => none

/-- The qualifier an H.qual gives slot k (R29). -/
def slotQual (h : Option Header) (k : Nat) : Qual :=
  match h with
  | some (.qual a b c) => if k = 1 then a else if k = 2 then b else if k = 3 then c else Qual.none
  | _ => Qual.none

/-- Slot k of a bundle. -/
def slotWord (ws : Vector SlotWord 4) (k : Nat) : SlotWord := ws.getD k 0

/-- The form of a word's major has an immediate (Table 2-8); `vldx`, `vldt` and `pkset` take no H.imm (R106). -/
def takesImm (w : Nat) : Bool :=
  let m := w / 33554432
  (6 ≤ m && m ≤ 9) || (11 ≤ m && m ≤ 13) || (20 ≤ m && m ≤ 22) || m == 34 || (m == 28 && !(2 ≤ w / 512 % 8 && w / 512 % 8 ≤ 4))

/-- The instruction of slot k, or none where its word is undefined, header words of slot 0 being read as `nop` (R21,
R34). A target of an H.imm whose form has no immediate is read without the extension: the fault is the header's (R30).
The widened imm7 of `rset` is zero (R213). -/
def slotInstr (ws : Vector SlotWord 4) (k : Nat) : Option Instr :=
  let w := slotWord ws k
  if k = 0 ∧ isHeader w then some .nop
  else match slotExt (bundleHeader ws) k with
    | none => decode none (wordBody w)
    | some e =>
      if !takesImm (wordBody w) then decode none (wordBody w)
      else if wordBody w / 33554432 = 34 ∧ wordBody w / 524288 % 4 = 0 then
        (if e = 0 then decode none (wordBody w) else none)
      else decode (some e) (wordBody w)

/-- Slot k holds a `nop` word (R21). -/
def isNopWord (ws : Vector SlotWord 4) (k : Nat) : Bool := wordBody (slotWord ws k) == 0

/-- A qualifier that may stand on an instruction (R29): none but the empty one on a `nop`, ZERO only where there is an
explicit destination. -/
def qualFits (q : Qual) (i : Instr) : Bool :=
  (q == Qual.none) || (i != .nop && (!q.zero || (slotInfo i).dests != []))

/-- The header of slot 0 is at fault: undefined, or wrong for the slots it names, or a stamp where the context may have
none (R28 to R31, R27 item 6): a task that is not pinned. -/
def headerFault (ws : Vector SlotWord 4) (stamps : Bool) : Bool :=
  isHeader ws[0] &&
    match bundleHeader ws with
    | none => true
    | some (.qual a b c) =>
      !([(1, a), (2, b), (3, c)].all fun p => match slotInstr ws p.1 with
        | some i => qualFits p.2 i
        | none => true)
    | some (.imm tgt _) => isNopWord ws tgt.val || !takesImm (wordBody (slotWord ws tgt.val))
    | some (.stamp _) => !stamps

/-- Slots whose word is undefined or stands where its unit may not (R27 item 1, R26). -/
def undefinedSlot (ws : Vector SlotWord 4) (k : Nat) : Bool :=
  match slotInstr ws k with
  | none => true
  | some i => match (slotInfo i).unit with
    | none => false
    | some u => !u.slots.contains k

/-- The slots of a bundle as instructions, `nop` for an undefined word. -/
def slotInstrD (ws : Vector SlotWord 4) (k : Nat) : Instr := (slotInstr ws k).getD .nop

/-- Lists share an element. -/
def meets (a b : List RegId) : Bool := a.any b.contains

/-- Slots of `live` that ask for a unit more often than its count (R27 item 3). -/
def unitClash (ws : Vector SlotWord 4) (live : List Nat) (k : Nat) : Bool :=
  match (slotInfo (slotInstrD ws k)).unit with
  | none => false
  | some u => u.count < (live.filter fun j => (slotInfo (slotInstrD ws j)).unit == some u).length

/-- The offending-slot mask of R27 over the slots still to be issued, as a list of slots; empty for a legal bundle. -/
def illegalSlots (ws : Vector SlotWord 4) (done : BitVec 4) (stamps : Bool) : List Nat :=
  let live := [0, 1, 2, 3].filter fun k => !done.getLsbD k
  let lanes := (live.map fun k => (slotInfo (slotInstrD ws k)).lanes).sum
  live.filter fun k =>
    (k == 0 && headerFault ws stamps) || undefinedSlot ws k ||
    live.any (fun j => j != k && meets (slotWrites (slotInstrD ws k)) (slotWrites (slotInstrD ws j))) ||
    unitClash ws live k ||
    (8 < lanes && (slotInfo (slotInstrD ws k)).unit == some .vx) ||
    (((slotInfo (slotInstrD ws k)).unit == some .br || slotInstrD ws k == .eret) && !wordStop ws[3])

/-- A list of slots as a mask, slot 0 in bit 0 (R27). -/
def slotMask (l : List Nat) : Nat := (l.map fun k => 2 ^ k).sum

/-- One slot of the walk that tests independence (R23): the registers read and written in its group so far, each with
the slot of this bundle that did it or none for an earlier bundle, and the conflicting slots found. -/
structure DepWalk where
  reads : List (RegId × Option Nat)
  writes : List (RegId × Option Nat)
  found : List Nat
  deriving DecidableEq, Repr

/-- The slots of this bundle that a register was read or written by. -/
def DepWalk.users (l : List (RegId × Option Nat)) (rs : List RegId) : List (Option Nat) :=
  (l.filter fun p => rs.contains p.1).map Prod.snd

/-- The walk over slot k (R23, R24): its conflicts with its group so far, and the group it leaves. -/
def DepWalk.slot (ws : Vector SlotWord 4) (done : BitVec 4) (d : DepWalk) (k : Nat) : DepWalk :=
  let i := slotInstrD ws k
  let r := slotReads i (slotQual (bundleHeader ws) k)
  let w := slotWrites i
  let others := DepWalk.users d.writes r ++ DepWalk.users d.writes w ++ DepWalk.users d.reads w
  let d' : DepWalk :=
    if done.getLsbD k then d
    else { reads := d.reads ++ r.map (·, some k), writes := d.writes ++ w.map (·, some k),
           found := if others.isEmpty then d.found else d.found ++ k :: others.filterMap id }
  if wordStop (slotWord ws k) then { d' with reads := [], writes := [] } else d'

/-- The slots of the bundle in conflict within their group, given the registers the group has read and written in
earlier bundles (R23, R24). -/
def dependentSlots (ws : Vector SlotWord 4) (done : BitVec 4) (gr gw : List RegId) : List Nat :=
  ([0, 1, 2, 3].foldl (DepWalk.slot ws done) ⟨gr.map (·, none), gw.map (·, none), []⟩).found

/-- The lowest of a list of slots; 0 for none. -/
def lowestSlot (l : List Nat) : Nat := [0, 1, 2, 3].find? l.contains |>.getD 0

/-- The stamp of a bundle (R31). -/
def bundleStamp (ws : Vector SlotWord 4) : Option Nat :=
  match bundleHeader ws with
  | some (.stamp n) => some n.val
  | _ => none

/-- The innermost active level, none outside every loop (R65, R69). -/
def innermost (lv : Vector LoopLevel 6) : Option (Fin 6) :=
  [5, 4, 3, 2, 1, 0].find? fun n : Fin 6 => lv[n].act

/-- The iteration test of a qualifier (Table 2-6, R73). -/
def iterTest (lv : Vector LoopLevel 6) : IterSel → Bool
  | .every => true
  | .first => match innermost lv with
    | none => true
    | some n => lv[n].iter == 0
  | .last => match innermost lv with
    | none => true
    | some n => lv[n].rem == 1

/-- q n, q0 reading true (R36). -/
def readQ (q : Vector Bool 8) (n : Fin 8) : Bool := n == 0 || q[n]

/-- The condition of a slot (R29). -/
def qualHolds (q : Vector Bool 8) (lv : Vector LoopLevel 6) (c : Qual) : Bool :=
  (c.pred == 0 || (readQ q c.pred != c.neg)) && iterTest lv c.iter

/-- A signed field of `m` values read as an integer (Table 2-8). -/
def signedField (m n : Nat) : Int := if 2 * n < m then n else (n : Int) - m

end Sys2Proof.Machine
end

