-- ==== Sys2Proof/Machine/Ops.lean ====
section
/-! DEFINITION. The named operations over the machine: the agents in focus (R12), registers (R36), memory and its
visibility (R264 to R267), the address map, translation and tags (R79 to R100), time and records (R359, R419 to R428),
charges (R410, R411), taking an exception and returning from it (R379 to R383), and waits (R354). -/

namespace Sys2Proof

/-- The core of a context. -/
def CtxId.coreId (c : CtxId) : CoreId := ⟨c.die, c.core⟩

/-- A context of a core. -/
def CoreId.ctxId (p : CoreId) (k : Nat) : CtxId := ⟨p.die, p.core, k⟩

end Sys2Proof

namespace Sys2Proof.Machine

/-! Lists of key and value. -/

/-- The list without a key. -/
def assocErase {α β : Type} [BEq α] (l : List (α × β)) (k : α) : List (α × β) := l.filter fun p => !(p.1 == k)

/-- The list with a key's value replaced or added. -/
def assocSet {α β : Type} [BEq α] (l : List (α × β)) (k : α) (v : β) : List (α × β) :=
  if l.any (fun p => p.1 == k) then l.map fun p => if p.1 == k then (k, v) else p else l ++ [(k, v)]

/-- Puts a value into a list sorted by `le`, after the values not above it. -/
def insertBy {α : Type} (le : α → α → Bool) (a : α) : List α → List α
  | [] => [a]
  | b :: l => if le b a then b :: insertBy le a l else a :: b :: l

/-- A list sorted by `le`, equal values in the order they had. -/
def sortBy {α : Type} (le : α → α → Bool) (l : List α) : List α := l.foldl (fun l a => insertBy le a l) []

/-- A number as `n` bytes, lowest first (R2). -/
def leBytes : Nat → Nat → List Byte
  | 0, _ => []
  | n + 1, v => BitVec.ofNat 8 v :: leBytes n (v / 256)

/-- Bytes, lowest first, as a number (R2). -/
def leNat : List Byte → Nat
  | [] => 0
  | b :: bs => b.toNat + 256 * leNat bs

/-- Bits [hi:lo] of a number (R3). -/
def natBits (v hi lo : Nat) : Nat := v / 2 ^ lo % 2 ^ (hi + 1 - lo)

/-- A number with bits [hi:lo] replaced (R3). -/
def putBits (q hi lo v : Nat) : Nat := q - natBits q hi lo * 2 ^ lo + v % 2 ^ (hi + 1 - lo) * 2 ^ lo

/-- Bits [hi:lo] of a word (R3). -/
def wordBits (v : Word) (hi lo : Nat) : Nat := natBits v.toNat hi lo

/-- A number as a word. -/
def word (n : Nat) : Word := BitVec.ofNat 64 n

/-- An n-bit value read with sign (R3). -/
def signedNat (n v : Nat) : Int := if 2 * (v % 2 ^ n) < 2 ^ n then (v % 2 ^ n : Nat) else ((v % 2 ^ n : Nat) : Int) - 2 ^ n

/-! Fields of a side-bank record (Table 6-7). -/

/-- AZ and DOM of a record. -/
def recZero (r : Nat) : Bool := natBits r 92 92 == 1
def recTag (r : Nat) : Nat := natBits r 91 88

/-- SEQ of a record. -/
def recSeq (r : Nat) : Nat := natBits r 87 80

/-! Fields of a launch record that the Square uses too (Table 14-1). -/

/-- `n` bytes at an offset of a list, lowest first; bytes beyond its end read 0. -/
def byteField (bs : List Byte) (off n : Nat) : Nat := leNat ((bs.drop off).take n)

/-- A launch record. -/
abbrev Record := List Byte

/-- DMASK of a record. -/
def recDmask (r : Record) : Nat := byteField r 0x10 2

/-- Quarter die numbers of DMASK, rising (R338). -/
def recDies (r : Record) : List Nat := (List.range 16).filter fun q => (recDmask r).testBit q

/-! The agents in focus. -/

/-- A context as after reset: the granger's has controller privilege (R375). -/
def freshCtx (c : CtxId) : Ctx := Ctx.init c.ctx (c.core == 96)

/-- A context. -/
def State.ctxAt (s : State) (c : CtxId) : Ctx :=
  if c = s.foc then s.ctx else (s.ctxs.lookup c).getD (freshCtx c)

/-- A core. -/
def State.coreAt (s : State) (p : CoreId) : Core :=
  if p = s.foc.coreId then s.core else (s.cores.lookup p).getD Core.init

/-- A die, by quarter position. -/
def State.dieAt (s : State) (d : Nat) : Die :=
  if d = s.foc.die then s.die else (s.dies.lookup d).getD Die.init

/-- A package, by position. -/
def State.pkgAt (s : State) (p : Nat) : Package := (s.pkgs.lookup p).getD Package.init

/-- Replaces a context. -/
def State.setCtxAt (s : State) (c : CtxId) (x : Ctx) : State :=
  if c = s.foc then { s with ctx := x } else { s with ctxs := assocSet s.ctxs c x }

/-- Replaces a core. -/
def State.setCoreAt (s : State) (p : CoreId) (x : Core) : State :=
  if p = s.foc.coreId then { s with core := x } else { s with cores := assocSet s.cores p x }

/-- Replaces a die. -/
def State.setDieAt (s : State) (d : Nat) (x : Die) : State :=
  if d = s.foc.die then { s with die := x } else { s with dies := assocSet s.dies d x }

/-- Replaces a package. -/
def State.setPkgAt (s : State) (p : Nat) (x : Package) : State := { s with pkgs := assocSet s.pkgs p x }

/-- Brings a context, with its core and its die, into focus. Nothing of the machine changes by it. -/
def State.focusOn (s : State) (c : CtxId) : State :=
  if c = s.foc then s
  else
    let ctxs := assocSet s.ctxs s.foc s.ctx
    let cores := assocSet s.cores s.foc.coreId s.core
    let dies := assocSet s.dies s.foc.die s.die
    { s with
      foc := c
      ctx := (ctxs.lookup c).getD (freshCtx c)
      core := (cores.lookup c.coreId).getD Core.init
      die := (dies.lookup c.die).getD Die.init
      ctxs := assocErase ctxs c
      cores := assocErase cores c.coreId
      dies := assocErase dies c.die }

/-- Brings a core into focus. -/
def State.focusCore (s : State) (p : CoreId) : State := if p = s.foc.coreId then s else s.focusOn (p.ctxId 0)

/-- Brings a die into focus. -/
def State.focusDie (s : State) (d : Nat) : State := if d = s.foc.die then s else s.focusOn ⟨d, 0, 0⟩

/-- Does something with a context in focus and returns to the focus that was. -/
def State.atCtx (s : State) (c : CtxId) (f : State → State) : State := (f (s.focusOn c)).focusOn s.foc

/-- The contexts that hold anything besides their state after reset: the one in focus and the listed ones. -/
def State.knownCtxs (s : State) : List CtxId := s.foc :: s.ctxs.map Prod.fst

/-- The cores listed, and the one in focus. -/
def State.knownCores (s : State) : List CoreId := s.foc.coreId :: s.cores.map Prod.fst

/-- Dies of the quarter by position (R12, R15). -/
def State.diePositions (s : State) : List Nat := List.range (2 * s.npkg)

/-- The number of the next free value, and the state in which it is used up (log 5). -/
def State.draw (s : State) : Nat × State := (s.fresh, { s with fresh := s.fresh + 1 })

/-! Registers (R36). -/

/-- x n; x0 reads 0. -/
def State.getX (s : State) (n : XReg) : Word := if n = 0 then 0 else s.ctx.x[n]

/-- Writes x n; a write of x0 is discarded. -/
def State.setX (s : State) (n : XReg) (v : Word) : State :=
  if n = 0 then s else { s with ctx := { s.ctx with x := s.ctx.x.set n v } }

/-- q n; q0 reads true. -/
def State.getQ (s : State) (n : Fin 8) : Bool := n == 0 || s.ctx.q[n]

/-- Writes q n; a write of q0 is discarded. -/
def State.setQ (s : State) (n : Fin 8) (v : Bool) : State :=
  if n = 0 then s else { s with ctx := { s.ctx with q := s.ctx.q.set n v } }

/-- v n. -/
def State.getV (s : State) (n : VReg) : VWord := s.ctx.v[n]

/-- The domain tag of v n. -/
def State.getTag (s : State) (n : VReg) : BitVec 4 := s.ctx.vtag[n]

/-- Writes v n and its domain tag. -/
def State.setV (s : State) (n : VReg) (v : VWord) (t : BitVec 4) : State :=
  { s with ctx := { s.ctx with v := s.ctx.v.set n v, vtag := s.ctx.vtag.set n t } }

/-- m n; m0 reads all ones. -/
def State.getM (s : State) (n : Fin 8) : MWord := if n = 0 then BitVec.allOnes 128 else s.ctx.m[n]

/-- Writes m n; a write of m0 is discarded. -/
def State.setM (s : State) (n : Fin 8) (v : MWord) : State :=
  if n = 0 then s else { s with ctx := { s.ctx with m := s.ctx.m.set n v } }

/-- Sets sticky flags of cstat (R37). -/
def State.raiseBits (s : State) (bits : Nat) : State :=
  { s with ctx := { s.ctx with cstat := orCstat s.ctx.cstat bits } }

/-- Sets one sticky flag of cstat (R37). -/
def State.raiseBit (s : State) (b : Nat) : State := s.raiseBits (2 ^ b)

/-! Memory: the bytes that are not 0, by place, in rising order (log 1, log 3). -/

/-- The byte at a place; one that is not listed reads 0. -/
def Mem.get : List Host.Cell → Nat → Byte
  | [], _ => 0
  | (p, b) :: m, a => if a = p then b else if a < p then 0 else Mem.get m a

/-- Puts a byte at a place, keeping the canonical form: a 0 is not listed. -/
def Mem.set : List Host.Cell → Nat → Byte → List Host.Cell
  | [], a, v => if v = 0 then [] else [(a, v)]
  | (p, b) :: m, a, v =>
    if a = p then (if v = 0 then m else (p, v) :: m)
    else if a < p then (if v = 0 then (p, b) :: m else (a, v) :: (p, b) :: m)
    else (p, b) :: Mem.set m a v

/-- The bytes at `n` consecutive places from `a`. -/
def Mem.slice : List Host.Cell → Nat → Nat → List Byte
  | [], _, n => List.replicate n 0
  | (p, b) :: m, a, n =>
    if n = 0 then []
    else if p < a then Mem.slice m a n
    else
      let gap := min (p - a) n
      List.replicate gap 0 ++ (if gap < n then b :: Mem.slice m (p + 1) (n - gap - 1) else [])

/-- Puts consecutive bytes at `a`, keeping the canonical form. -/
def Mem.splice (m : List Host.Cell) (a : Nat) (bs : List Byte) : List Host.Cell :=
  let cs := ((List.range bs.length).zip bs).map fun p => (a + p.1, p.2)
  (m.filter fun c => c.1 < a) ++ (cs.filter fun c => c.2 != 0) ++ m.filter fun c => a + bs.length ≤ c.1

/-- Puts bytes, in the order of the list. -/
def Mem.setAll (m : List Host.Cell) (cs : List Host.Cell) : List Host.Cell := cs.foldl (fun m c => Mem.set m c.1 c.2) m

/-- Every place of a memory lies above `lo` and the places rise; no byte is 0. -/
def Mem.wfFrom : Option Nat → List Host.Cell → Bool
  | _, [] => true
  | lo, (p, b) :: m => (lo.all (· < p)) && b != 0 && Mem.wfFrom (some p) m

/-- The canonical form of a memory. -/
def Mem.wf (m : List Host.Cell) : Bool := Mem.wfFrom none m

/-! Places (log 3). -/

/-- HBM of a die: 256 GiB per position (R9, R97). -/
def hbmPlace (pos off : Nat) : Nat := pos * 2 ^ 38 + off

/-- Memory beyond the quarter, by physical address (R97, KIND 1). -/
def remotePlace (pa : Nat) : Nat := 2 ^ 53 + pa

/-- Host memory, by bus address (R97, KIND 2). -/
def hostPlace (a : Nat) : Nat := 2 ^ 64 + a

/-- Granary of a die (R80). -/
def granaryPlace (pos off : Nat) : Nat := 2 ^ 66 + pos * 2 ^ 26 + off

/-- Square space of a die (R80, R286). -/
def squarePlace (pos off : Nat) : Nat := 2 ^ 67 + pos * 2 ^ 26 + off

/-- Barn of a cluster (R80). -/
def barnPlace (pos cl off : Nat) : Nat := 2 ^ 68 + (pos * 16 + cl) * 2 ^ 23 + off

/-- Crib of a core (R83). -/
def cribPlace (p : CoreId) (off : Nat) : Nat := 2 ^ 69 + (p.die * 128 + p.core) * 2 ^ 21 + off

/-- Side bank of a core (R92). -/
def sidePlace (p : CoreId) (off : Nat) : Nat := 2 ^ 70 + (p.die * 128 + p.core) * 2 ^ 18 + off

/-- Accumulator store of a core: 16 tiles of 32 KiB (R193). -/
def accPlace (p : CoreId) (off : Nat) : Nat := 2 ^ 71 + (p.die * 128 + p.core) * 2 ^ 19 + off

/-- Control window of a die (R393). -/
def controlPlace (pos off : Nat) : Nat := 2 ^ 72 + pos * 2 ^ 20 + off

/-- Package-local HBM address as a place: 512 GiB of the two dies (R97). -/
def localPlace (pos l : Nat) : Nat := hbmPlace (2 * (pos / 2) + l / 2 ^ 38 % 2) (l % 2 ^ 38)

/-- A place lies in HBM of the quarter, whose writes every die observes (Table 11-1). -/
def isHbm (a : Nat) : Bool := a < 2 ^ 53

/-- A place lies in memory that every die of the quarter observes, or reaches by its engines: HBM, and memory beyond the
quarter and of the host (Table 11-1). -/
def isWide (a : Nat) : Bool := a < 2 ^ 66

/-- A place lies in Square space. -/
def isSquare (a : Nat) : Bool := 2 ^ 67 ≤ a && a < 2 ^ 68

/-- The die that owns a place of Square space. -/
def squareDie (a : Nat) : Nat := (a - 2 ^ 67) / 2 ^ 26

/-- The level of a place as scopes order it (Table 11-2): 0 crib and side bank, 1 barn, 2 the others. -/
def placeLevel (a : Nat) : Nat := if 2 ^ 69 ≤ a then 0 else if 2 ^ 68 ≤ a then 1 else 2

/-- A scope orders accesses to a level (Table 11-2). -/
def scopeOrders (sc : Scope) (level : Nat) : Bool :=
  match sc with
  | .core => level == 0
  | .clus => level ≤ 1
  | .die | .pkg | .qtr => true

/-- The dies of a scope around a die (Table 11-2). -/
def State.scopeDies (s : State) (sc : Scope) (d : Nat) : List Nat :=
  match sc with
  | .core | .clus | .die => [d]
  | .pkg => [2 * (d / 2), 2 * (d / 2) + 1]
  | .qtr => s.diePositions

/-! Visibility (R264 to R267, log 6). -/

/-- The place of the memory tag of a 32-byte granule, by a place of the granule (R100; log 3). Tags take no address
space: no page maps these places. -/
def tagPlace (a : Nat) : Nat := 2 ^ 52 + a / 32

/-- The places that a write of a place writes: a tag change is a write to every byte of its granule (R431). -/
def spread (a : Nat) : List Nat :=
  if 2 ^ 52 ≤ a && (isHbm a || (2 ^ 59 ≤ a && a < 2 ^ 64)) then
    a :: (List.range 32).map fun k => 32 * (a - 2 ^ 52) + k
  else [a]

/-- The value of a place among cells, the last one winning. -/
def lastCell (cs : List Host.Cell) (a : Nat) : Option Byte := (cs.reverse.find? fun c => c.1 == a).map Prod.snd

/-- The byte a die sees: the last write in coherence order that is visible there, else memory (R265). -/
def State.seenByte (s : State) (d a : Nat) : Byte :=
  match (s.flight.reverse.filter fun w => w.seen.contains d).findSome? fun w => lastCell w.cells a with
  | some b => b
  | none => Mem.get s.mem a

/-- The byte at its home, the last in coherence order (R266, R291). -/
def State.homeByte (s : State) (a : Nat) : Byte :=
  match s.flight.reverse.findSome? fun w => lastCell w.cells a with
  | some b => b
  | none => Mem.get s.mem a

/-- Bytes that a die sees. -/
def State.seenBytes (s : State) (d : Nat) (ps : List Nat) : List Byte := ps.map (s.seenByte d)

/-- Bytes at their homes. -/
def State.homeBytes (s : State) (ps : List Nat) : List Byte := ps.map s.homeByte

/-- The word of consecutive bytes at their home. -/
def State.homeNat (s : State) (a n : Nat) : Nat := leNat (s.homeBytes ((List.range n).map (a + ·)))

/-- The word of consecutive bytes as a die sees it. -/
def State.seenNat (s : State) (d a n : Nat) : Nat := leNat (s.seenBytes d ((List.range n).map (a + ·)))

/-- Cells of consecutive bytes. -/
def cellsAt (a : Nat) (bs : List Byte) : List Host.Cell := (List.range bs.length).zip bs |>.map fun p => (a + p.1, p.2)

/-- Writes share a byte; a tag change is one of every byte of its granule (R431). -/
def cellsMeet (a b : List Host.Cell) : Bool :=
  a.any fun c => b.any fun e => c.1 == e.1 || c.1 == tagPlace e.1 || tagPlace c.1 == e.1

/-- Takes the oldest writes that every die has seen out of flight and into memory. -/
def settle (nd : Nat) : List Flight → List Host.Cell → List Flight × List Host.Cell
  | [], m => ([], m)
  | w :: fs, m =>
    if (List.range nd).all w.seen.contains then settle nd fs (Mem.setAll m w.cells) else (w :: fs, m)

/-- Settles what can be settled. -/
def State.settled (s : State) : State :=
  let r := settle (2 * s.npkg) s.flight s.mem
  { s with flight := r.1, mem := r.2 }

/-- A write in flight may become visible on a die: it is not yet, and every causal predecessor and every earlier write
to a byte of it is (R266, R267). -/
def State.mayReach (s : State) (w : Flight) (d : Nat) : Bool :=
  d < 2 * s.npkg && !w.seen.contains d &&
  s.flight.all fun p =>
    p.seen.contains d || !(w.preds.contains p.id || (p.id < w.id && cellsMeet p.cells w.cells))

/-- Makes a write in flight visible on a die. -/
def State.reach (s : State) (id d : Nat) : State :=
  let fs := s.flight.map fun w : Flight => if w.id = id then { w with seen := w.seen ++ [d] } else w
  { s with flight := fs }.settled

/-- Makes every write that die `d` sees visible on die `e` as well: what a write to Square space or a message from `d`
to `e` carries before it (R267). -/
def State.carry (s : State) (d e : Nat) : State :=
  let fs := s.flight.map fun w : Flight =>
    if w.seen.contains d && !w.seen.contains e then { w with seen := w.seen ++ [e] } else w
  { s with flight := fs }.settled

/-- The first place of the 8-byte word of a place. -/
def wordOf (a : Nat) : Nat := a / 8 * 8

/-- A write of all 8 bytes of a word clears its poison (R390). -/
def clearPoison (poison : List Nat) (cs : List Host.Cell) : List Nat :=
  poison.filter fun w => !((List.range 8).all fun k => cs.any fun c => c.1 == w + k)

/-- The condition of a `waitw` on a value of `n` bytes (R310). -/
def waitCond (c : WCond) (n : Nat) (v y : Nat) : Bool :=
  let m := 256 ^ n
  match c with
  | .eq => v % m == y % m
  | .ne => v % m != y % m
  | .ltu => v % m < y % m
  | .geu => y % m ≤ v % m
  | .lt => signedNat (8 * n) v < signedNat (8 * n) y
  | .ge => signedNat (8 * n) y ≤ signedNat (8 * n) v

/-- The bytes a word wait reads. -/
def WordWait.bytes (w : WordWait) : Nat := if w.dbl then 8 else 4

/-- Tests a word wait against its word (R310). -/
def State.testWait (s : State) (d : Nat) (w : WordWait) : Bool :=
  waitCond w.cond w.bytes (if w.square then s.homeNat w.place w.bytes else s.seenNat d w.place w.bytes) w.y.toNat

/-- A wait on a word tests it where the word can be read: no fault of the Square stops it, and the word holds no poison
(R288, R391; log 18). -/
def State.testable (s : State) (w : WordWait) : Bool :=
  w.hit.isNone && w.fault.isNone && !s.poison.contains (wordOf w.place)

/-- A context's word wait after a write to some places by an agent: tested again when its granule is touched. -/
def State.retestCtx (s : State) (ps : List Nat) (who : Nat) (d : Nat) (x : Ctx) : Ctx :=
  match x.status, x.wordWait with
  | .waiting (.word _), some w =>
    if s.testable w && ps.any (fun p => wordOf p == wordOf w.place) && s.testWait d w then
      { x with wordWait := some { w with hit := some true }, setter := who }
    else x
  | _, _ => x

/-- After a write to watched granules, the waiting conditions are tested again (R310). -/
def State.retest (s : State) (ps : List Nat) (who : Nat) : State :=
  { s with ctx := s.retestCtx ps who s.foc.die s.ctx
           ctxs := s.ctxs.map fun p => (p.1, s.retestCtx ps who p.1.die p.2) }

/-- The writes in flight, newest first, that come before a write of some cells in coherence or causal order: those to its
bytes, their causal predecessors, and what comes before those in the same way (R266, R267). -/
def neededFlights (cells : List Host.Cell) : List Flight → List Flight → List Flight
  | [], acc => acc
  | w :: ws, acc =>
    if cellsMeet w.cells cells || acc.any (fun n => n.preds.contains w.id || cellsMeet n.cells w.cells) then
      neededFlights cells ws (w :: acc)
    else neededFlights cells ws acc

/-- Makes visible on die `d` every write that comes before a write of some cells there (R266: visibility on a die rises
along the coherence order). -/
def State.pullIn (s : State) (d : Nat) (cells : List Host.Cell) : State :=
  let ids := (neededFlights cells s.flight.reverse []).map Flight.id
  let fs := s.flight.map fun w : Flight =>
    if ids.contains w.id && !w.seen.contains d then { w with seen := w.seen ++ [d] } else w
  { s with flight := fs }

/-- A write is performed on die `d` (R265, R267): to HBM or beyond the quarter it is visible there and not yet elsewhere;
to Square space it is at its home after everything it follows; any other level has no second die. `who` is the identity of its agent. -/
def State.performWrite (s : State) (writer : Option CtxId) (who seq d : Nat) (cells : List Host.Cell) : State :=
  match cells with
  | [] => s
  | c :: _ =>
    let s := { s with poison := clearPoison s.poison cells }
    let s :=
      if isWide c.1 then
        let s := s.pullIn d cells
        let w : Flight := { id := s.fresh, writer := writer, seq := seq, cells := cells, seen := [d],
                            preds := (s.flight.filter fun w => w.seen.contains d).map Flight.id }
        { s with fresh := s.fresh + 1, flight := s.flight ++ [w] }.settled
      else
        let s := if isSquare c.1 then (s.carry d (2 * (d / 2))).carry d (2 * (d / 2) + 1) else s
        { s with mem := Mem.setAll s.mem cells }
    s.retest (cells.map Prod.fst) who

/-- A write by an engine or a unit of a die, with no task behind it. -/
def State.unitWrite (s : State) (who d : Nat) (a : Nat) (bs : List Byte) : State :=
  s.performWrite none who 0 d (cellsAt a bs)

/-! Links of the fabric (R316 to R318). -/

/-- What goes over the fabric from a die to another, 16 for beyond the quarter, on a virtual lane (R318). -/
structure Link where
  src : Nat
  dst : Nat
  lane : Nat
  deriving DecidableEq, Repr

/-- The port of a die that leads to another (R316); the two dies of a package are joined by their seam. -/
def fabricPort (d e : Nat) : Option Nat :=
  if d = e ∨ (e < 16 ∧ d / 2 = e / 2) then none else some (Config.route d e).val

/-- No path has failed, no lane is paused and no flit is being sent again. -/
def State.linksClear (s : State) : Bool :=
  s.die.lost.isEmpty && s.die.paused.isEmpty && s.die.resends.isEmpty &&
  s.dies.all fun e => e.2.lost.isEmpty && e.2.paused.isEmpty && e.2.resends.isEmpty

/-- The path of a link has failed (R317). -/
def State.linkFailed (s : State) (k : Link) : Bool :=
  (k.src < 16 && (fabricPort k.src k.dst).any (s.dieAt k.src).lost.contains) ||
  (k.dst < 16 && (fabricPort k.dst k.src).any (s.dieAt k.dst).lost.contains)

/-- A link takes flits now: its path has not failed, and its receiver has not paused the lane (R318). -/
def State.linkOpen (s : State) (k : Link) : Bool :=
  !s.linkFailed k &&
  !(k.dst < 16 && (fabricPort k.dst k.src).any fun p => (s.dieAt k.dst).paused.contains (p, k.lane))

/-- Flits have been delivered over a link: the port counts resends anew (R317). -/
def State.flitsThrough (s : State) (k : Link) : State :=
  match if k.dst < 16 then fabricPort k.dst k.src else none with
  | none => s
  | some p =>
    let x := s.dieAt k.dst
    if x.resends.isEmpty then s else s.setDieAt k.dst { x with resends := assocErase x.resends p }

/-- Work that goes over links: it stops when a path has failed, waits while a lane is paused, and goes on otherwise (R317,
R318). -/
def State.overLinks (s : State) (links : Unit → List Link) (fail : Unit → State) (go : State → State) : State :=
  if s.linksClear then go s
  else
    let ks := links ()
    if ks.any s.linkFailed then fail ()
    else if !(ks.all s.linkOpen) then s
    else go (ks.foldl State.flitsThrough s)

/-- The die of a place of HBM, 16 for memory beyond the quarter; none for what needs no link. -/
def farDie (a : Nat) : Option Nat :=
  if isHbm a then some (a / 2 ^ 38) else if a < 2 ^ 64 then some 16 else none

/-- The links that a die needs to read places, and to write them: a request, and for a read its response (R318). -/
def readLinks (d : Nat) (ps : List Nat) : List Link :=
  ((ps.filterMap farDie).eraseDups.filter (· != d)).flatMap fun e => [⟨d, e, 0⟩, ⟨e, d, 1⟩]
def writeLinks (d : Nat) (ps : List Nat) : List Link :=
  ((ps.filterMap farDie).eraseDups.filter (· != d)).map fun e => ⟨d, e, 0⟩

/-- Notes what own stores of a task overwrite for its engine operations that were issued before (R238, R328): each byte
may be seen as it was. -/
def State.noteLate (s : State) (c : CtxId) (seq : Nat) (cells : List Host.Cell) : State :=
  let was (old : List Host.Cell) : List Host.Cell := (cells.map fun e => (e.1, s.seenByte c.die e.1)) ++ old
  let k := s.coreAt c.coreId
  let mine (o : CopyOp) : Bool := o.who == c && o.seq < seq
  let s :=
    if k.cq.any fun (q : List CopyOp) => q.any mine then
      let note (o : CopyOp) : CopyOp := if mine o then { o with old := was o.old } else o
      s.setCoreAt c.coreId { k with cq := k.cq.map fun (q : List CopyOp) => q.map note }
    else s
  let x := s.dieAt c.die
  let ours (o : XOp) : Bool := (s.ctxAt c).task.any fun t => t.launch == o.launch && t.index == o.task && o.seq < seq
  if x.xq.any fun (q : List XOp) => q.any ours then
    let note (o : XOp) : XOp := if ours o then { o with late := was o.late } else o
    s.setDieAt c.die { x with xq := x.xq.map fun (q : List XOp) => q.map note }
  else s

/-! Time and identities. -/

/-- What the rate of a die's time has added since its mark (R359, R360). -/
def State.slewed (s : State) (x : Die) : Int := x.slew * ((s.cycle - x.timeMark : Nat) * 655360 / 19 : Nat) / 1000000

/-- Die time (R359): derived from the cycle count at 1.9 GHz, in units of 2^-16 ns rounded up at a cycle's edge (log
12), with the die's own offset and rate. -/
def State.dtimeOf (s : State) (x : Die) : Word :=
  BitVec.ofInt 64 (((s.cycle * 655360 + 18) / 19 : Nat) + x.timeOff + s.slewed x)

/-- Die time of the die in focus. -/
def State.dtime (s : State) : Word := s.dtimeOf s.die

/-- The quarter die number of a die position, 0 while it has none (R12). -/
def State.qdn (s : State) (d : Nat) : Nat := wordBits (s.dieAt d).gqdn 3 0

/-- The die position with a quarter die number (R12); none while no die has it. -/
def State.dieOfQdn (s : State) (n : Nat) : Option Nat :=
  s.diePositions.find? fun d => (s.dieAt d).gqdn.getLsbD 4 && s.qdn d == n

/-- The dies of a launch by position, in rising quarter die number (R338). -/
def State.launchDies (s : State) (l : Launch) : List Nat := (recDies l.record).filterMap s.dieOfQdn

/-- An agent's identity (R419): 0 task, 1 copy engine, 2 PPE, 3 matrix queue, 4 Square, 5 collective engine,
6 dispatcher, 7 time base or granger. -/
def State.whoIs (s : State) (agent : Nat) (c : CtxId) : Nat := agent * 8192 + s.qdn c.die * 512 + c.core * 4 + c.ctx

/-- The identity of a die-wide agent. -/
def State.whoDie (s : State) (agent d : Nat) : Nat := s.whoIs agent ⟨d, 0, 0⟩

/-- The identity of a context: a task's, or the granger's (R419). -/
def State.whoCtx (s : State) (c : CtxId) : Nat := if c.core = 96 then s.whoIs 7 ⟨c.die, 0, c.ctx⟩ else s.whoIs 0 c

/-- The identity of the context in focus. -/
def State.self (s : State) : Nat := s.whoCtx s.foc

/-- Cycles of a pinned task since EPOCH, 0 before it (R361). -/
def State.sinceEpoch (s : State) : Nat :=
  let d := (s.dtime - s.ctx.epoch).toNat
  if d < 2 ^ 63 then d * 19 / 655360 else 0

/-- Before EPOCH (R361, R359). -/
def State.beforeEpoch (s : State) : Bool := 2 ^ 63 ≤ (s.dtime - s.ctx.epoch).toNat

/-- The frame counters FRNUM and frcnt (R361). -/
def State.frnum (s : State) : Nat := s.sinceEpoch / s.ctx.frlen
def State.frcnt (s : State) : Nat := if s.ctx.frlen = 0 then 0 else s.sinceEpoch % s.ctx.frlen

/-! Records of observation. -/

/-- Capacity in records and base of an area register (Table 17-1, otring). -/
def areaCap (v : Word) : Nat := 2048 * wordBits v 15 0
def areaBase (v : Word) : Nat := 65536 * wordBits v 47 16

/-- The bytes of a trace record (R424). -/
def traceRecord (kind slot who aux : Nat) (pc data time : Word) : List Byte :=
  [BitVec.ofNat 8 kind, BitVec.ofNat 8 slot] ++ leBytes 2 who ++ leBytes 4 aux ++ leBytes 8 pc.toNat ++ leBytes 8 time.toNat ++
    leBytes 8 data.toNat

/-- Writes a trace record to the area of the die in focus (R423, R424). -/
def State.trace (s : State) (kind slot aux : Nat) (pc data : Word) : State :=
  let c := areaCap s.die.otring
  if c = 0 then s
  else
    let bs := traceRecord kind slot s.self aux pc data s.dtime
    let s := s.unitWrite s.self s.foc.die (localPlace s.foc.die (areaBase s.die.otring + s.die.ottail % c * 32)) bs
    { s with die := { s.die with ottail := s.die.ottail + 1 } }

/-- otctl bits of the core in focus (Table 17-2): TRX, SMP, SWT, TRP. -/
def State.traces (s : State) (b : Nat) : Bool := s.core.otctl.getLsbD b

/-- The kind of a wait of R354 and its object (Table 17-5); the table does not list a stamp and a divider, whose kind and
object are free (log 65). The other waits are none of R354's. -/
def waitKind : Wait → Option (Nat × Word)
  | .word a => some (1, a)
  | .barrier k a => some (k, a)
  | .child h => some (5, h)
  | .time t => some (6, t)
  | .ringHead r => some (9, word r.val)
  | .ringTail r => some (10, word r.val)
  | .queueFull q => some (11, word q)
  | .matrix m => some (12, word m)
  | .doneDrain => some (12, 0x10000)
  | .launch a => some (13, a)
  | .stamp _ => some ((Config.waitKind 0).toNat, Config.waitObject 0)
  | .divider => some ((Config.waitKind 1).toNat, Config.waitObject 1)
  | .reduce => none
  | .tick => none
  | .invalidate => none
  | .harvestArea => none
  | .epoch => none

/-- The record of a wait (R428): its 32 bytes as four words. -/
def waitRecord (waiter setter kind fin : Nat) (obj : Word) (cyc : Nat) (tend : Word) : Vector Word 4 :=
  #v[word (waiter + setter * 65536 + kind * 2 ^ 32 + fin * 2 ^ 40), obj, word (min cyc (2 ^ 32 - 1)), tend]

/-- Writes a wait record to the area of the die in focus, when the wait lasted at least one cycle and at least owmin
(R428). -/
def State.writeWait (s : State) (waiter : Nat) (r : Vector Word 4) (cyc : Nat) : State :=
  let c := areaCap s.die.owring
  if c = 0 || cyc = 0 || cyc < s.die.owmin then s
  else
    let bs := r.toList.flatMap fun w => leBytes 8 w.toNat
    let s := s.unitWrite waiter s.foc.die (localPlace s.foc.die (areaBase s.die.owring + s.die.owtail % c * 32)) bs
    { s with die := { s.die with owtail := s.die.owtail + 1 } }

/-- The record of the running wait of the context in focus as it ends, if it is one that is logged (R428). `fin` is the
record's END. -/
def State.endingWait (s : State) (w : Wait) (fin : Nat) : Option OwedWait :=
  (waitKind w).map fun k =>
    let n := s.cycle - s.ctx.waitStart
    ⟨w, s.ctx.waitStart, waitRecord s.self (if fin = 0 then s.ctx.setter else 65535) k.1 fin k.2 n s.dtime, n⟩

/-- Logs a wait of the context in focus and keeps it as the context's most recent record (R428, R433). -/
def State.logWait (s : State) (o : Option OwedWait) : State :=
  match o with
  | none => s
  | some o =>
    if o.cycles = 0 then s else { s with ctx := { s.ctx with lastWait := o.record } }.writeWait s.self o.record o.cycles

/-- The wait that the context in focus had before its slot was tried again is over (R428). -/
def State.payWait (s : State) : State := { s with ctx := { s.ctx with owed := none } }.logWait s.ctx.owed

/-- Logs a wait of an engine on the die in focus (R428). -/
def State.logUnit (s : State) (waiter setter kind fin : Nat) (obj : Word) (cyc : Nat) : State :=
  s.writeWait waiter (waitRecord waiter (if fin = 0 then setter else 65535) kind fin obj cyc s.dtime) cyc

/-- The wait of the context in focus begins, or goes on when its slot found that what it waited for is gone again (R354,
R428). -/
def State.startWait (s : State) (w : Wait) : State :=
  match s.ctx.owed.filter fun o => o.wait == w with
  | some o => { s with ctx := { s.ctx with status := .waiting w, waitStart := o.start, setter := 65535, owed := none } }
  | none =>
    let s := s.payWait
    { s with ctx := { s.ctx with status := .waiting w, waitStart := s.cycle, setter := 65535 } }

/-- The wait of the context in focus ends with the record's END `fin`, and it is ready (R354, R428). -/
def State.endWait (s : State) (fin : Nat) : State :=
  let s := s.payWait
  match s.ctx.status with
  | .waiting w =>
    let s := s.logWait (s.endingWait w fin)
    { s with ctx := { s.ctx with status := .ready } }
  | _ => s

/-- The wait of the context in focus is satisfied, and its slot is tried again: its record follows when the slot issues,
unless the wait goes on (R354, R428). -/
def State.retryWait (s : State) : State :=
  match s.ctx.status with
  | .waiting w => { s with ctx := { s.ctx with status := .ready, owed := s.endingWait w 0 } }
  | _ => s

/-- The running slot waits at issue and is tried again: nothing of it took place (R354). -/
def State.holdFor (s : State) (w : Wait) : State :=
  let s := if s.ctx.status = .waiting w then s else s.startWait w
  { s with ctx := { s.ctx with slotEnd := .hold } }

/-- The running slot is held with its context ready (the holds of R354). -/
def State.holdReady (s : State) : State := { s with ctx := { s.ctx with slotEnd := .hold } }

/-- The running slot waits for an event that ends it (R354). -/
def State.waitFor (s : State) (w : Wait) : State :=
  let s := s.startWait w
  { s with ctx := { s.ctx with slotEnd := .wait } }

/-- The waits of every context that a test names may be over, with their setter: their slots are tried again (R354). -/
def State.wakeAll (s : State) (who : Nat) (f : CtxId → Wait → Bool) : State :=
  (s.knownCtxs.filter fun c => match (s.ctxAt c).status with
    | .waiting w => f c w
    | _ => false).foldl
    (fun s c => s.atCtx c fun s => { s with ctx := { s.ctx with setter := who } }.retryWait) s

/-- An entry left a queue of a core: the contexts that wait for room in it try again, with the entry's agent as their
setter (Table 17-5, kind 11). -/
def State.noteLeft (s : State) (p : CoreId) (q who : Nat) : State :=
  s.wakeAll who fun c w => c.coreId == p && w == .queueFull q

/-! Charges (R410, R411). -/

/-- A 48-bit counter after a charge: it saturates (R410). -/
def satAdd48 (a n : Nat) : Nat := min (a + n) (2 ^ 48 - 1)

/-- Charges energy to the context in focus, whose counter takes it at the end of the cycle (R410, R411), and to its
die's tick; the granger's is part of `guncore` (R401). -/
def State.chargeEnergy (s : State) (n : Nat) : State :=
  { s with
    ctx := { s.ctx with echg := s.ctx.echg + n }
    die := { s.die with etick := if s.foc.core < 96 then s.die.etick + n else s.die.etick } }

/-- The energy counter of a context at the end of a cycle: the cycle's charges are added once, and a sum beyond the
counter saturates it and sets ESAT; a controller's write comes before them (R410). -/
def Ctx.charged (x : Ctx) : Ctx :=
  { x with
    ecnt := satAdd48 (x.eput.getD x.ecnt) x.echg
    cstat := if 2 ^ 48 - 1 < x.eput.getD x.ecnt + x.echg then orCstat x.cstat (2 ^ bitESAT) else x.cstat
    echg := 0, eput := none }

/-- Charges units of a class (Table 16-1). -/
def State.charge (s : State) (cls units : Nat) : State := s.chargeEnergy (s.die.weights.getD cls 0 * units)

/-- Charges units of a class to another context, for work done for it (R411). -/
def State.chargeTo (s : State) (c : CtxId) (cls units : Nat) : State := s.atCtx c fun s => s.charge cls units

/-! Traps. -/

/-- The priv test of R375. -/
def State.isCtrl (s : State) : Bool := s.ctx.ctrl

/-- The static charge of a core over all cycles up to now (R412). -/
def State.staticTotal (s : State) (x : Die) : Int := x.staticSum + s.cycle * x.estat

/-- Cycles of the running tick of a die's package that have passed (R401). -/
def State.tickCycles (s : State) (d : Nat) : Nat := s.cycle - 64 * (s.pkgAt (d / 2)).tick

/-- `guncore` of the die in focus takes a value: the cycles of the tick that have passed keep the old one (R401). -/
def State.putUncore (s : State) (v : Nat) : Die :=
  { s.die with guncore := v, uncAdj := s.die.uncAdj + s.tickCycles s.foc.die * ((s.die.guncore : Int) - v) }

/-- `estat` of the die in focus takes a value: the cycles that have passed keep the old one (R401, R412). -/
def State.putStatic (s : State) (v : Nat) : Die :=
  { s.die with
    estat := v
    staticSum := s.die.staticSum + s.cycle * ((s.die.estat : Int) - v)
    estAdj := s.die.estAdj + s.tickCycles s.foc.die * ((s.die.estat : Int) - v) }

/-- RATE or BURST of a `gramp` value (Table 16-3). -/
def rateOf (v : Word) : Nat := wordBits v 8 0
def burstOf (v : Word) : Nat := wordBits v 25 16

/-- A package's ramp bound is written (R403): a smaller CAP cuts the pool. -/
def Package.setRamp (p : Package) (v : Word) : Package :=
  { p with rate := rateOf v, burst := burstOf v, pool := min p.pool (rateOf v * burstOf v * 250 * 194560) }

/-- A context register takes a value, in the fields that Tables 15-1, 15-2, 4-5, 17-3 and 17-4 give it. -/
def Ctx.putSys (x : Ctx) (n : Nat) (v : Word) : Ctx :=
  if n = 0x000 then { x with cstat := setModes x.cstat v }
  else if n = 0x001 then { x with cview := v &&& 0xfffff }
  else if n = 0x003 then { x with tvec := v }
  else if n = 0x004 then { x with tscr := x.tscr.set 0 v }
  else if n = 0x005 then { x with tscr := x.tscr.set 1 v }
  else if n = 0x008 then { x with trap := { x.trap with cause := v &&& 0xff } }
  else if n = 0x009 then { x with trap := { x.trap with bundle := v &&& ~~~(15 : Word) } }
  else if n = 0x00a then { x with trap := { x.trap with slot := v &&& 3 } }
  else if n = 0x00b then { x with trap := { x.trap with done := v &&& 15 } }
  else if n = 0x00c then { x with trap := { x.trap with addr := v } }
  else if n = 0x00d then { x with trap := { x.trap with info := v } }
  else if n = 0x00e then { x with trap := { x.trap with next := v &&& ~~~(14 : Word) } }
  else if n = 0x040 then { x with eput := some (wordBits v 47 0) }
  else if n = 0x064 then { x with obk := x.obk.set 0 v }
  else if n = 0x065 then { x with obk := x.obk.set 1 v }
  else if n = 0x066 then { x with owa := x.owa.set 0 (v &&& 0x003ffffffffffff8) }
  else if n = 0x067 then { x with owa := x.owa.set 1 (v &&& 0x003ffffffffffff8) }
  else x

/-- A counter of a core takes a value at the end of the cycle in which a controller wrote it (Tables 16-2, 17-1); `t` is
the die's static charge for one core up to then. -/
def Core.putCounter (c : Core) (t : Int) (cycle n : Nat) (v : Word) : Core :=
  if n = 0x041 then { c with eidle := wordBits v 47 0, eidleMark := t + c.paid }
  else if n = 0x042 then { c with ebal := wordBits v 47 0 }
  else if n = 0x043 then { c with bcyc := wordBits v 47 0 }
  else if n = 0x050 then { c with ocycBase := cycle - v.toNat }
  else if n = 0x051 then { c with obnd := v }
  else if n = 0x052 then { c with omrg := v }
  else if n = 0x053 then { c with ospl := v }
  else if n = 0x054 then { c with otrm := v }
  else if n = 0x055 then { c with oskr := v }
  else if n = 0x056 then { c with orst := v }
  else if n = 0x057 then { c with oqst := v }
  else if n = 0x058 then { c with othr := v }
  else if n = 0x059 then { c with otag := v }
  else c

/-- A core register takes a value (Tables 16-2, 17-1, 17-2): a counter at the end of the cycle (R410, R421). -/
def State.putCore (s : State) (n : Nat) (v : Word) : Core :=
  let c := s.core
  if n = 0x060 then { c with otctl := v &&& 0xffffff0f }
  else if (0x041 ≤ n ∧ n ≤ 0x043) ∨ (0x050 ≤ n ∧ n ≤ 0x059) then { c with late := c.late ++ [(n, v)] }
  else c

/-- A TAG-MISMATCH of the core in the running cycle (Table 17-1, otag). -/
def Core.tagMiss (c : Core) : Core := { c with tally := { c.tally with otag := c.tally.otag + 1 } }

/-- A die register takes a value (Tables 15-1, 16-2, 16-4, 17-1); the areas' tails clear (R421). -/
def State.putDie (s : State) (n : Nat) (v : Word) : Die :=
  let x := s.die
  if n = 0x046 then { x with pmx := x.pmx && !v.getLsbD 1, fmiss := x.fmiss && !v.getLsbD 0 }
  else if n = 0x048 then s.putStatic (wordBits v 23 0)
  else if n = 0x04b then s.putUncore (wordBits v 19 0)
  else if n = 0x068 then { x with owmin := wordBits v 31 0 }
  else if n = 0x06a then { x with otring := v &&& 0xffffffffffff, ottail := 0 }
  else if n = 0x06b then { x with owring := v &&& 0xffffffffffff, owtail := 0 }
  else if n = 0x100 then { x with gsel := v &&& 0x1ff }
  else if n = 0x102 then { x with gage := v.toNat }
  else if n = 0x103 then { x with gdead := v.toNat }
  else if n = 0x104 then { x with gqdn := v &&& 0x1f }
  else if n = 0x105 then { x with gecc := x.gecc &&& ~~~v }
  else x

/-- A system register of the agents in focus takes a value (R387). `gramp` and `gpmax` are the package's, and die 1
ignores their writes (R414). -/
def State.putSys (s : State) (n : Nat) (v : Word) : State :=
  if n = 0x049 ∨ n = 0x04a then
    if s.foc.die % 2 = 1 then s
    else
      let p := s.pkgAt (s.foc.die / 2)
      s.setPkgAt (s.foc.die / 2) (if n = 0x049 then p.setRamp v else { p with pmax := wordBits v 11 0 })
  else { s with ctx := s.ctx.putSys n v, core := s.putCore n v, die := s.putDie n v }

/-- Applies what only the next group sees (R39, R149, R377). Ring writes act on the core's ring (R213), and a staged B
tile of that ring is no kept copy any more (R207). -/
def State.applyDefer (s : State) : Deferred → State
  | .sys srn v => s.putSys srn v
  | .dither ph st => { s with ctx := { s.ctx with phase := ph, dstep := st } }
  | .frame len ep => { s with ctx := { s.ctx with frlen := len, epoch := ep } }
  | .ring n cfg side =>
    { s with core := { s.core with
        rings := s.core.rings.set n { cfg := cfg, side := side, head := 0, tail := 0, claim := 0, resv := 0,
                                      filled := [], popper := 65535, opened := 0 }
        staged := s.core.staged.filter fun t => t.ring != n } }
  | .book n v => { s with ctx := { s.ctx with cb := s.ctx.cb.set n v } }

/-- The end of a group as its deferred writes see it: they take effect, and the next group begins (R22, R39). -/
def State.endGroup (s : State) : State :=
  let s' := s.ctx.defer.foldl State.applyDefer s
  { s' with ctx := { s'.ctx with defer := [], grpR := [], grpW := [], gstart := none } }

/-- The running group begins with what it reads as it is now, if it has not begun (R23). -/
def State.startGroup (s : State) : State :=
  match s.ctx.gstart with
  | some _ => s
  | none => { s with ctx := { s.ctx with gstart := some ⟨s.ctx.cstat, s.ctx.ecnt, s.ctx.phase, s.ctx.dstep⟩ } }

/-- What the running group found when it began (R23). -/
def Ctx.found (x : Ctx) : GroupStart := x.gstart.getD ⟨x.cstat, x.ecnt, x.phase, x.dstep⟩

/-- A dither state that waits for the end of its group (R149). -/
def Deferred.isDither : Deferred → Bool
  | .dither _ _ => true
  | .sys _ _ | .frame _ _ | .ring _ _ _ | .book _ _ => false

/-- What is kept of the running group where its bundle is interrupted (R22, R23, R149, R427). -/
def State.keptGroup (s : State) (exempt : Option Nat) (through : Bool) : SavedGroup :=
  { reads := s.ctx.grpR, writes := s.ctx.grpW, loopStart := s.ctx.loopStart
    dither := s.ctx.defer.filter Deferred.isDither
    slot := s.ctx.slot
    closes := s.ctx.ib.any fun ws => [0, 1, 2, 3].any fun k => s.ctx.slot ≤ k && wordStop (slotWord ws k)
    exempt := exempt, through := through }

/-- The interrupted group's writes that wait for its end take effect, but for a dither state (R39, R149; log 55). -/
def State.leaveGroup (s : State) : State :=
  let s' := (s.ctx.defer.filter fun w => !w.isDither).foldl State.applyDefer s
  { s' with ctx := { s'.ctx with defer := [], grpR := [], grpW := [], gstart := none } }

/-- The nop slots of the bundle in issue, as a mask (R379). -/
def State.nopMask (s : State) : Nat :=
  match s.ctx.ib with
  | none => 0
  | some ws => slotMask ([0, 1, 2, 3].filter (isNopWord ws))

/-- The qualifier of slot k suppresses it for certain: no slot still to commit before it writes its predicate (R29). -/
def suppressedAt (q : Vector Bool 8) (lv : Vector LoopLevel 6) (ws : Vector SlotWord 4) (done k : Nat) : Bool :=
  let c := slotQual (bundleHeader ws) k
  !qualHolds q lv c &&
    ([0, 1, 2, 3].all fun j =>
      k ≤ j || done.testBit j || !(slotWrites (slotInstrD ws j)).contains (RegId.q c.pred))

/-- The suppressed slots of the bundle in issue that are still to be passed over, as a mask (R379); one that has a register
to zero is still to do (log 56). -/
def State.suppressedMask (s : State) : Nat :=
  match s.ctx.ib with
  | none => 0
  | some ws => slotMask ([0, 1, 2, 3].filter fun k =>
      s.ctx.slot < k && !s.ctx.done.getLsbD k && !(slotQual (bundleHeader ws) k).zero &&
        suppressedAt s.ctx.q s.ctx.lv ws s.ctx.done.toNat k)

/-- The done mask where the running slot stops (R379): what is done, the `nop` slots and the suppressed ones. -/
def State.doneMask (s : State) : Nat := s.ctx.done.toNat ||| s.nopMask ||| s.suppressedMask

/-- tnext (Table 15-2): NEXT and NV. -/
def nextWord : Option Word → Word
  | none => 0
  | some t => (t &&& ~~~(15 : Word)) ||| 1

/-- A loop level after it ends: inactive, with no count, pair or pending value (R69, R70, R72). -/
def LoopLevel.ended (l : LoopLevel) : LoopLevel :=
  { l with act := false, rem := 0, iter := 0
           pairs := l.pairs.map fun p => { p with valid := false, pending := none }
           pendRem := none, pendStart := none, pendStop := none }

/-- Ends a level and every active level above it (R70). -/
def endLevels (lv : Vector LoopLevel 6) (n : Nat) : Vector LoopLevel 6 :=
  lv.mapIdx fun k l => if n ≤ k ∧ l.act then l.ended else l

/-- The levels that a committed transfer ends (R70). -/
def State.breakLoops (s : State) (t : Transfer) : State :=
  match t.breaks with
  | none => s
  | some n => { s with ctx := { s.ctx with lv := endLevels s.ctx.lv n } }

/-- The record of a trap is written (R379): what waited for the end of the group takes effect, a transfer that was taken
breaks its loops, and the running group is kept for the `eret` (R383). -/
def State.recordTrap (s : State) (cause : Nat) (addr info bundle : Word) (slot done : Nat) (next : Option Word) : State :=
  let saved := s.keptGroup (if cause = causeWatch then some slot else none) (done = 15)
  let s := s.leaveGroup
  let s := s.ctx.xfer.elim s s.breakLoops
  { s with ctx := { s.ctx with
    trap := ⟨word cause, bundle, word slot, word done, addr, info, nextWord next⟩
    saved := some saved, ib := none, done := 0, slot := 0, slotEnd := .trapped
    xfer := none, loopStart := none, eretPend := false, reissue := none, exempt := none } }

/-- A trap is observed: its trace record (R423) and the count of tag mismatches (Table 17-1, otag). -/
def State.noteTrap (s : State) (cause slot : Nat) (addr bundle : Word) : State :=
  let s := if s.traces 3 then s.trace 4 slot cause bundle addr else s
  if cause = causeTagMismatch then { s with core := s.core.tagMiss } else s

/-- The cause goes where Table 15-3 sends it (R380, R381; R375 for the granger's own traps, a second of which stops the
die). -/
def State.routeTrap (s : State) (cause : Nat) : State :=
  if s.ctx.ctrl then
    if s.ctx.inh then
      { s with ctx := { s.ctx with status := .trapped }
               die := { s.die with boot := 255, failcode := s.die.boot } }
    else { s with ctx := { s.ctx with inh := true, pc := s.ctx.tvec, status := .ready } }
  else if routeOf cause = .task ∧ s.ctx.tvec ≠ 0 ∧ s.ctx.inh = false then
    { s with ctx := { s.ctx with inh := true, pc := s.ctx.tvec, status := .ready } }
  else { s with ctx := { s.ctx with status := .trapped } }

/-- A trap is taken: it is recorded (R379), observed (R423), and goes to the handler of the task, to the granger, or stops the
die (R380, R381, R375). -/
def State.takeTrap (s : State) (cause : Nat) (addr info bundle : Word) (slot done : Nat) (next : Option Word) : State :=
  ((s.recordTrap cause addr info bundle slot done next).noteTrap cause slot addr bundle).routeTrap cause

/-- The successor of the bundle in issue as far as it is decided (R382, R383): the one its re-issue brought, or the
target of a taken transfer. -/
def State.decided (s : State) : Option Word :=
  match s.ctx.reissue.bind Prod.snd with
  | some t => some t
  | none => s.ctx.xfer.map Transfer.target

/-- The running slot stops (R379): every slot below it is done, the `nop` slots and the suppressed ones count as done, the
slot does not. -/
def State.stop (s : State) (cause : Nat) (addr info : Word) : State :=
  let s := s.endWait 2
  s.takeTrap cause addr info s.ctx.pc s.ctx.slot s.doneMask s.decided

/-- A trap after the whole bundle has committed, with the successor decided or none (R379, R382). -/
def State.stopBundle (s : State) (cause : Nat) (addr info : Word) (next : Option Word) : State :=
  s.takeTrap cause addr info s.ctx.pc 3 15 next

/-- A trap before the bundle at pc issues any slot (R24, R27, R31): one that is issued again keeps what its first issue
had done and decided (R383). -/
def State.refuseBundle (s : State) (cause : Nat) (addr info : Word) (slot : Nat) : State :=
  match s.ctx.reissue with
  | none => s.takeTrap cause addr info s.ctx.pc slot 0 none
  | some (done, next) =>
    let saved := s.ctx.saved
    let t := s.takeTrap cause addr info s.ctx.pc slot done.toNat next
    { t with ctx := { t.ctx with saved := saved } }

/-- The first slot that the bundle at pc still has to issue. -/
def State.lowestLeft (s : State) : Nat :=
  match s.ctx.reissue with
  | none => 0
  | some (done, _) => ([0, 1, 2, 3].find? fun k => !done.getLsbD k).getD 0

/-- The PRIV trap of R375. -/
def State.privTrap (s : State) : State := s.stop causePriv 0 0

/-- An ACCESS trap with a reason and nothing else (R377, R38). -/
def State.accessTrap (s : State) (reason : Nat) : State := s.stop causeAccess 0 (word reason)

/-- A fault of a queue or of the Square is found: it waits for delivery to the context (R202, R382). -/
def State.postFault (s : State) (c : CtxId) (f : AsyncFault) : State :=
  let x := s.ctxAt c
  s.setCtxAt c { x with pend := x.pend ++ [f] }

/-- Delivers the oldest pending fault by an `eret` or RESUME (R382): the record's cause, address and detail are
written, its slot is the lowest not done, and bundle, mask and successor stay as they were. -/
def State.deliverPending (s : State) (f : AsyncFault) (rest : List AsyncFault) : State :=
  let t := s.ctx.trap
  let done := wordBits t.done 3 0
  let slot := ([0, 1, 2, 3].find? fun k => done / 2 ^ k % 2 = 0).getD 0
  let saved := s.ctx.saved
  let s := { s with ctx := { s.ctx with pend := rest } }
  let s := s.takeTrap f.cause f.addr f.info t.bundle slot done none
  { s with ctx := { s.ctx with trap := { s.ctx.trap with next := t.next }, saved := saved } }

end Sys2Proof.Machine
end

