-- ==== Sys2Proof/Machine/Rings.lean ====
section
/-! DEFINITION. Rings (R188 to R192), accumulator tiles (R193), and what the entries of the matrix queue and the
post-processing queue name, hold and wait for (R194 to R197, R203). -/

namespace Sys2Proof.Machine

/-! Fields of a ring (Tables 8-1 to 8-3). -/

def Ring.base (r : Ring) : Nat := wordBits r.cfg 20 0
def Ring.slotSize (r : Ring) : Nat := wordBits r.cfg 39 32 * 4096
def Ring.nslot (r : Ring) : Nat := wordBits r.cfg 46 40
def Ring.role (r : Ring) : Nat := wordBits r.cfg 49 48
def Ring.tscale (r : Ring) : Nat := wordBits r.cfg 63 56
def Ring.sbase (r : Ring) : Nat := wordBits r.side 13 0

/-- a less b modulo 2^32 (R190). -/
def sub32 (a b : Nat) : Nat := (a + 2 ^ 32 - b % 2 ^ 32) % 2 ^ 32

/-- A counter advanced (Table 8-3). -/
def add32 (a k : Nat) : Nat := (a + k) % 2 ^ 32

/-- Occupancy, free slots, and whether the tile at a position is present (R190). -/
def Ring.occ (r : Ring) : Nat := sub32 r.tail r.head
def Ring.free (r : Ring) : Nat := r.nslot - r.occ - r.resv
def Ring.present (r : Ring) (pos : Nat) : Bool := sub32 pos r.head < r.occ

/-- Crib offset of the slot of a position (R189). -/
def Ring.slotOff (r : Ring) (pos : Nat) : Nat := r.base + pos % r.nslot * r.slotSize

/-- Records of a tile by role (R189, R213): 32 for A, 256 for B, none for data. -/
def roleRecords (role : Nat) : Nat := if role = 0 then 32 else if role = 1 then 256 else 0

/-- Index of the first record of the tile at a position (R189). -/
def Ring.recBase (r : Ring) (pos : Nat) : Nat := r.sbase + roleRecords r.role * (pos % r.nslot)

/-- The sequence tag of record s of the tile at a position (R192). -/
def seqTag (pos s : Nat) : Nat := (7 * pos + s) % 256

/-- Ring configuration words that may be installed (R213, checks 1 to 7). -/
def ringWordOk (cfg side : Word) : Bool :=
  let n := wordBits cfg 46 40
  let role := wordBits cfg 49 48
  let base := wordBits cfg 20 0
  let slotb := wordBits cfg 39 32
  role != 3 && [1, 2, 4, 8, 16, 32, 64].contains n && slotb != 0 && base % 4096 == 0 &&
    wordBits cfg 55 50 == 0 && !cfg.getLsbD 47 && wordBits cfg 31 21 == 0 && wordBits side 63 14 == 0 &&
    base + n * slotb * 4096 ≤ 2097152 && wordBits side 13 0 + n * roleRecords role ≤ 16384

/-! What entries name. -/

/-- The accumulator tiles of pass j of an operation (R206). -/
def passTiles (acc : Nat) (pcw : Word) (j : Nat) : List Nat :=
  if wordBits pcw 13 12 = 1 then [acc + 2 * j, acc + 2 * j + 1] else [acc + j]

/-- The tiles an entry names. -/
def MqOp.tiles : MqOp → List Nat
  | .mul m => (List.range m.np).flatMap (passTiles m.acc m.pcw)
  | .zero acc n _ => (List.range n).map (acc + ·)
  | .read _ t _ => [t.val]
  | .write t _ _ _ => [t.val]

/-- The rings an entry names. -/
def MqOp.rings : MqOp → List (Fin 16)
  | .mul m => [m.ra, m.rb]
  | .zero _ _ _ | .read _ _ _ | .write _ _ _ _ => []

/-- Passes of an entry. -/
def MqOp.passes : MqOp → Nat
  | .mul m => m.np
  | .zero _ _ _ | .read _ _ _ | .write _ _ _ _ => 0

/-- The tiles that the first k passes of an entry update. -/
def MqOp.tilesTo (o : MqOp) (k : Nat) : List Nat :=
  match o with
  | .mul m => (List.range k).flatMap (passTiles m.acc m.pcw)
  | .zero _ _ _ | .read _ _ _ | .write _ _ _ _ => []

/-- The B tile of an entry: its own once staged, else a copy that an earlier operation left in the buffer (R207). -/
def Core.bTile (c : Core) (e : MqEntry) (m : MulArgs) : Option FetchedTile :=
  match e.staged with
  | some t => some t
  | none => (c.staged.find? fun t => t.ring == m.rb && t.pos == m.pb).map StagedTile.tile

/-- The tile an entry needs next and whether it is its B tile: the B tile until it is staged, then the A tiles in
order (R206). -/
def Core.needs (c : Core) (e : MqEntry) : Option (Bool × Fin 16 × Nat) :=
  match e.op with
  | .mul m =>
    if e.fault.isSome || e.cancelled then none
    else if (c.bTile e m).isNone then some (true, m.rb, m.pb)
    else if e.fetched.length < m.np then some (false, m.ra, add32 m.pa e.fetched.length)
    else none
  | .zero _ _ _ | .read _ _ _ | .write _ _ _ _ => none

/-- An entry waits for a tile that is not present (Table 17-5, kind 7). -/
def Core.lacks (c : Core) (e : MqEntry) : Option (Bool × Fin 16 × Nat) :=
  match c.needs e with
  | some n => if c.rings[n.2.1].present n.2.2 then none else some n
  | none => none

/-- A ring is busy (R190). -/
def Core.ringBusy (c : Core) (r : Fin 16) : Bool := c.rings[r].resv != 0 || c.mq.any fun e => e.op.rings.contains r

/-- Sets a ring. -/
def Core.setRing (c : Core) (n : Fin 16) (r : Ring) : Core := { c with rings := c.rings.set n r }

/-- Sets the ring of the core in focus. -/
def State.setRing (s : State) (n : Fin 16) (r : Ring) : State := { s with core := s.core.setRing n r }

/-! A ring's counters move. -/

/-- The setter of the contexts that wait on a ring of the core in focus (Table 17-5, kinds 9 and 10). -/
def State.ringSetter (s : State) (w : Wait) (who : Nat) : State :=
  s.knownCtxs.foldl (fun s c =>
    let x := s.ctxAt c
    if c.coreId = s.foc.coreId ∧ x.status = .waiting w ∧ x.setter = 65535 then s.setCtxAt c { x with setter := who } else s) s

/-- The object of the wait of an entry for a tile (Table 17-5, kind 7): whether it is the B tile, its ring and position. -/
def tileObject (t : Bool × Fin 16 × Nat) : Word := word (t.2.1.val + (if t.1 then 16 else 0) + t.2.2 * 2 ^ 32)

/-- TAIL of a ring of the core in focus advances by k (R191, R215): what waited for its tiles goes on, and the waits of
entries are logged (Table 17-5, kind 7). -/
def State.tailMoves (s : State) (n : Fin 16) (k who : Nat) : State :=
  let old := s.core
  let r := s.core.rings[n]
  let s := s.setRing n { r with tail := add32 r.tail k }
  let s := old.mq.foldl (fun s e =>
    match old.lacks e with
    | some t =>
      if t.2.1 = n ∧ s.core.rings[n].present t.2.2 then s.logUnit (s.whoIs 3 e.who) who 7 0 (tileObject t) (s.cycle - e.since)
      else s
    | none => s) s
  s.ringSetter (.ringHead n) who

/-- The wait of an entry of mq for a tile, if it waits, ends with END `fin` (R428). -/
def State.endTileWait (s : State) (e : MqEntry) (fin : Nat) : State :=
  match s.core.lacks e with
  | some t => s.logUnit (s.whoIs 3 e.who) 65535 7 fin (tileObject t) (s.cycle - e.since)
  | none => s

/-- The wait of an engine for space in a ring of the core in focus since a cycle ends, if it waited (Table 17-5, kind 8):
satisfied when the ring has a free slot, else with END `fin` (R428). -/
def State.endSlotWait (s : State) (who since : Nat) (r : Fin 16) (fin : Nat) : State :=
  let g := s.core.rings[r]
  let obj := word (r.val + s.foc.core % 256 * 16)
  if g.free = 0 then s.logUnit who 65535 8 fin obj (s.cycle - since)
  else if since < g.opened then s.logUnit who g.popper 8 0 obj (g.opened - since)
  else s

/-- HEAD of a ring of the core in focus advances by k (R196, R215). -/
def State.headMoves (s : State) (n : Fin 16) (k who : Nat) : State :=
  let r := s.core.rings[n]
  let opened := if r.free = 0 then s.cycle else r.opened
  (s.setRing n { r with head := add32 r.head k, popper := who, opened := opened }).ringSetter (.ringTail n) who

/-- TAIL passes the tiles at its end that are written already (R191). -/
def Ring.ripe (r : Ring) : Nat → Nat
  | 0 => 0
  | n + 1 => if r.filled.contains r.tail then 1 + { r with tail := add32 r.tail 1 }.ripe n else 0

/-- The tile of a reservation is written with its records (R191): TAIL advances, past tiles finished before it, or waits
for an earlier reservation. -/
def State.tileWritten (s : State) (n : Fin 16) (pos who : Nat) : State :=
  let r := s.core.rings[n]
  let r := { r with filled := pos :: r.filled }
  let k := r.ripe r.filled.length
  let gone := (List.range k).map fun j => add32 r.tail j
  let r := { r with resv := r.resv - k, filled := r.filled.filter fun q => !gone.contains q }
  if k = 0 then s.setRing n r else (s.setRing n r).tailMoves n k who

/-- A producer reserves the next slot of a ring of the core in focus (R191): its position. -/
def State.reserveSlot (s : State) (n : Fin 16) : Option (Nat × State) :=
  let r := s.core.rings[n]
  if r.free = 0 then none else some (add32 r.tail r.resv, s.setRing n { r with resv := r.resv + 1 })

/-! The engine producer that needs the next slot of a ring (R191). -/

/-- Source words of a store (Table 9-2, SRCF), the tiles that one output tile reads, and the output tiles (R226). -/
def PpArgs.srcf (a : PpArgs) : Nat := wordBits a.words[0] 14 13
def PpArgs.perTile (a : PpArgs) : Nat := if a.srcf = 1 then 2 else 1
def PpArgs.outs (a : PpArgs) : Nat := a.n / a.perTile

/-- A store at work that has no slot for its next tile. -/
def PpEntry.slotRing (e : PpEntry) : Option (Fin 16) :=
  match e.op with
  | .store a => if e.started && e.fault.isNone && e.reserved.isNone && e.units < a.outs then a.ring else none
  | .rebuild _ _ _ | .retag _ _ _ => none

/-- CNT2 + 1 and CNT1 + 1 of a latched shape, and DRING (Table 10-1). -/
def CopyOp.n2 (o : CopyOp) : Nat := wordBits o.shape[0] 55 40 + 1
def CopyOp.n1 (o : CopyOp) : Nat := wordBits o.shape[0] 39 24 + 1
def CopyOp.dring (o : CopyOp) : Bool := o.shape[3].getLsbD 58

/-- The ring that xa names under DRING (R249). -/
def CopyOp.ring (o : CopyOp) : Fin 16 := Fin.ofNat 16 (wordBits o.xa 3 0)

/-- A command that can fill a ring (Table 10-3). -/
def CopyKind.fills : CopyKind → Bool
  | .cpx | .tmv => true
  | .cp | .cpt | .cpg | .cps | .cpr | .cpsig => false

/-- The operation's tiles go to a ring. -/
def CopyOp.toRing (o : CopyOp) : Bool := o.kind.fills && o.dring

/-- A copy operation at work that has no slot for its next tile. -/
def CopyOp.slotRing (o : CopyOp) : Option (Fin 16) :=
  let all := if o.kind = .cpx then o.n1 * o.n2 else o.n2
  if o.state = .running ∧ o.toRing ∧ o.reserved.isNone ∧ o.units < all then some o.ring else none

/-- A bound collective at work that has no slot for its next tile. -/
def XOp.slotRing (o : XOp) : Option RingBinding :=
  if o.state = .running ∧ o.matched ∧ o.reserved.isNone ∧ o.bytes < o.dlen then o.bind else none

/-- An engine waits for space in one of a core's rings (R421, orst). -/
def State.producerWaits (s : State) (p : CoreId) : Bool :=
  let c := s.coreAt p
  let full (r : Fin 16) : Bool := c.rings[r].free == 0
  (c.ppq.head?.bind PpEntry.slotRing).any full ||
  c.cq.toList.any (fun q => (q.head?.bind CopyOp.slotRing).any full) ||
  (s.dieAt p.die).xq.toList.any fun q => (q.head?.bind XOp.slotRing).any fun b => b.core == p && full b.ring

/-! Records and tiles in the crib. -/

/-- Record n of the side bank of a core (R92). -/
def State.recordAt (s : State) (p : CoreId) (n : Nat) : Nat := leNat (Mem.slice s.mem (sidePlace p (16 * n)) 16)

/-- Bytes of a core's crib. -/
def State.cribBytes (s : State) (p : CoreId) (off n : Nat) : List Byte := Mem.slice s.mem (cribPlace p off) n

/-- The first poisoned word among `n` bytes from a place, by its first byte (R390). -/
def State.poisonIn (s : State) (a n : Nat) : Option Nat :=
  (s.poison.filter fun w => a < w + 8 && w < a + n).foldl (fun m w => some ((m.getD w).min w)) none

/-- The address by which a place of a core's crib or side bank is known to its own tasks (Table 4-1). -/
def ownAddr (p : CoreId) (a : Nat) : Word :=
  if sidePlace p 0 ≤ a then word (0x600000 + (a - sidePlace p 0)) else word (a - cribPlace p 0)

/-! The scoreboard (R195 to R197). -/

/-- An entry has committed its pass into a tile, or names it no more. -/
def MqEntry.committedInto (e : MqEntry) (t : Nat) : Bool :=
  match e.op with
  | .mul _ => !e.op.tiles.contains t || e.cancelled || (e.op.tilesTo e.committed).contains t
  | .zero _ _ _ | .read _ _ _ | .write _ _ _ _ => !e.op.tiles.contains t

/-- An entry has started its pass into a tile, or names it no more. -/
def MqEntry.startedInto (e : MqEntry) (t : Nat) : Bool :=
  match e.op with
  | .mul _ =>
    !e.op.tiles.contains t || e.cancelled || (e.op.tilesTo e.fetched.length).contains t
  | .zero _ _ _ | .read _ _ _ | .write _ _ _ _ => !e.op.tiles.contains t

/-- The accumulator tiles that a post-processing entry has still to read. -/
def PpEntry.unread (e : PpEntry) : List Nat :=
  match e.op with
  | .store a => (List.range (a.n - e.units * a.perTile)).map (a.acc + e.units * a.perTile + ·)
  | .rebuild _ _ _ | .retag _ _ _ => []

/-- Every earlier-issued reader of a tile has read it (R197). -/
def Core.readBefore (c : Core) (ord t : Nat) : Bool :=
  (c.ppq.all fun e => ord ≤ e.ord || !e.unread.contains t) &&
  c.mq.all fun e => ord ≤ e.ord || match e.op with
    | .read _ u _ => u.val != t || e.cancelled
    | .mul _ | .zero _ _ _ | .write _ _ _ _ => true

/-- Every earlier-issued entry has committed into a tile (R197). -/
def Core.committedBefore (c : Core) (ord t : Nat) : Bool := c.mq.all fun e => ord ≤ e.ord || e.cancelled || e.committedInto t

/-- Every earlier-issued entry has started its pass into a tile, or executed (R195). -/
def Core.startedBefore (c : Core) (ord t : Nat) : Bool := c.mq.all fun e => ord ≤ e.ord || e.cancelled || e.startedInto t

/-- An entry is held behind a faulted one that names one of its rings or tiles (R203). -/
def Core.heldByFault (c : Core) (e : MqEntry) : Bool :=
  c.mq.any fun f => f.ord < e.ord && f.fault.isSome &&
    (f.op.rings.any e.op.rings.contains || f.op.tiles.any e.op.tiles.contains)

/-- Replaces an entry of the matrix queue of the core in focus. -/
def State.setMq (s : State) (e : MqEntry) : State :=
  { s with core := { s.core with mq := s.core.mq.map fun f => if f.ord = e.ord then e else f } }

/-! Operations of queues (R76, R259). -/

/-- A context with the record of an operation of a queue that has ended: it stands as the most recent one if it is
(R259). -/
def Ctx.closed (x : Ctx) (q : Nat) (r : Progress) : Ctx :=
  if r.opn + 1 = x.opn.getD q 0 then { x with lastOp := if h : q < 8 then x.lastOp.set q r else x.lastOp } else x

/-- An operation of a queue has ended (R259). -/
def State.closeOp (s : State) (c : CtxId) (q : Nat) (r : Progress) : State :=
  s.setCtxAt c ((s.ctxAt c).closed q r)

/-- An operation of a queue is issued: its issue number, and the state after (R259). -/
def State.openOp (s : State) (q : Fin 8) : Nat × State :=
  (s.ctx.opn[q], { s with ctx := { s.ctx with opn := s.ctx.opn.set q (s.ctx.opn[q] + 1) } })

/-- The joins that an operation of a queue issued now waits for (R284). -/
def State.joinsOf (s : State) (q : Nat) : List (Nat × Nat) := (s.ctx.joins.lookup q).getD []

end Sys2Proof.Machine
end

