-- ==== Sys2Proof/Machine/Address.lean ====
section
/-! DEFINITION. The address map (R79 to R81, R88), translation (R96 to R99), memory tags (R100), and the checks that an
access passes before any byte moves, in the order of R82; watches (R426) and poison (R391). -/

namespace Sys2Proof.Machine

/-- The windows of Table 4-1. -/
inductive Win where
  | crib | swizzled | spatial | side | barn | granary | square | squareOther | mapped
  deriving DecidableEq, Repr

/-- First location and size of a window (Table 4-1). -/
def Win.base : Win → Nat
  | .crib => 0
  | .swizzled => 0x00200000
  | .spatial => 0x00400000
  | .side => 0x00600000
  | .barn => 0x40000000
  | .granary => 0x80000000
  | .square => 0xc0000000
  | .squareOther => 0xc4000000
  | .mapped => 0x100000000

def Win.size : Win → Nat
  | .crib | .swizzled | .spatial => 0x200000
  | .side => 0x40000
  | .barn => 0x800000
  | .granary | .square | .squareOther => 0x4000000
  | .mapped => 2 ^ 48 - 2 ^ 32

/-- The windows in the order of Table 4-1. -/
def Win.all : List Win := [.crib, .swizzled, .spatial, .side, .barn, .granary, .square, .squareOther, .mapped]

/-- The window of a location; none for an address in no window (R80). -/
def winOf (loc : Nat) : Option Win := Win.all.find? fun w => w.base ≤ loc && loc < w.base + w.size

/-- What an access is, for Table 4-2: a scalar access of some bytes, one of a parameter window, or a vector one. -/
inductive AccessForm where
  | scalar (n : Nat)
  | param
  | vld
  | vst
  | pack
  deriving DecidableEq, Repr

/-- The instruction's right to a window (Table 4-2). -/
def Win.allows : Win → AccessForm → Bool
  | .crib, f | .swizzled, f => f != .param
  | .spatial, f => f == .vld
  | .side, f | .barn, f | .granary, f => f != .pack && f != .param
  | .mapped, f => f != .pack
  | .square, f | .squareOther, f => match f with
    | .scalar n => n == 4 || n == 8
    | _ => false

/-- The location, tag key and reserved bits of an address (R79). -/
def locOf (a : Word) : Nat := wordBits a 47 0
def keyOf (a : Word) : Nat := wordBits a 59 56
def highOk (a : Word) : Bool := wordBits a 63 60 == 0 && wordBits a 55 48 == 0

/-- The high bits pass: none is reserved and set, and a scratchpad address has no key (R79). -/
def keyOk (a : Word) : Bool := highOk a && (2 ^ 32 ≤ locOf a || keyOf a == 0)

/-- The physical crib offset of a swizzled offset under a view (R88, Table 4-5). -/
def swizzle (view : Word) (o : Nat) : Nat :=
  let f := (natBits (natBits o 20 12 / 2 ^ wordBits view 12 9 * 2 ^ wordBits view 16 13) 8 0) &&& wordBits view 8 0
  let bank := natBits o 11 3
  o - bank * 8 + (bank ^^^ f) * 8

/-- The place of a location in an untranslated window for a core under a view. -/
def winPlace (p : CoreId) (view : Word) (w : Win) (loc : Nat) : Nat :=
  let o := loc - w.base
  match w with
  | .crib | .spatial => cribPlace p o
  | .swizzled => cribPlace p (swizzle view o)
  | .side => sidePlace p o
  | .barn => barnPlace p.die (p.core / 8) o
  | .granary => granaryPlace p.die o
  | .square => squarePlace p.die o
  | .squareOther => squarePlace (if p.die % 2 = 0 then p.die + 1 else p.die - 1) o
  | .mapped => 0

/-- A fault of an access (R82): its cause, the address of the byte concerned and the reason of Table 4-3. -/
structure MemFault where
  cause : Nat
  addr : Word
  reason : Nat
  deriving DecidableEq, Repr

/-- A page as translated (R97): its entry, first location and size. -/
structure XPage where
  pte : Nat
  base : Nat
  size : Nat
  deriving DecidableEq, Repr

/-- The reason for which a table entry at a level stops a walk (R98), none for a good one. NEXT of an entry that is no
leaf takes bits [15:12], so that only [11:8] are reserved in it (Table 4-6). -/
def pteFault (lvl pte : Nat) : Option Nat :=
  let leaf := natBits pte 1 1 = 1
  if natBits pte 0 0 = 0 then some 6
  else if natBits pte 63 52 ≠ 0 ∨ natBits pte 11 8 ≠ 0 ∨ natBits pte 6 5 = 3 then some 7
  else if leaf ∧ lvl = 1 ∨ ¬leaf ∧ lvl = 4 then some 7
  else if leaf then
    if natBits pte 15 12 ≠ 0 then some 7
    else if natBits pte 6 5 = 1 ∧ natBits pte 39 39 = 1 then some 7
    else if lvl = 2 ∧ natBits pte 29 16 ≠ 0 then some 7
    else if lvl = 3 ∧ natBits pte 20 16 ≠ 0 then some 7
    else none
  else if natBits pte 51 39 ≠ 0 then some 7 else none

/-- Index and page size of a walk level (R97). -/
def walkIndex (lvl loc : Nat) : Nat :=
  if lvl = 1 then natBits loc 47 39 else if lvl = 2 then natBits loc 38 30 else if lvl = 3 then natBits loc 29 21
  else natBits loc 20 16
def walkSize (lvl : Nat) : Nat := if lvl = 2 then 2 ^ 30 else if lvl = 3 then 2 ^ 21 else 2 ^ 16

/-- A walk from a table at a level, `n` levels left (R97): reads as the die sees them. It ends with the reason of a
PAGE-FAULT, or with 0 at a poisoned entry (R390; log 18). -/
def State.walk (s : State) (d loc : Nat) : Nat → Nat → Except Nat XPage
  | 0, _ => .error 7
  | n + 1, table =>
    let lvl := 4 - n
    let here := localPlace d (table + 8 * walkIndex lvl loc)
    let pte := s.seenNat d here 8
    if s.poison.contains (wordOf here) then .error 0
    else match pteFault lvl pte with
    | some r => .error r
    | none =>
      if natBits pte 1 1 = 1 then .ok ⟨pte, loc / walkSize lvl * walkSize lvl, walkSize lvl⟩
      else s.walk d loc n (natBits pte 38 12 * 4096)

/-- The fault of an access at an address whose page's walk ended without a page (R98, R390). -/
def walkFault (a : Word) (r : Nat) : MemFault := ⟨if r = 0 then causeEcc else causePageFault, a, r⟩

/-- Holders of translations (R96, R99): cores 0 to 96, 97 the collective engine, 128 + k the second level of a
cluster. -/
def secondLevel (owner : Nat) : Nat := 128 + owner / 8

/-- A held translation of a location. -/
def heldEntry (tlb : List TlbEntry) (owner asn loc : Nat) : Option TlbEntry :=
  tlb.find? fun e => e.owner == owner && e.asn == asn && e.base ≤ loc && loc < e.base + e.size

/-- Translation of one location for a holder on a die (R96 to R99): a held entry, at first or second level, may be an
old one; else a walk. The entries to hold come with the page. -/
def State.translate (s : State) (d owner asn root loc : Nat) : Except Nat (XPage × List TlbEntry) :=
  let tlb := (s.dieAt d).tlb
  match heldEntry tlb owner asn loc with
  | some e => .ok (⟨e.pte, e.base, e.size⟩, [])
  | none => match heldEntry tlb (secondLevel owner) asn loc with
    | some e => .ok (⟨e.pte, e.base, e.size⟩, [{ e with owner := owner }])
    | none => match s.walk d loc 4 root with
      | .error r => .error r
      | .ok p =>
        let e : TlbEntry := ⟨owner, asn, p.base, p.size, p.pte⟩
        .ok (p, [e, { e with owner := secondLevel owner }])

/-- Translations that a holder keeps (Table 1-3); the table names none for the collective engine and the dispatcher. -/
def tlbRoom (owner : Nat) : Option Nat :=
  if owner ≤ 96 then some 256 else if 128 ≤ owner && owner < 160 then some 4096 else none

/-- A translation is held; where its holder has no room, in place of one of its others, which one being free (log 19). -/
def addTlb (no : Nat) (tlb : List TlbEntry) (e : TlbEntry) : List TlbEntry :=
  if tlb.contains e then tlb
  else
    let own := (tlb.zipIdx.filter fun x => x.1.owner == e.owner).map Prod.snd
    if (tlbRoom e.owner).any (· ≤ own.length) then
      tlb.eraseIdx (own.getD (Config.pick no own.length % own.length) 0) ++ [e]
    else tlb ++ [e]

/-- Holds translations on a die. -/
def State.holdTlb (s : State) (d : Nat) (es : List TlbEntry) : State :=
  if es.isEmpty then s
  else
    let x := s.dieAt d
    let s := s.setDieAt d { x with tlb := es.foldl (addTlb s.fresh) x.tlb }
    { s with fresh := s.fresh + 1 }

/-- What an access does, for protection: reads, writes or fetches code; `plain` bars pages beyond the quarter (R98,
R15); `ctrl` is controller privilege. -/
structure AccessMode where
  write : Bool
  exec : Bool
  plain : Bool
  ctrl : Bool
  deriving DecidableEq, Repr

/-- The physical place of a location in a page (R97), none for a quarter die number that no die has. -/
def State.pagePlace (s : State) (p : XPage) (loc : Nat) : Option Nat :=
  let pa := natBits p.pte 51 16 * 65536 + (loc - p.base)
  let kind := natBits p.pte 6 5
  if kind = 0 then (s.dieOfQdn (natBits pa 41 38)).map fun d => hbmPlace d (natBits pa 37 0)
  else if kind = 1 then some (remotePlace pa) else some (hostPlace pa)

/-- The protection fault of a page, in the reason order of Table 4-3 (R98). -/
def State.protect (s : State) (m : AccessMode) (p : XPage) : Option Nat :=
  let kind := natBits p.pte 6 5
  if m.write ∧ natBits p.pte 2 2 = 0 then some 8
  else if m.exec ∧ natBits p.pte 3 3 = 0 then some 9
  else if natBits p.pte 7 7 = 1 ∧ !m.ctrl then some 10
  else if m.plain ∧ kind ≠ 0 then some 11
  else if kind = 0 ∧ (s.dieOfQdn (natBits (natBits p.pte 51 16 * 65536) 41 38)).isNone then some 12
  else none

/-- The tag of the 32-byte granule of a place as a die sees it (R100). -/
def State.tagAt (s : State) (d a : Nat) : BitVec 4 := BitVec.ofNat 4 (s.seenByte d (tagPlace a)).toNat

/-- The byte a store of the context before a point leaves at a place (R265). -/
def Ctx.forwarded (x : Ctx) (seq a : Nat) : Option Byte :=
  (x.stores.reverse.filter fun p => p.seq < seq).findSome? fun p => lastCell p.cells a

/-- The tag of a granule as the task in focus sees it: its own last change, at once (R431). -/
def State.ownTag (s : State) (a : Nat) : BitVec 4 :=
  match s.ctx.forwarded s.ctx.seq (tagPlace a) with
  | some b => BitVec.ofNat 4 b.toNat
  | none => s.tagAt s.foc.die a

/-- The tag that an access of a holder compares (R100, R431): a plain access is its task's own. -/
def State.tagFor (s : State) (d owner : Nat) (m : AccessMode) (a : Nat) : BitVec 4 :=
  if m.plain && d == s.foc.die && owner == s.foc.core then s.ownTag a else s.tagAt d a

/-- What an access found: the place of each byte in order, the translations to hold, and the pages. -/
structure Found where
  places : List Nat
  held : List TlbEntry
  pages : List XPage
  deriving DecidableEq, Repr

/-- Parts of a range of locations by 64 KiB page: each page's first byte within the range and its length (R97). -/
def pageParts : Nat → Nat → Nat → List (Nat × Nat)
  | 0, _, _ => []
  | k + 1, loc, n =>
    if n = 0 then []
    else
      let m := min n (65536 - loc % 65536)
      (loc, m) :: pageParts k (loc + m) (n - m)

/-- One page of a range as translated: the page, the entries to hold, and the part of the range in it. -/
structure MappedPart where
  page : XPage
  held : List TlbEntry
  loc : Nat
  len : Nat
  deriving DecidableEq, Repr

/-- Translates the parts of a range in rising order; the first failing page stops it (R82, 4). -/
def State.translateParts (s : State) (d owner asn root : Nat) (a : Word) :
    List (Nat × Nat) → Except MemFault (List MappedPart)
  | [] => .ok []
  | (l, n) :: ps => match s.translate d owner asn root l with
    | .error r => .error (walkFault (a + word (l - locOf a)) r)
    | .ok (p, es) => match s.translateParts d owner asn root a ps with
      | .error f => .error f
      | .ok ms => .ok (⟨p, es, l, n⟩ :: ms)

/-- The bytes of a translated part: location, place, and whether its page checks tags. -/
def State.partCells (s : State) (e : MappedPart) : List (Nat × Nat × Bool) :=
  (List.range e.len).map fun k =>
    (e.loc + k, (s.pagePlace e.page (e.loc + k)).getD 0, natBits e.page.pte 4 4 == 1)

/-- The translated part of a check (R82, 4 to 6): each page in rising order, then protection, of the lowest page that
fails it (log 69), then tags. -/
def State.checkMapped (s : State) (d owner asn root : Nat) (m : AccessMode) (a : Word) (n : Nat) :
    Except MemFault Found :=
  match s.translateParts d owner asn root a (pageParts (n / 65536 + 2) (locOf a) n) with
  | .error f => .error f
  | .ok ms =>
    match ms.findSome? fun e => (s.protect m e.page).map fun r => (e.loc, r) with
    | some f => .error ⟨causeAccess, a + word (f.1 - locOf a), f.2⟩
    | none =>
      let cells := ms.flatMap s.partCells
      match cells.find? fun c => c.2.2 && (s.tagFor d owner m c.2.1).toNat != keyOf a with
      | some c => .error ⟨causeTagMismatch, a + word (c.1 - locOf a), 13⟩
      | none => .ok ⟨cells.map fun c => c.2.1, ms.flatMap MappedPart.held, ms.map MappedPart.page⟩

/-- The address space of the context in focus: its task's number and root table (R96). -/
def State.space (s : State) : Nat × Nat := match s.ctx.task with
  | some t => (t.asn, t.root)
  | none => (0, 0)

/-- A block of Square space above the SRAM has been backed (R286). -/
def State.squareBacked (s : State) (a : Nat) : Bool :=
  let o := (a - 2 ^ 67) % 2 ^ 26
  o < 4194304 || (s.dieAt (squareDie a)).backed.contains (o / 65536)

/-- The checks of a plain access of `n` bytes at `a` by the task in focus, in the order of R82; crossing the window comes
before its right, with the first byte as taddr (log 69). -/
def State.checkAccess (s : State) (a : Word) (n align : Nat) (f : AccessForm) (write : Bool) :
    Except MemFault Found :=
  let loc := locOf a
  if !keyOk a then .error ⟨causeAccess, a, 3⟩
  else if loc % align ≠ 0 then .error ⟨causeMisalign, a, 5⟩
  else match winOf loc with
    | none => .error ⟨causeAccess, a, 1⟩
    | some w =>
      if w.base + w.size < loc + n then .error ⟨causeAccess, a, 2⟩
      else if !w.allows f || (w == .spatial && write) then .error ⟨causeAccess, a, 4⟩
      else if w == .barn && s.foc.core == 96 then .error ⟨causeAccess, a, 1⟩
      else if w == .mapped then
        s.checkMapped s.foc.die s.foc.core s.space.1 s.space.2 ⟨write, false, true, s.ctx.ctrl⟩ a n
      else
        let ps := (List.range n).map fun k => winPlace s.foc.coreId s.ctx.cview w (loc + k)
        if (w == .square || w == .squareOther) && !(ps.all s.squareBacked) then .error ⟨causePageFault, a, 6⟩
        else .ok ⟨ps, [], []⟩

/-- A byte of a watched range: the lowest location of a list that watch register k covers, for an access that reads or
writes (R426, Table 17-4). -/
def watchByte (v : Word) (locs : List Nat) (rd wr : Bool) : Option Nat :=
  let kind := wordBits v 53 52
  let size := 2 ^ (wordBits v 51 48 + 3)
  let base := wordBits v 47 3 * 8 / size * size
  if (kind % 2 = 1 ∧ rd) ∨ (2 ≤ kind ∧ wr) then
    (locs.filter fun l => base ≤ l ∧ l < base + size).foldl (fun m l => some ((m.getD l).min l)) none
  else none

/-- The watch that an access of locations meets (R426): its register and its lowest byte. A re-issued slot that a watch
or breakpoint stopped is passed over (R427). -/
def State.watched (s : State) (locs : List Nat) (rd wr : Bool) : Option (Nat × Nat) :=
  if s.ctx.exempt = some s.ctx.slot then none
  else match watchByte s.ctx.owa[0] locs rd wr with
    | some l => some (0, l)
    | none => (watchByte s.ctx.owa[1] locs rd wr).map fun l => (1, l)

/-- The poisoned word that a read of places meets first (R391). -/
def State.poisonAt (s : State) (ps : List Nat) : Option Nat := ps.find? fun p => s.poison.contains (wordOf p)

/-- The trap of a faulting access (R82): tinfo has the reason and, for a store, bit 8. -/
def State.memTrap (s : State) (f : MemFault) (write : Bool) : State :=
  s.stop f.cause f.addr (word (f.reason + if write then 256 else 0))

/-- The trap of a watch (R426). -/
def State.watchTrap (s : State) (a : Word) (w : Nat × Nat) (write : Bool) : State :=
  s.stop causeWatch (a &&& 0xffff000000000000 ||| word w.2) (word (2 + w.1 + if write then 256 else 0))

end Sys2Proof.Machine
end

