-- ==== Sys2Proof/Machine/Commit.lean ====
section
/-! DEFINITION. How slots and bundles end: what a committed, suppressed or empty slot leaves (R22, R29, R379, R411), the
hardware loops (R65 to R72), the end of a bundle with its transfer or boundary (R25, R63, R69), and resumption from a
trap record (R383). -/

namespace Sys2Proof.Machine

/-- Queues a write of a precision control word, seen by matrix operations three bundles later (R39). -/
def State.pendW (s : State) (n : Fin 8) (v : Word) : State :=
  { s with ctx := { s.ctx with wpend := s.ctx.wpend ++ [(n, v, s.ctx.bundles + 3)] } }

/-- The precision control word that a matrix operation issued now reads (R39). -/
def State.getW (s : State) (n : Fin 8) : Word :=
  match (s.ctx.wpend.reverse.find? fun p => p.1 == n && p.2.2 ≤ s.ctx.bundles) with
  | some p => p.2.1
  | none => s.ctx.w[n]

/-- Writes of precision control words that have become visible move to the registers. -/
def State.settleW (s : State) : State :=
  let ripe := s.ctx.wpend.filter fun p => p.2.2 ≤ s.ctx.bundles
  { s with ctx := { s.ctx with w := ripe.foldl (fun w p => w.set p.1 p.2.1) s.ctx.w
                               wpend := s.ctx.wpend.filter fun p => s.ctx.bundles < p.2.2 } }

/-- ZERO of a suppressed slot: a destination register is written with zero, a vector with tag 0 (R29). -/
def State.zeroReg (s : State) : RegId → State
  | .x n => s.setX n 0
  | .q n => s.setQ n false
  | .v n => s.setV n 0 0
  | .m n => s.setM n 0
  | .w n => s.pendW n 0
  | .cb n => { s with ctx := { s.ctx with defer := s.ctx.defer ++ [.book n 0] } }
  | .pk n => { s with ctx := { s.ctx with pk := s.ctx.pk.set n 0 } }
  | .sh n => { s with ctx := { s.ctx with sh := s.ctx.sh.set n (Vector.replicate 4 0) } }
  | .ht n => { s with ctx := { s.ctx with ht := s.ctx.ht.set n 0 } }
  | .pp n => { s with ctx := { s.ctx with pp := s.ctx.pp.set n (Vector.replicate 3 0) } }
  | .lv _ => s
  | .sys _ => s

/-- Leaves slot k behind: it is done, its registers count for its group, and its stop bit ends the group (R22, R23). -/
def State.leaveSlot (s : State) (ws : Vector SlotWord 4) (k : Nat) : State :=
  let i := slotInstrD ws k
  let s :=
    if s.ctx.done.getLsbD k then s
    else { s with ctx := { s.ctx with
      done := s.ctx.done ||| BitVec.ofNat 4 (2 ^ k)
      grpR := s.ctx.grpR ++ slotReads i (slotQual (bundleHeader ws) k)
      grpW := s.ctx.grpW ++ slotWrites i } }
  let s := if wordStop (slotWord ws k) then s.endGroup else s
  { s with ctx := { s.ctx with slot := k + 1 } }

/-! Registers whose results are on their way. -/

/-- A context runs a task of a launch. -/
def Ctx.isTask (x : Ctx) (launch index : Nat) : Bool := x.task.any fun t => t.launch == launch && t.index == index

/-- Ordered batches of the dies of the package of a context. -/
def State.nearBatches (s : State) (c : CtxId) : List Batch :=
  let d := 2 * (c.die / 2)
  (s.dieAt d).batches ++ (s.dieAt (d + 1)).batches

/-- Held arrivals of the dies of the package of a context. -/
def State.nearHeld (s : State) (c : CtxId) : List HeldArrival :=
  let d := 2 * (c.die / 2)
  (s.dieAt d).heldArr ++ (s.dieAt (d + 1)).heldArr

/-- Ordered adds of the task of a context whose set has closed: they wait to be applied, in a batch or with an arrival that
is held (R295, R307). -/
def State.closedAdds (s : State) (c : CtxId) : List OrderedAdd :=
  ((s.nearBatches c).flatMap Batch.adds ++ (s.nearHeld c).flatMap HeldArrival.adds).filter fun a =>
    (s.ctxAt c).isTask a.launch a.task

/-- Ordered adds of the task of a context that are not yet applied (R295; log 61). -/
def State.openAdds (s : State) (c : CtxId) : List OrderedAdd := (s.ctxAt c).ordSet ++ s.closedAdds c

/-- The register of a load's destination. -/
def LoadDest.reg : LoadDest → RegId
  | .scalar xd _ => .x xd
  | .vector vt => .v vt

/-- Registers of the context in focus that an outstanding operation still writes: loads (R103), Square requests (R293),
ordered adds (R295), held arrivals (R307), reducing loads (R335) and `accrd` (R210). -/
def State.pendingRegs (s : State) : List RegId :=
  let xs : List (Option XReg) :=
    s.ctx.sq.map SqRequest.xd ++ (s.openAdds s.foc).map OrderedAdd.xd ++
    ((s.nearHeld s.foc).filter fun h => s.ctx.isTask h.launch h.task).map HeldArrival.xd ++
    s.ctx.xiq.map fun e => match e.op with
      | .reduce _ _ _ _ _ xd _ => some xd
      | .passed _ | .bind _ _ | .store _ _ _ _ => none
  let vs := s.core.mq.filterMap fun e => match e.op with
    | .read vd _ _ => if e.who == s.foc then some (RegId.v vd) else none
    | _ => none
  s.ctx.loads.map (fun l => l.dest.reg) ++ ((xs.filterMap id).filter (· != 0)).map RegId.x ++ vs

/-- A slot reads or writes a register whose result is not ready (R49, R119, R103). -/
def State.slotBusy (s : State) (ws : Vector SlotWord 4) (k : Nat) : Bool :=
  let i := slotInstrD ws k
  meets s.pendingRegs (slotReads i (slotQual (bundleHeader ws) k) ++ slotWrites i)

/-- A suppressed slot has a register to zero whose result is on its way: it waits for it (R29, R49, R119). -/
def State.zeroBusy (s : State) (ws : Vector SlotWord 4) (k : Nat) : Bool :=
  (slotQual (bundleHeader ws) k).zero && meets s.pendingRegs (slotWrites (slotInstrD ws k))

/-- Slot k has nothing to run: it is done already, holds no instruction, or is suppressed and has not to wait (R21,
R29). -/
def State.idleSlot (s : State) (ws : Vector SlotWord 4) (k : Nat) : Bool :=
  s.ctx.done.getLsbD k || slotInstrD ws k == .nop ||
    (!qualHolds s.ctx.q s.ctx.lv (slotQual (bundleHeader ws) k) && !s.zeroBusy ws k)

/-- The breakpoint that stops slot k, if one does (R425, Table 17-3); the slot that an observation stopped is passed
over at its first re-issue (R427). -/
def State.breakAt (s : State) (k : Nat) : Option Nat :=
  if s.ctx.done.getLsbD k || s.ctx.exempt == some k || (s.ctx.ib.any fun ws => slotInstrD ws k == .nop) then none
  else [0, 1].find? fun b =>
    let v := s.ctx.obk.getD b 0
    v.getLsbD k && (v &&& ~~~(15 : Word)) == s.ctx.pc

/-- Passes over one slot with nothing to run (R29). -/
def State.passSlot (s : State) (ws : Vector SlotWord 4) (k : Nat) : State :=
  let q := slotQual (bundleHeader ws) k
  let i := slotInstrD ws k
  let s := if !s.ctx.done.getLsbD k && i != .nop && q.zero then (slotInfo i).dests.foldl State.zeroReg s else s
  s.leaveSlot ws k

/-- Passes over slots until one has something to run or a breakpoint stops it, or the bundle is through. -/
def State.skipSlots (ws : Vector SlotWord 4) : Nat → State → State
  | 0, s => s
  | n + 1, s =>
    if s.ctx.slot < 4 ∧ s.idleSlot ws s.ctx.slot ∧ (s.breakAt s.ctx.slot).isNone then
      State.skipSlots ws n (s.passSlot ws s.ctx.slot)
    else s

/-! Hardware loops. -/

/-- Installs pending START, END and strides (R69). -/
def LoopLevel.install (l : LoopLevel) : LoopLevel :=
  { l with start := l.pendStart.getD l.start, stop := l.pendStop.getD l.stop, pendStart := none, pendStop := none
           pairs := l.pairs.map fun p => { p with stride := p.pending.getD p.stride, pending := none } }

/-- Adds the strides of a level to their registers, in pair order (R69). -/
def State.addStrides (s : State) (l : LoopLevel) : State :=
  l.pairs.toList.foldl (fun s p => if p.valid then s.setX p.reg (s.getX p.reg + p.stride) else s) s

/-- Sets one loop level. -/
def State.setLevel (s : State) (n : Fin 6) (l : LoopLevel) : State :=
  { s with ctx := { s.ctx with lv := s.ctx.lv.set n l } }

/-- Goes on at an address. -/
def State.goTo (s : State) (a : Word) : State := { s with ctx := { s.ctx with pc := a, from_ := s.ctx.pc } }

/-- The iteration boundary after the bundle at `a`, from level n - 1 inward out (R69). -/
def State.boundary (s : State) (a : Word) : Nat → State
  | 0 => s.goTo (a + 16)
  | n + 1 =>
    if h : n < 6 then
      let l := s.ctx.lv[n]
      if l.act ∧ a = l.stop then
        let l := l.install
        let s := s.addStrides l
        let l := { l with rem := l.pendRem.getD (l.rem - 1), pendRem := none }
        if l.rem = 0 then (s.setLevel ⟨n, h⟩ l.ended).boundary a n
        else if l.stop < l.start then
          (s.setLevel ⟨n, h⟩ l.ended).stopBundle causeLoopShape 0 (word n) (some (a + 16))
        else (s.setLevel ⟨n, h⟩ { l with iter := (l.iter + 1) % 2 ^ 32 }).goTo l.start
      else s.goTo (a + 16)
    else s

/-- The number of active levels: they are lv0 up to the innermost (R65). -/
def State.depth (s : State) : Nat :=
  match innermost s.ctx.lv with
  | none => 0
  | some n => n.val + 1

/-- A register that a stride of the boundary after the bundle at `a` adds to (R69). -/
def State.strideRegs (s : State) (a : Word) : List XReg :=
  s.ctx.lv.toList.flatMap fun l =>
    if l.act && l.stop == a then (l.pairs.toList.filter StridePair.valid).map StridePair.reg else []

/-- The boundary after the bundle at pc would add to a register whose result is not ready (R69). -/
def State.strideBusy (s : State) : Bool :=
  s.ctx.xfer.isNone && meets s.pendingRegs ((s.strideRegs s.ctx.pc).map RegId.x)

/-- The trace record of a taken transfer (R423). -/
def State.traceTransfer (s : State) (t : Transfer) : State :=
  if s.traces 0 then s.trace 1 0 (if t.isRet then 1 else 0) s.ctx.pc t.target else s

/-- A taken transfer of the bundle at pc: MISALIGN for a target off the grid (R63), else the target. -/
def State.transfer (s : State) (t : Transfer) : State :=
  let s := s.breakLoops t
  if t.target.toNat % 16 ≠ 0 then s.takeTrap causeMisalign t.target 0 s.ctx.pc 0 15 none
  else s.goTo t.target

/-- Starts a loop level after its bundle's group (R67): LOOP-SHAPE, a transfer past an empty loop, or the body. -/
def State.startLoop (s : State) (l : LoopStart) : State :=
  let n := l.level.val
  let a := s.ctx.pc
  let ownEnd := match innermost s.ctx.lv with
    | none => false
    | some m => s.ctx.lv[m].stop == a
  let shape := s.ctx.lv.toList.zipIdx.any fun e => e.1.act != decide (e.2 < n)
  if shape || 2 ^ 32 ≤ l.count || ownEnd then s.takeTrap causeLoopShape 0 0 a 0 15 (some (a + 16))
  else
    let lev := s.ctx.lv[l.level]
    if l.count = 0 then
      let t : Transfer := ⟨l.stop + 16, false, none⟩
      ((s.setLevel l.level lev.ended).traceTransfer t).transfer t
    else
      (s.setLevel l.level { lev with act := true, rem := l.count, iter := 0, start := a + 16, stop := l.stop
                                     pendRem := none, pendStart := none, pendStop := none }).goTo (a + 16)

/-- A bundle's last slot is done: it is counted (R39, R420), and precision control words become visible. -/
def State.countBundle (s : State) : State :=
  State.settleW { s with
    ctx := { s.ctx with bundles := s.ctx.bundles + 1 }
    core := { s.core with tally := { s.core.tally with obnd := s.core.tally.obnd + 1 } } }

/-- The group of an interrupted bundle whose slots are all done goes on after it, or ends with it (R22, R383). -/
def State.afterGroup (s : State) : State :=
  match s.ctx.saved with
  | none => s
  | some g =>
    let s := if g.through then s else s.countBundle
    let s := { s with ctx := { s.ctx with saved := none } }
    if g.closes then g.dither.foldl State.applyDefer s
    else { s with ctx := { s.ctx with grpR := g.reads, grpW := g.writes, defer := s.ctx.defer ++ g.dither } }

/-- Resumption from the trap record (R383), as `eret` and RESUME do it: a pending fault is delivered, a full done mask
goes on at the successor decided or the next bundle, and any other re-issues the slots not done. -/
def State.resume (s : State) : State :=
  let s := { s with ctx := { s.ctx with
    inh := false, fwd := false, ib := none, slot := 0, done := 0, eretPend := false, slotEnd := .commit
    exempt := none, status := .ready, grpR := [], grpW := [], gstart := none } }
  match s.ctx.pend with
  | f :: rest => s.deliverPending f rest
  | [] =>
    let t := s.ctx.trap
    let done := wordBits t.done 3 0
    let nv := if t.next.getLsbD 0 then some (t.next &&& ~~~(15 : Word)) else none
    if done = 15 then
      let start := s.ctx.saved.bind SavedGroup.loopStart
      let s := State.afterGroup { s with ctx := { s.ctx with pc := t.bundle, reissue := none } }
      match nv, start with
      | some a, _ => s.goTo a
      | none, some l => s.startLoop l
      | none, none => s.goTo (t.bundle + 16)
    else
      { s with ctx := { s.ctx with
          pc := t.bundle, reissue := some (BitVec.ofNat 4 done, nv), exempt := s.ctx.saved.bind SavedGroup.exempt } }

/-- The bundle in issue is through: counted (R39, R421), and its successor is the one already decided, a resumption, a
taken transfer, a loop's start, or the boundary's (R25, R63, R67, R69, R383). -/
def State.endBundle (s : State) : State :=
  let c := s.ctx
  let s := { s with
    ctx := { c with ib := none, done := 0, slot := 0, slotEnd := .commit, xfer := none
                    loopStart := none, reissue := none, exempt := none
                    saved := if c.reissue.isSome then none else c.saved
                    arrived := c.arrived.filter fun a => a.bundle != c.pc }
    core := { s.core with turn := if s.foc.ctx = s.core.primary then s.core.turn + 1 else s.core.turn } }
  let s := s.countBundle
  match c.reissue.bind Prod.snd with
  | some t => s.goTo t
  | none =>
    if c.eretPend then s.resume
    else match c.xfer with
      | some t => s.transfer t
      | none => match c.loopStart with
        | some l => s.startLoop l
        | none => s.boundary c.pc s.depth

/-- A slot of the core's primary commits in this cycle (R423). -/
def State.ownSlot (s : State) (k : Nat) : State :=
  if s.foc.ctx = s.core.primary then { s with core := { s.core with own := s.core.own ++ [k] } } else s

/-- The running slot is done: it is charged (R411), a transfer it took is recorded (R423), and the slots after it that
hold nothing are passed over. -/
def State.doneSlot (s : State) (ws : Vector SlotWord 4) : State :=
  let k := s.ctx.slot
  let s :=
    if k < 4 then
      let i := slotInfo (slotInstrD ws k)
      let s := if k = 0 then s.ctx.xfer.elim s s.traceTransfer else s
      ((s.ownSlot k).charge i.cls i.amount).leaveSlot ws k
    else s
  State.skipSlots ws 4 { s with ctx := { s.ctx with slotEnd := .commit } }

/-- The running slot commits; the bundle ends when no slot is left, but waits for a register that its boundary adds to
(R69). -/
def State.commitSlot (s : State) : State :=
  let s := s.endWait 0
  match s.ctx.ib with
  | none => s
  | some ws =>
    let s := s.doneSlot ws
    if 4 ≤ s.ctx.slot && !s.strideBusy then s.endBundle else s

/-- A trap of the running slot after it has committed (R279, R382, R386): when the bundle is through, its successor is
decided first, and a trap of the loop boundary comes before this one. -/
def State.commitStop (s : State) (cause : Nat) (addr info : Word) : State :=
  let s := s.endWait 0
  match s.ctx.ib with
  | none => s
  | some ws =>
    let k := s.ctx.slot
    let pc := s.ctx.pc
    let s := s.doneSlot ws
    if s.ctx.slot < 4 then s.takeTrap cause addr info pc k s.doneMask s.decided
    else
      let s := s.endBundle
      if s.ctx.slotEnd = .trapped then s.postFault s.foc ⟨cause, addr, info⟩
      else s.takeTrap cause addr info pc k 15 (some s.ctx.pc)

end Sys2Proof.Machine
end

