-- ==== Sys2Proof/Machine/Scalar.lean ====
section
/-! DEFINITION. Scalar instructions, majors 0x00 to 0x0f (R21, R48 to R59). -/

namespace Sys2Proof.Machine

/-- What a meaning answers. -/
abbrev Out := Host.Outcome State Fault Refusal

/-- R48, R50: a result goes to xd. -/
def giveX (s : State) (xd : XReg) (v : Word) : Out := .next (s.setX xd v)

/-- R48, R59: a result goes to qd. -/
def giveQ (s : State) (qd : Fin 8) (v : Bool) : Out := .next (s.setQ qd v)

/-- Shifts of Table 3-3 by a whole amount. -/
def shiftL (a : Word) (n : Nat) : Word := if n < 64 then a <<< n else 0
def shiftR (a : Word) (n : Nat) : Word := if n < 64 then a >>> n else 0
def shiftSR (a : Word) (n : Nat) : Word := a.sshiftRight (min n 63)
def rotR (a : Word) (n : Nat) : Word := a.rotateRight (n % 64)

/-- Truth of a condition (Table 3-5). -/
def condHolds (c : Cond) (a y : Word) : Bool :=
  match c with
  | .eq => a == y
  | .ne => a != y
  | .lt => a.slt y
  | .ltu => a.ult y
  | .le => a.sle y
  | .leu => a.ule y

/-- A signed immediate as a word (R53, Table 2-8). -/
def immS {m : Nat} (i : Imm m) : Word := BitVec.ofInt 64 i.sval

/-- Quotients and remainders of R51. -/
def divS (a b : Word) : Word := if b = 0 then BitVec.allOnes 64 else BitVec.ofInt 64 (a.toInt.tdiv b.toInt)
def divU (a b : Word) : Word := if b = 0 then BitVec.allOnes 64 else a / b
def remS (a b : Word) : Word := if b = 0 then a else BitVec.ofInt 64 (a.toInt - b.toInt * a.toInt.tdiv b.toInt)
def remU (a b : Word) : Word := if b = 0 then a else a % b

/-- A divide takes a free divider of the core, or waits for one (R49). -/
def divide (s : State) (xd : XReg) (v : Word) : Out :=
  if 2 ≤ s.core.divBusy.length then .next (s.holdFor .divider)
  else giveX { s with core := { s.core with divBusy := s.core.divBusy ++ [s.foc.ctx] } } xd v

/-- Zero bits above the highest set bit of an n-bit value (R52). -/
def clzNat (v : Nat) : Nat → Nat
  | 0 => 0
  | n + 1 => if v / 2 ^ n % 2 = 1 then 0 else 1 + clzNat v n

/-- Zero bits below the lowest set bit, of n bits (R52). -/
def ctzNat (v : Nat) : Nat → Nat
  | 0 => 0
  | n + 1 => if v % 2 = 1 then 0 else 1 + ctzNat (v / 2) n

/-- Set bits of an n-bit value (R52). -/
def popNat (v : Nat) : Nat → Nat
  | 0 => 0
  | n + 1 => v % 2 + popNat (v / 2) n

/-- Bits of the widths of `sext` and `zext` (R52). -/
def extBits : ExtSize → Nat
  | .b => 8
  | .h => 16
  | .w => 32

/-- R21. -/
def execNop (s : State) : Out := .next s

/-- R50. -/
def execAdd (xd xa xb : XReg) (s : State) : Out := giveX s xd (s.getX xa + s.getX xb)
/-- R50. -/
def execSub (xd xa xb : XReg) (s : State) : Out := giveX s xd (s.getX xa - s.getX xb)
/-- R50. -/
def execBand (xd xa xb : XReg) (s : State) : Out := giveX s xd (s.getX xa &&& s.getX xb)
/-- R50. -/
def execBor (xd xa xb : XReg) (s : State) : Out := giveX s xd (s.getX xa ||| s.getX xb)
/-- R50. -/
def execBxor (xd xa xb : XReg) (s : State) : Out := giveX s xd (s.getX xa ^^^ s.getX xb)
/-- R50. -/
def execAndn (xd xa xb : XReg) (s : State) : Out := giveX s xd (s.getX xa &&& ~~~s.getX xb)
/-- R50. -/
def execShl (xd xa xb : XReg) (s : State) : Out := giveX s xd (shiftL (s.getX xa) (s.getX xb).toNat)
/-- R50. -/
def execShr (xd xa xb : XReg) (s : State) : Out := giveX s xd (shiftR (s.getX xa) (s.getX xb).toNat)
/-- R50. -/
def execSar (xd xa xb : XReg) (s : State) : Out := giveX s xd (shiftSR (s.getX xa) (s.getX xb).toNat)
/-- R50. -/
def execRot (xd xa xb : XReg) (s : State) : Out := giveX s xd (rotR (s.getX xa) (s.getX xb).toNat)
/-- R50. -/
def execSmin (xd xa xb : XReg) (s : State) : Out :=
  giveX s xd (if (s.getX xa).slt (s.getX xb) then s.getX xa else s.getX xb)
/-- R50. -/
def execSmax (xd xa xb : XReg) (s : State) : Out :=
  giveX s xd (if (s.getX xa).slt (s.getX xb) then s.getX xb else s.getX xa)
/-- R50. -/
def execMinu (xd xa xb : XReg) (s : State) : Out :=
  giveX s xd (if (s.getX xa).ult (s.getX xb) then s.getX xa else s.getX xb)
/-- R50. -/
def execMaxu (xd xa xb : XReg) (s : State) : Out :=
  giveX s xd (if (s.getX xa).ult (s.getX xb) then s.getX xb else s.getX xa)

/-- R51. -/
def execMul (xd xa xb : XReg) (s : State) : Out := giveX s xd (s.getX xa * s.getX xb)
/-- R51. -/
def execMulh (xd xa xb : XReg) (s : State) : Out :=
  giveX s xd (BitVec.ofInt 64 ((s.getX xa).toInt * (s.getX xb).toInt / 2 ^ 64))
/-- R51. -/
def execMulhu (xd xa xb : XReg) (s : State) : Out :=
  giveX s xd (word ((s.getX xa).toNat * (s.getX xb).toNat / 2 ^ 64))
/-- R51, R49. -/
def execDiv (xd xa xb : XReg) (s : State) : Out := divide s xd (divS (s.getX xa) (s.getX xb))
/-- R51, R49. -/
def execDivu (xd xa xb : XReg) (s : State) : Out := divide s xd (divU (s.getX xa) (s.getX xb))
/-- R51, R49. -/
def execRem (xd xa xb : XReg) (s : State) : Out := divide s xd (remS (s.getX xa) (s.getX xb))
/-- R51, R49. -/
def execRemu (xd xa xb : XReg) (s : State) : Out := divide s xd (remU (s.getX xa) (s.getX xb))

/-- R52. -/
def execClz (xd xa : XReg) (s : State) : Out := giveX s xd (word (clzNat (s.getX xa).toNat 64))
/-- R52. -/
def execCtz (xd xa : XReg) (s : State) : Out := giveX s xd (word (ctzNat (s.getX xa).toNat 64))
/-- R52. -/
def execPopc (xd xa : XReg) (s : State) : Out := giveX s xd (word (popNat (s.getX xa).toNat 64))
/-- R52. -/
def execSext (sz : ExtSize) (xd xa : XReg) (s : State) : Out :=
  giveX s xd (BitVec.ofInt 64 (signedNat (extBits sz) (s.getX xa).toNat))
/-- R52. -/
def execZext (sz : ExtSize) (xd xa : XReg) (s : State) : Out :=
  giveX s xd (word ((s.getX xa).toNat % 2 ^ extBits sz))
/-- R52. -/
def execMov (xd xa : XReg) (s : State) : Out := giveX s xd (s.getX xa)

/-- R57. -/
def execCmp (c : Cond) (qd : Fin 8) (xa xb : XReg) (s : State) : Out :=
  giveQ s qd (condHolds c (s.getX xa) (s.getX xb))
/-- R57. -/
def execCmpi (c : Cond) (qd : Fin 8) (xa : XReg) (imm : Imm 8192) (s : State) : Out :=
  giveQ s qd (condHolds c (s.getX xa) (immS imm))

/-- R55: len holds the length less one. -/
def execBfx (xd xa : XReg) (pos len : Fin 64) (s : State) : Out :=
  giveX s xd (word (wordBits (s.getX xa) (pos.val + len.val) pos.val))
/-- R55: len holds the length less one. -/
def execBfi (xd xa : XReg) (pos len : Fin 64) (s : State) : Out :=
  let m : Word := word ((2 ^ (len.val + 1) - 1) * 2 ^ pos.val)
  giveX s xd ((s.getX xd &&& ~~~m) ||| (shiftL (s.getX xa) pos.val &&& m))

/-- R53. -/
def execAddi (xd xa : XReg) (imm : Imm 8192) (s : State) : Out := giveX s xd (s.getX xa + immS imm)
/-- R53. -/
def execAndi (xd xa : XReg) (imm : Imm 8192) (s : State) : Out := giveX s xd (s.getX xa &&& immS imm)
/-- R53. -/
def execOri (xd xa : XReg) (imm : Imm 8192) (s : State) : Out := giveX s xd (s.getX xa ||| immS imm)
/-- R53. -/
def execXori (xd xa : XReg) (imm : Imm 8192) (s : State) : Out := giveX s xd (s.getX xa ^^^ immS imm)

/-- R54. -/
def execShli (xd xa : XReg) (amt : Fin 64) (s : State) : Out := giveX s xd (shiftL (s.getX xa) amt.val)
/-- R54. -/
def execShri (xd xa : XReg) (amt : Fin 64) (s : State) : Out := giveX s xd (shiftR (s.getX xa) amt.val)
/-- R54. -/
def execSari (xd xa : XReg) (amt : Fin 64) (s : State) : Out := giveX s xd (shiftSR (s.getX xa) amt.val)
/-- R54. -/
def execRoti (xd xa : XReg) (amt : Fin 64) (s : State) : Out := giveX s xd (rotR (s.getX xa) amt.val)

/-- R56. -/
def execLi (xd : XReg) (imm : Imm 524288) (s : State) : Out := giveX s xd (immS imm)
/-- R56: the field is 19 bits wide, 40 under an H.imm. -/
def execLio (xd : XReg) (imm : Imm 524288) (s : State) : Out :=
  giveX s xd (shiftL (s.getX xd) (if imm.ext.isSome then 40 else 19) + word imm.uval)

/-- R58. -/
def execSel (xd : XReg) (qn : Fin 8) (neg : Bool) (xa xb : XReg) (s : State) : Out :=
  giveX s xd (if s.getQ qn != neg then s.getX xa else s.getX xb)

/-- R59. -/
def execPand (qd qa qb : Fin 8) (s : State) : Out := giveQ s qd (s.getQ qa && s.getQ qb)
/-- R59. -/
def execPor (qd qa qb : Fin 8) (s : State) : Out := giveQ s qd (s.getQ qa || s.getQ qb)
/-- R59. -/
def execPxor (qd qa qb : Fin 8) (s : State) : Out := giveQ s qd (s.getQ qa != s.getQ qb)
/-- R59. -/
def execPandn (qd qa qb : Fin 8) (s : State) : Out := giveQ s qd (s.getQ qa && !s.getQ qb)
/-- R59. -/
def execPset (qd : Fin 8) (xa : XReg) (s : State) : Out := giveQ s qd (s.getX xa != 0)
/-- R59. -/
def execPget (xd : XReg) (qa : Fin 8) (s : State) : Out := giveX s xd (if s.getQ qa then 1 else 0)

/-- R49: the divider that a divide of the context held is free, and a divide that waits for one on its core is tried
again. -/
def execDividerFree (c : CtxId) (s : State) : Out :=
  if !c.ok then .fault .noSuchAgent
  else
    let s1 := s.focusOn c
    if s1.core.divBusy.contains c.ctx then
      .next (State.wakeAll { s1 with core := { s1.core with divBusy := s1.core.divBusy.erase c.ctx } } s1.self
        fun o w => o.coreId == c.coreId && w == .divider)
    else .next s

end Sys2Proof.Machine
end

