-- ==== Sys2Proof/Machine/Lanes.lean ====
section
/-! DEFINITION. Lanes of vector registers and masks (R111, R112), and how a vector result with its flags is written or
traps (R116). -/

namespace Sys2Proof

/-- Lane width of an element type (R111). -/
def ElTy.lw : ElTy → Nat
  | .f32 | .i32 | .u32 => 32
  | .bf16 | .f16 | .i16 => 16
  | .i8 | .u8 => 8

/-- The floating format of an element type; integer types have none. -/
def ElTy.fmt : ElTy → Machine.FpFmt
  | .bf16 => Machine.fmtBf16
  | .f16 => Machine.fmt16
  | _ => Machine.fmt32

/-- A signed integer element type (R117). -/
def ElTy.isSigned : ElTy → Bool
  | .i32 | .i16 | .i8 => true
  | _ => false

end Sys2Proof

namespace Sys2Proof.Machine

/-- Lane k of a value of lanes `lw` bits wide (R111). -/
def lane (v : Nat) (lw k : Nat) : Nat := v / 2 ^ (lw * k) % 2 ^ lw

/-- The first n lanes. -/
def lanes (v : VWord) (lw n : Nat) : List Nat := (List.range n).map (lane v.toNat lw)

/-- Lanes put together, lane 0 lowest, zero above them (R111). -/
def ofLanes (lw : Nat) : List Nat → Nat
  | [] => 0
  | x :: xs => x % 2 ^ lw + 2 ^ lw * ofLanes lw xs

/-- A vector register of lanes. -/
def vecOf (lw : Nat) (xs : List Nat) : VWord := BitVec.ofNat 1024 (ofLanes lw xs)

/-- Lanes of a width for a lane width (R111). -/
def laneCount (w : Width) (lw : Nat) : Nat := widthBits w / lw

/-- Lane k of a mask is active: the bit of its lowest byte (R112). -/
def active (m : MWord) (lw k : Nat) : Bool := m.getLsbD (k * (lw / 8))

/-- A mask of lane results: all bits of each lane, zero above (R112). -/
def maskOf (lw : Nat) (bs : List Bool) : MWord :=
  BitVec.ofNat 128 (ofLanes (lw / 8) (bs.map fun b => if b then 2 ^ (lw / 8) - 1 else 0))

/-- All flags of lanes together (R116). -/
def allFlags (fs : List FlagSet) : FlagSet := fs.foldl FlagSet.or FlagSet.none

/-- The detail of an FP-TRAP (R116): the flags raised, and the lowest lane that raised an enabled one. -/
def fpInfo (cstat : Word) (fs : List FlagSet) : Word :=
  let k := fs.findIdx fun f => f.trapped cstat
  word ((allFlags fs).bits / 256 % 32 + k * 256)

/-- A slot raised flags, by lane: they are set in cstat; an enabled one traps and nothing is written; else the result
is (R116). -/
def flagged (s : State) (fs : List FlagSet) (write : State → State) : Out :=
  let f := allFlags fs
  let c := s.ctx.cstat
  let s := s.raiseBits f.bits
  if f.trapped c then .next (s.stop causeFpTrap 0 (fpInfo c fs)) else .next (write s)

/-- A tag whose L is 6 or 7 is malformed (R220). -/
def tagOk (t : Nat) : Bool := t % 8 ≤ 5

/-- The DOMAIN trap of a tag check (R118, R90). -/
def State.domainTrap (s : State) : State := s.stop causeDomain 0 0

/-- A vector result of lanes with their flags goes to vd with a tag (R111, R116). -/
def giveLanes (s : State) (vd : VReg) (lw : Nat) (rs : List (Nat × FlagSet)) (tag : BitVec 4) : Out :=
  flagged s (rs.map Prod.snd) fun s => s.setV vd (vecOf lw (rs.map Prod.fst)) tag

/-- A vector result without flags. -/
def giveV (s : State) (vd : VReg) (lw : Nat) (xs : List Nat) (tag : BitVec 4) : Out :=
  .next (s.setV vd (vecOf lw xs) tag)

end Sys2Proof.Machine
end

