-- ==== Sys2Proof/Machine/Formats.lean ====
section
/-! DEFINITION. The sixteen element formats (R136 to R139), rounding and conversion into them (R144 to R150), codebook
targets (R148), and scales (R140 to R142). -/

namespace Sys2Proof

/-- Bits of an element (Table 6-1). -/
def Fmt.bits : Fmt → Nat
  | .fp32 => 32
  | .bf16 | .fp16 | .int16 => 16
  | .e4m3 | .e5m2 | .e3m4 | .int8 | .uint8 => 8
  | .e3m2 | .e2m3 => 6
  | .e2m1 | .int4 | .cb4 => 4
  | .int2 | .cb2 => 2

/-- What a destination is (R146): its class, with the largest magnitude code of a floating one, or the bounds of an
integer one; `codebook` for CB4 and CB2. -/
inductive FmtKind where
  /-- Class A: infinity and NaN. -/
  | full
  /-- Class B: NaN only. -/
  | nanOnly
  /-- Class C: neither. -/
  | finite
  /-- Class D. -/
  | integer
  | codebook
  deriving DecidableEq, Repr

/-- The class of a format (R146). -/
def Fmt.kind : Fmt → FmtKind
  | .fp32 | .bf16 | .fp16 | .e5m2 => .full
  | .e4m3 | .e3m4 => .nanOnly
  | .e3m2 | .e2m3 | .e2m1 => .finite
  | .int8 | .int4 | .int2 | .uint8 | .int16 => .integer
  | .cb4 | .cb2 => .codebook

/-- Exponent bits and fraction bits of a floating format (Table 6-1). -/
def Fmt.layout : Fmt → Machine.FpFmt
  | .fp32 => ⟨8, 23⟩
  | .bf16 => ⟨8, 7⟩
  | .fp16 => ⟨5, 10⟩
  | .e5m2 => ⟨5, 2⟩
  | .e4m3 => ⟨4, 3⟩
  | .e3m4 => ⟨3, 4⟩
  | .e3m2 => ⟨3, 2⟩
  | .e2m3 => ⟨2, 3⟩
  | .e2m1 => ⟨2, 1⟩
  | .int8 | .int4 | .int2 | .uint8 | .int16 | .cb4 | .cb2 => ⟨1, 1⟩

/-- Bias (Table 6-1): that of E3M2 is 3, of E2M3 and E2M1 1, which is 2^(E-1) - 1 for every format. -/
def Fmt.bias (f : Fmt) : Int := f.layout.bias

/-- The code of the largest finite magnitude (Table 6-1). -/
def Fmt.maxCode : Fmt → Nat
  | .fp32 => 0x7f7fffff
  | .bf16 => 0x7f7f
  | .fp16 => 0x7bff
  | .e5m2 => 0x7b
  | .e4m3 => 0x7e
  | .e3m4 => 0x6f
  | .e3m2 | .e2m3 => 0x1f
  | .e2m1 => 0x7
  | .int8 | .int4 | .int2 | .uint8 | .int16 | .cb4 | .cb2 => 0

/-- Bounds of an integer format (Table 6-1, R147). -/
def Fmt.lo : Fmt → Int
  | .int8 => -128
  | .int4 => -8
  | .int2 => -2
  | .int16 => -32768
  | .uint8 | .cb4 | .cb2 | .fp32 | .bf16 | .fp16 | .e5m2 | .e4m3 | .e3m4 | .e3m2 | .e2m3 | .e2m1 => 0
def Fmt.hi : Fmt → Int
  | .int8 => 127
  | .int4 => 7
  | .int2 => 1
  | .int16 => 32767
  | .uint8 => 255
  | .cb4 | .cb2 | .fp32 | .bf16 | .fp16 | .e5m2 | .e4m3 | .e3m4 | .e3m2 | .e2m3 | .e2m1 => 0

/-- The default NaN (Table 6-2). -/
def Fmt.nan : Fmt → Nat
  | .fp32 => 0x7fc00000
  | .bf16 => 0x7fc0
  | .fp16 => 0x7e00
  | .e5m2 => 0x7e
  | .e4m3 | .e3m4 => 0x7f
  | .e3m2 | .e2m3 | .e2m1 | .int8 | .int4 | .int2 | .uint8 | .int16 | .cb4 | .cb2 => 0

end Sys2Proof

namespace Sys2Proof.Machine

/-- The format with a code (Table 6-1); every 4-bit code names one. -/
def fmtOfCode (c : Nat) : Fmt := (Fmt.ofCode (c % 16)).getD .bf16

/-- An integer as a value. -/
def ofInt (n : Int) : FVal := ofScaled false n 0

/-- A codebook entry's value (R139). -/
def cbEntry (cb : BitVec 256) (i : Nat) : FVal := fmtBf16.decode (natBits cb.toNat (16 * i + 15) (16 * i))

/-- The value of a code, an INT8 being a plain integer (R136 to R139). -/
def fmtDecode (f : Fmt) (cb : BitVec 256) (c : Nat) : FVal :=
  match f.kind with
  | .full =>
    match f.layout.decode c with
    | .nan s => .nan (s && f.bits != 8)
    | v => v
  | .nanOnly =>
    if (f = .e4m3 ∧ c % 128 = 127) ∨ (f = .e3m4 ∧ 0x70 ≤ c % 128) then .nan false
    else match f.layout.decode c with
      | .num n m e => .num n m e
      | _ => .num (c / 128 % 2 = 1) (c % 2 ^ f.layout.mw + 2 ^ f.layout.mw) (2 ^ f.layout.ew - 1 - f.bias - f.layout.mw)
  | .finite => match f.layout.decode c with
    | .num n m e => .num n m e
    | _ =>
      .num (c / 2 ^ (f.layout.ew + f.layout.mw) % 2 = 1) (c % 2 ^ f.layout.mw + 2 ^ f.layout.mw)
        (2 ^ f.layout.ew - 1 - f.bias - f.layout.mw)
  | .integer => ofInt (if f = .uint8 then (c % 256 : Nat) else signedNat f.bits c)
  | .codebook => cbEntry cb (c % 2 ^ f.bits)

/-- A rounding mode of a conversion (R144): one of cstat's, or ordered dither with a threshold. -/
inductive Rounding where
  | mode (rm : Nat)
  | dither (t : Nat)
  deriving DecidableEq, Repr

/-- A magnitude m x 2^e in units of 2^q under a rounding, and whether that is inexact (R144, R150). -/
def roundMag (r : Rounding) (neg : Bool) (m : Nat) (e q : Int) : Nat × Bool :=
  match r with
  | .mode rm => roundTo rm neg m e q
  | .dither t =>
    if q ≤ e then (m * 2 ^ (e - q).toNat, false)
    else
      let sh := (q - e).toNat
      let n := m / 2 ^ sh
      let r := m * 256 / 2 ^ sh % 256
      (if t < r then n + 1 else n, m % 2 ^ sh != 0)

/-- A rounding that goes away from zero on overflow: to nearest, dither, or the directed mode of the sign (Table
6-8). -/
def Rounding.away (r : Rounding) (neg : Bool) : Bool :=
  match r with
  | .mode rm => rm == 0 || (rm == 2 && neg) || (rm == 3 && !neg)
  | .dither _ => true

/-- A magnitude code with a sign. -/
def fmtSign (f : Fmt) (neg : Bool) (c : Nat) : Nat := c + if neg then 2 ^ (f.bits - 1) else 0

/-- Flags by name. -/
def fNv : FlagSet := FlagSet.invalid
def fNx : FlagSet := { FlagSet.none with nx := true }
def fSat : FlagSet := { FlagSet.none with sat := true }
def fOfNx : FlagSet := { FlagSet.none with ov := true, nx := true }
def fNfs : FlagSet := { FlagSet.none with nfs := true }

/-- A finite value that rounds above the largest finite one of a floating format (Table 6-8). -/
def fmtOverflow (f : Fmt) (r : Rounding) (sat neg : Bool) : Nat × FlagSet :=
  let top := fmtSign f neg f.maxCode
  if !r.away neg then (top, fOfNx)
  else if sat || f.kind = .finite then (top, fOfNx.or fSat)
  else if f.kind = .full then (fmtSign f neg f.layout.infCode, fOfNx.or fNfs)
  else (fmtSign f neg f.nan, fOfNx.or fNfs)

/-- A finite value into a floating format (R144 to R146). -/
def toFloating (f : Fmt) (r : Rounding) (sat neg : Bool) (m : Nat) (e : Int) : Nat × FlagSet :=
  let l := f.layout
  let qmin := l.emin - l.mw
  let q := max (e + Nat.log2 m - l.mw) qmin
  let n := roundMag r neg m e q
  let code := (q - qmin).toNat * 2 ^ l.mw + n.1
  if f.maxCode < code then fmtOverflow f r sat neg
  else (fmtSign f neg code, { FlagSet.none with nx := n.2, uf := n.2 && code < 2 ^ l.mw })

/-- A finite value into an integer format (R144, R145, R147); `int` says that it comes from an integer format. -/
def toInteger (f : Fmt) (r : Rounding) (sat int neg : Bool) (m : Nat) (e : Int) : Nat × FlagSet :=
  let n := roundMag r neg m e 0
  let v : Int := if neg then -(n.1 : Int) else n.1
  let put (v : Int) : Nat := (v % 2 ^ f.bits).toNat
  if f.lo ≤ v ∧ v ≤ f.hi then (put v, { FlagSet.none with nx := n.2 })
  else if int && !sat then (put v, FlagSet.none)
  else (put (if v < f.lo then f.lo else f.hi), if int then fSat else { FlagSet.none with sat := true, nx := true })

/-- Finite usable entries of a codebook with their indices (R148). -/
def cbUsable (f : Fmt) (cb : BitVec 256) : List (Nat × Int × Int) :=
  (List.range (2 ^ f.bits)).filterMap fun i => match cbEntry cb i with
    | .num n m e => some (i, signedM n m, e)
    | _ => none

/-- An exact comparison of m x 2^e with n x 2^g. -/
def dyLe (m e n g : Int) : Bool :=
  let q := min e g
  m * 2 ^ (e - q).toNat ≤ n * 2 ^ (g - q).toNat

/-- The distance of two dyadics. -/
def dyDist (m e n g : Int) : Int × Int :=
  let q := min e g
  ((m * 2 ^ (e - q).toNat - n * 2 ^ (g - q).toNat).natAbs, q)

/-- The nearest entry of a list to a value, the first among equals (R148). -/
def nearestEntry (m e : Int) : List (Nat × Int × Int) → Option (Nat × Int × Int)
  | [] => none
  | x :: xs => match nearestEntry m e xs with
    | none => some x
    | some y =>
      let a := dyDist m e x.2.1 x.2.2
      let b := dyDist m e y.2.1 y.2.2
      some (if dyLe a.1 a.2 b.1 b.2 then x else y)

/-- The entry of greatest or least value, the first among equals (R148). -/
def extremeEntry (greatest : Bool) (l : List (Nat × Int × Int)) : Option (Nat × Int × Int) :=
  l.foldl (fun r x => match r with
    | none => some x
    | some y =>
      let better := if greatest then !dyLe x.2.1 x.2.2 y.2.1 y.2.2 else !dyLe y.2.1 y.2.2 x.2.1 x.2.2
      some (if better then x else y)) none

/-- A value into a codebook format (R148). -/
def toCodebook (f : Fmt) (cb : BitVec 256) (v : FVal) : Nat × FlagSet :=
  let us := cbUsable f cb
  let near (m e : Int) (fl : FlagSet) : Nat × FlagSet := match nearestEntry m e us with
    | none => (0, fNv.or fNfs)
    | some (i, n, g) => (i, if dyLe m e n g && dyLe n g m e then fl else fl.or fNx)
  match v with
  | .nan _ => near 0 0 fNv
  | .inf neg => match extremeEntry (!neg) us with
    | none => (0, fNv.or fNfs)
    | some (i, _) => (i, fSat)
  | .num n m e => near (signedM n m) e FlagSet.none

/-- A conversion of a value into a format (R144 to R148). -/
def fmtEncode (f : Fmt) (cb : BitVec 256) (r : Rounding) (sat int : Bool) (v : FVal) : Nat × FlagSet :=
  match f.kind with
  | .codebook => toCodebook f cb v
  | .integer => match v with
    | .nan _ => (0, fNv)
    | .inf neg => (((if neg then f.lo else f.hi) % 2 ^ f.bits).toNat, fSat)
    | .num n m e => if m = 0 then (0, FlagSet.none) else toInteger f r sat int n m e
  | .full => match v with
    | .nan s => (f.nan, if s then fNv.or fNfs else fNfs)
    | .inf neg => (fmtSign f neg f.layout.infCode, fNfs)
    | .num n m e => if m = 0 then (fmtSign f n 0, FlagSet.none) else toFloating f r sat n m e
  | .nanOnly => match v with
    | .nan s => (f.nan, if s then fNv.or fNfs else fNfs)
    | .inf neg =>
      if sat then (fmtSign f neg f.maxCode, { fSat with ov := true }) else (fmtSign f neg f.nan, fNv.or fNfs)
    | .num n m e => if m = 0 then (fmtSign f n 0, FlagSet.none) else toFloating f r sat n m e
  | .finite => match v with
    | .nan _ => (0, fNv)
    | .inf neg => (fmtSign f neg f.maxCode, { fSat with ov := true })
    | .num n m e => if m = 0 then (fmtSign f n 0, FlagSet.none) else toFloating f r sat n m e

/-- A value moved by a power of two (R141). -/
def FVal.scale (v : FVal) (k : Int) : FVal :=
  match v with
  | .num n m e => .num n m (e + k)
  | v => v

/-- floor log2 of a finite non-zero magnitude (R142). -/
def FVal.floorLog (v : FVal) : Option Int :=
  match v with
  | .num _ m e => if m = 0 then none else some (e + Nat.log2 m)
  | _ => none

/-- The larger of two exponents, either absent. -/
def maxLog (a b : Option Int) : Option Int :=
  match a, b with
  | none, b => b
  | a, none => a
  | some x, some y => some (max x y)

/-- floor log2 of the largest finite magnitude of values, none when it is 0 (R142). -/
def largestLog (vs : List FVal) : Option Int := vs.foldl (fun m v => maxLog m v.floorLog) none

/-- emax of a format (Table 6-1, R138, R139); `scaled` says that a scale goes with it. -/
def fmtEmax (f : Fmt) (cb : BitVec 256) (scaled : Bool) : Int :=
  match f with
  | .bf16 | .fp32 => 127
  | .fp16 | .e5m2 => 15
  | .e4m3 => 8
  | .e3m2 => 4
  | .e2m3 | .e2m1 | .int4 => 2
  | .int8 => if scaled then 0 else 6
  | .int2 => 0
  | .uint8 => 7
  | .e3m4 => 3
  | .int16 => 14
  | .cb4 | .cb2 => (largestLog ((List.range (2 ^ f.bits)).map (cbEntry cb))).getD 0

/-- A value between bounds. -/
def clampInt (lo hi v : Int) : Nat := (min (max v lo) hi).toNat

/-- The binary point of MXINT8: 6 where an INT8 carries a scale (R138). -/
def mxShift (f : Fmt) (scl : Nat) : Int := if f = .int8 ∧ scl ≠ 0 then 6 else 0

/-- The dither table D: bit reversal of 8 bits (R150). -/
def ditherAt (i : Nat) : Nat := ((List.range 8).map fun k => i / 2 ^ k % 2 * 2 ^ (7 - k)).sum

/-- Element codes put together from bit 0, `b` bits each (R93). -/
def packBits (b : Nat) (cs : List Nat) : Nat := ofLanes b cs

/-- A value is infinite or NaN. -/
def FVal.odd : FVal → Bool
  | .num _ _ _ => false
  | _ => true

end Sys2Proof.Machine
end

