-- ==== Sys2Proof/Machine/Array.lean ====
section
/-! DEFINITION. The arithmetic of the bit-serial array on paper (R163 to R182): operands as decoded, digit planes, the
sum V of a pass, what is skipped, and how V updates an accumulator. -/

namespace Sys2Proof.Machine

/-! The precision control word (Table 7-2). -/

def pcwAFmt (w : Word) : Fmt := fmtOfCode (wordBits w 3 0)
def pcwAScl (w : Word) : Nat := wordBits w 5 4
def pcwBFmt (w : Word) : Fmt := fmtOfCode (wordBits w 9 6)
def pcwBScl (w : Word) : Nat := wordBits w 11 10
def pcwAccf (w : Word) : Nat := wordBits w 13 12
def pcwDig1 (w : Word) : Bool := w.getLsbD 14
def pcwZps (w : Word) : Bool := w.getLsbD 15
def pcwZrs (w : Word) : Bool := w.getLsbD 16
def pcwTerm (w : Word) : Nat := wordBits w 18 17
def pcwBudget (w : Word) : Nat := wordBits w 23 19
def pcwTol (w : Word) : Nat := wordBits w 29 24
def pcwAlt (w : Word) : Bool := w.getLsbD 30
def pcwIsat (w : Word) : Bool := w.getLsbD 31
def pcwAcb (w : Word) : Nat := wordBits w 33 32
def pcwBcb (w : Word) : Nat := wordBits w 35 34

/-- The first bit and the width of field F of a precision control word, numbered from the bottom (R208, Table 7-2). -/
def pcwField (f : Nat) : Nat × Nat :=
  [(0, 4), (4, 2), (6, 4), (10, 2), (12, 2), (14, 1), (15, 1), (16, 1), (17, 2), (19, 5), (24, 6), (30, 1), (31, 1),
    (32, 2), (34, 2)].getD f (0, 0)

/-- A format that ACCF = 2 admits (R170). -/
def intFmt (f : Fmt) : Bool := f == .int8 || f == .int4 || f == .int2 || f == .uint8 || f == .int16

/-- A valid precision control word (R170). -/
def pcwValid (w : Word) : Bool :=
  wordBits w 63 36 == 0 && pcwAccf w != 3 && pcwTerm w != 3 && !(pcwTerm w == 1 && pcwBudget w == 0) &&
    !(pcwAccf w == 2 && !(intFmt (pcwAFmt w) && intFmt (pcwBFmt w))) &&
    !(pcwAccf w == 2 && (pcwAScl w != 0 || pcwBScl w != 0))

/-! Scales and elements. -/

/-- What scales an element: a power of two, a NaN code, or the mark of an all-zero sub-block (R140, R141). -/
inductive ElScale where
  | exp (e : Int)
  | bad
  | zero
  deriving DecidableEq, Repr

/-- The scale of the elements of sub-block j under a record (R140, R141). -/
def elScale (src tscale rec j : Nat) : ElScale :=
  let code (k : Nat) (d : Int) : ElScale := if k = 255 then .bad else .exp (k - 127 - d)
  if src = 0 then .exp 0
  else if src = 1 then code tscale 0
  else if src = 2 then code (natBits rec (8 * j + 7) (8 * j)) 0
  else
    let d := natBits rec (4 * j + 11) (4 * j + 8)
    if d = 15 then .zero else code (natBits rec 7 0) d

/-- One operand of a pass as it is read (R137 to R141): its format, codebook, scale source and tensor scale. -/
structure OperandKind where
  fmt : Fmt
  cb : BitVec 256
  src : Nat
  tscale : Nat
  deriving DecidableEq, Repr

/-- The value of an element: scaled, NaN under a NaN scale, zero in a sheaf marked all-zero (R141, R171, R173),
also where its scale is NaN (log 68). -/
def elValue (k : OperandKind) (rec j c : Nat) : FVal :=
  if recZero rec then .num false 0 0
  else match elScale k.src k.tscale rec j with
    | .zero => .num false 0 0
    | .bad => .nan false
    | .exp e => (fmtDecode k.fmt k.cb c).scale (e - mxShift k.fmt k.src)

/-- A B element: its value, the exponent eB of its digits if it has one, and its signed digits from plane 0 (R164 to
R166). -/
structure BElem where
  val : FVal
  exp : Option Int
  digits : List Int
  deriving DecidableEq, Repr

/-- Bits of a digit (R163). -/
def digitBits (dig1 : Bool) : Nat := if dig1 then 1 else 2

/-- Significand bits of a B format, or the width of an integer one (Table 7-1). -/
def sigBits (f : Fmt) : Nat :=
  match f.kind with
  | .integer => f.bits
  | .codebook => 8
  | _ => f.layout.mw + 1

/-- The number of planes P (R167, Table 7-1). -/
def planeCount (f : Fmt) (dig1 : Bool) : Nat :=
  if dig1 then sigBits f
  else if f = .uint8 then 5 else (sigBits f + 1) / 2

/-- Digit p of an unsigned significand (R164). -/
def sigDigit (b m p : Nat) : Nat := natBits m (b * p + b - 1) (b * p)

/-- Digit p of an integer code (R165). -/
def intDigit (f : Fmt) (dig1 : Bool) (c p : Nat) : Int :=
  let bit (k : Nat) : Int := if k < f.bits then (c / 2 ^ k % 2 : Nat) else 0
  if dig1 then (if f != .uint8 ∧ p + 1 = f.bits then -bit p else bit p)
  else -2 * bit (2 * p + 1) + bit (2 * p) + (if p = 0 then 0 else bit (2 * p - 1))

/-- A B element as the array decodes it (R164 to R166). A zero that an all-zero mark makes has no exponent. -/
def bElem (k : OperandKind) (dig1 : Bool) (rec j c : Nat) : BElem :=
  let v := elValue k rec j c
  let zeros := List.replicate (planeCount k.fmt dig1) (0 : Int)
  if recZero rec then ⟨v, none, zeros⟩
  else match elScale k.src k.tscale rec j with
    | .zero => ⟨v, none, zeros⟩
    | .bad => ⟨v, none, zeros⟩
    | .exp e =>
      let e := e - mxShift k.fmt k.src
      if k.fmt.kind = .integer then ⟨v, some e, (List.range (planeCount k.fmt dig1)).map (intDigit k.fmt dig1 c)⟩
      else match fmtDecode k.fmt k.cb c with
        | .num n m g =>
          ⟨v, some (g + e), (List.range (planeCount k.fmt dig1)).map fun p => signedM n (sigDigit (digitBits dig1) m p)⟩
        | _ => ⟨v, none, zeros⟩

/-! Exact binary numbers m x 2^e. -/

/-- A dyadic number. -/
structure Dyad where
  m : Int
  e : Int
  deriving DecidableEq, Repr

def Dyad.add (a b : Dyad) : Dyad :=
  let q := min a.e b.e
  ⟨a.m * 2 ^ (a.e - q).toNat + b.m * 2 ^ (b.e - q).toNat, q⟩

def Dyad.le (a b : Dyad) : Bool := dyLe a.m a.e b.m b.e

/-- rnd(x, N): x to N significant bits, nearest even (R172). -/
def Dyad.rnd (x : Dyad) (n : Nat) : Dyad :=
  let k := x.m.natAbs
  if k < 2 ^ n then x
  else
    let sh := Nat.log2 k + 1 - n
    let r := (roundShift 0 false k sh).1
    ⟨if x.m < 0 then -(r : Int) else r, x.e + sh⟩

/-! The product of a pass (R172). -/

/-- A product q x 2^f of the window. -/
structure Prod1 where
  q : Int
  f : Int
  deriving DecidableEq, Repr

/-- The non-zero products of a segment in plane p (R172). -/
def segProds (b p : Nat) (as : List FVal) (bs : List BElem) : List Prod1 :=
  (as.zip bs).filterMap fun e => match e.1, e.2.exp with
    | .num n m ea, some eb =>
      let q := signedM n m * e.2.digits.getD p 0
      if q = 0 then none else some ⟨q, ea + eb + b * p⟩
    | _, _ => none

/-- The segment sum T and whether a product lost a bit below the 64-bit window (R172). -/
def segSum (ps : List Prod1) : Dyad × Bool :=
  match ps with
  | [] => (⟨0, 0⟩, false)
  | x :: xs =>
    let lo := xs.foldl (fun m y => max m y.f) x.f + 25 - 63
    let cut (y : Prod1) : Int := if lo ≤ y.f then y.q * 2 ^ (y.f - lo).toNat else y.q.tdiv (2 ^ (lo - y.f).toNat)
    let lost (y : Prod1) : Bool := y.f < lo && y.q.tmod (2 ^ (lo - y.f).toNat) != 0
    (⟨(ps.map cut).sum, lo⟩, ps.any lost)

/-- The 32-element segments of a row or column. -/
def segments {α : Type} (l : List α) : List (List α) := (List.range 8).map fun g => (l.drop (32 * g)).take 32

/-- The plane sum u over the segments: the first enters unrounded (R172). -/
def planeSum (b p : Nat) (as : List FVal) (bs : List BElem) : Dyad × Bool :=
  let ts := ((segments as).zip (segments bs)).map fun e => segSum (segProds b p e.1 e.2)
  match ts with
  | [] => (⟨0, 0⟩, false)
  | t :: ts => ts.foldl (fun u t => ((u.1.add t.1).rnd 48, u.2 || t.2)) t

/-- V over a list of planes, most significant first, and ALS (R172). -/
def sumV (b : Nat) (as : List FVal) (bs : List BElem) (pset : List Nat) : Dyad × Bool :=
  pset.foldl (fun v p => let u := planeSum b p as bs; ((v.1.add u.1).rnd 80, v.2 || u.2)) (⟨0, 0⟩, false)

/-- The exact product of two values as R174 judges it. -/
def judgeProd (a b : FVal) : FVal := (exactMul a b).1

/-- What an output comes to under R174: NaN, an infinity, or none where R172 decides. -/
def judged (as : List FVal) (bs : List BElem) : Option FVal :=
  if !(as.any FVal.odd || bs.any fun b => b.val.odd) then none
  else
    let ps := (as.zip bs).map fun e => judgeProd e.1 e.2.val
    if ps.any FVal.isNan || (ps.contains (.inf false) && ps.contains (.inf true)) then some (.nan false)
    else if ps.contains (.inf false) then some (.inf false)
    else if ps.contains (.inf true) then some (.inf true)
    else none

/-! A pass. -/

/-- A pass with its operands: the word, the rows with their records, the columns with theirs, as decoded. -/
structure Pass where
  pcw : Word
  rows : List (List FVal)
  rowRecs : List Nat
  cols : List (List BElem)
  colRecs : List Nat
  cbb : BitVec 256
  deriving DecidableEq, Repr

def Pass.bits (p : Pass) : Nat := digitBits (pcwDig1 p.pcw)
def Pass.planes (p : Pass) : Nat := planeCount (pcwBFmt p.pcw) (pcwDig1 p.pcw)

/-- Plane p may be non-zero: LIVE of some column says so, or the codebook does (R168). -/
def Pass.live (p : Pass) (k : Nat) : Bool :=
  let f := pcwBFmt p.pcw
  let dig1 := pcwDig1 p.pcw
  if f.kind = .codebook then
    (cbUsable f p.cbb).any fun e => sigDigit (digitBits dig1) e.2.1.natAbs k != 0
  else if dig1 ∧ f.kind = .integer then true
  else
    let bit := if dig1 then k / 2 else k
    p.colRecs.any fun r => natBits r 79 64 / 2 ^ bit % 2 == 1

/-- The planes that ZPS keeps, most significant first (R178). -/
def Pass.kept (p : Pass) : List Nat :=
  (List.range p.planes).reverse.filter fun k => !pcwZps p.pcw || p.live k

/-- The largest digit magnitude of the mode (R181). -/
def Pass.dmax (p : Pass) : Nat := if pcwDig1 p.pcw then 1 else if (pcwBFmt p.pcw).kind = .integer then 2 else 3

/-- Σ_k |A(i, k)| x 2^eB(k, n) (R181). -/
def boundSum (as : List FVal) (bs : List BElem) : Dyad :=
  (as.zip bs).foldl (fun s e => match e.1, e.2.exp with
    | .num _ m ea, some eb => s.add ⟨m, ea + eb⟩
    | _, _ => s) ⟨0, 0⟩

/-- An output counts in the test of R181: its row and column are not all-zero, and R174 does not decide it. -/
def Pass.counted (p : Pass) (i n : Nat) : Bool :=
  !recZero (p.rowRecs.getD i 0) && !recZero (p.colRecs.getD n 0) &&
    (judged (p.rows.getD i []) (p.cols.getD n [])).isNone

/-- An output meets the condition of R181 after the planes `done`, with `rest` not yet processed. -/
def Pass.within (p : Pass) (done rest : List Nat) (i n : Nat) : Bool :=
  let as := p.rows.getD i []
  let bs := p.cols.getD n []
  let v := (sumV p.bits as bs done).1
  let r : Dyad := ⟨(rest.map fun k => p.dmax * 2 ^ (p.bits * k)).sum, 0⟩
  let s := boundSum as bs
  v.m != 0 && (⟨s.m * r.m, s.e⟩ : Dyad).le ⟨v.m.natAbs, v.e - pcwTol p.pcw⟩

/-- Every counted output meets the condition of R181. -/
def Pass.stops (p : Pass) (done rest : List Nat) : Bool :=
  (List.range p.rows.length).all fun i => (List.range p.cols.length).all fun n =>
    !p.counted i n || p.within done rest i n

/-- Takes planes until the test of R181 stops the pass; none where ZPS has left none (log 68). -/
def Pass.untilStop (p : Pass) (done : List Nat) : List Nat → List Nat
  | [] => done
  | k :: rest => if done ≠ [] ∧ p.stops done (k :: rest) then done else p.untilStop (done ++ [k]) rest

/-- Pset, most significant first (R178, R180, R181). -/
def Pass.pset (p : Pass) : List Nat :=
  if pcwTerm p.pcw = 1 then
    p.kept.filter fun k => p.planes - min (pcwBudget p.pcw) p.planes ≤ k
  else if pcwTerm p.pcw = 2 then p.untilStop [] p.kept
  else p.kept

/-- Rows streamed (R179). -/
def Pass.rowCount (p : Pass) : Nat :=
  if pcwZrs p.pcw then (p.rowRecs.filter fun r => !recZero r).length else 32

/-- What the skip counters gain (R182): planes ZPS removed, planes TERM removed, rows ZRS removed. -/
def Pass.skipped (p : Pass) (pset : List Nat) : Nat × Nat × Nat :=
  (p.planes - p.kept.length, p.kept.length - pset.length, 32 - p.rowCount)

/-- Fill and stream cycles (R183). -/
def Pass.cycles (p : Pass) (pset : List Nat) : Nat := 32 + p.rowCount * pset.length

/-- A retained product of some output loses a bit in the window (R176). -/
def Pass.loses (p : Pass) (pset : List Nat) : Bool :=
  ((p.rows.zip p.rowRecs).filter fun r => !recZero r.2).any fun r => p.cols.any fun c =>
    (judged r.1 c).isNone && (sumV p.bits r.1 c pset).2

/-! The accumulator update. -/

/-- What an output does to its accumulator. -/
inductive Update where
  | keep
  | odd (v : FVal)
  | add (v : Dyad)
  deriving DecidableEq, Repr

/-- The update of an output of a row that is not all-zero, and ALS (R172 to R174). -/
def Pass.update (p : Pass) (pset : List Nat) (as : List FVal) (bs : List BElem) : Update × FlagSet :=
  match judged as bs with
  | some v => (.odd v, if v.isNan then FlagSet.invalid else FlagSet.none)
  | none =>
    let r := sumV p.bits as bs pset
    (if r.1.m = 0 then .keep else .add r.1, { FlagSet.none with als := r.2 })

/-- R174's and R175's effect on a floating accumulator code: a NaN stays, the opposite infinity makes a NaN, a finite
sum is rounded once. -/
def accFloat (f : FpFmt) (acc : Nat) : Update → Nat × FlagSet
  | .keep => (acc, FlagSet.none)
  | .odd v => match f.decode acc with
    | .nan _ => (acc, FlagSet.none)
    | .inf neg =>
      if v = .inf !neg then (f.nanCode, fNv.or fNfs) else ((f.encode 0 v).1, fNfs)
    | .num _ _ _ => ((f.encode 0 v).1, fNfs)
  | .add v => match f.decode acc with
    | .nan _ | .inf _ => (acc, FlagSet.none)
    | .num n m e =>
      let t := Dyad.add ⟨signedM n m, e⟩ v
      let r := f.encode 0 (ofScaled false t.m t.e)
      (r.1, { FlagSet.none with ov := r.2.ov, nfs := f.nonFinite r.1 })

/-- R175's effect on an INT32 accumulator. -/
def accInt (sat : Bool) (acc : Nat) : Update → Nat × FlagSet
  | .add v =>
    let t := signedNat 32 acc + (if 0 ≤ v.e then v.m * 2 ^ v.e.toNat else v.m / 2 ^ (-v.e).toNat)
    let c := max (-2 ^ 31) (min (2 ^ 31 - 1) t)
    if sat then ((c % 2 ^ 32).toNat, if c = t then FlagSet.none else fSat) else ((t % 2 ^ 32).toNat, FlagSet.none)
  | .keep => (acc, FlagSet.none)
  | .odd _ => (acc, FlagSet.none)

/-- The new code of an accumulator element (R173 to R175). -/
def accUpdate (pcw : Word) (acc : Nat) (u : Update) : Nat × FlagSet :=
  if pcwAccf pcw = 2 then accInt (pcwIsat pcw) acc u
  else if pcwAccf pcw = 1 then accFloat fmt64 acc u else accFloat fmt32 acc u

/-- Bytes of an accumulator element (R193). -/
def accBytes (pcw : Word) : Nat := if pcwAccf pcw = 1 then 8 else 4

/-- One row of a pass: its accumulator codes updated, with the flags (R172 to R175). -/
def Pass.row (p : Pass) (pset : List Nat) (i : Nat) (acc : List Nat) : List Nat × FlagSet :=
  if recZero (p.rowRecs.getD i 0) then (acc, FlagSet.none)
  else
    let rs := (acc.zip p.cols).map fun e =>
      let u := p.update pset (p.rows.getD i []) e.2
      let a := accUpdate p.pcw e.1 u.1
      (a.1, u.2.or a.2)
    (rs.map Prod.fst, rs.foldl (fun f r => f.or r.2) FlagSet.none)

/-- All rows of a pass over the accumulator codes of a tile or pair (R163). -/
def Pass.apply (p : Pass) (pset : List Nat) (acc : List (List Nat)) : List (List Nat) × FlagSet :=
  let rs := acc.mapIdx fun i r => p.row pset i r
  (rs.map Prod.fst, rs.foldl (fun f r => f.or r.2) FlagSet.none)

/-! Tiles as bytes. -/

/-- A byte string as little-endian numbers of `n` bytes each, `k` of them. -/
def chunks (n : Nat) : Nat → List Byte → List Nat
  | 0, _ => []
  | k + 1, bs => leNat (bs.take n) :: chunks n k (bs.drop n)

/-- Little-endian numbers of `n` bytes each as a byte string. -/
def unchunk (n : Nat) (vs : List Nat) : List Byte := vs.flatMap (leBytes n)

/-- The rows of an element-major tile of b-bit elements: 256 codes each (R189, R93). -/
def rowCodes (b : Nat) (bytes : List Byte) : List (List Nat) :=
  (chunks (32 * b) 32 bytes).map fun r => (List.range 256).map fun k => natBits r (b * k + b - 1) (b * k)

/-- The columns of a plane-major tile of S sheaves (R94): 256 codes each. -/
def planeCodes (b sheaves : Nat) (bytes : List Byte) : List (List Nat) :=
  let ps := (chunks 32 (b * sheaves) bytes).toArray
  (List.range sheaves).map fun n => (List.range 256).map fun e =>
    ((List.range b).map fun k => ps.getD ((b - 1 - k) * sheaves + n) 0 / 2 ^ e % 2 * 2 ^ k).sum

/-- A pass from the bytes and records of its tiles (R163 to R166, R171). -/
def mkPass (pcw : Word) (cba cbb : BitVec 256) (tsa tsb : Nat) (aBytes bBytes : List Byte) (aRecs bRecs : List Nat) :
    Pass :=
  let ka : OperandKind := ⟨pcwAFmt pcw, cba, pcwAScl pcw, tsa⟩
  let kb : OperandKind := ⟨pcwBFmt pcw, cbb, pcwBScl pcw, tsb⟩
  { pcw := pcw, cbb := cbb, rowRecs := aRecs, colRecs := bRecs
    rows := (rowCodes ka.fmt.bits aBytes).mapIdx fun i cs => cs.mapIdx fun k c => elValue ka (aRecs.getD i 0) (k / 32) c
    cols := (planeCodes kb.fmt.bits 256 bBytes).mapIdx fun n cs =>
      cs.mapIdx fun k c => bElem kb (pcwDig1 pcw) (bRecs.getD n 0) (k / 32) c }

end Sys2Proof.Machine
end

