-- ==== Sys2Proof/Machine/Ready.lean ====
section
/-! DEFINITION. Which contexts are ready (R354): the fetch of a bundle (R63, R98, R391), the registers that its current
group waits for (R49, R119), and the rotation of a core's contexts (R355). -/

namespace Sys2Proof.Machine

/-! A bundle is fetched. -/

/-- The words of a bundle from its bytes (R21). -/
def bundleOf (bs : List Byte) : Vector SlotWord 4 :=
  Vector.ofFn fun k : Fin 4 => BitVec.ofNat 32 (leNat ((bs.drop (4 * k.val)).take 4))

/-- The code range of the task in focus holds a bundle address (R63). -/
def State.inCode (s : State) : Bool :=
  match s.ctx.task with
  | none => false
  | some t => (s.ctx.pc - t.codeBase).toNat < t.codeLen

/-- Why a bundle is not fetched: cause, address and detail. -/
structure FetchFault where
  cause : Nat
  addr : Word
  info : Word
  deriving DecidableEq, Repr

/-- Fetches the bundle at pc (R63, R98, R391): its words and the translations to hold. -/
def State.fetch (s : State) : Except FetchFault (Vector SlotWord 4 × List TlbEntry) :=
  let a := s.ctx.pc
  if !s.inCode then .error ⟨causeAccess, a, word (wordBits s.ctx.from_ 47 0)⟩
  else if !keyOk a then .error ⟨causeAccess, a, 3⟩
  else match s.checkMapped s.foc.die s.foc.core s.space.1 s.space.2 ⟨false, true, true, s.ctx.ctrl⟩ a 16 with
    | .error e => .error ⟨e.cause, e.addr, word e.reason⟩
    | .ok r => match r.places.find? fun p => s.poison.contains (wordOf p) with
      | some p => .error ⟨causeEcc, a + word (wordOf p - wordOf (r.places.headD 0)), 0⟩
      | none => .ok (bundleOf (s.seenBytes s.foc.die r.places), r.held)

/-- The task in focus belongs to a pinned launch. -/
def State.isPinned (s : State) : Bool := pinOf s.ctx.cstat

/-- The context in focus may issue stamped bundles: a pinned task (R27), or the granger, which times its own firmware
(R373). -/
def State.stamps (s : State) : Bool := s.isPinned || s.isCtrl

/-- The stamp that a bundle keeps to: in a task that is not pinned it has none, where a handler skipped its header (R27,
R383). -/
def State.stampOf (s : State) (ws : Vector SlotWord 4) : Option Nat := if s.stamps then bundleStamp ws else none

/-! The interlocks of a group. -/

/-- The slot at which the bundle at pc begins to issue: its first, or where its trap left it (R383). -/
def State.firstSlot (s : State) : Nat :=
  match s.ctx.reissue with
  | none => 0
  | some (done, _) =>
    min ((s.ctx.saved.map SavedGroup.slot).getD 0) (([0, 1, 2, 3].find? fun k => !done.getLsbD k).getD 0)

/-- The bundle at pc with its words, at the slot where it begins to issue. -/
def State.opened (s : State) (ws : Vector SlotWord 4) : State :=
  { s with ctx := { s.ctx with ib := some ws, done := (s.ctx.reissue.map Prod.fst).getD 0, slot := s.firstSlot, qsam := [] } }

/-- Registers that the context in focus waits for where it uses them. A use of the register of an ordered add whose set is
open, with no arrival to join, closes the set instead (Table 12-4). -/
def State.awaitedRegs (s : State) : List RegId :=
  State.pendingRegs { s with ctx := { s.ctx with ordSet := s.ctx.ordSet.filter fun a => a.claim.isSome } }

/-- A slot from `k` to `last` that is not done, and not suppressed, uses one of some registers (R49, R119). -/
def State.uses (s : State) (regs : List RegId) (ws : Vector SlotWord 4) (done : BitVec 4) (k last : Nat) : Bool :=
  [0, 1, 2, 3].any fun j =>
    let i := slotInstrD ws j
    let c := slotQual (bundleHeader ws) j
    k ≤ j && j ≤ last && !done.getLsbD j && i != .nop &&
      (if qualHolds s.ctx.q s.ctx.lv c then meets regs (slotReads i c ++ slotWrites i)
       else c.zero && meets regs (slotWrites i))

/-- The group that slot `k` of a bundle belongs to, in the bundles it reaches, uses one of some registers (R22, R49): a
group that no slot ends goes on in the next bundle. -/
def State.groupUses (s : State) (regs : List RegId) : Nat → Vector SlotWord 4 → BitVec 4 → Nat → Bool
  | 0, _, _, _ => false
  | n + 1, ws, done, k =>
    match [0, 1, 2, 3].find? fun j => k ≤ j && wordStop (slotWord ws j) with
    | some last => s.uses regs ws done k last
    | none => s.uses regs ws done k 3 ||
      (let t := { s with ctx := { s.ctx with pc := s.ctx.pc + 16 } }
       match t.fetch with
       | .ok (ws', _) => t.groupUses regs n ws' 0 0
       | .error _ => false)

/-- The last slot of the group that slot k belongs to, within its bundle; the whole bundle when it is stamped (R362). -/
def groupEnd (ws : Vector SlotWord 4) (k : Nat) : Nat :=
  if (bundleStamp ws).isSome then 3 else ([0, 1, 2, 3].find? fun j => k ≤ j && wordStop (slotWord ws j)).getD 3

/-- The current group of the context in focus waits under the interlocks (R49, R119), or its bundle waits for a register
that its boundary adds to (R69). A stamped bundle is not held back: it overruns (R362). -/
def State.interlocked (s : State) : Bool :=
  let regs := s.awaitedRegs
  !regs.isEmpty &&
    match (match s.ctx.ib with
      | some ws => some (ws, s)
      | none => match s.fetch with
        | .error _ => none
        | .ok (ws, _) => some (ws, s.opened ws)) with
    | none => false
    | some (ws, t) =>
      (t.stampOf ws).isNone &&
        (let t := State.skipSlots ws 4 t
         if 4 ≤ t.ctx.slot then t.strideBusy
         else t.groupUses regs ((t.ctx.task.map fun k => k.codeLen / 16).getD 0) ws t.ctx.done t.ctx.slot ||
           (groupEnd ws t.ctx.slot == 3 && t.ctx.gstart.isNone && t.strideBusy))

/-! Which context issues. -/

/-- The die is stopped by a trap in its granger's handler (R375). -/
def State.dieStopped (s : State) (d : Nat) : Bool := (s.dieAt d).boot == 255

/-- A context of a core that holds a task and is ready (R354). -/
def State.isReady (s : State) (p : CoreId) (k : Nat) : Bool :=
  (s.ctxAt (p.ctxId k)).status == .ready && !s.dieStopped p.die && !(s.focusOn (p.ctxId k)).interlocked

/-- The contexts after one in the rotation 0, 1, 2, 3, 0 (R355). -/
def rotation (k : Nat) : List Nat := [(k + 1) % 4, (k + 2) % 4, (k + 3) % 4, k % 4]

/-- The turn of a core's primary has ended (R355, R367). -/
def Core.turnOver (c : Core) : Bool := 64 ≤ c.turn || 8 ≤ c.dry

/-- The primary of the core's next issue (R355): the current one while its turn lasts, else the next ready one. -/
def State.primaryOf (s : State) (p : CoreId) : Option Nat :=
  let c := s.coreAt p
  if s.isReady p c.primary && !c.turnOver then some c.primary else (rotation c.primary).find? (s.isReady p)

/-- The secondary beside a primary (R355): the next ready context after it. -/
def State.secondaryOf (s : State) (p : CoreId) : Option Nat :=
  let k := (s.coreAt p).primary
  [(k + 1) % 4, (k + 2) % 4, (k + 3) % 4].find? (s.isReady p)

/-- A core has a pinned task that is to issue in this cycle (R358). -/
def State.pinnedDue (s : State) (p : CoreId) : Bool :=
  !(s.coreAt p).issued && (match s.primaryOf p with
    | some k => pinOf (s.ctxAt (p.ctxId k)).cstat
    | none => false)

end Sys2Proof.Machine
end

