-- ==== Sys2Proof/Machine/Governor.lean ====
section
/-! DEFINITION. The load-step governor (R401 to R409): estimates, ramp slots and grants, ceiling, floor and ballast.
Powers are in units of 1/194,560 mW, in which every quantity is whole: 1/16 pJ in a tick is 361 units. -/

namespace Sys2Proof.Machine

/-- A number of mW in units (R401). -/
def mwUnits (mw : Nat) : Nat := mw * 194560

/-- The fall allowance per tick, RATE x 160 / 19 mW (R402). -/
def Package.delta (p : Package) : Nat := p.rate * 1638400

/-- The slot capacity, RATE x BURST x 250 mW (R402). -/
def Package.cap (p : Package) : Nat := mwUnits (p.rate * p.burst * 250)

/-- A die's static and uncore energy over `n` cycles at its present `estat` and `guncore`, in units (R401): 96 cores, and
1/64 of a tick of uncore power for each. -/
def Die.baseOver (x : Die) (n : Nat) : Nat := n * (96 * x.estat * 361 + x.guncore * 3040)

/-- A die's static and uncore energy over a whole tick, cycle by cycle as `estat` and `guncore` stood and stand (R401). -/
def Die.basePower (x : Die) : Nat := (x.baseOver 64 + x.estAdj * (96 * 361) + x.uncAdj * 3040 : Int).toNat

/-- A grant is live: not a reserve (R403, R404). -/
def Grant.live (g : Grant) : Bool := g.expires.isSome

/-- A die's live grants (R405, Table 16-2, gslot). -/
def Die.liveGrants (x : Die) : Nat := (x.grants.filter Grant.live).map Grant.left |>.sum

/-- Twice the ceiling of a die and whether gpmax sets it (R406). -/
def ceilingTwice (p : Package) (x : Die) : Nat × Bool :=
  let a := 2 * x.pLast + 2 * x.liveGrants + p.pool
  let b := mwUnits (p.pmax * 1000)
  (min a b, b < a)

/-- The package of a die position. -/
def State.pkgOf (s : State) (d : Nat) : Package := s.pkgAt (d / 2)

/-- By how much work of some charge would take the die in focus over the ceiling set at the start of the tick, in units,
doubled; 0 when the work is admitted (R406). -/
def State.excessTwice (s : State) (cost : Nat) : Nat := 2 * ((s.die.etick + cost) * 361 + s.die.basePower) - s.die.ceil2

/-- Other work of the die in focus is admitted before some work that is not pinned: a pinned task's bundle of this cycle
(R408), or work that waits from the tick before (R406). -/
def State.behindOthers (s : State) (w : WorkId) : Bool :=
  (s.knownCores.any fun p => p.die == s.foc.die && p != s.foc.coreId && s.pinnedDue p) ||
  match s.die.heldOld with
  | [] => false
  | h :: _ => h != w

/-- Work is no longer among those that waited in the tick before. -/
def State.admitted (s : State) (w : WorkId) : State :=
  { s with die := { s.die with heldOld := s.die.heldOld.filter fun e => e != w } }

/-- What the governor says of a piece of work (R406, R408): it goes on, it is not its turn yet in this tick, it waits to
the next tick, or, being pinned, it is a violation. -/
inductive Admission where
  | go (s : State)
  | later
  | wait (s : State)
  | ramp (s : State)
  deriving DecidableEq, Repr

/-- The detail of a RAMP-VIOLATION (R408): the excess in mW rounded up, and whether gpmax set the ceiling. -/
def State.rampInfo (s : State) (cost : Nat) : Word :=
  let mw := (s.excessTwice cost + 2 * 194560 - 1) / (2 * 194560)
  word (min mw (2 ^ 32 - 1) + if s.die.byMax then 2 ^ 32 else 0)

/-- A RAMP-VIOLATION is counted (R408). -/
def State.countViolation (s : State) : State :=
  let p := s.pkgOf s.foc.die
  s.setPkgAt (s.foc.die / 2) { p with viol := (p.viol + 1) % 65536 }

/-- Non-pinned work of a charge on the die in focus (R406): it fits in the tick and nothing before it waits, or it waits
to the next tick, and all later work with it. -/
def State.admitFree (s : State) (w : WorkId) (cost : Nat) : Admission :=
  if !s.die.throttled && s.behindOthers w then .later
  else if !s.die.throttled && s.excessTwice cost == 0 then .go (s.admitted w)
  else
    let t := s.admitted w
    .wait { t with die := { t.die with
      throttled := true, heldNew := if t.die.heldNew.contains w then t.die.heldNew else t.die.heldNew ++ [w] } }

/-- A pass, tile or unit of some charge, done for the context in focus by an engine of its core (R406, R408). -/
def State.admitWork (s : State) (kind cost : Nat) : Admission :=
  if pinOf s.ctx.cstat then (if s.excessTwice cost = 0 then .go s else .ramp s.countViolation)
  else match s.admitFree ⟨kind, s.foc⟩ cost with
    | .wait t => .wait { t with core := { t.core with held := true } }
    | a => a

/-- Puts slots back into a package's pool, within its capacity (R403). -/
def Package.refund (p : Package) (n : Nat) : Package := { p with pool := min p.cap (p.pool + n) }

/-- Pays a rise from a list of grants, oldest first (R405): the grants after it and what is left to pay. -/
def payGrants : List Grant → Nat → List Grant × Nat
  | [], n => ([], n)
  | g :: gs, n =>
    if g.live then
      let m := min g.left n
      let r := payGrants gs (n - m)
      ({ g with left := g.left - m } :: r.1, r.2)
    else
      let r := payGrants gs n
      (g :: r.1, r.2)

/-- A grant from a pool, or as much as it holds (R403, R418): the package, and the units granted. -/
def Package.take (p : Package) (n : Nat) : Package × Nat := ({ p with pool := p.pool - n }, min n p.pool)

/-- The cycle at which a grant made now expires: 256 ticks from now (R403). -/
def State.grantEnd (s : State) : Nat := s.cycle + 256 * 64

/-- Adds a grant to a die: it lives 256 ticks from now (R403); a reserve has no end yet (R404). -/
def State.addGrant (s : State) (d : Nat) (owner : Option CtxId) (launch : Option Nat) (n : Nat) (reserve : Bool) :
    State :=
  let x := s.dieAt d
  let g : Grant := ⟨owner, launch, n, if reserve then none else some s.grantEnd⟩
  s.setDieAt d { x with grants := x.grants ++ [g] }

/-- Returns a die's grants that a test names to the pool (R404, R409, R418). -/
def State.returnGrants (s : State) (d : Nat) (f : Grant → Bool) : State :=
  let x := s.dieAt d
  let back := ((x.grants.filter f).map Grant.left).sum
  let s := s.setDieAt d { x with grants := x.grants.filter fun g => !f g }
  s.setPkgAt (d / 2) ((s.pkgOf d).refund back)

/-- An array that no pass uses (R407). -/
def Core.arrayIdle (c : Core) : Bool := !(c.mq.any fun e => e.committed < e.fetched.length)

/-- The cores of a die in the order ballast takes their arrays: falling array charge of the tick before, ties to the
lower number (R407). -/
def State.ballastOrder (s : State) (d : Nat) : List CoreId :=
  let cs := (List.range 96).map fun k => ((s.coreAt ⟨d, k⟩).arrLast, k)
  (sortBy (fun a b => b.1 < a.1 || (a.1 == b.1 && a.2 ≤ b.2)) cs).map fun e => ⟨d, e.2⟩

/-- Runs ballast cycles on the arrays of a list (R407), in cycles of the tick in which no pass used them: the cycles left
over. -/
def State.ballast (s : State) (w : Nat) : List CoreId → Nat → State × Nat
  | [], n => (s, n)
  | p :: ps, n =>
    if n = 0 then (s, 0)
    else
      let c := s.coreAt p
      let m := min n (64 - c.arrBusy)
      let s := if m = 0 then s
        else s.setCoreAt p { c with bcyc := satAdd48 c.bcyc m, ebal := satAdd48 c.ebal (m * w) }
      s.ballast w ps (n - m)

/-- The end of a tick on one die (R401, R405, R407): its estimate, ballast, and what its rise takes from the pool. Work
that waited and has not come again is forgotten (R406). -/
def State.tickDie (s : State) (d : Nat) : State × Nat :=
  let x := s.dieAt d
  let p := s.pkgOf d
  let e := x.etick * 361 + x.basePower
  let w := x.weights[8] * 361
  let short := 2 * x.pLast - p.delta - 2 * e
  let want := if w = 0 then 0 else (short + 2 * w - 1) / (2 * w)
  let r := if want = 0 then (s, 0) else s.ballast x.weights[8] (s.ballastOrder d) want
  let s := r.1
  let e := e + (want - r.2) * w
  let pay := payGrants x.grants (e - x.pLast)
  let x := { x with
    etick := 0, estAdj := 0, uncAdj := 0, pLast := e, grants := pay.1, throttled := false
    heldOld := x.heldNew, heldNew := []
    thrt := if x.throttled then (x.thrt + 1) % 65536 else x.thrt
    balt := if r.2 < want then (x.balt + 1) % 65536 else x.balt
    fmiss := x.fmiss || 2 * e + p.delta < 2 * x.pLast }
  (s.setDieAt d x, pay.2)

/-- Array charges of a die's cores roll over at the end of a tick, and the work that waited for it may go on (R406,
R407). -/
def State.rollArrays (s : State) (d : Nat) : State :=
  let f (c : Core) : Core := { c with arrLast := c.arrNow, arrNow := 0, arrBusy := 0, held := false }
  { s with core := if s.foc.die = d then f s.core else s.core
           cores := s.cores.map fun e => if e.1.die = d then (e.1, f e.2) else e }

/-- Work of a die that waited for the tick is ready again (R406). -/
def State.wakeTick (s : State) (d : Nat) : State :=
  (s.knownCtxs.filter fun c => c.die == d && (s.ctxAt c).status == .waiting .tick).foldl
    (fun s c => s.atCtx c fun s => s.endWait 0) s

/-- A die's ceiling for the tick that starts (R406): PMX is set where gpmax set it. -/
def State.setCeiling (s : State) (d : Nat) : State :=
  let x := s.dieAt d
  let c := ceilingTwice (s.pkgOf d) x
  s.setDieAt d { x with ceil2 := c.1, byMax := c.2, pmx := x.pmx || c.2 }

/-- The end of a governor tick of a package and the start of the next (R401, R403, R406). -/
def State.governorTick (s : State) (p : Nat) : State :=
  let a := s.tickDie (2 * p)
  let b := a.1.tickDie (2 * p + 1)
  let s := (b.1.rollArrays (2 * p)).rollArrays (2 * p + 1)
  let k := s.pkgAt p
  let k := { k with pool := min k.cap (k.pool + k.delta - (a.2 + b.2)), tick := k.tick + 1 }
  let s := ((s.setPkgAt p k).setCeiling (2 * p)).setCeiling (2 * p + 1)
  (s.wakeTick (2 * p)).wakeTick (2 * p + 1)

/-- A package's tick has ended (R401). -/
def State.tickDue (s : State) (p : Nat) : Bool := 64 * ((s.pkgAt p).tick + 1) ≤ s.cycle

/-- A grant of the die is 256 ticks old (R403). -/
def State.grantDue (s : State) (d : Nat) : Bool := (s.dieAt d).grants.any fun g => g.expires.any (· ≤ s.cycle)

/-- Returns the unspent remainder of expired grants to the pool (R403). -/
def State.expireGrants (s : State) (d : Nat) : State := s.returnGrants d fun g => g.expires.any (· ≤ s.cycle)

end Sys2Proof.Machine
end

