-- ==== Sys2Proof/Machine/MemAccess.lean ====
section
/-! DEFINITION. Loads and stores of majors 0x14 to 0x16 and 0x1c (R86, R90, R91, R101 to R109), the order in which a
task's accesses are performed (R268, R270, R283, R434), the harvest buffer (R276, R277), and the steps by which a load
returns and a write is performed. -/

namespace Sys2Proof.Machine

/-! The accesses a task has outstanding. -/

/-- Places of a store: of a tag change, those of its granule as well (R431). -/
def PendingStore.places (p : PendingStore) : List Nat := p.cells.flatMap fun c => spread c.1

/-- Places of a load whose words have not been read. -/
def PendingLoad.unread (l : PendingLoad) : List Nat :=
  (l.words.filter fun w => w.got.isNone).flatMap LoadWord.places

/-- Places that a Square request reads and writes: its granules (R291). -/
def SqRequest.places (r : SqRequest) : List Nat :=
  let n := match r.op with
    | .binAdd _ | .binFold | .binInit _ => 32
    | .barInit _ | .arrive _ | .expect _ => 16
    | _ => 8
  (List.range n).map (wordOf r.place + ·)

/-- The Square requests that the task's accesses to the same bytes keep their order with: none while its queue stands at a
fault that the task has been told of, which the task may then repair (R268, R288; log 16). -/
def Ctx.sqLive (x : Ctx) : List SqRequest := if x.sq.any fun r => r.fault.any fun f => f.2.2 then [] else x.sq

/-- Lists of places share one. -/
def placesMeet (a b : List Nat) : Bool := a.any b.contains

/-- No access of a context before a point in its program order is outstanding on some places: no store to a place that
an engine operation reads or writes, no load of a place that it writes (R268, R273). -/
def Ctx.clearBefore (x : Ctx) (seq : Nat) (rd wr : Nat → Bool) : Bool :=
  (x.stores.all fun p => seq ≤ p.seq || !p.places.any fun a => rd a || wr a) &&
  (x.loads.all fun l => seq ≤ l.seq || !l.unread.any wr) &&
  (x.sqLive.all fun r => seq ≤ r.seq || !r.places.any fun a => rd a || wr a)

/-- A place lies among `n` from `a`. -/
def within (a n p : Nat) : Bool := a ≤ p && p < a + n

/-- A write of the context in focus before a point is visible on the dies of a scope that observe it (R269). -/
def State.writesSeen (s : State) (seq : Nat) (sc : Scope) : Bool :=
  s.flight.all fun w =>
    w.writer != some s.foc || seq ≤ w.seq || (s.scopeDies sc s.foc.die).all w.seen.contains

/-- The reads before an ordering event are performed (R270). -/
def State.readsDone (s : State) (p : OrderPoint) : Bool :=
  (s.ctx.loads.all fun l => p.seq ≤ l.seq || l.unread.all fun a => !scopeOrders p.scope (placeLevel a)) &&
  (!scopeOrders p.scope 2 || s.ctx.sq.all fun r => p.seq ≤ r.seq)

/-- The writes before an ordering event are performed with respect to its scope (R269, R270): of the ordered adds, those
whose set has closed (log 61). -/
def State.writesDone (s : State) (p : OrderPoint) : Bool :=
  (s.ctx.stores.all fun w => p.seq ≤ w.seq || w.places.all fun a => !scopeOrders p.scope (placeLevel a)) &&
  (!scopeOrders p.scope 2 ||
    (s.writesSeen p.seq p.scope && (s.closedAdds s.foc).all fun a => p.seq ≤ a.prog))

/-- An ordering event no longer holds an access back (R270): an acquire orders earlier reads before any access, a
release earlier accesses before writes, a full event earlier accesses before any access. -/
def State.pointMet (s : State) (wr : Bool) (p : OrderPoint) : Bool :=
  match p.kind with
  | .acq => s.readsDone p
  | .rel => !wr || (s.readsDone p && s.writesDone p)
  | .full => s.readsDone p && s.writesDone p

/-- The next access of the task in focus may be made (R283). -/
def State.accessReady (s : State) (wr : Bool) : Bool := s.ctx.points.all (s.pointMet wr)

/-- Forgets ordering events that hold nothing back any more. -/
def State.trimPoints (s : State) : State :=
  { s with ctx := { s.ctx with points := s.ctx.points.filter fun p => !(s.readsDone p && s.writesDone p) } }

/-- An ordering event of the task in focus (R270). -/
def State.orderPoint (s : State) (k : FenceKind) (sc : Scope) : State :=
  { s with ctx := { s.ctx with points := s.ctx.points ++ [⟨k, sc, s.ctx.seq⟩] } }

/-- The next place in the task's program order (R268). -/
def State.nextSeq (s : State) : State := { s with ctx := { s.ctx with seq := s.ctx.seq + 1 } }

/-! Reading. -/

/-- The byte that a read of the context in focus at a point of its program order returns (R265, R277, R291). -/
def State.ownByte (s : State) (seq a : Nat) : Byte :=
  match s.ctx.forwarded seq a with
  | some b => b
  | none => match s.ctx.hbuf.lookup a with
    | some b => b
    | none => if isSquare a then s.homeByte a else s.seenByte s.foc.die a

/-- The bytes that a read at this point returns. -/
def State.ownBytes (s : State) (ps : List Nat) : List Byte := ps.map (s.ownByte s.ctx.seq)

/-- A returned value reaches its register (R101, R104, R106). -/
def State.giveLoad (s : State) (d : LoadDest) (bs : List Byte) : State :=
  match d with
  | .scalar xd signed =>
    s.setX xd (if signed then BitVec.ofInt 64 (signedNat (8 * bs.length) (leNat bs)) else word (leNat bs))
  | .vector vt => s.setV vt (BitVec.ofNat 1024 (leNat bs)) 0

/-- Places by aligned 8-byte word, in order (R86, R264). -/
def byWord : List Nat → List (List Nat)
  | [] => []
  | a :: as => match byWord as with
    | (b :: w) :: ws => if wordOf a = wordOf b then (a :: b :: w) :: ws else [a] :: (b :: w) :: ws
    | ws => [a] :: ws

/-- A load of the task in focus: from its own crib and side bank its value is fixed at once; from a level further away
word by word, as it returns (R103, R268). `tail` zero bytes follow. -/
def State.startLoad (s : State) (d : LoadDest) (a : Word) (ps : List Nat) (tail : Nat) : State :=
  if ps.all fun a => placeLevel a == 0 then
    (s.giveLoad d (s.ownBytes ps ++ List.replicate tail 0)).nextSeq
  else
    let ws := (byWord ps).map fun w =>
      ({ places := w, own := w.filterMap (fun a => (s.ctx.hbuf.lookup a).map fun b => (a, b)), got := none } : LoadWord)
    let l : PendingLoad := ⟨s.ctx.seq, a, d, ws, tail⟩
    { s with ctx := { s.ctx with loads := s.ctx.loads ++ [l] } }.nextSeq

/-! Writing. -/

/-- A plain store that a harvest round holds back (R276): to the barn, the granary or HBM, in a harvest mode. -/
def State.buffered (s : State) (a : Nat) : Bool :=
  modeOf s.ctx.cstat != 0 && ((2 ^ 66 ≤ a && a < 2 ^ 67) || (2 ^ 68 ≤ a && a < 2 ^ 69) || isHbm a)

/-- Held bytes of the tasks of the launch of the context in focus (R280). -/
def State.heldBytes (s : State) : Nat :=
  ((s.knownCtxs.filter fun c => ((s.ctxAt c).task.map Task.launch) == (s.ctx.task.map Task.launch)).map
    fun c => (s.ctxAt c).hbuf.length).sum

/-- The harvest area of the task's launch has room for more held bytes (R280). -/
def State.harvestRoom (s : State) (n : Nat) : Bool :=
  match s.ctx.task.bind fun t => s.launches.find? fun l => l.handle == t.launch with
  | some l => s.heldBytes + (l.saved.map fun t => t.ctx.hbuf.length).sum + n ≤ l.hcap
  | none => true

/-- A store of the task in focus issues: its bytes go to the harvest buffer, or wait to be performed word by word
(R265, R276, R434). -/
def State.startStore (s : State) (addr : Word) (cs : List Host.Cell) : State :=
  match cs with
  | [] => s
  | c :: _ =>
    if s.buffered c.1 then
      let at_ := cs.zipIdx.map fun e => (e.1.1, addr + word e.2)
      { s with ctx := { s.ctx with
          hbuf := cs.foldl (fun (h : List Host.Cell) (e : Host.Cell) => assocSet h e.1 e.2) s.ctx.hbuf
          haddr := at_.foldl (fun (h : List (Nat × Word)) (e : Nat × Word) => assocSet h e.1 e.2) s.ctx.haddr } }.nextSeq
    else
      let ws := (byWord (cs.map Prod.fst)).map fun w => w.filterMap fun a => (lastCell cs a).map fun b => (a, b)
      { s with ctx := { s.ctx with stores := s.ctx.stores ++ ws.map fun w => (⟨s.ctx.seq, w⟩ : PendingStore) } }.nextSeq

/-! The checks around an access. -/

/-- Locations of an access, for watches. -/
def locsOf (a : Word) (n : Nat) : List Nat := (List.range n).map (locOf a + ·)

/-- The trap of a read of a poisoned word (R391): taddr is the word's first byte. -/
def State.poisonTrap (s : State) (a : Word) (k : Nat) : State :=
  s.stop causeEcc ((a + word k) &&& ~~~(7 : Word)) 0

/-- The first byte of a read that would return poison: one that no store or held byte of the task covers (R277,
R391). -/
def State.readPoison (s : State) (ps : List Nat) : Option Nat :=
  ps.findIdx? fun p =>
    s.poison.contains (wordOf p) && (s.ctx.forwarded s.ctx.seq p).isNone && (s.ctx.hbuf.lookup p).isNone

/-- The word, by its address, at which a read of the own crib or side bank would return poison (R391). -/
def State.ownPoison (s : State) (ps : List Nat) : Option Word :=
  (s.readPoison ps).map fun k => ownAddr s.foc.coreId (wordOf (ps.getD k 0))

/-- A plain access whose checks of R82 found something passes those of its form and its watch and goes on, is held by an
ordering event, or traps (R82, R283, R391, R426): `locs` are its bytes, `fault` what stops its form. -/
def guarded (s : State) (a : Word) (chk : Except MemFault Found) (locs : List Nat) (wr : Bool)
    (fault : Found → Option State) (go : State → Found → Out) : Out :=
  if !s.accessReady wr then .next s.holdReady
  else match chk with
    | .error e => .next (s.memTrap e wr)
    | .ok r => match fault r with
      | some t => .next t
      | none => match s.watched locs (!wr) wr with
        | some w => .next (s.watchTrap a w wr)
        | none => go ((s.holdTlb s.foc.die r.held).trimPoints) r

/-- A plain access of `n` bytes at an address. -/
def accessing (s : State) (a : Word) (n align : Nat) (f : AccessForm) (wr : Bool) (fault : Found → Option State)
    (go : State → Found → Out) : Out := guarded s a (s.checkAccess a n align f wr) (locsOf a n) wr fault go

/-- The trap of a load that would return a poisoned word (R391). -/
def State.loadFault (s : State) (a : Word) (r : Found) : Option State := (s.readPoison r.places).map (s.poisonTrap a)

/-- A store has no check beyond those of R82. -/
def noFault (_ : Found) : Option State := none

/-! Scalar loads and stores. -/

/-- Bytes and sign of a load size (Table 4-8). -/
def LdSize.bytes : LdSize → Nat
  | .b | .bu => 1
  | .h | .hu => 2
  | .w | .wu => 4
  | .d => 8
def LdSize.signed : LdSize → Bool
  | .b | .h | .w => true
  | .bu | .hu | .wu | .d => false

/-- Bytes of a store size (Table 4-8). -/
def StSize.bytes : StSize → Nat
  | .b => 1
  | .h => 2
  | .w => 4
  | .d => 8

/-- The address of a scaled signed offset (R101, R105). -/
def State.offAddr {m : Nat} (s : State) (xa : XReg) (off : Imm m) (n : Nat) : Word :=
  s.getX xa + BitVec.ofInt 64 (off.sval * n)

/-- R101. -/
def execLd (sz : LdSize) (xt xa : XReg) (off : Imm 1024) (s : State) : Out :=
  let n := LdSize.bytes sz
  let a := s.offAddr xa off n
  accessing s a n n (.scalar n) false (s.loadFault a) fun s r =>
    .next (s.startLoad (.scalar xt (LdSize.signed sz)) a r.places 0)

/-- R101. -/
def execSt (sz : StSize) (xt xa : XReg) (off : Imm 1024) (s : State) : Out :=
  let n := StSize.bytes sz
  let a := s.offAddr xa off n
  accessing s a n n (.scalar n) true noFault fun s r =>
    if s.buffered (r.places.headD 0) && !s.harvestRoom n then .next (s.holdFor .harvestArea)
    else .next (s.startStore a (r.places.zip (leBytes n (s.getX xt).toNat)))

/-- R104. -/
def execLdp (dbl : Bool) (xd : XReg) (pw : Fin 4) (xa : XReg) (off : Imm 1024) (s : State) : Out :=
  let n := if dbl then 8 else 4
  let w := s.ctx.pw[pw]
  let o := (s.getX xa).toNat + off.uval * n
  let inside := min n (w.size - o)
  let a := w.base + word o
  let oob (s : State) : State := if inside < n then s.raiseBit bitPOOB else s
  if w.size = 0 then .next (s.stop causeUnbound 0 0)
  else if inside ≠ 0 ∧ !keyOk a then .next (s.memTrap ⟨causeAccess, a, 3⟩ false)
  else if o % n ≠ 0 then .next (s.memTrap ⟨causeMisalign, a, 5⟩ false)
  else if inside = 0 then .next (oob (s.setX xd 0))
  else accessing s a inside 1 .param false (s.loadFault a) fun s r =>
    .next (oob (s.startLoad (.scalar xd false) a r.places (n - inside)))

/-! Side-bank records as vector accesses consult them (R90, Table 4-5). -/

/-- Bytes of a granule under GRAN (Table 4-5). -/
def granBytes (view : Word) : Nat := 64 * 2 ^ wordBits view 19 17

/-- The record of a granule of the own crib as the task reads it. -/
def State.recordOf (s : State) (n : Nat) : Nat :=
  leNat (s.ownBytes ((List.range 16).map fun k => sidePlace s.foc.coreId (16 * n + k)))

/-- GRAN of the task's view. -/
def State.gran (s : State) : Nat := wordBits s.ctx.cview 19 17

/-- The records that own crib bytes at places (R90). -/
def State.recordsOf (s : State) (ps : List Nat) : List Nat :=
  (ps.map fun p => (p - cribPlace s.foc.coreId 0) / granBytes s.ctx.cview).eraseDups

/-- Places of the bytes of records of the own side bank. -/
def State.recPlaces (s : State) (rs : List Nat) : List Nat :=
  rs.flatMap fun n => (List.range 16).map fun k => sidePlace s.foc.coreId (16 * n + k)

/-- The places lie in the crib. -/
def inCrib (ps : List Nat) : Bool := ps.all fun p => 2 ^ 69 ≤ p && p < 2 ^ 70

/-- The word of a record at which a vector access of crib places would return poison (R90, R391). -/
def State.recPoison (s : State) (ps : List Nat) : Option Word :=
  if s.gran = 0 || !inCrib ps then none else s.ownPoison (s.recPlaces (s.recordsOf ps))

/-- The tag that the granules of crib places carry, 0 without records (R90); none where they differ or one is
malformed. -/
def State.cribTag (s : State) (ps : List Nat) : Option Nat :=
  if s.gran = 0 then some 0
  else match (s.recordsOf ps).map fun n => recTag (s.recordOf n) with
    | [] => some 0
    | t :: ts => if tagOk t && ts.all fun u => u == t then some t else none

/-- The byte at a crib place lies in a granule that reads as zero (R90). -/
def State.zeroGranule (s : State) (p : Nat) : Bool :=
  s.gran != 0 && recZero (s.recordOf ((p - cribPlace s.foc.coreId 0) / granBytes s.ctx.cview))

/-- The bytes of a vector load of the crib under R90. -/
def State.cribRead (s : State) (ps : List Nat) : List Byte :=
  ps.map fun p => if s.zeroGranule p then 0 else s.ownByte s.ctx.seq p

/-- What stops a vector load of crib places, the k-th byte at an address (R90, R391; log 18): poison of a record, a tag it
does not take, poison of a byte it returns. -/
def State.cribFault (s : State) (ps : List Nat) (addr : Nat → Word) (takes : Nat → Bool) : Option State :=
  match s.recPoison ps with
  | some w => some (s.stop causeEcc w 0)
  | none =>
    if (s.cribTag ps).any takes then
      (ps.findIdx? fun p => !s.zeroGranule p && (s.readPoison [p]).isSome).map fun k => s.poisonTrap (addr k) 0
    else some s.domainTrap

/-! The spatial view (R91). -/

/-- The flags of the FP32 additions of one lane on the path of a spatial row, and its value (R91). -/
def spatialLane (r : Nat) (rowAt : Nat → Nat) : Nat → Nat × FlagSet → Nat × FlagSet
  | 0, x => x
  | lvl + 1, x =>
    let d := rowAt (32 / 2 ^ (lvl + 1) + r / 2 ^ (lvl + 1))
    let d := if r / 2 ^ lvl % 2 = 0 then d else d ^^^ 0x80000000
    let y := fmt32.add 0 x.1 d
    spatialLane r rowAt lvl (y.1, x.2.or y.2)

/-- The lanes of a spatial load of n lanes at a linear offset, with their flags (R91). -/
def State.spatialLanes (s : State) (o n lvl : Nat) : List (Nat × FlagSet) :=
  let t := o / 32768 * 32768
  let r := natBits o 14 10
  let rowAt (k rho : Nat) : Nat :=
    if recZero (s.recordOf (t / 1024 + rho)) then 0
    else leNat (s.ownBytes ((List.range 4).map fun b =>
      cribPlace s.foc.coreId (t + rho * 1024 + o % 1024 / 4 * 4 + 4 * k + b)))
  (List.range n).map fun k => spatialLane r (rowAt k) lvl (rowAt k (r / 2 ^ lvl), FlagSet.none)

/-- The word at which a spatial load of n lanes at a linear offset would return poison: of the rows on its path, where
their records hold them (R91, R391). -/
def State.rowPoison (s : State) (o n lvl : Nat) : Option Word :=
  let t := o / 32768 * 32
  let r := natBits o 14 10
  let rows := (r / 2 ^ lvl) :: (List.range lvl).reverse.map fun l => 32 / 2 ^ (l + 1) + r / 2 ^ (l + 1)
  s.ownPoison ((rows.filter fun k => !recZero (s.recordOf (t + k))).flatMap fun k =>
    (List.range (4 * n)).map fun b => cribPlace s.foc.coreId ((t + k) * 1024 + o % 1024 / 4 * 4 + b))

/-- L of the tile of a linear offset: that of its first record (R91). -/
def State.tileL (s : State) (o : Nat) : Nat := recTag (s.recordOf (o / 32768 * 32)) % 8

/-- What stops a `vld` of n bytes through the spatial view (R91, R220, R221, R391; log 18): its view or row, poison of a
record of its tile, records that do not share one tag, poison on its path. -/
def State.spatialFault (s : State) (a : Word) (n : Nat) : Option State :=
  let o := locOf a - Win.spatial.base
  let t := o / 32768 * 32
  let recs := (List.range 32).map (t + ·)
  let tag := recTag (s.recordOf t)
  if s.gran ≠ 4 ∨ 1024 < o % 1024 + n then some (s.memTrap ⟨causeAccess, a, 16⟩ false)
  else match s.ownPoison (s.recPlaces recs) with
    | some w => some (s.stop causeEcc w 0)
    | none =>
      if tagOk tag && recs.all fun r => recTag (s.recordOf r) == tag then
        (s.rowPoison o (n / 4) (s.tileL o)).map fun w => s.stop causeEcc w 0
      else some s.domainTrap

/-- A `vld` of n bytes through the spatial view that passed its checks (R91): with L = 0 the lanes are those of its own
row. -/
def spatialLoad (s : State) (n : Nat) (vt : VReg) (a : Word) : Out :=
  let o := locOf a - Win.spatial.base
  match giveLanes s vt 32 (s.spatialLanes o (n / 4) (s.tileL o)) 0 with
  | .next s => .next s.nextSeq
  | r => r

/-! Vector loads and stores. -/

/-- What stops a `vld` of n bytes beyond R82 (R90, R91, R391). -/
def State.vldFault (s : State) (a : Word) (n : Nat) (r : Found) : Option State :=
  if winOf (locOf a) = some .spatial then s.spatialFault a n
  else if inCrib r.places then s.cribFault r.places (fun k => a + word k) fun _ => true
  else s.loadFault a r

/-- R106, under R90 and R91. -/
def execVld (w : Width) (vt : VReg) (xa : XReg) (off : Imm 512) (s : State) : Out :=
  let n := widthBits w / 8
  let a := s.offAddr xa off 32
  accessing s a n 32 .vld false (s.vldFault a n) fun s r =>
    if winOf (locOf a) = some .spatial then spatialLoad s n vt a
    else if inCrib r.places then
      .next ((s.setV vt (BitVec.ofNat 1024 (leNat (s.cribRead r.places)))
        (BitVec.ofNat 4 ((s.cribTag r.places).getD 0))).nextSeq)
    else .next (s.startLoad (.vector vt) a r.places 0)

/-- Places of the side bank. -/
def inSide (ps : List Nat) : Bool := ps.all fun p => 2 ^ 70 ≤ p && p < 2 ^ 71

/-- The tag checks of a `vst` (R90, R92, R220): the granules of the crib carry the register's tag and none is all-zero;
without records, and at any other level but the side bank, the tag is 0. A malformed tag passes nowhere. -/
def State.vstTagOk (s : State) (ps : List Nat) (tag : BitVec 4) : Bool :=
  tagOk tag.toNat &&
    if inCrib ps && s.gran != 0 then
      (s.recordsOf ps).all fun n => recTag (s.recordOf n) == tag.toNat && !recZero (s.recordOf n)
    else inSide ps || tag == 0

/-- What stops a `vst` of a tagged register beyond R82 (R90, R391). -/
def State.vstFault (s : State) (tag : BitVec 4) (r : Found) : Option State :=
  match s.recPoison r.places with
  | some w => some (s.stop causeEcc w 0)
  | none => if s.vstTagOk r.places tag then none else some s.domainTrap

/-- R106, under R90. -/
def execVst (w : Width) (vt : VReg) (xa : XReg) (off : Imm 512) (s : State) : Out :=
  let n := widthBits w / 8
  let a := s.offAddr xa off 32
  accessing s a n 32 .vst true (s.vstFault (s.getTag vt)) fun s r =>
    if s.buffered (r.places.headD 0) && !s.harvestRoom n then .next (s.holdFor .harvestArea)
    else .next (s.startStore a (r.places.zip (leBytes n (s.getV vt).toNat)))

/-- Fields of a pack pattern (Table 4-12). -/
def pkPitch (p : Word) : Nat := wordBits p 39 20
def pkFirst (p : Word) : Nat := wordBits p 17 13
def pkSgn (p : Word) : Bool := p.getLsbD 12
def pkLane (p : Word) : Nat := 8 * 2 ^ wordBits p 11 10
def pkStride (p : Word) : Nat := wordBits p 9 4
def pkField (p : Word) : Nat := wordBits p 3 0 + 1

/-- What stops a vector load with a pattern beyond R82: it takes granules with tag 0 (R90, R391). -/
def State.packFault (s : State) (ps : List Nat) (addr : Nat → Word) : Option State := s.cribFault ps addr (· == 0)

/-- The signed offset of `vldx` and `vldt` in 32-byte steps (R105). -/
def State.packAddr (s : State) (xa : XReg) (off : Fin 128) : Word :=
  s.getX xa + BitVec.ofInt 64 (signedField 128 off.val * 32)

/-- Field k of a bit string under a pattern, as a lane (R108). -/
def packField (p : Word) (m k : Nat) : Nat :=
  let lo := pkFirst p + k * pkStride p
  let v := natBits m (lo + pkField p - 1) lo
  (if pkSgn p then BitVec.ofInt 64 (signedNat (pkField p) v) else word v).toNat % 2 ^ pkLane p

/-- R108. -/
def execVldx (w : Width) (vt : VReg) (xa : XReg) (off : Fin 128) (pk : Fin 4) (s : State) : Out :=
  let p := s.ctx.pk[pk]
  let n := laneCount w (pkLane p)
  let span := (pkFirst p + (n - 1) * pkStride p + pkField p + 7) / 8
  let a := s.packAddr xa off
  accessing s a span 1 .pack false (fun r => s.packFault r.places fun k => a + word k) fun s r =>
    giveV s.nextSeq vt (pkLane p) ((List.range n).map (packField p (leNat (s.cribRead r.places)))) 0

/-- The offsets of the bytes of a pitched load (R109). -/
def pitchOffsets (es pitch n : Nat) : List Nat :=
  (List.range n).flatMap fun k => (List.range es).map fun b => k * pitch + b

/-- R109. -/
def execVldt (w : Width) (vt : VReg) (xa : XReg) (off : Fin 128) (pk : Fin 4) (s : State) : Out :=
  let p := s.ctx.pk[pk]
  let es := pkLane p / 8
  let n := laneCount w (pkLane p)
  let a := s.packAddr xa off
  let offs := pitchOffsets es (pkPitch p) n
  let span := (n - 1) * pkPitch p + es
  let places (r : Found) : List Nat := offs.map fun o => r.places.getD o 0
  if keyOk a && pkPitch p % es != 0 then .next (s.memTrap ⟨causeMisalign, a, 5⟩ false)
  else guarded s a (s.checkAccess a span es .pack false) (offs.map (locOf a + ·)) false
    (fun r => s.packFault (places r) fun k => a + word (offs.getD k 0)) fun s r =>
      .next (s.nextSeq.setV vt (BitVec.ofNat 1024 (leNat (s.cribRead (places r)))) 0)

/-- R107: the reserved fields of Table 4-12 are cleared. -/
def execPkset (pk : Fin 4) (xa : XReg) (s : State) : Out :=
  .next { s with ctx := { s.ctx with pk := s.ctx.pk.set pk (s.getX xa &&& 0xfffff3ffff) } }

/-! How a load returns and a write is performed. -/

/-- The unread words of a context's loads, by load and word, oldest first. -/
def Ctx.unreadWords (x : Ctx) : List (PendingLoad × Nat) :=
  x.loads.flatMap fun l => (List.range l.words.length).filterMap fun k =>
    if ((l.words[k]?).bind LoadWord.got).isNone then some (l, k) else none

/-- A word of a load may be read: no older load of a byte of it is outstanding, nor an older Square request on its
granule (R268, R274). Older stores of the task are forwarded, but in Square space, where a read takes its place in the
order of its granule (R291), they are performed before. -/
def Ctx.mayRead (x : Ctx) (l : PendingLoad) (ps : List Nat) : Bool :=
  (x.loads.all fun o => l.seq ≤ o.seq || !placesMeet o.unread ps) &&
  (x.stores.all fun p => l.seq ≤ p.seq || !(ps.any fun a => isSquare a && p.places.contains a)) &&
  (x.sqLive.all fun r => l.seq ≤ r.seq || !placesMeet r.places ps)

/-- The byte that a word of a load returns at a place (R265, R277, R291). -/
def State.loadByte (s : State) (l : PendingLoad) (w : LoadWord) (a : Nat) : Byte :=
  match w.own.lookup a with
  | some b => b
  | none => if isSquare a then s.homeByte a else (s.ctx.forwarded l.seq a).getD (s.seenByte s.foc.die a)

/-- The bytes of a word of a load that nothing of the task's own covers lie in a word that has been poisoned since the
load's checks (R390, R391; log 18). -/
def State.latePoison (s : State) (l : PendingLoad) (w : LoadWord) : Bool :=
  w.places.any fun a => s.poison.contains (wordOf a) && (w.own.lookup a).isNone && (s.ctx.forwarded l.seq a).isNone

/-- One word of a load of the context in focus is read; with its last word the load's value reaches its register. A word
poisoned since the load's checks is not returned: the load ends without its value, and its task takes ECC-UNCORRECTABLE
(R390, R391; log 18). -/
def State.readWord (s : State) (l : PendingLoad) (k : Nat) : State :=
  let w := l.words.getD k ⟨[], [], none⟩
  if s.latePoison l w then
    let off := ((l.words.take k).map fun v => v.places.length).sum
    { s with ctx := { s.ctx with
        loads := s.ctx.loads.filter fun o => o.seq != l.seq
        pend := s.ctx.pend ++ [⟨causeEcc, (l.addr + word off) &&& ~~~(7 : Word), 0⟩] } }
  else
    let ws := l.words.set k { w with got := some (w.places.map (s.loadByte l w)) }
    if ws.all fun w => w.got.isSome then
      let s := { s with ctx := { s.ctx with loads := s.ctx.loads.filter fun o => o.seq != l.seq } }
      s.giveLoad l.dest (ws.flatMap (fun w => w.got.getD []) ++ List.replicate l.tail 0)
    else
      { s with ctx := { s.ctx with loads := s.ctx.loads.map fun o => if o.seq = l.seq then { o with words := ws } else o } }

/-- R103: the k-th unread word of the loads of a context is read, if it may be. -/
def execLoadReturn (c : CtxId) (k : Nat) (s : State) : Out :=
  if !c.ok then .fault .noSuchAgent
  else
    let x := s.ctxAt c
    match x.unreadWords[k]? with
    | none => .next s
    | some (l, i) =>
      let ps := (l.words[i]?).elim [] LoadWord.places
      if x.mayRead l ps then
        .next (s.overLinks (fun _ => readLinks c.die ps) (fun _ => s) fun s => (s.focusOn c).readWord l i)
      else .next s

/-- The k-th store of a context may be performed: nothing older on its bytes is outstanding (R268). -/
def Ctx.mayPerform (x : Ctx) (p : PendingStore) (k : Nat) : Bool :=
  ((List.range k).all fun i => match x.stores[i]? with
    | some o => !placesMeet o.places p.places
    | none => true) &&
  (x.loads.all fun l => p.seq ≤ l.seq || !placesMeet l.unread p.places) &&
  (x.sqLive.all fun r => p.seq ≤ r.seq || !placesMeet r.places p.places)

/-- R265, R267, R318, R434: a store is performed on its task's die, or a write becomes visible on another die. -/
def execWritePerformed (w : WriteStep) (s : State) : Out :=
  if !w.ok then .fault .noSuchAgent
  else match w with
    | .perform c k =>
      let x := s.ctxAt c
      match x.stores[k]? with
      | none => .next s
      | some p =>
        if x.mayPerform p k then
          .next (s.overLinks (fun _ => writeLinks c.die p.places) (fun _ => s) fun s =>
            let s := s.setCtxAt c { x with stores := x.stores.eraseIdx k }
            (s.noteLate c p.seq p.cells).performWrite (some c) (s.whoCtx c) p.seq c.die p.cells)
        else .next s
    | .reach id d =>
      match s.flight.find? fun f => f.id == id with
      | none => .next s
      | some f =>
        if s.mayReach f d then
          .next (s.overLinks (fun _ => [⟨f.seen.headD d, d, 0⟩]) (fun _ => s) fun s => s.reach id d)
        else .next s

end Sys2Proof.Machine
end

