-- ==== Sys2Proof/Machine/Issue.lean ====
section
/-! DEFINITION. How a core issues: the rotation of contexts (R355), the fetch of a bundle and what stops it whole (R24,
R25, R27, R31, R63, R362, R408), the interlocks of its groups (R49, R119), the merge of a secondary's slots (R356), the
delivery of asynchronous faults (R202, R382), and the passing of cycles (R401, R410 to R412, R421). -/

namespace Sys2Proof.Machine

/-- A meaning, as issue tries one: `exec` of Dispatch. -/
abbrev Run := Instr → State → Out

/-! Which context issues. -/

/-- A context becomes its core's primary; one that was not, or whose turn is over, starts a turn (R355). -/
def State.makePrimary (s : State) (k : Nat) : State :=
  if s.core.primary = k ∧ !s.core.turnOver then s
  else { s with core := { s.core with primary := k, turn := 0, dry := 0 } }

/-- The ordered adds of the context in focus that no arrival has claimed: its pending set (R295). -/
def State.pendingSet (s : State) : List OrderedAdd := s.ctx.ordSet.filter fun a => a.claim.isNone

/-- The pending set of the context in focus is closed: a batch of this task alone (R295). -/
def State.closeSet (s : State) : State :=
  if s.pendingSet.isEmpty then s
  else { s with
    ctx := { s.ctx with ordSet := s.ctx.ordSet.filter fun a => a.claim.isSome }
    die := { s.die with batches := s.die.batches ++ [⟨s.pendingSet, none, true, none⟩] } }

/-- A group that uses the register of a pending `amofadd.o` closes the pending set (Table 12-4): slots `k` to `last` of
the bundle in issue. -/
def State.closeForUse (s : State) (ws : Vector SlotWord 4) (k last : Nat) : State :=
  let regs := (s.pendingSet.filterMap OrderedAdd.xd).map RegId.x
  if [0, 1, 2, 3].any fun j => k ≤ j && j ≤ last && !s.idleSlot ws j &&
      meets regs (slotReads (slotInstrD ws j) (slotQual (bundleHeader ws) j) ++ slotWrites (slotInstrD ws j)) then s.closeSet
  else s

/-! A bundle is opened. -/

/-- Whether a bundle opens: it goes on, or the turn is over. -/
inductive Opening where
  | go (s : State)
  | shut (s : State)
  deriving DecidableEq, Repr

/-- The open bundle has issued no slot, and its first group waits under the interlocks (R49, R119): it counts as not yet
issued. -/
def State.unissued (s : State) : Bool :=
  let before := ((s.ctx.reissue.map Prod.fst).getD 0).toNat ||| s.nopMask
  s.ctx.status == .ready && s.ctx.done.toNat ||| before == before

/-- An asynchronous fault is delivered to the context in focus (R202, R382): between bundles, or at the slot that
waits. -/
def State.deliverAsync (s : State) : State :=
  match s.ctx.pend with
  | [] => s
  | f :: rest =>
    let s := { s with ctx := { s.ctx with pend := rest } }
    if s.ctx.ib.isNone || s.unissued then (s.endWait 2).refuseBundle f.cause f.addr f.info s.lowestLeft
    else s.stop f.cause f.addr f.info

/-- The context in focus has a fault to take (R382), and its bundle is not through but for its boundary (R69). -/
def State.asyncDue (s : State) : Bool := !s.ctx.pend.isEmpty && !s.ctx.inh && (s.ctx.ib.isNone || s.ctx.slot < 4)

/-- The bundle at pc ends the innermost active level, whose boundary alone it reaches first, and has no stop in slot 3
(R25, R69). -/
def State.endsUnstopped (s : State) (ws : Vector SlotWord 4) : Bool :=
  !wordStop ws[3] && match innermost s.ctx.lv with
    | none => false
    | some n => s.ctx.lv[n].stop == s.ctx.pc

/-- The charge of the slots of a bundle still to issue that are not suppressed, in 1/16 pJ (R406, R411). -/
def State.bundleCost (s : State) (ws : Vector SlotWord 4) (done : BitVec 4) : Nat :=
  (([0, 1, 2, 3].filter fun k => !done.getLsbD k && !suppressedAt s.ctx.q s.ctx.lv ws done.toNat k).map fun k =>
    let i := slotInfo (slotInstrD ws k)
    s.die.weights.getD i.cls 0 * i.amount).sum

/-- What a stamp says of the current cycle (R31, R362). -/
inductive StampTime where
  | early | now | late
  deriving DecidableEq, Repr

def State.stampTime (s : State) (n : Nat) : StampTime :=
  if s.ctx.frlen ≤ n then .late
  else if s.beforeEpoch then .early
  else if s.frcnt < n then .early
  else if s.frcnt = n then .now else .late

/-- A bundle that is legal, independent and fetched begins: its words, its done mask, the slot it starts at and its group
(R22, R383). -/
def State.begin_ (s : State) (ws : Vector SlotWord 4) (held : List TlbEntry) : State :=
  let s := (s.holdTlb s.foc.die held).opened ws
  match s.ctx.reissue.bind fun _ => s.ctx.saved with
  | none => { s with ctx := { s.ctx with slotEnd := .commit, loopStart := none } }
  | some g => { s with ctx := { s.ctx with
      slotEnd := .commit, loopStart := g.loopStart, grpR := g.reads, grpW := g.writes, defer := s.ctx.defer ++ g.dither } }

/-- The registers the running group used in earlier bundles, or before the trap that this re-issue follows (R23,
R383). -/
def State.group (s : State) : List RegId × List RegId :=
  match s.ctx.reissue.bind fun _ => s.ctx.saved with
  | some g => (g.reads, g.writes)
  | none => (s.ctx.grpR, s.ctx.grpW)

/-- A bundle without the slots below one: those of a re-issued bundle that its group has left behind (R383). -/
def wordsFrom (ws : Vector SlotWord 4) (k : Nat) : Vector SlotWord 4 :=
  Vector.ofFn fun j : Fin 4 => if j.val < k then 0 else ws[j]

/-- What refuses a fetched bundle as a whole, if anything does: illegality (R27), a dependence (R24), a missing stop at
a loop's end (R25). -/
def State.wholeFault (s : State) (ws : Vector SlotWord 4) (done : BitVec 4) : Option State :=
  let bad := illegalSlots ws done s.stamps
  let dep := dependentSlots (wordsFrom ws s.firstSlot) done s.group.1 s.group.2
  let t := s.opened ws
  if bad ≠ [] then some (t.refuseBundle causeIllegal 0 (word (slotMask bad)) (lowestSlot bad))
  else if dep ≠ [] then some (t.refuseBundle causeDependence 0 0 (lowestSlot dep))
  else if s.endsUnstopped ws then some (t.refuseBundle causeLoopShape 0 0 3)
  else none

/-- The stamp and the governor let a bundle go on, hold it, or trap (R31, R362, R406, R408). -/
def State.admitBundle (s : State) (ws : Vector SlotWord 4) (done : BitVec 4) : Opening :=
  let cost := s.bundleCost ws done
  let t := s.opened ws
  let ramp : Opening :=
    if s.isPinned then
      (if s.excessTwice cost = 0 then .go s
       else .shut (t.countViolation.refuseBundle causeRamp 0 (s.rampInfo cost) s.lowestLeft))
    else match s.admitFree ⟨0, s.foc⟩ cost with
      | .go s => .go s
      | .later | .ramp _ => .shut s
      | .wait s => .shut (s.startWait .tick)
  match s.stampOf ws with
  | none => ramp
  | some n => match s.stampTime n with
    | .early => .shut (s.startWait (.stamp n))
    | .late => .shut (t.refuseBundle causeOverrun 0 0 s.lowestLeft)
    | .now => ramp

/-- Opens the bundle at pc for the context in focus. -/
def State.openBundle (s : State) : Opening :=
  if s.asyncDue then .shut s.deliverAsync
  else match s.fetch with
    | .error f => .shut (s.refuseBundle f.cause f.addr f.info s.lowestLeft)
    | .ok (ws, held) =>
      let done := (s.ctx.reissue.map Prod.fst).getD 0
      match s.wholeFault ws done with
      | some t => .shut t
      | none => match s.admitBundle ws done with
        | .shut t => .shut t
        | .go s => .go (State.skipSlots ws 4 (s.begin_ ws held))

/-! The groups of a bundle issue as a whole. -/

/-- What a trial of the slots of a group shows: they issue, or one of them is held, in a wait of R354 or ready. -/
inductive Trial where
  | fits
  | held (w : Option Wait)
  deriving DecidableEq, Repr

/-- Tries the slots up to `last`, one after another, on a state that is then forgotten: none of them is held at issue
(R49, R119, R355). -/
def trial (run : Run) (ws : Vector SlotWord 4) (last : Nat) : Nat → State → Trial
  | 0, _ => .fits
  | n + 1, s =>
    let s := State.skipSlots ws 4 s
    let k := s.ctx.slot
    if last < k then .fits
    else if (s.breakAt k).isSome then .fits
    else if s.slotBusy ws k then .held none
    else match run (slotInstrD ws k) { s with ctx := { s.ctx with slotEnd := .commit } } with
      | .next t => match t.ctx.slotEnd with
        | .hold => .held (match t.ctx.status with
          | .waiting w => some w
          | _ => none)
        | .commit => trial run ws last n (t.leaveSlot ws k)
        | _ => .fits
      | _ => .fits

/-- What a turn does next: a slot of the context in focus, an operation of an agent, or nothing more. -/
inductive Picked where
  | slot (i : Instr) (s : State)
  | event (i : Instr) (s : State)
  | spent (s : State)
  deriving DecidableEq, Repr

/-- The turn of the context in focus is over. -/
def State.rest (s : State) : State := { s with going := false }

/-- The open bundle has committed no slot that does anything (R362): those passed are done by an earlier issue, empty or
suppressed. -/
def State.untouched (s : State) (ws : Vector SlotWord 4) : Bool :=
  [0, 1, 2, 3].all fun k =>
    s.ctx.slot ≤ k || ((s.ctx.reissue.map Prod.fst).getD 0).getLsbD k || slotInstrD ws k == .nop ||
      !qualHolds s.ctx.q s.ctx.lv (slotQual (bundleHeader ws) k)

/-- The slot's wait at issue is over: a `launch` has still to wait for CHECK, in the same wait (Table 17-5, kind 13). -/
def State.slotWaited (s : State) : State :=
  match s.ctx.owed.map OwedWait.wait with
  | some (.launch _) => s
  | _ => s.payWait

/-- Slot k of the context in focus runs in this cycle: it takes its unit and lanes (R356), and its group begins. -/
def State.take_ (s : State) (k : Nat) (i : Instr) : State :=
  let s := s.slotWaited.startGroup
  { s with
    ctx := { s.ctx with slotEnd := .commit }
    core := { s.core with used := s.core.used ++ [(k, i, (slotInfo i).lanes)] } }

/-- The open bundle of the context in focus goes on at its slot: its group issues as a whole or is held, a breakpoint
stops it, or its last slots hold nothing and the bundle ends. -/
def State.goOn (s : State) (run : Run) : Picked :=
  match s.ctx.ib with
  | none => .spent s.rest
  | some ws =>
    let s := State.skipSlots ws 4 s
    let k := s.ctx.slot
    if 4 ≤ k then (if s.strideBusy then .spent s.rest else .slot .nop s)
    else match s.breakAt k with
      | some b => .spent (s.stop causeWatch s.ctx.pc (word b)).rest
      | none =>
        let s := s.closeForUse ws k (groupEnd ws k)
        let held := match trial run ws (groupEnd ws k) 4 s with
          | .held w => some w
          | .fits => if groupEnd ws k = 3 ∧ s.ctx.gstart.isNone ∧ s.strideBusy then some none else none
        match held with
        | some w =>
          if (s.stampOf ws).isSome && s.untouched ws then .spent (s.refuseBundle causeOverrun 0 0 s.lowestLeft).rest
          else .spent (w.elim s s.startWait).rest
        | none =>
          let i := slotInstrD ws k
          let s := s.take_ k i
          .slot i { s with core := { s.core with out := true } }

/-- The static charge of the running cycle goes to its primary (R412). -/
def State.chargeStatic (s : State) : State :=
  let e := s.die.estat
  { s with
    ctx := { s.ctx with echg := s.ctx.echg + e }
    core := { s.core with issued := true, paid := s.core.paid + e, eidleMark := s.core.eidleMark + e } }

/-- A core issues: its primary opens its next bundle or goes on with the one it holds, once in a cycle (R355). -/
def State.issue (s : State) (run : Run) (p : CoreId) : Picked :=
  match s.primaryOf p with
  | none => .spent s
  | some k =>
    if (s.coreAt p).issued then .spent s
    else
      let s := ((s.focusOn (p.ctxId k)).makePrimary k).chargeStatic
      match s.ctx.ib with
      | some _ => State.goOn { s with going := true } run
      | none => match s.openBundle with
        | .shut t => .spent t.rest
        | .go t => State.goOn { t with going := true } run

/-- After a slot of the primary: it commits, and the bundle goes on in the same cycle unless it is through. -/
def State.finish (s : State) : State :=
  match s.ctx.slotEnd with
  | .commit =>
    let t := s.commitSlot
    if t.ctx.ib.isSome then { t with going := true } else t.rest
  | _ => s.rest

/-! Merging. -/

/-- A unit of major BR or SY stands in the bundle, or a stamp: it merges nothing (R356). -/
def neverMerges (ws : Vector SlotWord 4) : Bool :=
  (bundleStamp ws).isSome ||
    [0, 1, 2, 3].any fun k => match (slotInfo (slotInstrD ws k)).unit with
      | some .br => true
      | some .sy => true
      | _ => false

/-- The units and lane groups beside the slots issued in this cycle leave room for a slot (R356). -/
def Core.room (c : Core) (k : Nat) (i : Instr) : Bool :=
  let info := slotInfo i
  c.used.all (fun e => e.1 != k) &&
    (match info.unit with
      | none => true
      | some u => (c.used.filter fun e => (slotInfo e.2.1).unit == some u).length < u.count) &&
    (c.used.map fun e => e.2.2).sum + info.lanes ≤ 8

/-- The bundle of the context in focus as a secondary's (R356): the one it has open, or the one at pc if it is fetched,
legal and independent, with its words, and whether it still has to be admitted. -/
def State.mergeable (s : State) : Option (Vector SlotWord 4 × State × Bool) :=
  match s.ctx.ib with
  | some ws => if neverMerges ws then none else some (ws, State.skipSlots ws 4 s, false)
  | none => match s.fetch with
    | .error _ => none
    | .ok (ws, held) =>
      if (s.wholeFault ws ((s.ctx.reissue.map Prod.fst).getD 0)).isSome || neverMerges ws then none
      else some (ws, State.skipSlots ws 4 (s.begin_ ws held), true)

/-- Slot k of the secondary of a core merges into the issue of this cycle, after the primary's slots (R356): the next
slot of its bundle in program order, with room beside the slots issued, its group not held (R49), and its bundle
admitted by the governor (R406). -/
def State.merge (s : State) (run : Run) (p : CoreId) (k : Nat) : Picked :=
  match s.secondaryOf p with
  | none => .spent s
  | some c =>
    let t := s.focusOn (p.ctxId c)
    if t.isPinned || t.asyncDue || !t.core.issued then .spent s
    else match t.mergeable with
      | none => .spent s
      | some (ws, u, new) =>
        let i := slotInstrD ws k
        if u.ctx.slot != k || 4 ≤ k || !u.core.room k i then .spent s
        else
          let u := u.closeForUse ws k (groupEnd ws k)
          let held := (u.breakAt k).isNone && match trial run ws (groupEnd ws k) 4 u with
            | .held _ => true
            | .fits => groupEnd ws k == 3 && u.ctx.gstart.isNone && u.strideBusy
          if held then .spent s
          else match (if new then u.admitFree ⟨0, u.foc⟩ (t.bundleCost ws ((t.ctx.reissue.map Prod.fst).getD 0)) else .go u) with
            | .later | .ramp _ => .spent s
            | .wait v =>
              let d := { t.die with throttled := true, heldOld := v.die.heldOld, heldNew := v.die.heldNew }
              .spent (State.startWait { t with die := d } .tick)
            | .go v => match v.breakAt k with
              | some b => .spent (v.stop causeWatch v.ctx.pc (word b))
              | none =>
                let v := v.take_ k i
                .slot i { v with
                  going := false
                  core := { v.core with tally := { v.core.tally with omrg := v.core.tally.omrg + 1 } } }

/-- After a merged slot: a bundle that is through lets nothing more merge in this cycle (R355, step 5). -/
def State.finishMerged (s : State) : State :=
  let t := s.finish.rest
  if t.ctx.ib.isSome then t
  else { t with core := { t.core with used := t.core.used ++ [0, 1, 2, 3].map fun k => (k, .nop, 0) } }

/-! Cycles pass. -/

/-- eidle of a core (R410, R412). -/
def State.eidleOf (s : State) (x : Die) (c : Core) : Nat :=
  min (c.eidle + (s.staticTotal x - c.eidleMark).toNat) (2 ^ 48 - 1)

/-- The context that is primary in this cycle (R355): the one that had its turn, or else the one that would. -/
def State.cyclePrimary (s : State) (p : CoreId) : Option Nat :=
  if (s.coreAt p).issued then some (s.coreAt p).primary else s.primaryOf p

/-- A core's counters as a controller wrote them in a cycle (R410, R421). -/
def Core.written (c : Core) (t : Int) (cycle : Nat) : Core :=
  { c.late.foldl (fun c e => c.putCounter t cycle e.1 e.2) c with late := [] }

/-- A core's counters with the events of a cycle (R421). -/
def Core.counted (c : Core) : Core :=
  { c with
    obnd := c.obnd + word c.tally.obnd, omrg := c.omrg + word c.tally.omrg, ospl := c.ospl + word c.tally.ospl
    otrm := c.otrm + word c.tally.otrm, oskr := c.oskr + word c.tally.oskr, otag := c.otag + word c.tally.otag
    tally := ⟨0, 0, 0, 0, 0, 0⟩ }

/-- One core's part of `n` cycles: the static charge of the cycles after one already charged goes to the context that is
primary, or else to no context; a ready primary that issued nothing comes nearer the end of its turn; waits at issue
and passes are counted; and the issue slots are free again (R355, R407, R412, R421). -/
def State.coreCycles (s : State) (n : Nat) (p : CoreId) : State :=
  let x := s.dieAt p.die
  let c := (s.coreAt p).written (s.staticTotal x) s.cycle
  let ws := [0, 1, 2, 3].map fun k => (s.ctxAt (p.ctxId k)).status
  let full := ws.any fun w => match w with
    | .waiting (.queueFull _) => true
    | _ => false
  let ring := (c.mq.any fun e => (c.lacks e).isSome) || (ws.any fun w => match w with
    | .waiting (.ringTail _) => true
    | _ => false) || s.producerWaits p
  let e := x.estat
  let rest := if c.issued then n - 1 else n
  let heir := if rest = 0 then none else s.primaryOf p
  let c1 : Core := { c.counted with
    used := [], issued := false, out := false, own := [], paid := 0
    dry := if s.isReady p c.primary then (if c.out then rest else c.dry + n) else c.dry
    eidleMark := c.eidleMark + ((if c.issued then (e : Int) - c.paid else 0) + if heir.isSome then rest * e else 0)
    arrBusy := if c.arrayIdle then c.arrBusy else c.arrBusy + n
    oqst := if full then c.oqst + word n else c.oqst
    othr := if ws.contains (.waiting .tick) || c.held then c.othr + word n else c.othr
    orst := if ring then c.orst + word n else c.orst }
  let s := s.setCoreAt p c1
  match heir with
  | none => s
  | some k =>
    let x := s.ctxAt (p.ctxId k)
    s.setCtxAt (p.ctxId k) { x with echg := x.echg + rest * e }

/-- Cycles after which `n` cycles by a die's time cannot yet have passed, at least one: its rate is at most 200 ppm off
(R359). -/
def shortOf (n : Nat) : Nat := max 1 (n - 1 - n / 4096)

/-- Cycles until the stamp, or the EPOCH, that a waiting context waits for, at least one (R361, R362). -/
def Ctx.toStamp (x : Ctx) (now : Word) : Option Nat :=
  match x.status with
  | .waiting (.stamp n) =>
    let d := (now - x.epoch).toNat
    if d < 2 ^ 63 then
      let c := d * 19 / 655360
      some (shortOf (n - c % x.frlen))
    else some (shortOf ((2 ^ 64 - d) * 19 / 655360 + n))
  | .waiting .epoch => some (shortOf ((2 ^ 64 - (now - x.epoch).toNat) * 19 / 655360))
  | _ => none

/-! Samples (R423). -/

/-- Cycles of a core's sample interval (Table 17-2), counted from power-on; 0 when it takes none. -/
def Core.sampleSpan (c : Core) : Nat := if c.otctl.getLsbD 1 then (wordBits c.otctl 31 8 + 1) * 64 else 0

/-- A core is in the last cycle of its sample interval and has a sample to take. -/
def State.sampleDue (s : State) (p : CoreId) : Bool :=
  let c := s.coreAt p
  c.sampleSpan != 0 && (s.cycle + 1) % c.sampleSpan == 0 && c.sampleAt ≤ s.cycle && (s.cyclePrimary p).isSome

/-- A core's sample: the primary, its bundle and its done mask as they stand, the lowest slot it committed in the cycle or
the lowest it has still to do. -/
def State.sample (s : State) (p : CoreId) : State :=
  match s.cyclePrimary p with
  | none => s
  | some k =>
    let t := s.focusOn (p.ctxId k)
    let own := t.core.issued && !t.core.own.isEmpty
    let done := if t.ctx.ib.isSome then t.ctx.done.toNat else (t.ctx.reissue.map fun r => r.1.toNat).getD 0
    let slot := [0, 1, 2, 3].find? fun j => if own then t.core.own.contains j else !done.testBit j
    let t := t.trace 2 (slot.getD 0) (done + if own then 0 else 16) t.ctx.pc 0
    State.focusOn { t with core := { t.core with sampleAt := t.cycle + 1 } } s.foc

/-- Cycles until a core takes its next sample, at least one. -/
def State.toSample (s : State) (p : CoreId) : Option Nat :=
  let n := (s.coreAt p).sampleSpan
  if n = 0 then none
  else
    let r := n - 1 - s.cycle % n
    some (if r = 0 then n else r)

/-- How many of `n` cycles may pass at once: none beyond the end of a tick (R401), a sample's cycle (R423) or the cycle
of a stamp that a context waits for (R362). -/
def State.stride (s : State) (n : Nat) : Nat :=
  let m := min n (64 - s.cycle % 64)
  let m := s.knownCores.foldl (fun m p => match s.toSample p with
    | some k => min m k
    | none => m) m
  s.knownCtxs.foldl (fun m c => match (s.ctxAt c).toStamp (s.dtimeOf (s.dieAt c.die)) with
    | some k => min m k
    | none => m) m

/-- The weights set in a cycle hold from the next (R417). -/
def Die.weighed (x : Die) : Die :=
  { x with weights := x.reweigh.foldl (fun (w : Vector Nat 16) (e : Fin 16 × Nat) => w.set e.1 e.2) x.weights, reweigh := [] }

/-- `gslot` (Table 16-2) of a die. -/
def State.gslotOf (s : State) (d : Nat) : Word :=
  word ((s.pkgOf d).pool / 194560 % 2 ^ 32 + (s.dieAt d).liveGrants / 194560 % 2 ^ 32 * 2 ^ 32)

/-- `gstat` (Table 16-4) of a die. -/
def State.gstatOf (s : State) (d : Nat) : Word :=
  let x := s.dieAt d
  word (x.fmiss.toNat + x.pmx.toNat * 2 + x.balt % 65536 * 2 ^ 16 + x.thrt % 65536 * 2 ^ 32 + (s.pkgOf d).viol % 65536 * 2 ^ 48)

/-- The governor's registers as a cycle finds them (R416). -/
def State.markGovernor (s : State) : State :=
  let mark (d : Nat) (x : Die) : Die := { x with gov0 := some (s.gslotOf d, s.gstatOf d, x.estat) }
  { s with die := mark s.foc.die s.die, dies := s.dies.map fun e => (e.1, mark e.1 e.2) }

/-- Cycles pass, up to the next tick or stamp; the rest of them stays first on the agenda (R1, R401). The charges of the
cycles are added at their end (R410). -/
def State.passCycles (s : State) (n : Nat) : State :=
  let s := s.knownCores.foldl (fun s p => if s.sampleDue p then s.sample p else s) s
  let m := s.stride n
  let s := s.knownCores.foldl (fun s p => s.coreCycles m p) s
  let s := { s with
    ctx := s.ctx.charged, ctxs := s.ctxs.map fun (e : CtxId × Ctx) => (e.1, e.2.charged)
    die := s.die.weighed, dies := s.dies.map fun (e : Nat × Die) => (e.1, e.2.weighed)
    cycle := s.cycle + m, agenda := if m < n then .idle (n - m) :: s.agenda else s.agenda }
  s.markGovernor

/-- An entry of a die's translation buffers is lost (R99). -/
def State.dropEntry (s : State) (d k : Nat) : State :=
  let x := s.dieAt d
  s.setDieAt d { x with tlb := x.tlb.eraseIdx k }

/-! The steps of issue that have a row of their own. -/

/-- R355: the primary's turn is over, or it is not ready, and the next ready context becomes primary. -/
def execIssueTurnEnd (c : CtxId) (s : State) : Out :=
  if !c.ok then .fault .noSuchAgent
  else
    let k := (s.coreAt c.coreId).primary
    if k = c.ctx ∧ ((s.coreAt c.coreId).turnOver ∨ !s.isReady c.coreId k) then
      match (rotation k).find? (s.isReady c.coreId) with
      | some j =>
        let x := s.coreAt c.coreId
        .next (s.setCoreAt c.coreId { x with primary := j, turn := 0, dry := 0 })
      | none => .next s
    else .next s

/-- A context that waits for a stamp reaches its cycle or finds it past, and its core issues the bundle before anything
else (R362). -/
def State.stampIssue (s : State) (c : CtxId) : State :=
  match (s.ctxAt c).status with
  | .waiting (.stamp n) =>
    let t := s.focusOn c
    if t.stampTime n = .early then s
    else
      let t := { t with ctx := { t.ctx with setter := t.whoDie 7 c.die } }
      { t.endWait 0 with agenda := .issue c.coreId :: t.agenda }
  | _ => s

/-- R362. -/
def execStampedBundleIssue (c : CtxId) (s : State) : Out := if !c.ok then .fault .noSuchAgent else .next (s.stampIssue c)

/-- A context takes the oldest fault found for it, at the slot of its wait or before its next bundle (R202, R382). -/
def State.takeAsync (s : State) (c : CtxId) : State :=
  let t := s.focusOn c
  let free : Bool := match t.ctx.status with
    | .waiting _ | .ready => true
    | _ => false
  if t.asyncDue && free then t.deliverAsync else s

/-- R202, R382. -/
def execAsyncFaultDelivery (c : CtxId) (s : State) : Out := if !c.ok then .fault .noSuchAgent else .next (s.takeAsync c)

end Sys2Proof.Machine
end

