-- ==== Sys2Proof/Machine/Matrix.lean ====
section
/-! DEFINITION. Matrix instructions, majors 0x20 to 0x22 (R199, R205 to R215), and the steps of the matrix queue: staging,
passes, commits, retirement, and the entries that reach an accumulator tile (R194 to R203, R209 to R211). -/

namespace Sys2Proof.Machine

/-! Rights. -/

/-- The core in focus has an array, an accumulator store and a post-processing engine: the granger's has none (R11). -/
def State.hasArray (s : State) : Bool := s.foc.core != 96

/-- The task in focus may name a ring (R38); on the granger's core none is assigned (R11). -/
def State.mayRing (s : State) (r : Fin 16) : Bool :=
  s.hasArray && s.ctx.task.any fun t => t.rmask / 2 ^ r.val % 2 == 1

/-- The task in focus may name tiles (R38); on the granger's core none is assigned (R11). -/
def State.mayTiles (s : State) (ts : List Nat) : Bool :=
  s.hasArray && s.ctx.task.any fun t => ts.all fun k => t.amask / 2 ^ k % 2 == 1

/-! Entering the queue. -/

/-- The running slot waits for room in a queue (R194, R223, R354). -/
def State.waitRoom (s : State) (q : Nat) : State := s.holdFor (.queueFull q)

/-- The matrix queue is full (R194). -/
def State.mqFull (s : State) : Bool := 8 ≤ s.core.mq.length

/-- An entry enters the matrix queue (R194). -/
def State.enterMq (s : State) (op : MqOp) : State :=
  let n := s.openOp 5
  let s := n.2
  let e : MqEntry :=
    { who := s.foc, ord := s.core.ord, op := op, bundle := s.ctx.pc, slot := s.ctx.slot, opn := n.1, seq := s.ctx.seq
      since := s.cycle, staged := none, fetched := [], starts := [], bread := none, aread := none, committed := 0, fault := none, cancelled := false
      after := s.joinsOf 5 }
  { s with core := { s.core with mq := s.core.mq ++ [e], ord := s.core.ord + 1 } }

/-- RING-CONFIG of an operation under a word (R199, 2). -/
def State.mulRings (s : State) (w : Word) (np : Nat) (ra rb : Fin 16) : Bool :=
  let a := s.core.rings[ra]
  let b := s.core.rings[rb]
  a.nslot != 0 && b.nslot != 0 && a.role == 0 && b.role == 1 && np ≤ a.nslot &&
    1024 * (pcwAFmt w).bits ≤ a.slotSize && 8192 * (pcwBFmt w).bits ≤ b.slotSize

/-- The issue of `mma` and `mmz` (R199, R206). -/
def issueMul (zero : Bool) (acc cnt ra rb : Fin 16) (wp : Fin 8) (keep : Bool) (s : State) : Out :=
  if s.mqFull then .next (s.waitRoom 5)
  else if !s.accessReady true then .next s.holdReady
  else
    let n := cnt.val + 1
    let w := s.getW wp
    let np := if pcwAccf w = 1 then n / 2 else n
    if !(s.mayRing ra && s.mayRing rb && s.mayTiles ((List.range n).map (acc.val + ·))) then .next (s.accessTrap 0)
    else if !s.mulRings w np ra rb then .next (s.stop causeRingConfig 0 0)
    else if pcwAccf w = 1 ∧ (acc.val % 2 = 1 ∨ n % 2 = 1) then .next (s.stop causePcwInvalid 0 0)
    else
      let a := s.core.rings[ra]
      let s := s.setRing ra { a with claim := add32 a.claim np }
      let b := s.core.rings[rb]
      let s := if keep then s else s.setRing rb { b with claim := add32 b.claim 1 }
      .next (s.enterMq (.mul
        { zero := zero, acc := acc.val, np := np, ra := ra, rb := rb, pa := a.claim, pb := b.claim, keep := keep
          pcw := w, cba := s.ctx.cb.getD (pcwAcb w) 0, cbb := s.ctx.cb.getD (pcwBcb w) 0, tsa := a.tscale
          tsb := b.tscale }))

/-- R206. -/
def execMma (acc cnt ra rb : Fin 16) (wp : Fin 8) (keep : Bool) (s : State) : Out := issueMul false acc cnt ra rb wp keep s

/-- R206. -/
def execMmz (acc cnt ra rb : Fin 16) (wp : Fin 8) (keep : Bool) (s : State) : Out := issueMul true acc cnt ra rb wp keep s

/-- A precision control word is written, or refused (R170, R208). -/
def State.writePcw (s : State) (wd : Fin 8) (v : Word) : State :=
  if pcwValid v then s.pendW wd v else s.stop causePcwInvalid 0 0

/-- R208. -/
def execPcw (wd : Fin 8) (xa : XReg) (s : State) : Out := .next (s.writePcw wd (s.getX xa))

/-- R208: the old word is read as a matrix operation reads it. -/
def execPcwr (wd ws : Fin 8) (xa : XReg) (fld : Fin 16) (s : State) : Out :=
  let f := pcwField fld.val
  .next (s.writePcw wd (word (putBits (s.getW ws).toNat (f.1 + f.2 - 1) f.1 (s.getX xa).toNat)))

/-- R209. -/
def execAccz (acc cnt tag : Fin 16) (s : State) : Out :=
  let n := cnt.val + 1
  if s.mqFull then .next (s.waitRoom 5)
  else if !s.accessReady true then .next s.holdReady
  else if !s.mayTiles ((List.range n).map (acc.val + ·)) then .next (s.accessTrap 0)
  else .next (s.enterMq (.zero acc.val n (BitVec.ofNat 3 tag.val)))

/-- R210. -/
def execAccrd (vd : VReg) (tile : Fin 16) (xa : XReg) (imm : Fin 128) (s : State) : Out :=
  let j := (s.getX xa).toNat + imm.val
  if s.mqFull then .next (s.waitRoom 5)
  else if !s.accessReady true then .next s.holdReady
  else if !s.mayTiles [tile.val] || 255 < j then .next (s.accessTrap 0)
  else .next (s.enterMq (.read vd tile j))

/-- R211. -/
def execAccwr (tile : Fin 16) (va : VReg) (xa : XReg) (imm : Fin 128) (s : State) : Out :=
  let j := (s.getX xa).toNat + imm.val
  if s.mqFull then .next (s.waitRoom 5)
  else if !s.accessReady true then .next s.holdReady
  else if !s.mayTiles [tile.val] || 255 < j then .next (s.accessTrap 0)
  else .next (s.enterMq (.write tile (s.getV va) (s.getTag va) j))

/-- An entry of the context in focus is covered by the mask of an `mwait` (R212). -/
def State.covers (s : State) (mask : Nat) (e : MqEntry) : Bool :=
  e.who == s.foc && (mask == 0 || e.op.tiles.any fun t => mask / 2 ^ t % 2 == 1)

/-- The tiles that bits of MASK name (R212). -/
def maskTiles (mask : Nat) : List Nat := (List.range 16).filter fun k => mask / 2 ^ k % 2 == 1

/-- R212: a tile that MASK names is named by the instruction (R38). -/
def execMwait (mask : Fin 65536) (s : State) : Out :=
  if mask ≠ 0 ∧ !s.mayTiles (maskTiles mask.val) then .next (s.accessTrap 0)
  else .next (if s.core.mq.any (s.covers mask.val) then s.waitFor (.matrix mask.val) else s)

/-- R213. -/
def execRset (ring : Fin 16) (xa xb : XReg) (s : State) : Out :=
  let cfg := s.getX xa
  let side := s.getX xb
  if !s.mayRing ring then .next (s.accessTrap 0)
  else if !ringWordOk cfg side || s.core.ringBusy ring then .next (s.stop causeRingConfig 0 0)
  else .next { s with ctx := { s.ctx with defer := s.ctx.defer ++ [.ring ring cfg side] } }

/-- What `rget` selects (Table 8-8), selectors 0 to 5. -/
def Ring.field (r : Ring) (sel : Nat) : Word :=
  if r.nslot = 0 then 0
  else match sel with
    | 0 => r.cfg
    | 1 => r.side
    | 2 => word r.head
    | 3 => word r.tail
    | 4 => word r.resv
    | _ => word r.claim

/-- The crib offset that `rget.haddr` or `rget.taddr` gives, once there is one (Table 8-8). -/
def Ring.addr (r : Ring) (sel : Nat) : Option Word :=
  if sel = 6 then (if 1 ≤ r.occ then some (word (r.slotOff r.head)) else none)
  else if 1 ≤ r.free then some (word (r.slotOff r.tail)) else none

/-- R214. -/
def execRget (sel : Imm 128) (xd : XReg) (ring : Fin 16) (s : State) : Out :=
  let k := sel.uval
  let r := s.core.rings[ring]
  if !s.mayRing ring then .next (s.accessTrap 0)
  else if k < 6 then .next (s.setX xd (r.field k))
  else if r.nslot = 0 then .next (s.stop causeRingConfig 0 0)
  else match r.addr k with
    | some a => .next (s.setX xd a)
    | none => .next (s.waitFor (if k = 6 then .ringHead ring else .ringTail ring))

/-- R215: held until every earlier store to the crib and the side bank is performed. -/
def execRpush (ring : Fin 16) (k : Imm 128) (s : State) : Out :=
  let r := s.core.rings[ring]
  if !s.mayRing ring then .next (s.accessTrap 0)
  else if s.ctx.stores.any fun p => p.places.any fun a => placeLevel a == 0 then .next s.holdReady
  else if r.resv ≠ 0 ∨ r.nslot < r.occ + k.uval then .next (s.stop causeRingConfig 0 0)
  else .next (s.tailMoves ring k.uval s.self)

/-- R215: held until every earlier load has read its value. -/
def execRpop (ring : Fin 16) (k : Imm 128) (s : State) : Out :=
  let r := s.core.rings[ring]
  if !s.mayRing ring then .next (s.accessTrap 0)
  else if s.ctx.loads ≠ [] then .next s.holdReady
  else if r.occ < k.uval ∨ s.core.ringBusy ring then .next (s.stop causeRingConfig 0 0)
  else .next (s.headMoves ring k.uval s.self)

/-! Faults of entries (R202, R203). -/

/-- tinfo of a fault of an mq or ppq entry (Table 8-4). -/
def entryInfo (slot queue : Nat) (f : EntryFault) : Word :=
  word (f.doneMask + f.pass * 2 ^ 16 + f.sheaf * 2 ^ 24 + (if f.btile then 2 ^ 32 else 0) + queue * 2 ^ 47 + slot * 2 ^ 50)

/-- A mask of tile numbers. -/
def tileMask (ts : List Nat) : Nat := (List.range 16).foldl (fun m k => if ts.contains k then m + 2 ^ k else m) 0

/-- An entry of the matrix queue of the context in focus stops in a pass with a fault (R202). `addr` is that of a poisoned
word, none for another cause. -/
def State.faultPass (s : State) (e : MqEntry) (cause : Nat) (addr : Option Word) (btile : Bool) (sheaf pass : Nat) : State :=
  let f : EntryFault :=
    { cause := cause, addr := addr.getD e.bundle, btile := btile, sheaf := sheaf, pass := pass
      doneMask := tileMask (e.op.tilesTo e.committed) }
  (s.setMq { e with fault := some f, bread := none, aread := none }).postFault e.who ⟨cause, f.addr, entryInfo e.slot 5 f⟩

/-- An entry stops with a fault found before its next pass has started (R200). -/
def State.faultMq (s : State) (e : MqEntry) (cause : Nat) (addr : Option Word) (btile : Bool) (sheaf : Nat) : State :=
  s.faultPass e cause addr btile sheaf e.fetched.length

/-! Staging and passes. -/

/-- The places of a tile and its records in a core's crib and side bank. -/
structure TileSpan where
  off : Nat
  size : Nat
  recs : Nat
  count : Nat
  deriving DecidableEq, Repr

/-- A place lies in a tile or its records. -/
def TileSpan.has (t : TileSpan) (p : CoreId) (a : Nat) : Bool :=
  within (cribPlace p t.off) t.size a || within (sidePlace p (16 * t.recs)) (16 * t.count) a

/-- The span of the tile at a position of a ring, of b-bit elements (R189). -/
def Ring.span (r : Ring) (pos b : Nat) : TileSpan :=
  ⟨r.slotOff pos, (if r.role = 1 then 8192 else 1024) * b, r.recBase pos, roleRecords r.role⟩

/-- The place of a word among what is read of a tile: its 8-byte crib words, then its records (R187). -/
def TileSpan.unitOf (t : TileSpan) (p : CoreId) (a : Nat) : Option Nat :=
  if within (cribPlace p t.off) t.size a then some ((a - cribPlace p t.off) / 8)
  else if within (sidePlace p (16 * t.recs)) (16 * t.count) a then
    some (t.size / 8 + (a - sidePlace p (16 * t.recs)) / 16)
  else none

/-- The value now of a word or record of a tile, by its place. -/
def State.unitValue (s : State) (p : CoreId) (t : TileSpan) (k : Nat) : Nat :=
  if 8 * k < t.size then leNat (s.cribBytes p (t.off + 8 * k) 8) else s.recordAt p (t.recs + (k - t.size / 8))

/-- A tile with one of its words or records as read before. -/
def FetchedTile.put (f : FetchedTile) (t : TileSpan) (e : Nat × Nat) : FetchedTile :=
  if 8 * e.1 < t.size then { f with bytes := f.bytes.take (8 * e.1) ++ leBytes 8 e.2 ++ f.bytes.drop (8 * e.1 + 8) }
  else { f with records := f.records.set (e.1 - t.size / 8) e.2 }

/-- A tile as the operand fetcher reads it in one step (R187). -/
def State.fetchTile (s : State) (p : CoreId) (t : TileSpan) : FetchedTile :=
  ⟨s.cribBytes p t.off t.size, (List.range t.count).map fun k => s.recordAt p (t.recs + k)⟩

/-- The first poisoned word of a tile or its records, by its address (R391). -/
def State.tilePoison (s : State) (p : CoreId) (t : TileSpan) : Option Word :=
  match s.poisonIn (cribPlace p t.off) t.size with
  | some a => some (ownAddr p a)
  | none => (s.poisonIn (sidePlace p (16 * t.recs)) (16 * t.count)).map (ownAddr p)

/-- How the reading of a tile goes on: a poisoned word by its address, words still to read, or the whole tile. -/
inductive TileStep where
  | poisoned (a : Word)
  | more (r : TileRead)
  | whole (t : FetchedTile)
  deriving DecidableEq, Repr

/-- One step of reading a tile: each word and record is read once, in a step that the spec leaves open, and the last step
reads all that is left (R187, R391); `n` numbers the step. -/
def State.readTile (s : State) (p : CoreId) (t : TileSpan) (r : TileRead) (n : Nat) : TileStep :=
  let now (k : Nat) : Bool := (r.left == 0 || Config.readNow n k) && !(r.got.any fun e => e.1 == k)
  match s.poison.find? fun a => (t.unitOf p a).any now with
  | some a => .poisoned (ownAddr p a)
  | none =>
    if r.left = 0 then .whole (r.got.foldl (fun f e => f.put t e) (s.fetchTile p t))
    else .more { got := r.got ++ ((List.range (t.size / 8 + t.count)).filter now).map fun k => (k, s.unitValue p t k)
                 left := r.left - 1 }

/-- The first failing record of a tile and its cause (R200): each record's sequence tag, then its domain. -/
def checkRecords (recs : List Nat) (pos : Nat) (domOk : Nat → Nat → Bool) : Option (Nat × Nat) :=
  recs.zipIdx.findSome? fun e =>
    if recSeq e.1 ≠ seqTag pos e.2 then some (causeScaleSkew, e.2)
    else if !domOk e.2 e.1 then some (causeDomain, e.2) else none

/-- Joins that an operation waits for are over (R284): none of the named operations of its context is outstanding. -/
def State.joined (s : State) (c : CtxId) (after : List (Nat × Nat)) : Bool :=
  after.all fun a =>
    let k := s.coreAt c.coreId
    let x := s.ctxAt c
    match a.1 with
    | 4 => k.ppq.all fun e => !(e.who == c && e.opn == a.2)
    | 5 => k.mq.all fun e => !(e.who == c && e.opn == a.2)
    | 6 => (x.sq.all fun r => r.opn != a.2) && (s.openAdds c).all fun r => r.opn != a.2
    | 7 => x.xiq.all fun e => e.opn != a.2
    | q => (k.cq.getD q []).all fun o => !(o.who == c && o.opn == a.2)

/-- An entry may be worked on: no fault, not cancelled, its joins met, and not held behind a fault (R203, R284). -/
def State.mqLive (s : State) (e : MqEntry) : Bool :=
  e.fault.isNone && !e.cancelled && s.joined e.who e.after && !s.core.heldByFault e

/-- A staged tile is still needed: an issued operation claims it for a pass not yet started (R207). A faulted one, which
stages anew when retried (R203), does not. -/
def Core.needsStaged (c : Core) (t : StagedTile) : Bool :=
  c.mq.any fun e => match e.op with
    | .mul m => !e.cancelled && e.fault.isNone && m.rb == t.ring && m.pb == t.pos && e.fetched.length < m.np
    | .zero _ _ _ | .read _ _ _ | .write _ _ _ _ => false

/-- The staging buffer with room for one more tile, if it has or can make room (R207). -/
def Core.stageRoom (c : Core) : Option (List StagedTile) :=
  if c.staged.length < 2 then some c.staged
  else match c.staged.find? fun t => !c.needsStaged t with
    | some t => some (c.staged.filter (· != t))
    | none => none

/-- Reads on in the B tile of an entry of the context in focus; once all is read, the tile is checked and stands in the
buffer (R187, R200, R391). -/
def State.stageOn (s : State) (e : MqEntry) (m : MulArgs) (r : TileRead) : State :=
  let p := s.foc.coreId
  let n := s.draw
  let s := n.2
  match s.readTile p (s.core.rings[m.rb].span m.pb (pcwBFmt m.pcw).bits) r n.1 with
  | .poisoned a => s.faultMq e causeEcc (some a) true 0
  | .more r => s.setMq { e with bread := some r }
  | .whole t => match checkRecords t.records m.pb fun _ r => recTag r == 0 with
    | some f => s.faultMq e f.1 none true f.2
    | none =>
      State.setMq { s with core := { s.core with staged := s.core.staged ++ [⟨m.rb, m.pb, t⟩] } }
        { e with staged := some t, bread := none, since := s.cycle }

/-- The operand port begins to stage the B tile of an entry of the context in focus, once its task's earlier writes to it
are performed, or goes on (R195, R207, R273). The steps it may take are those of S (R183). -/
def State.stageB (s : State) (e : MqEntry) (m : MulArgs) : State :=
  match e.bread with
  | some r => s.stageOn e m r
  | none => match s.core.stageRoom with
    | none => s
    | some buf =>
      let f := pcwBFmt m.pcw
      if !s.ctx.clearBefore e.seq ((s.core.rings[m.rb].span m.pb f.bits).has s.foc.coreId) (fun _ => false) then s
      else
        let n := s.draw
        State.setMq { n.2 with core := { s.core with staged := buf } }
          { e with bread := some ⟨[], Config.pick n.1 (32 * f.bits)⟩ }

/-- The entry whose B tile the operand port is staging, or else the oldest live entry whose B tile is present and neither
staged nor kept (R195, R207). -/
def State.nextStage (s : State) : Option (MqEntry × MulArgs) :=
  let pick (ok : MqEntry → MulArgs → Bool) : Option (MqEntry × MulArgs) := s.core.mq.findSome? fun e => match e.op with
    | .mul m => if ok e m then some (e, m) else none
    | .zero _ _ _ | .read _ _ _ | .write _ _ _ _ => none
  match pick fun e _ => e.bread.isSome with
  | some x => some x
  | none => pick fun e m => s.mqLive e && (s.core.bTile e m).isNone && s.core.rings[m.rb].present m.pb

/-- R195: the B operand port stages the oldest tile it can. -/
def execBTileStaging (p : CoreId) (s : State) : Out :=
  if !p.ok then .fault .noSuchAgent
  else
    let t := s.focusCore p
    match t.nextStage with
    | none => .next s
    | some (e, m) => .next ((t.focusOn e.who).stageB e m)

/-- The L that earlier-issued entries leave in a tile (R200). -/
def Core.levelLeft (c : Core) (ord t : Nat) : Nat :=
  let left := c.mq.filterMap fun e =>
    if e.ord < ord ∧ !e.cancelled then
      match e.op with
      | .mul m =>
        if m.zero then
          ((List.range m.np).find? fun j => (passTiles m.acc m.pcw j).contains t).bind fun j =>
            (e.fetched[j]?).map fun f => recTag (f.records.headD 0) % 8
        else none
      | .zero _ _ _ | .read _ _ _ | .write _ _ _ _ => none
    else none
  left.getLast?.getD (c.tileL.getD t 0).toNat

/-- Pass j of an operation as its operands make it. -/
def MulArgs.pass (m : MulArgs) (a b : FetchedTile) : Pass :=
  mkPass m.pcw m.cba m.cbb m.tsa m.tsb a.bytes b.bytes a.records b.records

/-- The entry whose A tile fills the array, or else the oldest entry whose next pass can start, with its B tile (R195,
R197). -/
def State.nextPass (s : State) : Option (MqEntry × MulArgs × FetchedTile) :=
  let pick (ok : MqEntry → MulArgs → Bool) : Option (MqEntry × MulArgs × FetchedTile) :=
    s.core.mq.findSome? fun e => match e.op with
      | .mul m => match s.core.bTile e m with
        | some b => if ok e m then some (e, m, b) else none
        | none => none
      | .zero _ _ _ | .read _ _ _ | .write _ _ _ _ => none
  match pick fun e _ => e.aread.isSome with
  | some x => some x
  | none => pick fun e m =>
    let j := e.fetched.length
    s.mqLive e && j < m.np && s.core.rings[m.ra].present (add32 m.pa j) &&
      (passTiles m.acc m.pcw j).all fun t => s.core.startedBefore e.ord t && s.core.readBefore e.ord t

/-- A B tile as an operation of a width uses it: a copy that a narrower operation staged has free bytes beyond its own
(R207, log 63). -/
def FetchedTile.widen (t : FetchedTile) (size n : Nat) : FetchedTile :=
  { t with bytes := t.bytes ++ (List.range (size - t.bytes.length)).map (Config.stagedByte n) }

/-- Starts the next pass of an entry of the context in focus with its A tile (R195, R200, R176, R406, R408); held to a
later cycle, it reads its tile anew. -/
def State.passFrom (s : State) (e : MqEntry) (m : MulArgs) (a b : FetchedTile) : State :=
  let j := e.fetched.length
  let l := recTag (a.records.headD 0) % 8
  let want := (passTiles m.acc m.pcw j).map (s.core.levelLeft e.ord)
  let domOk (k r : Nat) : Bool :=
    recTag r % 8 == l && l ≤ 5 && (k != 0 || m.zero || want.all (· == l))
  match checkRecords a.records (add32 m.pa j) domOk with
  | some f => s.faultMq e f.1 none false f.2
  | none =>
    let pass := m.pass a b
    let ps := pass.pset
    let cost := s.die.weights.getD 8 0 * pass.cycles ps
    match s.admitWork 1 cost with
    | .later => s
    | .wait t => t
    | .ramp t => t.faultMq e causeRamp none false 0
    | .go s =>
      let s := s.chargeEnergy cost
      let s := { s with core := { s.core with arrNow := s.core.arrNow + cost, passNo := s.core.passNo + 1 } }
      if pcwAlt m.pcw && pass.loses ps then s.faultMq e causeAlignLoss none false 0
      else s.setMq { e with fetched := e.fetched ++ [a], starts := e.starts ++ [s.core.passNo - 1], staged := some b
                            since := s.cycle }

/-- Reads on in the A tile of an entry of the context in focus; once all is read, its pass starts (R187, R391). -/
def State.fillOn (s : State) (e : MqEntry) (m : MulArgs) (b : FetchedTile) (r : TileRead) : State :=
  let p := s.foc.coreId
  let n := s.draw
  let s := n.2
  match s.readTile p (s.core.rings[m.ra].span (add32 m.pa e.fetched.length) (pcwAFmt m.pcw).bits) r n.1 with
  | .poisoned a => s.faultMq e causeEcc (some a) false 0
  | .more r => s.setMq { e with aread := some r }
  | .whole a =>
    let e := { e with aread := none }
    (s.setMq e).passFrom e m a (b.widen (8192 * (pcwBFmt m.pcw).bits) n.1)

/-- The array begins to fill with the A tile of an entry's next pass, once its task's earlier writes to it are performed,
or goes on (R195, R273). A fill takes at most 32 steps (R183). -/
def State.startPass (s : State) (e : MqEntry) (m : MulArgs) (b : FetchedTile) : State :=
  match e.aread with
  | some r => s.fillOn e m b r
  | none =>
    let sp := s.core.rings[m.ra].span (add32 m.pa e.fetched.length) (pcwAFmt m.pcw).bits
    if !s.ctx.clearBefore e.seq (sp.has s.foc.coreId) (fun _ => false) then s
    else
      let n := s.draw
      n.2.setMq { e with aread := some ⟨[], Config.pick n.1 32⟩ }

/-- R195: the array starts the pass of the oldest entry that can start one. -/
def execPassStart (p : CoreId) (s : State) : Out :=
  if !p.ok then .fault .noSuchAgent
  else
    let t := s.focusCore p
    match t.nextPass with
    | none => .next s
    | some (e, m, b) => .next ((t.focusOn e.who).startPass e m b)

/-! Accumulator tiles. -/

/-- The place of a tile's first byte (R193). -/
def tilePlace (p : CoreId) (t : Nat) : Nat := accPlace p (32768 * t)

/-- Puts bytes into the accumulator store of the core in focus. -/
def State.putAcc (s : State) (a : Nat) (bs : List Byte) : State :=
  { s with mem := Mem.splice s.mem a bs, poison := s.poison.filter fun w => w < a || a + bs.length ≤ w }

/-- Sets L of tiles (R193). -/
def State.setLevels (s : State) (ts : List Nat) (l : BitVec 3) : State :=
  { s with core := { s.core with tileL := s.core.tileL.mapIdx fun k v => if ts.contains k then l else v } }

/-- The next entry whose pass commits: every pass fetched, its tile free of earlier work, and of those the pass that
started first, as drains complete in start order (R184, R197, R201). -/
def State.nextCommit (s : State) : Option (MqEntry × MulArgs) :=
  let start (x : MqEntry × MulArgs) : Nat := x.1.starts.getD x.1.committed 0
  let due := s.core.mq.filterMap fun e => match e.op with
    | .mul m =>
      let ts := passTiles m.acc m.pcw e.committed
      if s.mqLive e && e.committed < m.np && e.fetched.length == m.np &&
          ts.all (fun t => s.core.committedBefore e.ord t && s.core.readBefore e.ord t) then some (e, m)
      else none
    | .zero _ _ _ | .read _ _ _ | .write _ _ _ _ => none
  due.find? fun x => due.all fun y => start x ≤ start y

/-- The passes whose accumulator tiles a commit reads: every pass before the first commit, as R391 stops the operation
before any tile commits; none under `mmz`. -/
def MqEntry.reads (e : MqEntry) (m : MulArgs) : List Nat :=
  if m.zero then [] else if e.committed = 0 then List.range m.np else [e.committed]

/-- The first pass of some that reads a poisoned word of its accumulator tiles, with the word's place (R391, R202). -/
def State.accPoison (s : State) (m : MulArgs) (ps : List Nat) : Option (Nat × Nat) :=
  ps.findSome? fun j =>
    ((passTiles m.acc m.pcw j).findSome? fun t => s.poisonIn (accPlace s.foc.coreId (32768 * t)) 32768).map (j, ·)

/-- Commits the next pass of an entry of the context in focus (R172 to R175, R182, R201). -/
def State.commitPass (s : State) (e : MqEntry) (m : MulArgs) (miss : Fin 3) : State :=
  let p := s.foc.coreId
  let ts := passTiles m.acc m.pcw e.committed
  match s.accPoison m (e.reads m) with
  | some (j, a) => s.faultPass e causeEcc (some (word (a - accPlace p 0))) false 0 j
  | none => match e.fetched[e.committed]?, e.staged with
    | some a, some b =>
      let pass := m.pass a b
      let ps := pass.pset
      let again := s.die.weights.getD 8 0 * pass.cycles ps
      let s :=
        if miss = 0 then s
        else
          let t := s.chargeEnergy again
          { t with core := { t.core with arrNow := t.core.arrNow + again } }
      if miss = 2 then s.faultPass e causeArrayCheck none false 0 e.committed
      else
        let n := accBytes m.pcw
        let at_ := tilePlace p (ts.headD 0)
        let old := chunks (256 * n) 32 (Mem.slice s.mem at_ (8192 * n))
        let codes := old.map fun r => (List.range 256).map fun k =>
          if m.zero then 0 else natBits r (8 * n * k + 8 * n - 1) (8 * n * k)
        let out := pass.apply ps codes
        let sk := pass.skipped ps
        let s := s.putAcc at_ (unchunk n out.1.flatten)
        let s := if m.zero then s.setLevels ts (BitVec.ofNat 3 (recTag (a.records.headD 0))) else s
        let s := s.raiseBits out.2.bits
        let s := { s with core := { s.core with
          tally := { s.core.tally with
            ospl := s.core.tally.ospl + sk.1, otrm := s.core.tally.otrm + sk.2.1, oskr := s.core.tally.oskr + sk.2.2 } } }
        s.setMq { e with committed := e.committed + 1 }
    | _, _ => s

/-- R201, R186: a pass commits; `miss` mismatches of the residue check are found, the first of which recomputes it. -/
def execPassCommit (p : CoreId) (miss : Fin 3) (s : State) : Out :=
  if !p.ok then .fault .noSuchAgent
  else
    let t := s.focusCore p
    match t.nextCommit with
    | none => .next s
    | some (e, m) => .next ((t.focusOn e.who).commitPass e m miss)

/-! Retirement. -/

/-- An entry leaves the matrix queue (R194, R196): its record closes, room is made, and it is the last waited for of a
context that waits for matrix work (Table 17-5, kinds 11 and 12). -/
def State.leaveMq (s : State) (e : MqEntry) (st : OpState) : State :=
  let s := { s with core := { s.core with mq := s.core.mq.filter fun f => f.ord != e.ord } }
  let s := s.closeOp e.who 5 { units := e.committed, opn := e.opn, cause := 0, state := st, bytes := 0, faddr := 0 }
  let who := s.whoIs 3 e.who
  let x := s.ctxAt e.who
  let s := match x.status with
    | .waiting (.matrix _) => s.setCtxAt e.who { x with setter := who }
    | .waiting .doneDrain => s.setCtxAt e.who { x with setter := who }
    | _ => s
  s.noteLeft e.who.coreId 5 who

/-- Earlier entries on one of an entry's rings have popped (R196). -/
def Core.ringsFirst (c : Core) (e : MqEntry) : Bool :=
  c.mq.all fun f => e.ord ≤ f.ord || !(f.op.rings.any e.op.rings.contains)

/-- An operation pops its rings and retires (R196). -/
def State.popAndLeave (s : State) (e : MqEntry) (st : OpState) : State :=
  let who := s.whoIs 3 e.who
  let s := match e.op with
    | .mul m =>
      let s := s.headMoves m.ra m.np who
      if m.keep then s else s.headMoves m.rb 1 who
    | .zero _ _ _ | .read _ _ _ | .write _ _ _ _ => s
  s.leaveMq e st

/-- R196: the oldest operation whose passes have committed, and whose pops come next on its rings, retires. -/
def execMatrixRetire (p : CoreId) (s : State) : Out :=
  if !p.ok then .fault .noSuchAgent
  else
    let t := s.focusCore p
    match t.core.mq.find? fun e => match e.op with
        | .mul m => e.fault.isNone && !e.cancelled && e.committed == m.np && t.core.ringsFirst e
        | .zero _ _ _ | .read _ _ _ | .write _ _ _ _ => false with
    | none => .next s
    | some e => .next ((t.focusOn e.who).popAndLeave e .done)

/-- Every tile that an entry claimed is present (R203). -/
def Core.claimsPresent (c : Core) (e : MqEntry) : Bool :=
  match e.op with
  | .mul m => ((List.range m.np).all fun j => c.rings[m.ra].present (add32 m.pa j)) && c.rings[m.rb].present m.pb
  | .zero _ _ _ | .read _ _ _ | .write _ _ _ _ => true

/-- R203: a cancelled entry whose claimed tiles are present pops them and retires. -/
def execCancelledEntryRetire (p : CoreId) (s : State) : Out :=
  if !p.ok then .fault .noSuchAgent
  else
    let t := s.focusCore p
    match t.core.mq.find? fun e => e.cancelled && t.core.ringsFirst e && t.core.claimsPresent e with
    | none => .next s
    | some e => .next ((t.focusOn e.who).popAndLeave e .cancelled)

/-! Entries that reach a tile (R197, R209 to R211). -/

/-- Earlier users of an entry's tiles are through with them (R197). -/
def State.tilesFree (s : State) (e : MqEntry) : Bool :=
  s.mqLive e && e.op.tiles.all fun t => s.core.committedBefore e.ord t && s.core.readBefore e.ord t

/-- R209: the oldest `accz` that may, zeroes its tiles. -/
def execAcczExecute (p : CoreId) (s : State) : Out :=
  if !p.ok then .fault .noSuchAgent
  else
    let t := s.focusCore p
    match t.core.mq.findSome? fun e => match e.op with
        | .zero acc n tag => if t.tilesFree e then some (e, acc, n, tag) else none
        | .mul _ | .read _ _ _ | .write _ _ _ _ => none with
    | none => .next s
    | some (e, acc, n, tag) =>
      let t := t.focusOn e.who
      let t := t.putAcc (tilePlace p acc) (List.replicate (32768 * n) 0)
      .next ((t.setLevels ((List.range n).map (acc + ·)) tag).leaveMq e .done)

/-- R210: the oldest `accrd` that may, reads its block. -/
def execAccrdExecute (p : CoreId) (s : State) : Out :=
  if !p.ok then .fault .noSuchAgent
  else
    let t := s.focusCore p
    match t.core.mq.findSome? fun e => match e.op with
        | .read vd k j => if t.tilesFree e then some (e, vd, k, j) else none
        | .mul _ | .zero _ _ _ | .write _ _ _ _ => none with
    | none => .next s
    | some (e, vd, k, j) =>
      let t := t.focusOn e.who
      let a := tilePlace p k.val + 128 * j
      match t.poisonIn a 128 with
      | some w => .next (t.faultMq e causeEcc (some (word (w - accPlace p 0))) false 0)
      | none =>
        if !tagOk (t.core.tileL[k]).toNat then .next (t.faultMq e causeDomain none false 0)
        else
        let v : VWord := BitVec.ofNat 1024 (leNat (Mem.slice t.mem a 128))
        .next ((t.setV vd v ((t.core.tileL[k]).zeroExtend 4)).leaveMq e .done)

/-- R211: the oldest `accwr` that may, checks its tag and writes its block. -/
def execAccwrExecute (p : CoreId) (s : State) : Out :=
  if !p.ok then .fault .noSuchAgent
  else
    let t := s.focusCore p
    match t.core.mq.findSome? fun e => match e.op with
        | .write k v tag j => if t.tilesFree e then some (e, k, v, tag, j) else none
        | .mul _ | .zero _ _ _ | .read _ _ _ => none with
    | none => .next s
    | some (e, k, v, tag, j) =>
      let t := t.focusOn e.who
      if (t.core.tileL[k]).zeroExtend 4 = tag ∧ tagOk tag.toNat then
        .next ((t.putAcc (tilePlace p k.val + 128 * j) (leBytes 128 v.toNat)).leaveMq e .done)
      else .next (t.faultMq e causeDomain none false 0)

/-! Resolution of a faulted entry (R203). -/

/-- The oldest faulted entry of the context in focus. -/
def State.faultedMq (s : State) : Option MqEntry := s.core.mq.find? fun e => e.who == s.foc && e.fault.isSome

/-- `qrty` on `mq`: the entry restarts from its first uncommitted pass, staging and fetching again (R203). -/
def State.retryMq (s : State) : State :=
  match s.faultedMq with
  | none => s
  | some e =>
    let gone (t : StagedTile) : Bool := match e.op with
      | .mul m => t.ring == m.rb && t.pos == m.pb
      | .zero _ _ _ | .read _ _ _ | .write _ _ _ _ => false
    let s := { s with core := { s.core with staged := s.core.staged.filter fun t => !gone t } }
    s.setMq { e with fault := none, staged := none, fetched := e.fetched.take e.committed, starts := e.starts.take e.committed
                     since := s.cycle }

/-- `qcan` on `mq`: the entry commits nothing more, and pops and retires in its turn (R203). -/
def State.cancelMq (s : State) : State :=
  match s.faultedMq with
  | none => s
  | some e => s.setMq { e with fault := none, cancelled := true }

/-! Waits that end. -/

/-- R212: an `mwait` returns once no covered entry is left. -/
def execMwaitReturn (c : CtxId) (s : State) : Out :=
  if !c.ok then .fault .noSuchAgent
  else
    let t := s.focusOn c
    match t.ctx.status with
    | .waiting (.matrix mask) => .next (if t.core.mq.any (t.covers mask) then s else t.commitSlot)
    | _ => .next s

/-- R214: `rget.haddr` or `rget.taddr` returns once its ring has a tile or a free slot. -/
def execRgetWaitReturn (c : CtxId) (s : State) : Out :=
  if !c.ok then .fault .noSuchAgent
  else
    let t := s.focusOn c
    let back (k : Nat) (r : Fin 16) : Out :=
      match t.ctx.ib.map (fun ws => slotInstrD ws t.ctx.slot), t.core.rings[r].addr k with
      | some (.rget _ xd _), some a => .next ((t.setX xd a).commitSlot)
      | _, _ => .next s
    match t.ctx.status with
    | .waiting (.ringHead r) => back 6 r
    | .waiting (.ringTail r) => back 7 r
    | _ => .next s

end Sys2Proof.Machine
end

