-- ==== Sys2Proof/Machine/Square.lean ====
section
/-! DEFINITION. The Square (R286 to R312): majors 0x29 to 0x2b, the request queue, ordered batches, bin cells, barriers
with their harvest merges, and waits on words; and `fence`, `qfence` and `harvest` of major 0x28 (R276 to R285). -/

namespace Sys2Proof.Machine

/-- tinfo of a copy, Square or collective fault (Table 10-5). -/
def engineInfo (slot queue : Nat) (serviced : Bool) (cause reason opn : Nat) : Word :=
  word (opn % 65536 + reason * 2 ^ 24 + cause * 2 ^ 32 + (if serviced then 2 ^ 40 else 0) + queue * 2 ^ 47 + slot * 2 ^ 50)

/-- A fault of the Square or of an engine reaches a task (R258, R288): ENGINE-FAULT. -/
def State.postEngine (s : State) (c : CtxId) (addr info : Word) : State := s.postFault c ⟨causeEngine, addr, info⟩

/-! A task's results that arrive later. -/

/-- The context that runs a task. -/
def State.taskCtx (s : State) (launch index : Nat) : Option CtxId :=
  s.knownCtxs.find? fun c => (s.ctxAt c).isTask launch index

/-- The context of a task, running or saved. -/
def State.taskState (s : State) (launch index : Nat) : Option Ctx :=
  match s.taskCtx launch index with
  | some c => some (s.ctxAt c)
  | none => (s.launches.find? fun l => l.handle == launch).bind fun l =>
      (l.saved.find? fun t => t.index == index).map SavedTask.ctx

/-- Does something to the context of a task, where it runs or where it is saved; nothing when it has ended. -/
def State.toTask (s : State) (launch index : Nat) (f : Ctx → Ctx) : State :=
  match s.taskCtx launch index with
  | some c => s.setCtxAt c (f (s.ctxAt c))
  | none =>
    let save (l : Launch) : Launch :=
      if l.handle = launch then
        { l with saved := l.saved.map fun t => if t.index = index then { t with ctx := f t.ctx } else t }
      else l
    { s with launches := s.launches.map save }

/-- A context with a late result in a register and late flags (R294, R296). -/
def Ctx.receive (x : Ctx) (xd : Option XReg) (v : Word) (flags : FlagSet) : Ctx :=
  { x with x := xd.elim x.x fun n => x.x.set n v
           cstat := orCstat x.cstat flags.bits }

/-! Issue (R287, R288). -/

/-- A Square instruction's address passes its checks (R288): the place of its first byte. -/
def State.checkSquare (s : State) (a : Word) (align : Nat) (pkg : Bool) : Except MemFault Nat :=
  if wordBits a 63 32 ≠ 0 then .error ⟨causeAccess, a, 3⟩
  else match winOf (locOf a) with
  | none => .error ⟨causeAccess, a, 1⟩
  | some w =>
    if w ≠ .square ∧ w ≠ .squareOther then .error ⟨causeAccess, a, 4⟩
    else if locOf a % align ≠ 0 then .error ⟨causeMisalign, a, 5⟩
    else if w = .squareOther ∧ !pkg then .error ⟨causeAccess, a, 4⟩
    else .ok (winPlace s.foc.coreId 0 w (locOf a))

/-- The scope of an ordering event on Square space (Table 11-3). -/
def State.squareScope (s : State) (p : Nat) : Scope := if squareDie p = s.foc.die then .die else .pkg

/-- An entry enters the Square request queue of the context in focus (R287), a release before it and an acquire after it
as it asks (R292). An arrival claims the task's pending set for the batch of its phase (Table 12-4). -/
def State.enterSq (s : State) (op : SqOp) (dbl acq rel : Bool) (a : Word) (p : Nat) (xd : Option XReg) : State :=
  let sc := s.squareScope p
  let s := if rel then s.orderPoint .rel sc else s
  let n := s.openOp 6
  let s := n.2
  let r : SqRequest :=
    { op := op, dbl := dbl, acq := acq, rel := rel, addr := a, place := p, xd := xd.filter (· != 0), seq := s.ctx.seq
      opn := n.1, slot := s.ctx.slot, bundle := s.ctx.pc, after := s.joinsOf 6, fault := none }
  let claim (a : OrderedAdd) : OrderedAdd := match op with
    | .arrive _ => { a with claim := some (a.claim.getD n.1) }
    | _ => a
  let s := State.nextSeq { s with ctx := { s.ctx with sq := s.ctx.sq ++ [r], ordSet := s.ctx.ordSet.map claim } }
  if acq then s.orderPoint .acq sc else s

/-- A Square instruction on `n` bytes passes its checks and goes on, waits for room or behind an ordering event, or
traps (R287, R288, R283, R426). -/
def squareIssue (s : State) (xa : XReg) (n align : Nat) (pkg watch : Bool) (go : State → Word → Nat → Out) : Out :=
  let a := s.getX xa
  if 16 ≤ s.ctx.sq.length then .next (s.waitRoom 6)
  else if !s.accessReady true then .next s.holdReady
  else match s.checkSquare a align pkg with
    | .error e => .next (s.memTrap e false)
    | .ok p => match if watch then s.watched (locsOf a n) true true else none with
      | some w => .next (s.watchTrap a w true)
      | none => go s.trimPoints a p

/-- Bytes of an operand by its width bit (R289, R293). -/
def opBytes (dbl : Bool) : Nat := if dbl then 8 else 4

/-- The low bytes of a register's value. -/
def lowPart (dbl : Bool) (v : Word) : Word := word (v.toNat % 256 ^ opBytes dbl)

/-- An integer atomic by its number in Table 12-2 (R289, R290). -/
def issueAmo (op : Nat) (dbl acq rel : Bool) (xd xa xb : XReg) (s : State) : Out :=
  squareIssue s xa (opBytes dbl) (opBytes dbl) true true fun s a p =>
    .next (s.enterSq (.int op (lowPart dbl (s.getX xb)) (lowPart dbl (s.getX xd))) dbl acq rel a p (some xd))

/-- R290. -/
def execAmoadd (dbl acq rel : Bool) (xd xa xb : XReg) (s : State) : Out := issueAmo 0 dbl acq rel xd xa xb s
/-- R290. -/
def execAmoand (dbl acq rel : Bool) (xd xa xb : XReg) (s : State) : Out := issueAmo 1 dbl acq rel xd xa xb s
/-- R290. -/
def execAmoor (dbl acq rel : Bool) (xd xa xb : XReg) (s : State) : Out := issueAmo 2 dbl acq rel xd xa xb s
/-- R290. -/
def execAmoxor (dbl acq rel : Bool) (xd xa xb : XReg) (s : State) : Out := issueAmo 3 dbl acq rel xd xa xb s
/-- R290. -/
def execAmomin (dbl acq rel : Bool) (xd xa xb : XReg) (s : State) : Out := issueAmo 4 dbl acq rel xd xa xb s
/-- R290. -/
def execAmomax (dbl acq rel : Bool) (xd xa xb : XReg) (s : State) : Out := issueAmo 5 dbl acq rel xd xa xb s
/-- R290. -/
def execAmominu (dbl acq rel : Bool) (xd xa xb : XReg) (s : State) : Out := issueAmo 6 dbl acq rel xd xa xb s
/-- R290. -/
def execAmomaxu (dbl acq rel : Bool) (xd xa xb : XReg) (s : State) : Out := issueAmo 7 dbl acq rel xd xa xb s
/-- R290. -/
def execAmoswap (dbl acq rel : Bool) (xd xa xb : XReg) (s : State) : Out := issueAmo 8 dbl acq rel xd xa xb s
/-- R290. -/
def execAmocas (dbl acq rel : Bool) (xd xa xb : XReg) (s : State) : Out := issueAmo 9 dbl acq rel xd xa xb s

/-- An unordered floating atomic (R294). -/
def issueFloat (op : Nat) (dbl : Bool) (cls : SqClass) (xd : Option XReg) (xa xb : XReg) (s : State) : Out :=
  squareIssue s xa (opBytes dbl) (opBytes dbl) (cls == .pkg) true fun s a p =>
    .next (s.enterSq (.float op (lowPart dbl (s.getX xb))) dbl false false a p xd)

/-- An ordered add (R295): it enters the queue and the task's pending set, with the task's next sequence number. -/
def issueOrdered (dbl : Bool) (cls : SqClass) (xd : Option XReg) (xa xb : XReg) (s : State) : Out :=
  squareIssue s xa (opBytes dbl) (opBytes dbl) (cls == .pkg) true fun s a p =>
    let v := lowPart dbl (s.getX xb)
    let add : OrderedAdd :=
      { who := s.foc, launch := (s.ctx.task.map Task.launch).getD 0, task := (s.ctx.task.map Task.index).getD 0
        seq := s.ctx.ordSeq, prog := s.ctx.seq, dbl := dbl, addr := a, place := p, v := v, xd := xd.filter (· != 0), opn := s.ctx.opn[6]
        slot := s.ctx.slot, bundle := s.ctx.pc, claim := none }
    let s := s.enterSq (.ordered v) dbl false false a p none
    .next { s with ctx := { s.ctx with ordSet := s.ctx.ordSet ++ [add], ordSeq := s.ctx.ordSeq + 1 } }

/-- R294, R295. -/
def execAmofadd (ord dbl : Bool) (cls : SqClass) (xd xa xb : XReg) (s : State) : Out :=
  if ord then issueOrdered dbl cls (some xd) xa xb s else issueFloat 0 dbl cls (some xd) xa xb s
/-- R294. -/
def execAmofmin (dbl : Bool) (cls : SqClass) (xd xa xb : XReg) (s : State) : Out := issueFloat 1 dbl cls (some xd) xa xb s
/-- R294. -/
def execAmofmax (dbl : Bool) (cls : SqClass) (xd xa xb : XReg) (s : State) : Out := issueFloat 2 dbl cls (some xd) xa xb s
/-- R294, R295. -/
def execRedfadd (ord dbl : Bool) (cls : SqClass) (xa xb : XReg) (s : State) : Out :=
  if ord then issueOrdered dbl cls none xa xb s else issueFloat 0 dbl cls none xa xb s
/-- R301. -/
def execBinadd (dbl : Bool) (cls : SqClass) (xa xb : XReg) (s : State) : Out :=
  squareIssue s xa 32 32 (cls == .pkg) true fun s a p =>
    .next (s.enterSq (.binAdd (lowPart dbl (s.getX xb))) dbl false false a p none)
/-- R302. -/
def execBinfold (dbl : Bool) (cls : SqClass) (xd xa : XReg) (s : State) : Out :=
  squareIssue s xa 32 32 (cls == .pkg) true fun s a p => .next (s.enterSq .binFold dbl false false a p (some xd))
/-- R300. -/
def execBininit (cls : SqClass) (xa xb : XReg) (s : State) : Out :=
  squareIssue s xa 32 32 (cls == .pkg) true fun s a p =>
    .next (s.enterSq (.binInit (s.getX xb)) false false false a p none)

/-- R306. -/
def execBarinit (xa xb : XReg) (s : State) : Out :=
  squareIssue s xa 16 16 true false fun s a p =>
    let v := s.getX xb
    if wordBits v 19 0 = 0 ∨ wordBits v 63 20 ≠ 0 then .next (s.memTrap ⟨causeAccess, a, 14⟩ false)
    else .next (s.enterSq (.barInit v) false false true a p none)
/-- R307. -/
def execArrive (xd xa : XReg) (s : State) : Out :=
  squareIssue s xa 16 16 true false fun s a p => .next (s.enterSq (.arrive false) false false true a p (some xd))
/-- R309. -/
def execBexpect (xa xb : XReg) (s : State) : Out :=
  squareIssue s xa 16 16 true false fun s a p => .next (s.enterSq (.expect (s.getX xb)) false false true a p none)

/-- The arrival that the running slot made before a trap ended its wait (R308): the slot is being re-issued. -/
def State.madeArrival (s : State) : Option ArrivedAt :=
  if s.ctx.reissue.isNone then none
  else s.ctx.arrived.find? fun a => a.bundle == s.ctx.pc && a.slot == s.ctx.slot

/-- `arrwt` and `harvest` (R278, R285, R308): the arrival is made once, and the slot waits for the phase it is counted
into. `kind` is the wait's kind in Table 17-5. -/
def arriveAndWait (kind : Nat) (s : State) (xa : XReg) : Out :=
  match s.madeArrival with
  | some _ => .next (s.waitFor (.barrier kind (s.getX xa)))
  | none => squareIssue s xa 16 16 true false fun s a p =>
    let r : ArrivedAt :=
      { bundle := s.ctx.pc, slot := s.ctx.slot, opn := s.ctx.opn[6], place := p, phase := none, conflict := none }
    let s := s.enterSq (.arrive (kind == 4 && modeOf s.ctx.cstat != 0)) false false true a p none
    let old := s.ctx.arrived.filter fun e => !(e.bundle == r.bundle && e.slot == r.slot)
    .next (State.waitFor { s with ctx := { s.ctx with arrived := old ++ [r] } } (.barrier kind a))

/-- R308. -/
def execArrwt (qd : Fin 8) (xa : XReg) (s : State) : Out := let _ := qd; arriveAndWait 3 s xa

/-- R278, R281, R285. -/
def execHarvest (xa : XReg) (s : State) : Out := arriveAndWait 4 s xa

/-! Barrier objects (Table 12-6). -/

def barExp (b : Nat) : Nat := natBits b 19 0
def barArr (b : Nat) : Nat := natBits b 39 20
def barPhase (b : Nat) : Nat := natBits b 71 40
def barPend (b : Nat) : Nat := natBits b 119 72
def barErr (b : Nat) : Nat := natBits b 120 120
def barLerr (b : Nat) : Nat := natBits b 121 121

/-- A well-formed object (R304). -/
def barOk (b : Nat) : Bool := barExp b != 0 && natBits b 127 122 == 0

/-- The phase completes (R305). -/
def barFull (b : Nat) : Bool := barOk b && barArr b == barExp b && barPend b == 0

/-- PEND after a change, wrapped into 48 bits with ERR set when it leaves the range (R309). -/
def barMove (b : Nat) (by_ : Int) (err : Bool) : Nat :=
  let t := signedNat 48 (barPend b) + by_
  let out : Bool := t < -(2 ^ 47) || 2 ^ 47 ≤ t
  let b := putBits b 119 72 (t % 2 ^ 48).toNat
  if out || err then putBits b 120 120 1 else b

/-- The next phase (R305). -/
def barNext (b : Nat) : Nat :=
  putBits (putBits (putBits (putBits b 121 121 (barErr b)) 120 120 0) 39 20 0) 71 40 (barPhase b + 1)

/-- The object at a place. -/
def State.barAt (s : State) (p : Nat) : Nat := s.homeNat p 16

/-- Writes an object for an agent on die `d`. -/
def State.putBar (s : State) (who d p b : Nat) : State := s.unitWrite who d p (leBytes 16 b)

/-! Ordered batches (R296, R298). -/

/-- The order of a batch: by place, then task index, then sequence number. -/
def OrderedAdd.le (a b : OrderedAdd) : Bool :=
  a.place < b.place || (a.place == b.place && (a.task < b.task || (a.task == b.task && a.seq ≤ b.seq)))

/-- Cause and reason for which bytes of Square space cannot be used: an unbacked block (R286), poison (R391). -/
def State.squareFault (s : State) (p n : Nat) : Option (Nat × Nat) :=
  if !s.squareBacked p then some (causePageFault, 6)
  else if (s.poisonIn p n).isSome then some (causeEcc, 0) else none

/-- taddr of a Square fault (R202, R288): the bundle that issued the request, or the first byte of the poisoned word. -/
def State.squareTaddr (s : State) (cause : Nat) (bundle addr : Word) (p n : Nat) : Word :=
  if cause = causeEcc then addr + word ((s.poisonIn p n).getD p) - word p else bundle

/-- The record of an ordered add that has ended (R259). -/
def OrderedAdd.ended (a : OrderedAdd) (st : OpState) : Progress :=
  { units := if st = .done then 1 else 0, opn := a.opn, cause := 0, state := st, bytes := 0, faddr := 0 }

/-- One ordered add is applied (R294, R296), and with it its operation is done (log 61). -/
def State.applyAdd (s : State) (a : OrderedAdd) : State :=
  let n := opBytes a.dbl
  let f := if a.dbl then fmt64 else fmt32
  let old := s.homeNat a.place n
  let r := f.add 0 old a.v.toNat
  let s := s.unitWrite (s.whoCtx a.who) a.who.die a.place (leBytes n r.1)
  s.toTask a.launch a.task fun x => (x.receive a.xd (word old) r.2).closed 6 (a.ended OpState.done)

/-- Applies sorted adds until one faults: what is left, and the fault (R296, R298). -/
def State.applyAdds : List OrderedAdd → State → State × List OrderedAdd × Option (Nat × Nat)
  | [], s => (s, [], none)
  | a :: as, s => match s.squareFault a.place (opBytes a.dbl) with
    | some f => (s, a :: as, some f)
    | none => State.applyAdds as (s.applyAdd a)

/-- Every request of a batch has been accepted from its queue (R287). -/
def State.accepted (s : State) (b : Batch) : Bool :=
  b.adds.all fun a => match s.taskCtx a.launch a.task with
    | some c => (s.ctxAt c).sq.all fun r => r.opn != a.opn
    | none => true

/-- Replaces the batches of a die. -/
def State.setBatches (s : State) (d : Nat) (bs : List Batch) : State :=
  let x := s.dieAt d
  s.setDieAt d { x with batches := bs }

/-- The fault of an ordered add as its task takes it (R288, R298). -/
def State.adderFault (s : State) (a : OrderedAdd) (cause reason : Nat) (serviced : Bool) : AsyncFault :=
  ⟨causeEngine, s.squareTaddr cause a.bundle a.addr a.place (opBytes a.dbl), engineInfo a.slot 6 serviced cause reason a.opn⟩

/-- The task of an ordered add learns of its fault (R298). -/
def State.tellAdder (s : State) (a : OrderedAdd) (cause reason : Nat) (serviced : Bool) : State :=
  s.toTask a.launch a.task fun x => { x with pend := x.pend ++ [s.adderFault a cause reason serviced] }

/-- Applies the k-th batch of a die: it is gone, or it stops at a faulted request, whose task learns of it unless the
granger sees it first (R288, R298). -/
def State.applyBatch (s : State) (d k : Nat) : State :=
  match (s.dieAt d).batches[k]? with
  | none => s
  | some b =>
    let r := State.applyAdds (sortBy OrderedAdd.le b.adds) s
    let s := r.1
    let bs := (s.dieAt d).batches
    match r.2.2, r.2.1 with
    | some f, a :: as =>
      let s := s.setBatches d (bs.set k { b with adds := a :: as, fault := some (f.1, f.2, f.1 != causePageFault) })
      if f.1 = causePageFault then s else s.tellAdder a f.1 f.2 false
    | _, _ => s.setBatches d (bs.eraseIdx k)

/-- The batch of a barrier's current phase on its die. -/
def State.phaseBatch (s : State) (p : Nat) : Option Nat :=
  (s.dieAt (squareDie p)).batches.findIdx? fun b => b.barrier == some p

/-- Ordered adds join the batch of a barrier's current phase (Table 12-4), which closes with the phase's last arrival and
byte (R295). -/
def State.joinPhase (s : State) (p : Nat) (adds : List OrderedAdd) : State :=
  if adds.isEmpty then s
  else
    let d := squareDie p
    let bs := (s.dieAt d).batches
    match s.phaseBatch p with
    | some k => match bs[k]? with
      | some b => s.setBatches d (bs.set k { b with adds := b.adds ++ adds })
      | none => s
    | none => s.setBatches d (bs ++ [⟨adds, some p, false, none⟩])

/-- The batch of a barrier's current phase closes (R295). -/
def State.closePhase (s : State) (p k : Nat) : State :=
  let d := squareDie p
  match (s.dieAt d).batches[k]? with
  | some b => s.setBatches d ((s.dieAt d).batches.set k { b with closed := true })
  | none => s

/-! Harvest merges (R278, R279). -/

/-- A participant of a merge: its task index, its buffer and the addresses of its bytes. -/
structure Buffered where
  index : Nat
  cells : List Host.Cell
  addrs : List (Nat × Word)
  deriving DecidableEq, Repr

/-- The buffers of the tasks that arrived at a barrier by `harvest`, by rising task index. -/
def State.buffers (s : State) (hs : List Harvester) : List Buffered :=
  sortBy (fun a b => a.index ≤ b.index)
    (hs.filterMap fun h => (s.taskState h.launch h.task).map fun x => ⟨h.task, x.hbuf, x.haddr⟩)

/-- The tasks whose buffers hold a byte, in order. -/
def writersOf (bs : List Buffered) (a : Nat) : List Buffered := bs.filter fun b => b.cells.any fun c => c.1 == a

/-- A conflicting byte: its address and the lowest and highest task index that wrote it (Table 11-4). -/
structure Conflict where
  addr : Word
  low : Nat
  high : Nat
  deriving DecidableEq, Repr

/-- The conflicting bytes of a strict merge, by rising address. -/
def conflictsOf (bs : List Buffered) (places : List Nat) : List Conflict :=
  let cs := places.filterMap fun a =>
    match writersOf bs a with
    | b :: r :: rs => some (⟨(b.addrs.lookup a).getD 0, b.index, (rs.getLast?.getD r).index⟩ : Conflict)
    | _ => none
  sortBy (fun a b => a.addr.toNat ≤ b.addr.toNat) cs

/-- The bytes that a merge writes (R278). -/
def mergedCells (strict : Bool) (bs : List Buffered) (places : List Nat) : List Host.Cell :=
  places.filterMap fun a =>
    let ws := writersOf bs a
    if strict && 2 ≤ ws.length then none
    else (ws.getLast?.bind fun b => lastCell b.cells a).map fun v => (a, v)

/-- The bytes of a conflict record (Table 11-4). -/
def conflictBytes (cs : List Conflict) (bar : Word) (phase : Nat) : List Byte :=
  leBytes 8 cs.length ++ leBytes 8 bar.toNat ++ leBytes 4 phase ++ leBytes 4 0 ++
    (List.range 16).flatMap fun j => match cs[j]? with
      | some c => leBytes 8 c.addr.toNat ++ leBytes 4 c.low ++ leBytes 4 c.high
      | none => List.replicate 16 0

/-- Performs bytes of any home as writes of a die's Square (R278). -/
def State.mergeWrite (s : State) (d : Nat) (cs : List Host.Cell) : State :=
  let who := s.whoDie 4 d
  let s := s.performWrite none who 0 d (cs.filter fun c => !isHbm c.1)
  s.performWrite none who 0 d (cs.filter fun c => isHbm c.1)

/-- The place of a physical address of the quarter, as the harvest area has one (R280). -/
def State.physPlace (s : State) (pa : Nat) : Nat := hbmPlace ((s.dieOfQdn (natBits pa 41 38)).getD 0) (natBits pa 37 0)

/-- The dies of the launch with a handle. -/
def State.diesOf (s : State) (h : Nat) : List Nat :=
  ((s.launches.find? fun l => l.handle == h).map s.launchDies).getD []

/-- The merge of a phase that completes: the buffers of its participants, and the conflict record of a strict one, visible
on every die of the launch (R278, R279). -/
def State.harvestMerge (s : State) (p phase : Nat) : State :=
  let d := squareDie p
  let x := s.dieAt d
  let cs := x.harvesters.filter fun h => h.place == p
  match cs.filterMap fun h => s.taskState h.launch h.task with
  | [] => s
  | first :: _ =>
    let s := s.setDieAt d { x with harvesters := x.harvesters.filter fun h => h.place != p }
    let strict := modeOf first.cstat == 1
    let bs := s.buffers cs
    let places := (bs.flatMap fun b => b.cells.map Prod.fst).eraseDups
    let s := s.mergeWrite d (mergedCells strict bs places)
    let hits := if strict then conflictsOf bs places else []
    let rec_ := (first.task.map Task.harea).getD 0 + Config.harvestRecord p
    let s := if hits.isEmpty then s
      else s.unitWrite (s.whoDie 4 d) d (s.physPlace rec_)
        (conflictBytes hits (word (Win.square.base + (p - squarePlace d 0))) phase)
    let s := (s.diesOf ((first.task.map Task.launch).getD 0)).foldl (fun s e => s.carry d e) s
    cs.foldl (fun s h => s.toTask h.launch h.task fun k =>
      let mark (a : ArrivedAt) : ArrivedAt :=
        if a.place = p ∧ a.phase = some phase ∧ !hits.isEmpty then { a with conflict := some (word rec_, hits.length) } else a
      { k with hbuf := [], haddr := [], arrived := k.arrived.map mark }) s

/-! Phases (R305 to R309). -/

/-- A context waits for a phase of a barrier that has passed (R308). -/
def State.phasePassed (s : State) (c : CtxId) (p phase : Nat) : Bool :=
  let x := s.ctxAt c
  match x.status with
  | .waiting (.barrier k _) =>
    if k = 2 then x.wordWait.any fun w => w.place == p && w.y.toNat != phase
    else x.arrived.any fun a => a.place == p && a.bundle == x.pc && a.slot == x.slot && a.phase.any (· != phase)
  | _ => false

/-- The waiters whose phase has passed learn who completed it (Table 17-5). -/
def State.barrierSetter (s : State) (p who : Nat) : State :=
  let phase := barPhase (s.barAt p)
  s.knownCtxs.foldl (fun s c =>
    let x := s.ctxAt c
    if x.setter = 65535 ∧ s.phasePassed c p phase then s.setCtxAt c { x with setter := who } else s) s

/-- A phase completes: merge, next phase, wakes (R305, 1 to 3). -/
def State.completePhase (s : State) (p who : Nat) : State :=
  let s := s.harvestMerge p (barPhase (s.barAt p))
  (s.putBar who (squareDie p) p (barNext (s.barAt p))).barrierSetter p who

/-- An arrival is counted into the current phase (R307): its ordered adds join. -/
def State.countArrival (s : State) (h : HeldArrival) : State :=
  let b := s.barAt h.place
  let phase := barPhase b
  let s := s.joinPhase h.place h.adds
  let b := putBits b 39 20 (barArr b + 1)
  let s := s.putBar (s.whoCtx h.who) h.who.die h.place (if h.err then putBits b 120 120 1 else b)
  let mark (a : ArrivedAt) : ArrivedAt := if a.opn = h.opn ∧ a.place = h.place then { a with phase := some phase } else a
  let s := s.toTask h.launch h.task fun x =>
    { x.receive h.xd (word phase) FlagSet.none with arrived := x.arrived.map mark }
  if h.harvest && (s.taskState h.launch h.task).isSome then
    let d := squareDie h.place
    let y := s.dieAt d
    s.setDieAt d { y with harvesters := y.harvesters ++ [⟨h.place, h.launch, h.task⟩] }
  else s

/-- Tests an object after an event of `who` (R305): a full phase closes its batch and completes once that is applied, and
held arrivals are counted into the phase that begins (R307). An object that cannot be read is not tested. -/
def State.runBarrier (p who : Nat) : Nat → State → State
  | 0, s => s
  | n + 1, s =>
    let d := squareDie p
    let b := s.barAt p
    if (s.squareFault p 16).isSome then s
    else if barFull b then
      match s.phaseBatch p with
      | none => State.runBarrier p who n (s.completePhase p who)
      | some k =>
        let s := s.closePhase p k
        if ((s.dieAt d).batches[k]?).any fun b => b.fault.isNone then
          let s := s.applyBatch d k
          if (s.phaseBatch p).isNone then State.runBarrier p who n (s.completePhase p who) else s
        else s
    else if barArr b < barExp b then
      let x := s.dieAt d
      match x.heldArr.findIdx? fun h => h.place == p with
      | none => s
      | some k => match x.heldArr[k]? with
        | none => s
        | some h => State.runBarrier p (s.whoCtx h.who) n
            ((s.setDieAt d { x with heldArr := x.heldArr.eraseIdx k }).countArrival h)
    else s

/-- Tests an object and all that follows from it. -/
def State.testBarrier (s : State) (p who : Nat) : State :=
  State.runBarrier p who (2 * (s.dieAt (squareDie p)).heldArr.length + 2) s

/-- An arrival reaches its barrier: it is counted, or held until the next phase (R307), and the object is tested (R305).
One that `qcan` cancels where the object cannot be read is held until it can. -/
def State.arriveAt (s : State) (h : HeldArrival) : State :=
  let b := s.barAt h.place
  let d := squareDie h.place
  let x := s.dieAt d
  let s :=
    if (s.squareFault h.place 16).isNone && barArr b < barExp b then s.countArrival h
    else s.setDieAt d { x with heldArr := x.heldArr ++ [h] }
  s.testBarrier h.place (s.whoCtx h.who)

/-- PEND of a barrier changes by an event of an agent (R309). -/
def State.moveBarrier (s : State) (p who d : Nat) (by_ : Int) (err : Bool) : State :=
  (s.putBar who d p (barMove (s.barAt p) by_ err)).testBarrier p who

/-- Why a barrier cannot take an event: its block, its poison, its form (R286, R304, R391). -/
def State.barrierFault (s : State) (p : Nat) : Option (Nat × Nat) :=
  match s.squareFault p 16 with
  | some f => some f
  | none => if barOk (s.barAt p) then none else some (causeAccess, 14)

/-! The operations of the Square on its bytes. -/

/-- What an operation leaves in its bytes, what it returns, and its flags. -/
structure SqResult where
  new : Nat
  ret : Nat
  flags : FlagSet
  deriving DecidableEq, Repr

/-- An integer atomic (Table 12-2). -/
def intAtomic (op n old v c : Nat) : Nat :=
  let m := 256 ^ n
  let less : Bool := signedNat (8 * n) v < signedNat (8 * n) old
  match op with
  | 0 => (old + v) % m
  | 1 => old &&& v
  | 2 => old ||| v
  | 3 => old ^^^ v
  | 4 => if less then v else old
  | 5 => if less then old else v
  | 6 => min old v
  | 7 => max old v
  | 8 => v
  | _ => if old = c then v else old

/-- A floating atomic (R294). -/
def floatAtomic (op : Nat) (dbl : Bool) (old v : Nat) : Nat × FlagSet :=
  let f := if dbl then fmt64 else fmt32
  if op = 0 then f.add 0 old v else f.minMax (op == 2) old v

/-- Bin j of a cell (Table 12-5), signed. -/
def binAt (cell j : Nat) : Int := signedNat 60 (natBits cell (75 + 60 * j) (16 + 60 * j))

/-- A cell with bin j replaced. -/
def putBin (cell j : Nat) (v : Int) : Nat := putBits cell (75 + 60 * j) (16 + 60 * j) (v % 2 ^ 60).toNat

/-- E0 of a cell. -/
def binBase (cell : Nat) : Int := signedNat 12 (natBits cell 11 0)

/-- A flag of a cell set: 12 OVF, 13 NINF, 14 PINF, 15 NAN. -/
def binFlag (cell b : Nat) : Nat := putBits cell b b 1

/-- Adds a part to bin j, with OVF when it wraps (R301). -/
def binPart (neg : Bool) (u cell j : Nat) : Nat :=
  let p := natBits u (159 - 40 * j) (120 - 40 * j)
  let t := binAt cell j + (if neg then -(p : Int) else p)
  let cell := if t < -(2 ^ 59) || 2 ^ 59 ≤ t then binFlag cell 12 else cell
  putBin cell j t

/-- Adds a value to a cell (R301): the cell, and the flags NV and NX. -/
def binAddTo (cell : Nat) (x : FVal) : Nat × FlagSet :=
  match x with
  | .nan sig => (binFlag cell 15, if sig then FlagSet.invalid else FlagSet.none)
  | .inf neg => (binFlag cell (if neg then 13 else 14), FlagSet.none)
  | .num neg m e =>
    if m = 0 then (cell, FlagSet.none)
    else
      let k := e - (binBase cell - 160)
      let u := if 0 ≤ k then m * 2 ^ k.toNat else m / 2 ^ (-k).toNat
      if 2 ^ 160 ≤ u then (binFlag cell 12, FlagSet.none)
      else
        let exact : Bool := 0 ≤ k || m % 2 ^ (-k).toNat == 0
        ([0, 1, 2, 3].foldl (binPart neg u) cell, if exact then FlagSet.none else fNx)

/-- V of a cell in units of 2^(E0 - 160) (R302). -/
def binSum (cell : Nat) : Int := ([0, 1, 2, 3].map fun j => binAt cell j * 2 ^ (120 - 40 * j)).sum

/-- The value of a cell in a format, with flags (R302). -/
def binValue (cell : Nat) (f : FpFmt) : Nat × FlagSet :=
  let fl (b : Nat) : Bool := natBits cell b b == 1
  if fl 15 || fl 12 || (fl 14 && fl 13) then f.markNfs (f.nanCode, FlagSet.invalid)
  else if fl 14 then f.markNfs (f.infCode, FlagSet.none)
  else if fl 13 then f.markNfs (f.signed true f.infCode, FlagSet.none)
  else f.markNfs (f.asConverted (f.encode 0 (ofScaled false (binSum cell) (binBase cell - 160))))

/-- One carry of a fold, from bin j to bin j - 1 (R302). -/
def binCarry (cell j : Nat) : Nat :=
  let c := binAt cell j / 2 ^ 40
  let t := binAt cell (j - 1) + c
  let cell := putBin (putBin cell j (binAt cell j - c * 2 ^ 40)) (j - 1) t
  if t < -(2 ^ 59) || 2 ^ 59 ≤ t then binFlag cell 12 else cell

/-- A cell in carried form (R302). -/
def binCarried (cell : Nat) : Nat := [3, 2, 1].foldl binCarry cell

/-- Bytes that an operation reads and writes. -/
def SqOp.span (op : SqOp) (dbl : Bool) : Nat :=
  match op with
  | .int _ _ _ | .float _ _ | .ordered _ => opBytes dbl
  | .binAdd _ | .binFold | .binInit _ => 32
  | .barInit _ | .arrive _ | .expect _ => 16

/-- The result of an operation that only reads and writes its own bytes. -/
def SqOp.result (op : SqOp) (dbl : Bool) (old : Nat) : SqResult :=
  let f := if dbl then fmt64 else fmt32
  match op with
  | .int k v c => ⟨intAtomic k (opBytes dbl) old v.toNat c.toNat, old, FlagSet.none⟩
  | .float k v => let r := floatAtomic k dbl old v.toNat; ⟨r.1, old, r.2⟩
  | .binAdd v => let r := binAddTo old (f.decode v.toNat); ⟨r.1, 0, r.2⟩
  | .binFold => let r := binValue old f; ⟨binCarried old, r.1, r.2⟩
  | .binInit v => ⟨wordBits v 11 0, 0, FlagSet.none⟩
  | .barInit v => ⟨wordBits v 19 0 + barPhase old * 2 ^ 40, 0, FlagSet.none⟩
  | .ordered _ | .arrive _ | .expect _ => ⟨old, 0, FlagSet.none⟩

/-! A request is applied (R287, R288, R290). -/

/-- Contexts that wait for room in one context's own queue try again (Table 17-5, kind 11). -/
def State.noteOwnLeft (s : State) (c : CtxId) (q who : Nat) : State :=
  s.wakeAll who fun k w => k == c && w == .queueFull q

/-- A context that drains for `done` learns which agent acted last (Table 17-5, kind 12). -/
def State.drainSetter (s : State) (c : CtxId) (who : Nat) : State :=
  let x := s.ctxAt c
  if x.status = .waiting .doneDrain then s.setCtxAt c { x with setter := who } else s

/-- The head entry of the queue of the context in focus leaves it (R287). An ordered add has not ended by it (R296). -/
def State.leaveSq (s : State) (r : SqRequest) (st : OpState) : State :=
  let s := { s with ctx := { s.ctx with sq := s.ctx.sq.filter fun e => e.opn != r.opn } }
  let s := match r.op with
    | .ordered _ => s
    | _ => s.closeOp s.foc 6
      { units := if st = OpState.done then 1 else 0, opn := r.opn, cause := 0, state := st, bytes := 0, faddr := 0 }
  let who := s.whoDie 4 (squareDie r.place)
  (s.noteOwnLeft s.foc 6 who).drainSetter s.foc who

/-- taddr of a request's fault. -/
def State.requestTaddr (s : State) (r : SqRequest) (cause : Nat) : Word :=
  s.squareTaddr cause r.bundle r.addr r.place (r.op.span r.dbl)

/-- The head entry stops with a fault (R288): a PAGE-FAULT goes to the granger first. -/
def State.stopSq (s : State) (r : SqRequest) (f : Nat × Nat) : State :=
  let mark (e : SqRequest) : SqRequest := if e.opn = r.opn then { e with fault := some (f.1, f.2, f.1 != causePageFault) } else e
  let s := { s with ctx := { s.ctx with sq := s.ctx.sq.map mark } }
  if f.1 = causePageFault then s
  else s.postEngine s.foc (s.requestTaddr r f.1) (engineInfo r.slot 6 false f.1 f.2 r.opn)

/-- Why a request cannot be applied: its block, poison that it would read, a malformed barrier (R286, R391, R304). -/
def State.requestFault (s : State) (r : SqRequest) : Option (Nat × Nat) :=
  match r.op with
  | .arrive _ | .expect _ => s.barrierFault r.place
  | .binInit _ => if s.squareBacked r.place then none else some (causePageFault, 6)
  | .ordered _ => none
  | .int _ _ _ | .float _ _ | .binAdd _ | .binFold | .barInit _ => s.squareFault r.place (r.op.span r.dbl)

/-- A request of the task in focus makes its arrival (R307) with the ordered adds it has claimed (Table 12-4). -/
def State.makeArrival (s : State) (r : SqRequest) (harvest err : Bool) : State :=
  let own (a : OrderedAdd) : Bool := a.claim == some r.opn
  let h : HeldArrival :=
    { place := r.place, who := s.foc, launch := (s.ctx.task.map Task.launch).getD 0
      task := (s.ctx.task.map Task.index).getD 0, harvest := harvest, xd := r.xd, opn := r.opn, err := err
      adds := s.ctx.ordSet.filter own }
  State.arriveAt { s with ctx := { s.ctx with ordSet := s.ctx.ordSet.filter fun a => !own a } } h

/-- Applies the head request of the context in focus. -/
def State.applySq (s : State) (r : SqRequest) : State :=
  match s.requestFault r with
  | some f => s.stopSq r f
  | none =>
    let who := s.self
    let s := match r.op with
      | .ordered _ => s
      | .arrive harvest => s.makeArrival r harvest false
      | .expect v => s.moveBarrier r.place who s.foc.die v.toNat false
      | .int _ _ _ | .float _ _ | .binAdd _ | .binFold | .binInit _ | .barInit _ =>
        let n := r.op.span r.dbl
        let out := r.op.result r.dbl (s.homeNat r.place n)
        let s := s.performWrite (some s.foc) who r.seq s.foc.die (cellsAt r.place (leBytes n out.new))
        { s with ctx := s.ctx.receive r.xd (word out.ret) out.flags }
    s.leaveSq r .done

/-- The head request of the context in focus may be applied (R273, R284, R292): its joins are over, the task's earlier
accesses to its bytes are performed, and before a release all its earlier accesses are. -/
def State.sqReady (s : State) (r : SqRequest) : Bool :=
  let n := r.op.span r.dbl
  r.fault.isNone && s.joined s.foc r.after &&
    { s.ctx with sq := [] }.clearBefore r.seq (within r.place n) (within r.place n) &&
    (!r.rel || (s.readsDone ⟨.rel, s.squareScope r.place, r.seq⟩ && s.writesDone ⟨.rel, s.squareScope r.place, r.seq⟩))

/-- R290: the Square applies, or accepts into a batch, the oldest request of a context. -/
def execSquareRequestApply (c : CtxId) (s : State) : Out :=
  if !c.ok then .fault .noSuchAgent
  else
    let t := s.focusOn c
    match t.ctx.sq with
    | [] => .next s
    | r :: _ => if t.sqReady r then .next (t.applySq r) else .next s

/-- A batch that is closed and may be applied (R295, R298). -/
def State.batchReady (s : State) (b : Batch) : Bool :=
  b.closed && b.fault.isNone && s.accepted b

/-- R296: the oldest closed batch of a die is applied, and the phase it holds up completes (R305). -/
def execOrderedBatchApply (d : Nat) (s : State) : Out :=
  if 16 ≤ d then .fault .noSuchAgent
  else match (s.dieAt d).batches.findIdx? s.batchReady with
    | none => .next s
    | some k =>
      let bar := ((s.dieAt d).batches[k]?).bind Batch.barrier
      let t := s.applyBatch d k
      match bar with
      | some p => .next (if (t.phaseBatch p).isNone then t.testBarrier p (t.whoDie 4 d) else t)
      | none => .next t

/-! Resolution of faults (R288, R298). -/

/-- The batch stopped at a request of the context in focus: its die and its index. -/
def State.stoppedBatch (s : State) : Option (Nat × Nat) :=
  [s.foc.die, 2 * (s.foc.die / 2), 2 * (s.foc.die / 2) + 1].findSome? fun d =>
    ((s.dieAt d).batches.findIdx? fun b =>
      b.fault.isSome && (sortBy OrderedAdd.le b.adds).head?.any fun a => s.ctx.isTask a.launch a.task).map fun k => (d, k)

/-- `qrty` on `sq`: the faulted entry, or the batch stopped at a request of the task, goes on (R288, R298). -/
def State.retrySq (s : State) : State :=
  if s.ctx.sq.any fun r => r.fault.isSome then
    { s with ctx := { s.ctx with sq := s.ctx.sq.map fun r => { r with fault := none } } }
  else match s.stoppedBatch with
    | none => s
    | some (d, k) =>
      let bs := (s.dieAt d).batches
      s.setBatches d (bs.mapIdx fun i b => if i = k then { b with fault := none } else b)

/-- `qcan` on `sq`: the faulted request is discarded; an arrival is counted with ERR, and an ordered add leaves the
default NaN in its register (R288, R298, R307). -/
def State.cancelSq (s : State) : State :=
  match s.ctx.sq.find? fun r => r.fault.isSome with
  | some r =>
    let s := match r.op with
      | .arrive harvest => s.makeArrival r harvest true
      | _ => s
    s.leaveSq r .cancelled
  | none => match s.stoppedBatch with
    | none => s
    | some (d, k) =>
      let bs := (s.dieAt d).batches
      match bs[k]? with
      | none => s
      | some b => match sortBy OrderedAdd.le b.adds with
        | [] => s
        | a :: as =>
          let f := if a.dbl then fmt64 else fmt32
          let s := s.toTask a.launch a.task fun x =>
            (x.receive a.xd (word f.nanCode) FlagSet.none).closed 6 (a.ended .cancelled)
          s.setBatches d (bs.set k { b with adds := as, fault := none })

/-! Waits on barriers and words (R308, R310 to R312). -/

/-- The place that a wait on a word or a `wake` names (R288, R310). `align` is 1 for `wake`. -/
def State.checkWord (s : State) (a : Word) (align : Nat) : Except MemFault Nat :=
  if wordBits a 63 32 ≠ 0 then .error ⟨causeAccess, a, 3⟩
  else match winOf (locOf a) with
  | none => .error ⟨causeAccess, a, 1⟩
  | some w =>
    if w ≠ .crib ∧ w ≠ .swizzled ∧ w ≠ .square ∧ w ≠ .squareOther then .error ⟨causeAccess, a, 4⟩
    else if locOf a % align ≠ 0 then .error ⟨causeMisalign, a, 5⟩
    else .ok (winPlace s.foc.coreId s.ctx.cview w (locOf a))

/-- A fault that the Square finds for a wait (R288): a PAGE-FAULT goes to the granger first. -/
def waitFault (f : Option (Nat × Nat)) : Option (Nat × Nat × Bool) := f.map fun f => (f.1, f.2, f.1 != causePageFault)

/-- The task in focus learns of the fault of the wait on `n` bytes at `a` that its running slot makes (R202, R288). -/
def State.tellWaiter (s : State) (w : WordWait) (a : Word) (n : Nat) : State :=
  match w.fault with
  | some (c, r, true) =>
    s.postEngine s.foc (s.squareTaddr c s.ctx.pc a w.place n) (engineInfo s.ctx.slot 6 false c r s.ctx.opn[6])
  | _ => s

/-- The running slot waits on a word, or stands at the fault that the Square found for it (R288, R308, R310). -/
def State.waitOn (s : State) (w : WordWait) (kind : Wait) (a : Word) (n : Nat) : State :=
  (State.tellWaiter { s with ctx := { s.ctx with wordWait := some w } } w a n).waitFor kind

/-- R308: returns at once when the phase has passed, else waits for it. -/
def execBwait (qd : Fin 8) (xa xb : XReg) (s : State) : Out :=
  let a := s.getX xa
  if !s.accessReady false then .next s.holdReady
  else match s.checkSquare a 16 true with
    | .error e => .next (s.memTrap e false)
    | .ok p =>
      let s := s.trimPoints
      let w : WordWait :=
        { cond := .ne, dbl := false, qd := qd, place := p, square := true, other := squareDie p != s.foc.die
          y := word ((s.getX xb).toNat % 2 ^ 32), hit := none, fault := waitFault (s.barrierFault p) }
      let b := s.barAt p
      if w.fault.isNone && barPhase b != w.y.toNat then
        .next ((s.setQ qd (barLerr b == 1)).nextSeq.orderPoint .acq (s.squareScope p))
      else .next (s.waitOn w (.barrier 2 a) a 16)

/-- A wait on a barrier returns (R308): an acquire, and the slot commits; a participant of a strict merge with conflicts
takes HARVEST-CONFLICT after it (R279). -/
def State.barrierReturn (s : State) (p : Nat) (qd : Option (Fin 8)) (conflict : Option (Word × Nat)) : State :=
  let s := qd.elim s fun q => s.setQ q (barLerr (s.barAt p) == 1)
  let s := s.nextSeq.orderPoint .acq (s.squareScope p)
  match conflict with
  | some (a, n) => s.commitStop causeHarvest a (word (min n (2 ^ 32 - 1)))
  | none => s.commitSlot

/-- R308: a wait on a barrier whose phase has passed returns. -/
def execBarrierWaitReturn (c : CtxId) (s : State) : Out :=
  if !c.ok then .fault .noSuchAgent
  else
    let t := s.focusOn c
    let i := t.ctx.ib.map fun ws => slotInstrD ws t.ctx.slot
    match t.ctx.status, i with
    | .waiting (.barrier 2 _), some (.bwait qd _ _) => match t.ctx.wordWait with
      | some w =>
        if w.fault.isNone && (t.squareFault w.place 16).isNone && barPhase (t.barAt w.place) != w.y.toNat then
          .next (State.barrierReturn { t with ctx := { t.ctx with wordWait := none } } w.place (some qd) none)
        else .next s
      | none => .next s
    | .waiting (.barrier _ _), some i =>
      match t.ctx.arrived.find? fun a => a.bundle == t.ctx.pc && a.slot == t.ctx.slot with
      | some a =>
        if a.conflict.isSome && t.strideBusy then .next s
        else if (t.squareFault a.place 16).isNone && a.phase.any (· != barPhase (t.barAt a.place)) then
          let t := { t with ctx := { t.ctx with
            arrived := t.ctx.arrived.filter fun e => !(e.bundle == a.bundle && e.slot == a.slot) } }
          .next (t.barrierReturn a.place (match i with
            | .arrwt qd _ => some qd
            | _ => none) a.conflict)
        else .next s
      | none => .next s
    | _, _ => .next s

/-- R310: returns at once when the condition holds, else waits. -/
def execWaitw (cond : WCond) (dbl : Bool) (qd : Fin 8) (xa xb : XReg) (s : State) : Out :=
  let a := s.getX xa
  let n := opBytes dbl
  if !s.accessReady false then .next s.holdReady
  else match s.checkWord a n with
    | .error e => .next (s.memTrap e false)
    | .ok p => match if isSquare p then none else s.poisonIn p n with
      | some e => .next (s.stop causeEcc (a + word e - word p) 0)
      | none => match s.watched (locsOf a n) true false with
        | some w => .next (s.watchTrap a w false)
        | none =>
          if !s.ctx.clearBefore s.ctx.seq (within p n) (within p n) then .next s.holdReady
          else
            let s := s.trimPoints
            let w : WordWait :=
              { cond := cond, dbl := dbl, qd := qd, place := p, square := isSquare p
                other := isSquare p && squareDie p != s.foc.die, y := s.getX xb, hit := none
                fault := if isSquare p then waitFault (s.squareFault p n) else none }
            if w.fault.isNone && s.testWait s.foc.die w then
              .next ((s.setQ qd true).nextSeq.orderPoint .acq (if w.other then .pkg else .die))
            else .next (s.waitOn w (.word a) a n)

/-- R288: the granger has finished with a PAGE-FAULT of the wait of the context in focus: the Square tests the word, or the
task learns of the fault. -/
def State.passWait (s : State) (w : WordWait) (f : Nat × Nat × Bool) (serviced : Bool) : State :=
  let put (a : Word) (n : Nat) (w : WordWait) : State :=
    State.tellWaiter { s with ctx := { s.ctx with wordWait := some w } } w a n
  let after (g : Option (Nat × Nat)) : Option (Nat × Nat × Bool) :=
    if serviced then waitFault g else some (f.1, f.2.1, true)
  match s.ctx.status with
  | .waiting (.barrier _ a) => put a 16 { w with fault := after (s.barrierFault w.place) }
  | .waiting (.word a) =>
    let w := { w with fault := after (s.squareFault w.place w.bytes) }
    put a w.bytes { w with hit := if w.fault.isNone && s.testWait s.foc.die w then some true else none }
  | _ => s

/-- R312: a wait that a write satisfied or a `wake` ended returns. -/
def execWaitwReturn (c : CtxId) (s : State) : Out :=
  if !c.ok then .fault .noSuchAgent
  else
    let t := s.focusOn c
    match t.ctx.status, t.ctx.wordWait with
    | .waiting (.word _), some w => match w.hit with
      | none => .next s
      | some ok =>
        let t := State.setQ { t with ctx := { t.ctx with wordWait := none } } w.qd ok
        let t := if ok then t.nextSeq.orderPoint .acq (if w.other then .pkg else .die) else t
        .next (t.endWait (if ok then 0 else 1)).commitSlot
    | _, _ => .next s

/-- R311: every waiter on the granule tests its condition once more, and returns with the result. -/
def execWake (xa : XReg) (s : State) : Out :=
  match s.checkWord (s.getX xa) 1 with
  | .error e => .next (s.memTrap e false)
  | .ok p =>
    .next (s.knownCtxs.foldl (fun t c =>
      let x := t.ctxAt c
      match x.status, x.wordWait with
      | .waiting (.word _), some w =>
        if t.testable w && wordOf w.place == wordOf p then
          t.setCtxAt c { x with wordWait := some { w with hit := some (t.testWait c.die w) }, setter := s.self }
        else t
      | _, _ => t) s)

/-! Ordering instructions (R283, R284). -/

/-- R283: an ordering event, and from die scope on a synchronisation point of ordered adds (Table 12-4). -/
def execFence (kind : FenceKind) (scope : Scope) (s : State) : Out :=
  let s := s.trimPoints.orderPoint kind scope
  .next (if scopeOrders scope 2 then s.closeSet else s)

/-- The outstanding operations of the context in focus in a queue, by issue number (R284). -/
def State.outstanding (s : State) (q : Nat) : List Nat :=
  match q with
  | 4 => (s.core.ppq.filter fun e => e.who == s.foc).map PpEntry.opn
  | 5 => (s.core.mq.filter fun e => e.who == s.foc).map MqEntry.opn
  | 6 => (s.ctx.sq.map SqRequest.opn ++ (s.openAdds s.foc).map OrderedAdd.opn).eraseDups
  | 7 => s.ctx.xiq.map XiEntry.opn
  | q => ((s.core.cq.getD q []).filter fun o => o.who == s.foc).map CopyOp.opn

/-- The task in focus may name a copy queue (R237). -/
def State.mayQueue (s : State) (q : Nat) : Bool := s.ctx.task.any fun t => t.cqm / 2 ^ q % 2 == 1

/-- R284. -/
def execQfence (mask : Fin 256) (s : State) : Out :=
  let qs := (List.range 8).filter fun q => mask.val / 2 ^ q % 2 == 1
  if qs.any fun q => q < 4 && !s.mayQueue q then .next (s.accessTrap 0)
  else
    let all := qs.flatMap fun q => (s.outstanding q).map fun n => (q, n)
    let joins := qs.foldl (fun l q => assocSet l q (((l.lookup q).getD [] ++ all).eraseDups)) s.ctx.joins
    .next { s with ctx := { s.ctx with joins := joins } }

end Sys2Proof.Machine
end

