-- ==== Sys2Proof/Machine/Fabric.lean ====
section
/-! DEFINITION. Switch groups and apertures (R319 to R321), and what an engine reaches and how it reads and writes
(R244, R246, R267, R391). -/

namespace Sys2Proof.Machine

/-- A launch by its handle. -/
def State.launchOf (s : State) (h : Nat) : Option Launch := s.launches.find? fun l => l.handle == h

/-- The launch of the task in focus. -/
def State.myLaunch (s : State) : Option Launch := s.ctx.task.bind fun t => s.launchOf t.launch

/-- A group entry of a launch on a die (R320). -/
def Launch.entry (l : Launch) (d g : Nat) : Option GroupEntry :=
  (l.groups.find? fun e => e.1 == d && e.2.1 == g).map fun e => e.2.2

/-- The group entries of the launch of the task in focus on its die, in order (R320). -/
def State.myEntries (s : State) : List GroupEntry :=
  s.myLaunch.elim [] fun l => (List.range 8).filterMap (l.entry s.foc.die)

/-- The entry of which an address is a multicast address of the task in focus: the lowest-numbered one (R321). -/
def State.aperture (s : State) (a : Word) : Option GroupEntry := s.myEntries.find? fun g => g.covers a.toNat

/-- The member dies of a switch group in rank order (R319): below 16 a die of this quarter, and from 16 one beyond it, by
its package and die (log 64). -/
def State.membersOf (s : State) (swg : Nat) : List Nat :=
  ((s.groups.find? fun g => g.swg == swg).map SwitchGroup.members).getD []

/-- The member view of a switch group on a die (R319). -/
def State.viewOf (s : State) (d swg : Nat) : Option MemberView := (s.dieAt d).views.find? fun v => v.swg == swg

/-- A member's own entry for a switch group, with its launch (R321): system software gives a group to one launch per die
at a time (R319). -/
def State.memberEntry (s : State) (m swg : Nat) : Option (Launch × GroupEntry) :=
  s.launches.findSome? fun l => (List.range 8).findSome? fun g =>
    ((l.entry m g).filter fun e => e.swg == swg).map fun e => (l, e)

/-- The holder number of a die's collective engine in its translation buffers. -/
def collectiveOwner : Nat := 97

/-- `n` bytes at an offset of a member's receive area, checked by its die under R82 as an engine access to translated
memory (R321): reason 46 for an empty entry. -/
def State.checkMember (s : State) (m swg off n : Nat) (write : Bool) : Except MemFault Found :=
  match s.memberEntry m swg with
  | none => .error ⟨0, word off, 46⟩
  | some (l, e) =>
    let a := word (e.rbase + off)
    let loc := locOf a
    if !keyOk a then .error ⟨causeAccess, a, 3⟩
    else match winOf loc with
      | none => .error ⟨causeAccess, a, 1⟩
      | some w =>
        if w.base + w.size < loc + n then .error ⟨causeAccess, a, 2⟩
        else if w ≠ .mapped then .error ⟨causeAccess, a, 4⟩
        else s.checkMapped m collectiveOwner l.asn l.root ⟨write, false, true, false⟩ a n

/-! What an engine of the core in focus reaches (R244). -/

/-- An engine's access of `n` bytes for the context in focus, under a latched view (R89, R244). -/
def State.checkEngine (s : State) (view a : Word) (n : Nat) (write : Bool) : Except MemFault Found :=
  let loc := locOf a
  if !keyOk a then .error ⟨causeAccess, a, 3⟩
  else match winOf loc with
    | none => .error ⟨causeAccess, a, 1⟩
    | some w =>
      if w.base + w.size < loc + n then .error ⟨causeAccess, a, 2⟩
      else if w = .square ∨ w = .squareOther ∨ w = .spatial then .error ⟨causeAccess, a, 4⟩
      else if w = .barn ∧ s.foc.core = 96 then .error ⟨causeAccess, a, 1⟩
      else if w = .mapped then
        s.checkMapped s.foc.die s.foc.core s.space.1 s.space.2 ⟨write, false, false, s.ctx.ctrl⟩ a n
      else .ok ⟨(List.range n).map fun k => winPlace s.foc.coreId view w (loc + k), [], []⟩

/-- A list of bytes as an engine reads it: the places with the translations to hold, or the first byte that cannot be
read (R245, R391). -/
def State.readAddrs (s : State) (view : Word) : List Word → Except MemFault (List Nat × List TlbEntry)
  | [] => .ok ([], [])
  | a :: as => match s.checkEngine view a 1 false with
    | .error e => .error e
    | .ok r =>
      if r.places.any fun p => s.poison.contains (wordOf p) then .error ⟨causeEcc, a, 0⟩
      else match s.readAddrs view as with
        | .error e => .error e
        | .ok t => .ok (r.places ++ t.1, r.held ++ t.2)

/-- A byte to write: the die on which it is performed, and its place. -/
structure Target where
  die : Nat
  place : Nat
  deriving DecidableEq, Repr

/-- Where a byte of a destination goes: one place, or, for a multicast address of some entries, a place on every member of
the group in this quarter (R250, R321; log 64). -/
def State.targetsOf (s : State) (view : Word) (gs : List GroupEntry) (a : Word) :
    Except MemFault (List Target × List TlbEntry) :=
  match gs.find? fun g => g.covers a.toNat with
  | some g =>
    let off := a.toNat - g.abase
    ((s.membersOf g.swg).filter (· < 16)).foldl (fun acc m => match acc with
      | .error e => .error e
      | .ok ts => match s.checkMember m g.swg off 1 true with
        | .error _ => .error ⟨0, word off, 43⟩
        | .ok r => .ok (ts.1 ++ r.places.map fun p => ⟨m, p⟩, ts.2)) (.ok ([], []))
  | none => match s.checkEngine view a 1 true with
    | .error e => .error e
    | .ok r => .ok (r.places.map fun p => ⟨s.foc.die, p⟩, r.held)

/-- A list of destination bytes, or the first that cannot be written. -/
def State.writeAddrs (s : State) (view : Word) (gs : List GroupEntry) :
    List Word → Except MemFault (List (List Target) × List TlbEntry)
  | [] => .ok ([], [])
  | a :: as => match s.targetsOf view gs a with
    | .error e => .error e
    | .ok r => match s.writeAddrs view gs as with
      | .error e => .error e
      | .ok t => .ok (r.1 :: t.1, r.2 ++ t.2)

/-- Cells by aligned 8-byte word, in order (R246). -/
def cellWords : List Host.Cell → List (List Host.Cell)
  | [] => []
  | c :: cs => match cellWords cs with
    | (b :: w) :: ws => if wordOf c.1 = wordOf b.1 then (c :: b :: w) :: ws else [c] :: (b :: w) :: ws
    | ws => [c] :: ws

/-- Performs cells on a die for an agent, word by word (R246). -/
def State.unitCells (s : State) (who d : Nat) (cs : List Host.Cell) : State :=
  (cellWords cs).foldl (fun s w => s.performWrite none who 0 d w) s

/-- Performs bytes at their targets for an agent of the die in focus: what the die has seen goes before them to another
member (R267, R334). -/
def State.targetWrite (s : State) (who : Nat) (ts : List (List Target)) (bs : List Byte) : State :=
  let d := s.foc.die
  let all := (ts.zip bs).flatMap fun e => e.1.map fun t => (t.die, (t.place, e.2))
  ((all.map Prod.fst).eraseDups).foldl (fun s m =>
    let s := if m = d then s else s.carry d m
    s.unitCells who m ((all.filter fun e => e.1 == m).map Prod.snd)) s

/-- Places on dies other than the one in focus. -/
def State.castPlaces (s : State) (ts : List (List Target)) : List Nat :=
  (ts.flatten.filter fun t => t.die != s.foc.die).map Target.place

/-- Before a completion event is observed on a die, the writes it covers that were made on other dies are visible there
(R275). -/
def State.uncast (s : State) (d : Nat) (ps : List Nat) : State :=
  if ps.isEmpty then s else s.pullIn d (ps.map fun p => (p, 0))

/-- A multicast write to a group that some members have applied and others not yet: nothing else passes the group's
root switch between (R334). -/
def State.rootBusy (s : State) (swg : Nat) : Bool :=
  s.knownCtxs.any fun c => (s.ctxAt c).xiq.any fun e => e.rootNo.isSome && match e.op with
    | .store g _ _ left => g.swg == swg && !left.isEmpty
    | .passed _ | .bind _ _ | .reduce _ _ _ _ _ _ _ => false

/-! Barrier reports of engines (R248, R309). -/

/-- A report of bytes to a barrier by an agent of die `d`: the fault that it meets, or the state after. -/
def State.reportTo (s : State) (p who d : Nat) (bytes : Nat) : Except (Nat × Nat) State :=
  match s.barrierFault p with
  | some f => .error f
  | none => .ok (s.moveBarrier p who d (-(bytes : Int)) false)

/-- An aborted arrival (R261, R309): it subtracts its bytes and sets ERR; a barrier that cannot take it is left. -/
def State.abortTo (s : State) (p who d : Nat) (bytes : Nat) : State :=
  match s.barrierFault p with
  | some _ => s
  | none => s.moveBarrier p who d (-(bytes : Int)) true

/-- The place of the barrier that a shape or descriptor word binds for an agent of a core (R248): its Square address
lies in either die's Square space. -/
def boundBarrier (p : CoreId) (bidx : Nat) : Nat :=
  let loc := Win.square.base + 16 * bidx
  winPlace p 0 (if loc < Win.squareOther.base then .square else .squareOther) loc

/-- The address of that barrier. -/
def boundAddr (bidx : Nat) : Word := word (Win.square.base + 16 * bidx)

end Sys2Proof.Machine
end

