-- ==== Sys2Proof/Machine/Vector.lean ====
section
/-! DEFINITION. Vector instructions of majors 0x18 to 0x1b: elementwise arithmetic (R120 to R122), comparison and masks
(R123 to R126), moves, reductions and lane movers (R127 to R131), with the domain tags of R118. -/

namespace Sys2Proof.Machine

/-! Elements. -/

/-- A lane's integer value (R117). -/
def elInt (et : ElTy) (a : Nat) : Int := if et.isSigned then signedNat et.lw a else a

/-- An integer as a lane: its low bits (R117). -/
def elOf (et : ElTy) (n : Int) : Nat := (n % 2 ^ et.lw).toNat

/-- The sign bit of a lane. -/
def elTop (et : ElTy) : Nat := 2 ^ (et.lw - 1)

/-- An operation of an element: by its floating format, or on integers (R114, R117). -/
def elOp (et : ElTy) (fp : FpFmt → Nat × FlagSet) (int : Int) : Nat × FlagSet :=
  if et.isFloat then fp et.fmt else (elOf et int, FlagSet.none)

/-- Rows of Table 5-4 that add, subtract and multiply. -/
def elAdd (rm : Nat) (et : ElTy) (a b : Nat) : Nat × FlagSet := elOp et (·.add rm a b) (a + b)
def elSub (rm : Nat) (et : ElTy) (a b : Nat) : Nat × FlagSet :=
  elOp et (fun f => f.finish rm (exactAdd rm (f.decode a) (f.decode b).neg)) (a - b)
def elMul (rm : Nat) (et : ElTy) (a b : Nat) : Nat × FlagSet := elOp et (·.mul rm a b) (a * b)

/-- `vfma`, `vfms` and `vfnma`: a x b with its sign, plus d with its sign, rounded once (R114, Table 5-4). -/
def elFma (rm : Nat) (et : ElTy) (negP negD : Bool) (a b d : Nat) : Nat × FlagSet :=
  elOp et
    (fun f =>
      let x := f.decode a
      let z := f.decode d
      f.finish rm (exactFma rm (if negP then x.neg else x) (f.decode b) (if negD then z.neg else z)))
    ((if negP then -(a * b : Int) else a * b) + if negD then -(d : Int) else d)

/-- `vmin` and `vmax` (R121, R117). -/
def elMinMax (et : ElTy) (wantMax : Bool) (a b : Nat) : Nat × FlagSet :=
  elOp et (·.minMax wantMax a b) (if wantMax then max (elInt et a) (elInt et b) else min (elInt et a) (elInt et b))

/-- `vabs` (R121). -/
def elAbs (et : ElTy) (a : Nat) : Nat :=
  if et.isFloat then a % elTop et else if et.isSigned then elOf et (elInt et a).natAbs else a

/-- `vneg` (R121). -/
def elNeg (et : ElTy) (a : Nat) : Nat := if et.isFloat then a ^^^ elTop et else elOf et (-(a : Int))

/-- Shifts of a lane by the whole of another (R122). -/
def elShl (et : ElTy) (a n : Nat) : Nat := if n < et.lw then a * 2 ^ n % 2 ^ et.lw else 0
def elShr (et : ElTy) (a n : Nat) : Nat := if n < et.lw then a / 2 ^ n else 0
def elSar (et : ElTy) (a n : Nat) : Nat := elOf et (signedNat et.lw a / 2 ^ min n (et.lw - 1))

/-- Truth of a `vcmp` condition and its flags (R124). -/
def elCmp (et : ElTy) (c : VCond) (a b : Nat) : Bool × FlagSet :=
  if et.isFloat then
    let x := et.fmt.decode a
    let y := et.fmt.decode b
    let quiet := snanFlag [x, y]
    let any := if x.isNan || y.isNan then FlagSet.invalid else FlagSet.none
    match c with
    | .eq => (x.eqv y, quiet)
    | .ne => (!x.eqv y, quiet)
    | .lt => (!x.isNan && !y.isNan && x.lt y, any)
    | .le => (!x.isNan && !y.isNan && !y.lt x, any)
  else
    let x := elInt et a
    let y := elInt et b
    (match c with
      | .eq => x == y
      | .ne => x != y
      | .lt => x < y
      | .le => x ≤ y, FlagSet.none)

/-! Shapes of vector instructions. -/

/-- The tag checks of a slot pass, or DOMAIN is raised before any effect (R118). -/
def tagged (s : State) (ok : Bool) (go : Out) : Out := if ok then go else .next s.domainTrap

/-- Lanes of a register that a slot works on (R111). -/
def State.lanesOf (s : State) (et : ElTy) (w : Width) (v : VReg) : List Nat :=
  lanes (s.getV v) et.lw (laneCount w et.lw)

/-- Lane by lane from va and vb. -/
def vbinary (s : State) (et : ElTy) (w : Width) (vd va vb : VReg) (tag : BitVec 4) (f : Nat → Nat → Nat × FlagSet) :
    Out :=
  giveLanes s vd et.lw (List.zipWith f (s.lanesOf et w va) (s.lanesOf et w vb)) tag

/-- Lane by lane from va alone, without flags. -/
def vunary (s : State) (et : ElTy) (w : Width) (vd va : VReg) (tag : BitVec 4) (f : Nat → Nat) : Out :=
  giveV s vd et.lw ((s.lanesOf et w va).map f) tag

/-- Lane by lane from va, vb and vd. -/
def vternary (s : State) (et : ElTy) (w : Width) (vd va vb : VReg) (f : Nat → Nat → Nat → Nat × FlagSet) : Out :=
  giveLanes s vd et.lw
    (List.zipWith (fun g d => g d) (List.zipWith f (s.lanesOf et w va) (s.lanesOf et w vb)) (s.lanesOf et w vd)) 0

/-- The tags of registers are all 0 (Table 5-1). -/
def State.tags0 (s : State) (vs : List VReg) : Bool := vs.all fun v => s.getTag v == 0

/-- A register's tag is none that every instruction refuses (R220). -/
def State.anyTag (s : State) (v : VReg) : Bool := tagOk (s.getTag v).toNat

/-- Two registers carry one tag (Table 5-1), which is not malformed (R220). -/
def State.sameTag (s : State) (a b : VReg) : Bool := s.getTag a == s.getTag b && s.anyTag a

/-- cstat.RM of the context in focus. -/
def State.rm (s : State) : Nat := rmOf s.ctx.cstat

/-! Major 0x18. -/

/-- R120. -/
def execVadd (et : ElTy) (w : Width) (vd va vb : VReg) (s : State) : Out :=
  tagged s (s.sameTag va vb) (vbinary s et w vd va vb (s.getTag va) (elAdd s.rm et))
/-- R120. -/
def execVsub (et : ElTy) (w : Width) (vd va vb : VReg) (s : State) : Out :=
  tagged s (s.sameTag va vb) (vbinary s et w vd va vb (s.getTag va) (elSub s.rm et))
/-- R120. -/
def execVmul (et : ElTy) (w : Width) (vd va vb : VReg) (s : State) : Out :=
  tagged s ((s.getTag va == 0 || s.getTag vb == 0) && s.anyTag va && s.anyTag vb)
    (vbinary s et w vd va vb (if s.getTag va = 0 then s.getTag vb else s.getTag va) (elMul s.rm et))
/-- R120. -/
def execVfma (et : ElTy) (w : Width) (vd va vb : VReg) (s : State) : Out :=
  tagged s (s.tags0 [va, vb, vd]) (vternary s et w vd va vb (elFma s.rm et false false))
/-- R120. -/
def execVfms (et : ElTy) (w : Width) (vd va vb : VReg) (s : State) : Out :=
  tagged s (s.tags0 [va, vb, vd]) (vternary s et w vd va vb (elFma s.rm et false true))
/-- R120. -/
def execVfnma (et : ElTy) (w : Width) (vd va vb : VReg) (s : State) : Out :=
  tagged s (s.tags0 [va, vb, vd]) (vternary s et w vd va vb (elFma s.rm et true false))
/-- R121. -/
def execVmin (et : ElTy) (w : Width) (vd va vb : VReg) (s : State) : Out :=
  tagged s (s.tags0 [va, vb]) (vbinary s et w vd va vb 0 (elMinMax et false))
/-- R121. -/
def execVmax (et : ElTy) (w : Width) (vd va vb : VReg) (s : State) : Out :=
  tagged s (s.tags0 [va, vb]) (vbinary s et w vd va vb 0 (elMinMax et true))
/-- R121. -/
def execVabs (et : ElTy) (w : Width) (vd va : VReg) (s : State) : Out :=
  tagged s (s.tags0 [va]) (vunary s et w vd va 0 (elAbs et))
/-- R121. -/
def execVneg (et : ElTy) (w : Width) (vd va : VReg) (s : State) : Out :=
  tagged s (s.anyTag va) (vunary s et w vd va (s.getTag va) (elNeg et))

/-- A bitwise operation of all the bits below W (Table 5-4). -/
def vbits (s : State) (w : Width) (vd va vb : VReg) (f : VWord → VWord → VWord) : Out :=
  tagged s (s.tags0 [va, vb])
    (.next (s.setV vd (BitVec.ofNat 1024 ((f (s.getV va) (s.getV vb)).toNat % 2 ^ widthBits w)) 0))

/-- R120. -/
def execVand (_et : ElTy) (w : Width) (vd va vb : VReg) (s : State) : Out := vbits s w vd va vb (· &&& ·)
/-- R120. -/
def execVor (_et : ElTy) (w : Width) (vd va vb : VReg) (s : State) : Out := vbits s w vd va vb (· ||| ·)
/-- R120. -/
def execVxor (_et : ElTy) (w : Width) (vd va vb : VReg) (s : State) : Out := vbits s w vd va vb (· ^^^ ·)
/-- R120. -/
def execVandn (_et : ElTy) (w : Width) (vd va vb : VReg) (s : State) : Out := vbits s w vd va vb fun a b => a &&& ~~~b

/-- A shift of integer lanes (R122). -/
def vshift (s : State) (et : ElTy) (w : Width) (vd va vb : VReg) (f : Nat → Nat → Nat) : Out :=
  tagged s (s.tags0 [va, vb]) (giveV s vd et.lw (List.zipWith f (s.lanesOf et w va) (s.lanesOf et w vb)) 0)

/-- R122. -/
def execVshl (et : ElTy) (w : Width) (vd va vb : VReg) (s : State) : Out := vshift s et w vd va vb (elShl et)
/-- R122. -/
def execVshr (et : ElTy) (w : Width) (vd va vb : VReg) (s : State) : Out := vshift s et w vd va vb (elShr et)
/-- R122. -/
def execVsar (et : ElTy) (w : Width) (vd va vb : VReg) (s : State) : Out := vshift s et w vd va vb (elSar et)
/-- R120. -/
def execVcpy (et : ElTy) (w : Width) (vd va : VReg) (s : State) : Out :=
  tagged s (s.anyTag va) (vunary s et w vd va (s.getTag va) id)

/-! Major 0x19. -/

/-- R124. -/
def execVcmp (c : VCond) (et : ElTy) (w : Width) (md : Fin 8) (va vb : VReg) (s : State) : Out :=
  let rs := List.zipWith (elCmp et c) (s.lanesOf et w va) (s.lanesOf et w vb)
  tagged s (s.tags0 [va, vb])
    (flagged s (rs.map Prod.snd) fun s => s.setM md (maskOf et.lw (rs.map Prod.fst)))

/-- R125. -/
def execVsel (w : Width) (vd va vb : VReg) (mn : Fin 8) (s : State) : Out :=
  let n := widthBits w / 8
  let m := s.getM mn
  let bs := (List.range n).map fun j => lane (if m.getLsbD j then s.getV va else s.getV vb).toNat 8 j
  tagged s (s.sameTag va vb) (giveV s vd 8 bs (s.getTag va))

/-- R125. -/
def execVmand (md ma mb : Fin 8) (s : State) : Out := .next (s.setM md (s.getM ma &&& s.getM mb))
/-- R125. -/
def execVmor (md ma mb : Fin 8) (s : State) : Out := .next (s.setM md (s.getM ma ||| s.getM mb))
/-- R125. -/
def execVmnot (md ma : Fin 8) (s : State) : Out := .next (s.setM md (~~~s.getM ma))

/-- The active lanes of a mask below n, rising (R112). -/
def State.activeLanes (s : State) (mn : Fin 8) (lw n : Nat) : List Nat :=
  (List.range n).filter (active (s.getM mn) lw)

/-- R126. -/
def execVmcnt (et : ElTy) (w : Width) (xd : XReg) (mn : Fin 8) (s : State) : Out :=
  giveX s xd (word (s.activeLanes mn et.lw (laneCount w et.lw)).length)

/-- R126. -/
def execVmfst (et : ElTy) (w : Width) (xd : XReg) (mn : Fin 8) (s : State) : Out :=
  giveX s xd (word ((s.activeLanes mn et.lw (laneCount w et.lw)).headD (laneCount w et.lw)))

/-! Major 0x1a. -/

/-- R128. -/
def execVbcast (et : ElTy) (w : Width) (vd : VReg) (xa : XReg) (s : State) : Out :=
  giveV s vd et.lw (List.replicate (laneCount w et.lw) (s.getX xa).toNat) 0

/-- R128. -/
def execVins (et : ElTy) (vd : VReg) (xa xb : XReg) (s : State) : Out :=
  let n := 1024 / et.lw
  let i := (s.getX xb).toNat
  let old := lanes (s.getV vd) et.lw n
  tagged s (s.tags0 [vd]) (.next (if i < n then s.setV vd (vecOf et.lw (old.set i (s.getX xa).toNat)) 0 else s))

/-- R128. -/
def execVext (et : ElTy) (xd : XReg) (va : VReg) (xb : XReg) (s : State) : Out :=
  let i := (s.getX xb).toNat
  tagged s (s.tags0 [va])
    (giveX s xd (if i < 1024 / et.lw then BitVec.ofInt 64 (elInt et (lane (s.getV va).toNat et.lw i)) else 0))

/-- A lane as the binary32 code that reductions work on, a signalling NaN staying one (R114, R129). -/
def widen (f : FpFmt) (code : Nat) : Nat :=
  match f.decode code with
  | .nan true => fmt32.infCode + 1
  | v => (fmt32.encode 0 v).1

/-- One step of a reduction on the partial results it keeps: binary32 or integer lanes (R129). -/
def redStep (rm : Nat) (et : ElTy) (op : RedOp) (a b : Nat) : Nat × FlagSet :=
  let t := if et.isFloat then .f32 else et
  let r := match op with
    | .add => elAdd rm t a b
    | .min => elMinMax t false a b
    | .max => elMinMax t true a b
  (r.1, { r.2 with nfs := false })

/-- A lane as a partial result, and a partial result as the lane written (R129). -/
def redIn (et : ElTy) (a : Nat) : Nat := if et.isFloat then widen et.fmt a else a
def redOut (rm : Nat) (et : ElTy) (a : Nat) : Nat × FlagSet :=
  if et.isFloat then fmt32.convert et.fmt rm a else (a, FlagSet.none)

/-- The tree of `vred`: halves are joined until one value is left; flags gather (R129). -/
def redTree (f : Nat → Nat → Nat × FlagSet) : Nat → List Nat → FlagSet → Nat × FlagSet
  | 0, t, fl => (t.headD 0, fl)
  | k + 1, t, fl =>
    let h := t.length / 2
    if h = 0 then (t.headD 0, fl)
    else
      let rs := List.zipWith f (t.take h) (t.drop h)
      redTree f k (rs.map Prod.fst) (fl.or (allFlags (rs.map Prod.snd)))

/-- The prefix of `vscan`: each lane's partial result with the flags of its step (R129). -/
def scanSteps (f : Nat → Nat → Nat × FlagSet) (p : Nat) : List Nat → List (Nat × FlagSet)
  | [] => []
  | a :: as => let r := f p a; r :: scanSteps f r.1 as

/-- The tag a reduction needs and gives (Table 5-1, R220). -/
def redTag (s : State) (op : RedOp) (va : VReg) : Bool := if op == .add then s.anyTag va else s.getTag va == 0

/-- R129. -/
def execVred (op : RedOp) (et : ElTy) (w : Width) (vd va : VReg) (s : State) : Out :=
  let t := (s.lanesOf et w va).map (redIn et)
  let r := redTree (redStep s.rm et op) 7 t FlagSet.none
  let o := redOut s.rm et r.1
  tagged s (redTag s op va) (giveLanes s vd et.lw [(o.1, o.2.or r.2)] (s.getTag va))

/-- R129. -/
def execVscan (op : RedOp) (et : ElTy) (w : Width) (vd va : VReg) (s : State) : Out :=
  let t := (s.lanesOf et w va).map (redIn et)
  let p := t.headD 0
  let rs := (p, FlagSet.none) :: scanSteps (redStep s.rm et op) p t.tail
  let out (r : Nat × FlagSet) : Nat × FlagSet :=
    let o := redOut s.rm et r.1
    (o.1, o.2.or r.2)
  tagged s (redTag s op va) (giveLanes s vd et.lw (rs.map out) (s.getTag va))

/-- R130. -/
def execVperm (et : ElTy) (w : Width) (vd va vb : VReg) (s : State) : Out :=
  let t := s.lanesOf et w va ++ s.lanesOf et w vb
  tagged s (s.sameTag va vb && s.getTag vd == 0)
    (giveV s vd et.lw ((s.lanesOf et w vd).map fun i => t.getD i 0) (s.getTag va))

/-- The lanes of a shuffle pattern from those of vd and va (R130). -/
def shuffle (p : ShufPat) (d a : List Nat) : List Nat :=
  let n := a.length
  let h := n / 2
  let cat := d ++ a
  match p with
  | .p0 => (List.range h).flatMap fun j => [d.getD j 0, a.getD j 0]
  | .p1 => (List.range h).flatMap fun j => [d.getD (h + j) 0, a.getD (h + j) 0]
  | .p2 => (List.range n).map fun j => cat.getD (2 * j) 0
  | .p3 => (List.range n).map fun j => cat.getD (2 * j + 1) 0
  | .p4 => a.reverse
  | .p5 => (List.range n).map fun j => a.getD (j ^^^ 1) 0

/-- A pattern reads vd (R130). -/
def ShufPat.readsD : ShufPat → Bool
  | .p4 | .p5 => false
  | _ => true

/-- R130. -/
def execVshuf (pat : ShufPat) (et : ElTy) (w : Width) (vd va : VReg) (s : State) : Out :=
  tagged s (if ShufPat.readsD pat then s.sameTag va vd else s.anyTag va)
    (giveV s vd et.lw (shuffle pat (s.lanesOf et w vd) (s.lanesOf et w va)) (s.getTag va))

/-- R130. -/
def execVslide (et : ElTy) (w : Width) (vd va : VReg) (n : Fin 32) (s : State) : Out :=
  let u := s.lanesOf et w va ++ s.lanesOf et w vd
  tagged s (s.sameTag va vd)
    (giveV s vd et.lw ((List.range (laneCount w et.lw)).map fun k => u.getD (k + n.val) 0) (s.getTag va))

/-- R130. -/
def execVcomp (et : ElTy) (w : Width) (vd va : VReg) (mn : Fin 8) (s : State) : Out :=
  let a := s.lanesOf et w va
  tagged s (s.anyTag va)
    (giveV s vd et.lw ((s.activeLanes mn et.lw (laneCount w et.lw)).map fun k => a.getD k 0) (s.getTag va))

/-! Major 0x1b. -/

/-- R131. -/
def execVpart (et : ElTy) (w : Width) (vd : VReg) (mn : Fin 8) (s : State) : Out :=
  let n := laneCount w et.lw
  let a := s.activeLanes mn et.lw n
  giveV s vd et.lw (a ++ (List.range n).filter fun k => !a.contains k) 0

/-- R131. -/
def execVgat (et : ElTy) (w : Width) (vd va vb : VReg) (s : State) : Out :=
  let a := s.lanesOf et w va
  tagged s (s.getTag vb == 0 && s.anyTag va) (giveV s vd et.lw ((s.lanesOf et w vb).map fun i => a.getD i 0) (s.getTag va))

/-- R131: in rising lane order, so a later lane wins. -/
def execVsct (et : ElTy) (w : Width) (vd va vb : VReg) (s : State) : Out :=
  let put (d : List Nat) (p : Nat × Nat) : List Nat := d.set p.1 p.2
  let ps := (s.lanesOf et w vb).zip (s.lanesOf et w va)
  tagged s (s.sameTag va vd && s.getTag vb == 0)
    (giveV s vd et.lw (ps.foldl put (s.lanesOf et w vd)) (s.getTag va))

end Sys2Proof.Machine
end

