-- ==== Sys2Proof/Machine/Convert.lean ====
section
/-! DEFINITION. Conversion and quantisation instructions, majors 0x1e and 0x1f (R149 to R162). -/

namespace Sys2Proof.Machine

/-- The threshold of an element (R150). It is of PHASE as it stands at the slot: R149 does not say whether a dithered
`vcvt` after a `vqnt` or `ppst` of its group reads it as advanced, as here (log 68). -/
def State.threshold (s : State) (j : Nat) : Nat := ditherAt ((j + s.ctx.phase.toNat) % 256)

/-- Codes of `b` bits from the low bits of a register (R93). -/
def codesOf (v : VWord) (b n : Nat) : List Nat := lanes v b n

/-- A rounding chosen by RND and DITH (R153, R154). -/
def chooseRounding (rnd : Nat) (dith : Bool) (t : Nat) : Rounding := if dith then .dither t else .mode rnd

/-- R153. -/
def execVcvt (src dst : Fmt) (rnd : Rnd) (sat dith : Bool) (w : Width) (vd va : VReg) (s : State) : Out :=
  let n := widthBits w / max src.bits dst.bits
  let cs := codesOf (s.getV va) src.bits n
  let conv (k c : Nat) : Nat × FlagSet :=
    fmtEncode dst 0 (chooseRounding rnd.code dith (s.threshold k)) sat (src.kind == .integer) (fmtDecode src 0 c)
  tagged s (s.tags0 [va]) (giveLanes s vd dst.bits (cs.mapIdx conv) 0)

/-! The quantisation descriptor (R154). -/

/-- The element format of a type et (R155). -/
def ElTy.toFmt : ElTy → Fmt
  | .bf16 => .bf16
  | .f16 => .fp16
  | .f32 | .i32 | .i16 | .i8 | .u32 | .u8 => .fp32

/-- The descriptor in the low 128 bits of a register, and its fields (Table 6-11). -/
def descOf (v : VWord) : Nat := v.toNat % 2 ^ 128
def descTexp (q : Nat) : Nat := natBits q 119 112
def descJ (q : Nat) : Nat := natBits q 110 108
def descCb (q : Nat) : Fin 4 := Fin.ofNat 4 (natBits q 107 106)
def descSat (q : Nat) : Bool := natBits q 105 105 == 1
def descDith (q : Nat) : Bool := natBits q 104 104 == 1
def descRnd (q : Nat) : Nat := natBits q 103 102
def descScl (q : Nat) : Nat := natBits q 101 100
def descFmt (q : Nat) : Fmt := fmtOfCode (natBits q 99 96)

/-- Writes a descriptor into the low 128 bits of a register, with tag 0 (R151, R157). -/
def State.putDesc (s : State) (v : VReg) (q : Nat) : State :=
  let old := (s.getV v).toNat
  s.setV v (BitVec.ofNat 1024 (old / 2 ^ 128 * 2 ^ 128 + q % 2 ^ 128)) 0

/-- A codebook register. -/
def State.getCb (s : State) (n : Fin 4) : BitVec 256 := s.ctx.cb[n]

/-- R156. -/
def execVscl (et : ElTy) (w : Width) (vd va : VReg) (s : State) : Out :=
  let q := descOf (s.getV vd)
  let vs := (s.lanesOf et w va).map et.fmt.decode
  let f := descFmt q
  let em := fmtEmax f (s.getCb (descCb q)) (descScl q != 0)
  let texp := match largestLog vs with
    | none => descTexp q
    | some l => max (descTexp q) (clampInt 0 254 (l - em + 127))
  tagged s (s.tags0 [va, vd])
    (.next ((if vs.any FVal.odd then s.raiseBit bitNFS else s).putDesc vd (putBits q 119 112 texp)))

/-- What `vqnt` derives of one sub-block before it converts (R157): the scale exponent, the MX32 code and δ. -/
structure SubScale where
  s : Int
  c : Nat
  d : Nat
  deriving DecidableEq, Repr

/-- The scale of a sub-block under a descriptor (R142, R157). -/
def subScale (q : Nat) (em : Int) (vs : List FVal) : SubScale :=
  let texp : Int := descTexp q
  let e := (largestLog vs).map (· - em)
  match descScl q with
  | 0 => ⟨0, 0, 0⟩
  | 1 => ⟨texp - 127, 0, 0⟩
  | 2 =>
    let c := e.elim 0 fun e => clampInt 0 254 (e + 127)
    ⟨(c : Int) - 127, c, 0⟩
  | _ =>
    let d := e.elim 14 fun e => clampInt 0 14 (texp - 127 - e)
    ⟨texp - 127 - d, 0, d⟩

/-- The record fields of a descriptor after a sub-block (R157). -/
def quantDesc (q : Nat) (sc : SubScale) (allZero anyOdd : Bool) : Nat :=
  let j := descJ q
  let q := if j = 0 then putBits (putBits q 63 0 0) 93 88 16 else q
  let d := if allZero then 15 else sc.d
  let q := if allZero then q else putBits q 92 92 0
  let q := if anyOdd then putBits q 93 93 1 else q
  let q := if descScl q = 2 then putBits q (8 * j + 7) (8 * j) sc.c else q
  let q := if descScl q = 3 then putBits (putBits q 7 0 (descTexp q)) (4 * j + 11) (4 * j + 8) d else q
  putBits q 110 108 ((j + 1) % 8)

/-- A code has value 0 (R157). -/
def codeZero (f : Fmt) (cb : BitVec 256) (c : Nat) : Bool := (fmtDecode f cb c).isZero

/-- R157. -/
def execVqnt (et : ElTy) (w : Width) (vd va vb : VReg) (s : State) : Out :=
  let q := descOf (s.getV vb)
  let f := descFmt q
  let cb := s.getCb (descCb q)
  let j := descJ q
  let vs := (s.lanesOf et w va).map et.fmt.decode
  let sc := subScale q (fmtEmax f cb (descScl q != 0)) vs
  let conv (k : Nat) (v : FVal) : Nat × FlagSet :=
    fmtEncode f cb (chooseRounding (descRnd q) (descDith q) (s.threshold (32 * j + k))) (descSat q) false
      (v.scale (mxShift f (descScl q) - sc.s))
  let rs := vs.mapIdx conv
  let odd := vs.any FVal.odd
  let zero := (rs.map Prod.fst).all (codeZero f cb)
  tagged s (s.tags0 [va, vb])
    (flagged (if odd then s.raiseBit bitNFS else s) (rs.map Prod.snd) fun s =>
      let s := s.setV vd (vecOf f.bits (rs.map Prod.fst)) 0
      let s := s.putDesc vb (quantDesc q sc zero odd)
      if j = 7 then { s with ctx := { s.ctx with phase := s.ctx.phase + s.ctx.dstep } } else s)

/-- The scale of sub-block J as `vdqnt` reads it (R140, R158): its code and exponent, or zero for a marked sub-block. -/
def dequantScale (q : Nat) : Option (Nat × Int) :=
  let j := descJ q
  match descScl q with
  | 0 => some (0, 0)
  | 1 => some (descTexp q, (descTexp q : Int) - 127)
  | 2 =>
    let k := natBits q (8 * j + 7) (8 * j)
    some (k, (k : Int) - 127)
  | _ =>
    let d := natBits q (4 * j + 11) (4 * j + 8)
    if d = 15 then none else some (natBits q 7 0, (natBits q 7 0 : Int) - 127 - d)

/-- R158. With vd = vb the descriptor goes over the lanes (log 68). -/
def execVdqnt (et : ElTy) (w : Width) (vd va vb : VReg) (s : State) : Out :=
  let q := descOf (s.getV vb)
  let f := descFmt q
  let cb := s.getCb (descCb q)
  let o := ElTy.toFmt et
  let cs := codesOf (s.getV va) f.bits (laneCount w et.lw)
  let rs := match dequantScale q with
    | none => cs.map fun _ => (0, FlagSet.none)
    | some (k, e) =>
      if k = 255 then cs.map fun _ => (o.nan, fNv.or fNfs)
      else cs.map fun c =>
        fmtEncode o 0 (.mode s.rm) false false ((fmtDecode f cb c).scale (e - mxShift f (descScl q)))
  tagged s (s.tags0 [va, vb])
    (flagged s (rs.map Prod.snd) fun s =>
      (s.setV vd (vecOf et.lw (rs.map Prod.fst)) 0).putDesc vb (putBits q 110 108 ((descJ q + 1) % 8)))

/-! Codebooks. -/

/-- R159. -/
def execCbld (cb : Fin 4) (va : VReg) (s : State) : Out :=
  tagged s (s.tags0 [va])
    (.next { s with ctx := { s.ctx with defer := s.ctx.defer ++ [.book cb (BitVec.ofNat 256 (s.getV va).toNat)] } })

/-- The codebook format that a codebook instruction names (R155). -/
def cbFmt (cb2 : Bool) : Fmt := if cb2 then .cb2 else .cb4

/-- R160. -/
def execCbq (cb2 : Bool) (et : ElTy) (w : Width) (vd va : VReg) (cb : Fin 4) (s : State) : Out :=
  let f := cbFmt cb2
  let rs := (s.lanesOf et w va).map fun c => fmtEncode f (s.getCb cb) (.mode 0) false false (et.fmt.decode c)
  tagged s (s.tags0 [va]) (giveLanes s vd f.bits rs 0)

/-- R160. -/
def execCbx (cb2 : Bool) (et : ElTy) (w : Width) (vd va : VReg) (cb : Fin 4) (s : State) : Out :=
  let f := cbFmt cb2
  let rs := (codesOf (s.getV va) f.bits (laneCount w et.lw)).map fun c =>
    fmtEncode (ElTy.toFmt et) 0 (.mode s.rm) false false (fmtDecode f (s.getCb cb) c)
  tagged s (s.tags0 [va]) (giveLanes s vd et.lw rs 0)

/-! Dither state and plane packing. -/

/-- R161: xd is the state before the group; a new state is installed at the end of the group (R149). -/
def execDthset (xd xa : XReg) (wr : Bool) (s : State) : Out :=
  let g := s.ctx.found
  let old := word (g.phase.toNat + 256 * g.dstep.toNat)
  let a := s.getX xa
  let s := if wr then
      { s with ctx := { s.ctx with
          defer := s.ctx.defer ++ [.dither (BitVec.ofNat 8 (wordBits a 7 0)) (BitVec.ofNat 8 (wordBits a 15 8))] } }
    else s
  giveX s xd old

/-- Elements and bytes per plane of a plane transposition (R162). -/
def planeElems (b : Nat) (w : Width) : Nat := 8 * (widthBits w / (8 * b))

/-- Bit i of a plane-major register as a bit position of the element-major one (R162). -/
def planeBit (b p i : Nat) : Nat :=
  let k := b - 1 - i / 8 / p
  let e := i / 8 % p * 8 + i % 8
  e * b + k

/-- Bit i of an element-major register as a bit position of the plane-major one (R162). -/
def elemBit (b p i : Nat) : Nat :=
  let e := i / b
  ((b - 1 - i % b) * p + e / 8) * 8 + e % 8

/-- A register of bits, each from a bit of another. -/
def gatherBits (v : VWord) (n : Nat) (f : Nat → Nat) : VWord :=
  vecOf 1 ((List.range n).map fun i => (v.getLsbD (f i)).toNat)

/-- R162. -/
def execVpk (b : Fin 32) (w : Width) (vd va : VReg) (s : State) : Out :=
  let n := planeElems (b.val + 1) w
  tagged s (s.tags0 [va])
    (.next (s.setV vd (gatherBits (s.getV va) (n * (b.val + 1)) (planeBit (b.val + 1) (n / 8))) 0))

/-- R162. -/
def execVupk (b : Fin 32) (w : Width) (vd va : VReg) (s : State) : Out :=
  let n := planeElems (b.val + 1) w
  tagged s (s.tags0 [va])
    (.next (s.setV vd (gatherBits (s.getV va) (n * (b.val + 1)) (elemBit (b.val + 1) (n / 8))) 0))

end Sys2Proof.Machine
end

