-- ==== Sys2Proof/Machine/Wavelet.lean ====
section
/-! DEFINITION. Post-processing and wavelet-domain instructions, majors 0x24 and 0x25 (R217 to R235): the Haar steps, the
configuration sets, the post-processing queue and the work of the PPE. -/

namespace Sys2Proof.Machine

/-! The Haar steps (R217). -/

/-- A value halved or not, rounded to FP32, with its flags (R217). -/
def haarRound (v : FVal × FlagSet) (half : Bool) : Nat × FlagSet :=
  let r := fmt32.encode 0 (v.1.scale (if half then -1 else 0))
  fmt32.markNfs (r.1, v.2.or r.2)

/-- The sum or difference of two FP32 values, halved or not (R217). -/
def haarSum (a b : Nat) (minus half : Bool) : Nat × FlagSet :=
  let y := fmt32.decode b
  haarRound (exactAdd 0 (fmt32.decode a) (if minus then y.neg else y)) half

/-- The forward step takes (a, b) to (s, d), the inverse one (s, d) to (a, b) (R217). -/
def haarStep (inverse : Bool) (a b : Nat) : Nat × Nat × FlagSet :=
  let x := haarSum a b false !inverse
  let y := haarSum a b true !inverse
  (x.1, y.1, x.2.or y.2)

/-- A step on two rows. -/
def haarRows (inverse : Bool) (a b : List Nat) : List Nat × List Nat × FlagSet :=
  let rs := (a.zip b).map fun e => haarStep inverse e.1 e.2
  (rs.map Prod.fst, rs.map fun r => r.2.1, allFlags (rs.map fun r => r.2.2))

/-- Rows of a tile, and the flags raised on the way. -/
abbrev Rows := List (List Nat) × FlagSet

/-- One forward level on the first 2h rows (R218): pairs of neighbours to an upper and a lower half. -/
def forwardLevel (h : Nat) (t : Rows) : Rows :=
  let rs := (List.range h).map fun j => haarRows false (t.1.getD (2 * j) []) (t.1.getD (2 * j + 1) [])
  (rs.map Prod.fst ++ rs.map (fun r => r.2.1) ++ t.1.drop (2 * h), t.2.or (allFlags (rs.map fun r => r.2.2)))

/-- One inverse level on the first 2h rows (R218). -/
def inverseLevel (h : Nat) (t : Rows) : Rows :=
  let rs := (List.range h).map fun j => haarRows true (t.1.getD j []) (t.1.getD (h + j) [])
  (rs.flatMap (fun r => [r.1, r.2.1]) ++ t.1.drop (2 * h), t.2.or (allFlags (rs.map fun r => r.2.2)))

/-- Stage 2 of a store: from level `from_` to level `goal` in `n` steps at most (R227). -/
def toLevel (goal : Nat) : Nat → Nat → Rows → Rows
  | 0, _, t => t
  | n + 1, l, t =>
    if l < goal then toLevel goal n (l + 1) (forwardLevel (16 / 2 ^ l) t)
    else if goal < l then toLevel goal n (l - 1) (inverseLevel (32 / 2 ^ l) t)
    else t

/-- A coefficient under a threshold: |y| < ht becomes +0, in exact comparison (R222). -/
def thresholded (ht y : Nat) : Nat :=
  match (fmt32.decode y).abs, fmt32.decode ht with
  | .num _ m e, .num neg n g => if !neg && n != 0 && !dyLe n g m e then 0 else y
  | .num _ _ _, .inf neg => if neg then y else 0
  | _, _ => y

/-! Register instructions (R234, R235). -/

/-- R234. -/
def execHthr (w : Width) (vd va : VReg) (ht : Fin 8) (s : State) : Out :=
  let t := s.getTag va
  let l := t.toNat % 8
  tagged s (1 ≤ l && l ≤ 5)
    (giveV s vd 32 ((s.lanesOf .f32 w va).map (thresholded (s.ctx.ht[ht]).toNat)) (t ||| 8))

/-- `hfwd` and `hinv` (R235): both results, with the flags of both by lane. -/
def haarVector (inverse : Bool) (w : Width) (vd va vb : VReg) (tag : BitVec 4) (s : State) : Out :=
  let rs := ((s.lanesOf .f32 w va).zip (s.lanesOf .f32 w vb)).map fun e => haarStep inverse e.1 e.2
  flagged s (rs.map fun r => r.2.2) fun s =>
    (s.setV vd (vecOf 32 (rs.map Prod.fst)) tag).setV (vd + 1) (vecOf 32 (rs.map fun r => r.2.1)) tag

/-- R235. -/
def execHfwd (w : Width) (vd va vb : VReg) (s : State) : Out :=
  let t := s.getTag va
  tagged s (t == s.getTag vb && t.toNat % 8 ≤ 4) (haarVector false w vd va vb (t + 1) s)

/-- R235. -/
def execHinv (w : Width) (vd va vb : VReg) (s : State) : Out :=
  let t := s.getTag va
  let l := t.toNat % 8
  tagged s (t == s.getTag vb && 1 ≤ l && l ≤ 5) (haarVector true w vd va vb (if l = 1 then 0 else t - 1) s)

/-! Configuration (R224, R225). -/

/-- A word of a set that may be written (R225). -/
def ppWordOk (wd : Nat) (v : Word) : Bool :=
  let vec (o : Nat) : Bool := o % 32 == 0 && o ≤ 0x1ffc00
  if wd = 0 then
    wordBits v 63 31 == 0 && wordBits v 14 13 != 3 && wordBits v 17 15 ≤ 5 && !(v.getLsbD 8 && wordBits v 7 6 != 0)
  else if wd = 1 then
    wordBits v 63 53 == 0 && wordBits v 31 21 == 0 && vec (wordBits v 20 0) && vec (wordBits v 52 32)
  else wordBits v 63 53 == 0 && wordBits v 52 32 % 8 == 0

/-- R225. -/
def execPpcfgWord (set wd : Fin 4) (xa : XReg) (s : State) : Out :=
  let v := s.getX xa
  if h : wd.val < 3 then
    if ppWordOk wd.val v then .next { s with ctx := { s.ctx with pp := s.ctx.pp.set set ((s.ctx.pp[set]).set wd.val v) } }
    else .next (s.stop causePcwInvalid 0 1)
  else .next (s.stop causeIllegal 0 0)

/-- R225. -/
def execPpcfgThreshold (ht : Fin 8) (xa : XReg) (s : State) : Out :=
  .next { s with ctx := { s.ctx with ht := s.ctx.ht.set ht (BitVec.ofNat 32 (s.getX xa).toNat) } }

/-! Fields of a latched set (Tables 9-2, 9-3). -/

def PpArgs.fmt (a : PpArgs) : Fmt := fmtOfCode (wordBits a.words[0] 3 0)
def PpArgs.scl (a : PpArgs) : Nat := wordBits a.words[0] 5 4
def PpArgs.rnd (a : PpArgs) : Nat := wordBits a.words[0] 7 6
def PpArgs.dith (a : PpArgs) : Bool := a.words[0].getLsbD 8
def PpArgs.sat (a : PpArgs) : Bool := a.words[0].getLsbD 9
def PpArgs.plane (a : PpArgs) : Bool := a.words[0].getLsbD 12
def PpArgs.lt (a : PpArgs) : Nat := wordBits a.words[0] 17 15
def PpArgs.thr (a : PpArgs) : Bool := a.words[0].getLsbD 18
def PpArgs.scv (a : PpArgs) : Bool := a.words[0].getLsbD 19
def PpArgs.bias (a : PpArgs) : Bool := a.words[0].getLsbD 20
def PpArgs.zw (a : PpArgs) : Bool := a.words[0].getLsbD 21
def PpArgs.sig (a : PpArgs) : Bool := a.words[0].getLsbD 22
def PpArgs.tscale (a : PpArgs) : Nat := wordBits a.words[0] 30 23
def PpArgs.svoff (a : PpArgs) : Nat := wordBits a.words[1] 20 0
def PpArgs.bvoff (a : PpArgs) : Nat := wordBits a.words[1] 52 32
def PpArgs.sigoff (a : PpArgs) : Nat := wordBits a.words[2] 52 32

/-- The tag of a store's records (R227). -/
def PpArgs.tag (a : PpArgs) : Nat := a.lt + if a.thr && a.lt != 0 then 8 else 0

/-! Entering the queue. -/

/-- ppq is full (R223). -/
def State.ppqFull (s : State) : Bool := 8 ≤ s.core.ppq.length

/-- An entry enters ppq (R223). -/
def State.enterPp (s : State) (op : PpOp) : State :=
  let n := s.openOp 4
  let s := n.2
  let e : PpEntry :=
    { who := s.foc, ord := s.core.ord, op := op, bundle := s.ctx.pc, slot := s.ctx.slot, opn := n.1, seq := s.ctx.seq
      since := s.cycle, started := false, units := 0, reserved := none, fault := none, after := s.joinsOf 4 }
  { s with core := { s.core with ppq := s.core.ppq ++ [e], ord := s.core.ord + 1 } }

/-- The checks 1 of a store to an address (R226). -/
def PpArgs.addrOk (a : PpArgs) (x : Nat) : Bool :=
  x < 2097152 && x % (32 * a.fmt.bits) == 0 && x + 1024 * a.fmt.bits * a.outs ≤ 2097152

/-- The check 2 of a store to a ring (R226). -/
def PpArgs.ringOk (a : PpArgs) (r : Ring) : Bool :=
  r.nslot != 0 && r.role != 1 && !(r.role == 0 && a.plane) && 1024 * a.fmt.bits ≤ r.slotSize

/-- R226. -/
def execPpst (acc cnt : Fin 16) (xa : XReg) (ring : Fin 16) (toRing : Bool) (set : Fin 4) (s : State) : Out :=
  if s.ppqFull then .next (s.waitRoom 4)
  else if !s.accessReady true then .next s.holdReady
  else
    let ws := s.ctx.pp[set]
    let n := cnt.val + 1
    let x := (s.getX xa).toNat
    let a : PpArgs :=
      { acc := acc.val, n := n, ring := if toRing then some ring else none, addr := x, words := ws, ht := s.ctx.ht
        cb := s.ctx.cb.getD (wordBits ws[0] 11 10) 0, phase := s.ctx.phase, step := s.ctx.dstep
        ser := wordBits ws[2] 31 0 }
    if !(s.mayTiles ((List.range n).map (acc.val + ·)) && (!toRing || s.mayRing ring)) then .next (s.accessTrap 0)
    else if !toRing ∧ !a.addrOk x then .next (s.accessTrap 0)
    else if toRing ∧ !a.ringOk s.core.rings[ring] then .next (s.stop causeRingConfig 0 0)
    else if a.srcf = 1 ∧ (acc.val % 2 = 1 ∨ n % 2 = 1) then .next (s.stop causePcwInvalid 0 0)
    else
      let ser := word (putBits ws[2].toNat 31 0 (a.ser + a.outs))
      let s := { s with ctx := { s.ctx with
        pp := s.ctx.pp.set set (ws.set 2 ser)
        phase := s.ctx.phase + BitVec.ofNat 8 a.outs * s.ctx.dstep } }
      .next (s.enterPp (.store a))

/-- R233. -/
def execHtag (xa : XReg) (cnt : Fin 256) (tag : Fin 16) (s : State) : Out :=
  let n := cnt.val + 1
  let i := (s.getX xa).toNat
  if s.ppqFull then .next (s.waitRoom 4)
  else if !s.accessReady true then .next s.holdReady
  else if !s.hasArray || 16384 < i + n then .next (s.accessTrap 0)
  else .next (s.enterPp (.retag i n (BitVec.ofNat 4 tag.val)))

/-- R232. -/
def execHrec (xa xb : XReg) (cnt : Fin 16) (s : State) : Out :=
  let n := cnt.val + 1
  let ok (x : Nat) : Bool := x % 32768 == 0 && x + 32768 * n ≤ 2097152
  let a := (s.getX xa).toNat
  let b := (s.getX xb).toNat
  if s.ppqFull then .next (s.waitRoom 4)
  else if !s.accessReady true then .next s.holdReady
  else if !(s.hasArray && ok a && ok b) then .next (s.accessTrap 0)
  else .next (s.enterPp (.rebuild a b n))

/-! The entry at work. -/

/-- Replaces an entry of the post-processing queue of the core in focus. -/
def State.setPp (s : State) (e : PpEntry) : State :=
  { s with core := { s.core with ppq := s.core.ppq.map fun f => if f.ord = e.ord then e else f } }

/-- The mask of the source tiles an entry has completed (R230): accumulator tiles, or tiles of the crib by number. -/
def PpEntry.doneMask (e : PpEntry) : Nat :=
  match e.op with
  | .store a => tileMask ((List.range (e.units * a.perTile)).map (a.acc + ·))
  | .rebuild _ _ _ | .retag _ _ _ => 2 ^ e.units - 1

/-- An entry of ppq of the context in focus stops with a fault (R230). -/
def State.faultPp (s : State) (e : PpEntry) (cause : Nat) (addr : Option Word) (sheaf : Nat) : State :=
  let f : EntryFault :=
    { cause := cause, addr := addr.getD e.bundle, btile := false, sheaf := sheaf, pass := e.units, doneMask := e.doneMask }
  (s.setPp { e with fault := some f }).postFault e.who ⟨cause, f.addr, entryInfo e.slot 4 f⟩

/-- The wait of a store for a slot of its ring, if it waits, ends with END `fin` (R428). -/
def State.endStoreWait (s : State) (e : PpEntry) (fin : Nat) : State :=
  match e.slotRing with
  | some r => s.endSlotWait (s.whoIs 2 e.who) e.since r fin
  | none => s

/-- An entry leaves ppq (R223). -/
def State.leavePp (s : State) (e : PpEntry) (st : OpState) : State :=
  let s := { s with core := { s.core with ppq := s.core.ppq.filter fun f => f.ord != e.ord } }
  let s := s.closeOp e.who 4 { units := e.units, opn := e.opn, cause := 0, state := st, bytes := 0, faddr := 0 }
  let who := s.whoIs 2 e.who
  let x := s.ctxAt e.who
  let s := if x.status = .waiting .doneDrain then s.setCtxAt e.who { x with setter := who } else s
  s.noteLeft e.who.coreId 4 who

/-- The source tiles of the next output tile of a store (R226). -/
def PpEntry.sources (e : PpEntry) (a : PpArgs) : List Nat :=
  (List.range a.perTile).map (a.acc + e.units * a.perTile + ·)

/-- Earlier work on the source tiles of the next output tile is through (R197). -/
def Core.sourcesReady (c : Core) (e : PpEntry) : Bool :=
  match e.op with
  | .store a => (e.sources a).all (c.committedBefore e.ord)
  | .rebuild _ _ _ | .retag _ _ _ => true

/-- R223: the entry at the head of ppq starts, once the accumulator tiles it reads first are ready. -/
def execPpeEntryStart (p : CoreId) (s : State) : Out :=
  if !p.ok then .fault .noSuchAgent
  else
    let t := s.focusCore p
    match t.core.ppq with
    | [] => .next s
    | e :: _ =>
      if !e.started && e.fault.isNone && t.joined e.who e.after && t.core.sourcesReady e then
        .next (t.setPp { e with started := true, since := s.cycle })
      else .next s

/-! A tile of a store (R227, R228). -/

/-- Source values of a tile by row (R193, R227). -/
def sourceRows (srcf : Nat) (bytes : List Byte) : List (List FVal) :=
  let n := if srcf = 1 then 8 else 4
  (chunks (256 * n) 32 bytes).map fun r => (List.range 256).map fun k =>
    let c := natBits r (8 * n * k + 8 * n - 1) (8 * n * k)
    if srcf = 1 then fmt64.decode c else if srcf = 2 then ofInt (signedNat 32 c) else fmt32.decode c

/-- 256 FP32 values of the crib, or one value for each column. -/
def State.colVector (s : State) (p : CoreId) (on : Bool) (off : Nat) (dflt : FVal) : List FVal :=
  if on then (chunks 4 256 (s.cribBytes p off 1024)).map fmt32.decode else List.replicate 256 dflt

/-- Stage 1 (R227): each value scaled and biased with one rounding, whose flags are a conversion's (R7, R145). -/
def stage1 (src : List (List FVal)) (sv bv : List FVal) (lt : Nat) : Rows :=
  let rs := src.mapIdx fun i r => (r.zip (sv.zip bv)).map fun e =>
    let b := if i < 32 / 2 ^ lt then e.2.2 else .num false 0 0
    let x := exactFma 0 e.1 e.2.1 b
    let y := fmt32.asConverted (fmt32.encode 0 x.1)
    fmt32.markNfs (y.1, x.2.or y.2)
  (rs.map fun r => r.map Prod.fst, allFlags (rs.map fun r => allFlags (r.map Prod.snd)))

/-- The detail level that a row holds under a tree of `lt` levels, 0 for the rows of s (R218). -/
def rowLevel (lt i : Nat) : Nat := ((List.range lt).find? fun l => 32 / 2 ^ (l + 1) ≤ i).elim 0 (· + 1)

/-- Stage 3 (R227): thresholds of the detail rows. -/
def stage3 (a : PpArgs) (t : Rows) : Rows :=
  if a.thr then
    (t.1.mapIdx fun i r =>
      let l := rowLevel a.lt i
      if l = 0 then r else r.map (thresholded (a.ht.getD l 0).toNat), t.2)
  else t

/-- A row as stored: its codes, its scale bits and its flags. -/
structure StoredRow where
  codes : List Nat
  scales : Nat
  flags : FlagSet
  deriving DecidableEq, Repr

/-- The scales of the eight sub-blocks of a row (R142): the exponent of each, and the scale bits of the record with the
δ of sheaves before a sub-block is found to be zero. -/
def rowScales (f : Fmt) (cb : BitVec 256) (scl tscale : Nat) (vs : List FVal) : List Int × Nat × List Nat :=
  let em := fmtEmax f cb (scl != 0)
  let es := (segments vs).map fun b => (largestLog b).map (· - em)
  match scl with
  | 0 => (es.map fun _ => 0, 0, [])
  | 1 => (es.map fun _ => (tscale : Int) - 127, 0, [])
  | 2 =>
    let ks := es.map fun e => e.elim 0 fun e => clampInt 0 254 (e + 127)
    (ks.map fun (k : Nat) => (k : Int) - 127, leNat (ks.map (BitVec.ofNat 8)), [])
  | _ =>
    let s2 := ((es.foldl maxLog none).elim 0 fun e => clampInt 0 254 (e + 127))
    let ds := es.map fun e => e.elim 14 fun e => clampInt 0 14 ((s2 : Int) - 127 - e)
    (ds.map fun (d : Nat) => (s2 : Int) - 127 - d, s2, ds)

/-- Stage 4 (R227): a row of FP32 codes as one sheaf of the output format. -/
def stage4 (a : PpArgs) (phase : BitVec 8) (r : List Nat) : StoredRow :=
  let f := a.fmt
  let vs := r.map fmt32.decode
  let sc := rowScales f a.cb a.scl a.tscale vs
  let rs := vs.mapIdx fun n v =>
    fmtEncode f a.cb (chooseRounding a.rnd a.dith (ditherAt ((n + phase.toNat) % 256))) a.sat false
      (v.scale (mxShift f a.scl - sc.1.getD (n / 32) 0))
  let codes := rs.map Prod.fst
  let ds := sc.2.2.mapIdx fun j d => if (((segments codes).getD j []).all (codeZero f a.cb)) then 15 else d
  let bits := sc.2.1 + ofLanes 4 ds * 256
  ⟨codes, if a.scl = 3 then bits else sc.2.1, allFlags (rs.map Prod.snd)⟩

/-- LIVE of a row of codes (R168): its 2-bit digit planes that are not zero. -/
def liveOf (f : Fmt) (cb : BitVec 256) (codes : List Nat) : Nat :=
  let es := codes.map (bElem ⟨f, cb, 0, 0⟩ false 0 0)
  ((List.range (planeCount f false)).map fun p => if es.any (fun e => e.digits.getD p 0 != 0) then 2 ^ p else 0).sum

/-- A record (Table 6-7, R228). -/
def mkRecord (f : Fmt) (cb : BitVec 256) (codes : List Nat) (scales dom seq : Nat) : Nat :=
  let az := codes.all (codeZero f cb)
  let nf := codes.any fun c => (fmtDecode f cb c).odd
  scales + liveOf f cb codes * 2 ^ 64 + seq * 2 ^ 80 + dom * 2 ^ 88 + (if az then 2 ^ 92 else 0) + if nf then 2 ^ 93 else 0

/-- Stages 1 to 4 of an output tile from its source bytes, its source's L and its column vectors (R227). -/
def storeTile (a : PpArgs) (j : Nat) (bytes : List Byte) (srcL : Nat) (sv bv : List FVal) : List StoredRow × FlagSet :=
  let t := stage3 a (toLevel a.lt 5 srcL (stage1 (sourceRows a.srcf bytes) sv bv srcL))
  let rows := t.1.map (stage4 a (a.phase + BitVec.ofNat 8 j * a.step))
  (rows, t.2.or (allFlags (rows.map StoredRow.flags)))

/-- The bytes of row i of a tile of 32 rows by layout, as offsets in the tile with their bytes (R93, R94). -/
def rowBytes (plane : Bool) (b i : Nat) (codes : List Nat) : List (Nat × List Byte) :=
  if plane then
    (List.range b).map fun k =>
      (((b - 1 - k) * 32 + i) * 32, leBytes 32 (ofLanes 1 (codes.map fun c => c / 2 ^ k % 2)))
  else [(32 * b * i, leBytes (32 * b) (ofLanes b codes))]

/-- Writes one row of a tile and its record (R228): no bytes of an all-zero row unless they are asked for, no record for
a data ring. -/
def State.putRow (s : State) (who : Nat) (off : Nat) (rec : Option Nat) (bytes : List (Nat × List Byte)) (r : Nat) : State :=
  let p := s.foc.coreId
  let s := bytes.foldl (fun s e => s.unitWrite who p.die (cribPlace p (off + e.1)) e.2) s
  match rec with
  | some n => s.unitWrite who p.die (sidePlace p (16 * n)) (leBytes 16 r)
  | none => s

/-- Where an output tile goes: its crib offset, its first record if it has records, and the position of its sequence
tags (R228). -/
structure TileDest where
  off : Nat
  recs : Option Nat
  seq : Nat
  deriving DecidableEq, Repr

/-- The destination of the next output tile of a store; none while its ring slot is not reserved. -/
def State.storeDest (s : State) (e : PpEntry) (a : PpArgs) : Option TileDest :=
  match a.ring with
  | none =>
    let x := a.addr + 1024 * a.fmt.bits * e.units
    some ⟨x, some (x / (32 * a.fmt.bits)), a.ser + e.units⟩
  | some r => e.reserved.map fun pos =>
      let g := s.core.rings[r]
      ⟨g.slotOff pos, if g.role = 2 then none else some (g.recBase pos), pos⟩

/-- The last write of a store (R229): its signal word. -/
def State.storeSignal (s : State) (a : PpArgs) (who : Nat) : State :=
  if a.sig then s.unitWrite who s.foc.die (cribPlace s.foc.coreId a.sigoff) (leBytes 8 (a.ser + a.outs)) else s

/-- The poisoned word that a tile of a store would read (R391). -/
def State.storePoison (s : State) (e : PpEntry) (a : PpArgs) : Option Word :=
  let p := s.foc.coreId
  match (e.sources a).findSome? fun t => s.poisonIn (tilePlace p t) 32768 with
  | some w => some (word (w - accPlace p 0))
  | none =>
    let vec (on : Bool) (off : Nat) : Option Word :=
      if on then (s.poisonIn (cribPlace p off) 1024).map (ownAddr p) else none
    match vec a.scv a.svoff with
    | some w => some w
    | none => vec a.bias a.bvoff

/-- The crib bytes of a store's tile: what it reads and what it writes, as predicates on places. -/
def storeReads (p : CoreId) (a : PpArgs) (x : Nat) : Bool :=
  (a.scv && within (cribPlace p a.svoff) 1024 x) || (a.bias && within (cribPlace p a.bvoff) 1024 x)
def storeWrites (p : CoreId) (a : PpArgs) (d : TileDest) (x : Nat) : Bool :=
  within (cribPlace p d.off) (1024 * a.fmt.bits) x ||
    (d.recs.any fun n => within (sidePlace p (16 * n)) 512 x) || (a.sig && within (cribPlace p a.sigoff) 8 x)

/-- Makes and writes the next output tile of a store of the context in focus (R227 to R229). -/
def State.storeNext (s : State) (e : PpEntry) (a : PpArgs) (d : TileDest) : State :=
  let p := s.foc.coreId
  let who := s.whoIs 2 e.who
  let ts := e.sources a
  let srcL := (s.core.tileL.getD (ts.headD 0) 0).toNat
  let out := storeTile a e.units (Mem.slice s.mem (tilePlace p (ts.headD 0)) (32768 * a.perTile)) srcL
    (s.colVector p a.scv a.svoff (.num false 1 0)) (s.colVector p a.bias a.bvoff (.num false 0 0))
  let s := out.1.zipIdx.foldl (fun s r =>
    let zero := r.1.codes.all (codeZero a.fmt a.cb)
    let bytes := if zero && !a.zw && d.recs.isSome then [] else rowBytes a.plane a.fmt.bits r.2 r.1.codes
    s.putRow who d.off (d.recs.map (· + r.2)) bytes (mkRecord a.fmt a.cb r.1.codes r.1.scales a.tag (seqTag d.seq r.2))) s
  let s := match a.ring, e.reserved with
    | some r, some pos => s.tileWritten r pos who
    | _, _ => s
  let s := s.raiseBits out.2.bits
  let e := { e with units := e.units + 1, reserved := none, since := s.cycle }
  if e.units = a.outs then (s.storeSignal a who).leavePp e .done else s.setPp e

/-- The governor's word on a tile of the PPE, charged when it goes on (R231, R406, R408, R411). -/
def State.ppeTile (s : State) (e : PpEntry) (cycles : Nat) (go : State → State) : State :=
  let cost := s.die.weights.getD 9 0 * cycles
  match s.admitWork 2 cost with
  | .later => s
  | .wait t => t
  | .ramp t => t.faultPp e causeRamp none 0
  | .go s => go (s.chargeEnergy cost)

/-- R229: the next output tile of the store at work is made and written, once its sources are ready and it has a slot. -/
def execPpstTileComplete (p : CoreId) (s : State) : Out :=
  if !p.ok then .fault .noSuchAgent
  else
    let t := s.focusCore p
    match t.core.ppq with
    | [] => .next s
    | e :: _ => match e.op with
      | .store a =>
        let t := t.focusOn e.who
        if !e.started || e.fault.isSome || !t.core.sourcesReady e then .next s
        else match t.storeDest e a with
          | none => .next s
          | some d =>
            if !t.ctx.clearBefore e.seq (storeReads p a) (storeWrites p a d) then .next s
            else match t.storePoison e a with
              | some w => .next (t.faultPp e causeEcc (some w) 0)
              | none =>
                if !tagOk (t.core.tileL.getD ((e.sources a).headD 0) 0).toNat then .next (t.faultPp e causeDomain none 0)
                else .next (t.ppeTile e (128 * a.perTile) fun t => t.storeNext e a d)
      | .rebuild _ _ _ | .retag _ _ _ => .next s

/-! Reconstruction (R232). -/

/-- The rows of a source tile, an all-zero row reading as zeros (R90, R91). -/
def recRows (bytes : List Byte) (recs : List Nat) : List (List Nat) :=
  (chunks 1024 32 bytes).mapIdx fun i r =>
    if recZero (recs.getD i 0) then List.replicate 256 0 else (List.range 256).map fun k => natBits r (32 * k + 31) (32 * k)

/-- The spatial rows of a tile of L levels (R232, R91). -/
def rebuilt (rows : List (List Nat)) (l : Nat) : Rows :=
  if l = 0 then (rows, FlagSet.none)
  else
    let rs := (List.range 32).map fun r => (List.range 256).map fun k =>
      let rowAt (rho : Nat) : Nat := (rows.getD rho []).getD k 0
      spatialLane r rowAt l (rowAt (r / 2 ^ l), FlagSet.none)
    (rs.map fun r => r.map Prod.fst, allFlags (rs.map fun r => allFlags (r.map Prod.snd)))

/-- The span of tile j of a rebuild in the crib (R232). -/
def rebuildSpan (base j : Nat) : TileSpan := ⟨base + 32768 * j, 32768, (base + 32768 * j) / 1024, 32⟩

/-- Rebuilds the next tile of an `hrec` of the context in focus (R232). -/
def State.rebuildNext (s : State) (e : PpEntry) (dst src n : Nat) : State :=
  let p := s.foc.coreId
  let who := s.whoIs 2 e.who
  let t := s.fetchTile p (rebuildSpan src e.units)
  let d := rebuildSpan dst e.units
  let out := rebuilt (recRows t.bytes t.records) (recTag (t.records.headD 0) % 8)
  let s := out.1.zipIdx.foldl (fun s r =>
    s.putRow who d.off (some (d.recs + r.2)) (rowBytes false 32 r.2 r.1)
      (mkRecordRaw r.1 (recSeq (t.records.getD r.2 0)))) s
  let s := s.raiseBits out.2.bits
  let e := { e with units := e.units + 1, since := s.cycle }
  if e.units = n then s.leavePp e .done else s.setPp e
where
  /-- The record of a rebuilt row: AZ only when every word is 0x00000000 (R232). -/
  mkRecordRaw (codes : List Nat) (seq : Nat) : Nat :=
    let az := codes.all (· == 0)
    let nf := codes.any fmt32.nonFinite
    liveOf .fp32 0 codes * 2 ^ 64 + seq * 2 ^ 80 + (if az then 2 ^ 92 else 0) + if nf then 2 ^ 93 else 0

/-- R232: the next tile of the `hrec` at work is rebuilt. -/
def execHrecTileComplete (p : CoreId) (s : State) : Out :=
  if !p.ok then .fault .noSuchAgent
  else
    let t := s.focusCore p
    match t.core.ppq with
    | [] => .next s
    | e :: _ => match e.op with
      | .rebuild dst src n =>
        let t := t.focusOn e.who
        let sp := rebuildSpan src e.units
        if !e.started || e.fault.isSome ||
            !t.ctx.clearBefore e.seq (sp.has p) ((rebuildSpan dst e.units).has p) then .next s
        else match t.tilePoison p sp with
          | some w => .next (t.faultPp e causeEcc (some w) 0)
          | none =>
            let recs := (t.fetchTile p sp).records
            let dom := recTag (recs.headD 0)
            match recs.findIdx? fun r => recTag r != dom || 5 < dom % 8 with
            | some k => .next (t.faultPp e causeDomain none k)
            | none => .next (t.ppeTile e 128 fun t => t.rebuildNext e dst src n)
      | .store _ | .retag _ _ _ => .next s

/-! Relabelling (R233). -/

/-- The byte of a record that holds DOM, and its new value (R233). -/
def retagByte (old : Byte) (tag : BitVec 4) : Byte := BitVec.ofNat 8 (old.toNat / 16 * 16 + tag.toNat)

/-- R233: DOM of the named records is rewritten. -/
def execHtagApply (p : CoreId) (s : State) : Out :=
  if !p.ok then .fault .noSuchAgent
  else
    let t := s.focusCore p
    match t.core.ppq with
    | [] => .next s
    | e :: _ => match e.op with
      | .retag first n tag =>
        let t := t.focusOn e.who
        let at_ := sidePlace p (16 * first)
        if !e.started || e.fault.isSome || !t.ctx.clearBefore e.seq (within at_ (16 * n)) (within at_ (16 * n)) then .next s
        else match t.poisonIn at_ (16 * n) with
          | some w => .next (t.faultPp e causeEcc (some (ownAddr p w)) 0)
          | none => .next (t.ppeTile e ((n + 15) / 16) fun t =>
              let who := t.whoIs 2 e.who
              let t := (List.range n).foldl (fun t k =>
                let a := at_ + 16 * k + 11
                t.unitWrite who p.die a [retagByte (Mem.get t.mem a) tag]) t
              t.leavePp e .done)
      | .store _ | .rebuild _ _ _ => .next s

/-! Resolution of a faulted entry (R230). -/

/-- The faulted entry of the context in focus, which is the head of ppq. -/
def State.faultedPp (s : State) : Option PpEntry := s.core.ppq.find? fun e => e.who == s.foc && e.fault.isSome

/-- `qrty` on ppq: the failing tile is made again (R230). -/
def State.retryPp (s : State) : State :=
  match s.faultedPp with
  | none => s
  | some e => s.setPp { e with fault := none, since := s.cycle }

/-- `qcan` on ppq: a slot already reserved is completed with all-zero records, and the entry ends (R230). -/
def State.cancelPp (s : State) : State :=
  match s.faultedPp with
  | none => s
  | some e =>
    let s := match e.op with
      | .store a => match a.ring, e.reserved with
        | some r, some pos =>
          let g := s.core.rings[r]
          let who := s.whoIs 2 e.who
          let s := if g.role = 2 then s else (List.range 32).foldl (fun s i =>
            s.putRow who 0 (some (g.recBase pos + i)) [] (2 ^ 92 + a.tag * 2 ^ 88 + seqTag pos i * 2 ^ 80)) s
          s.tileWritten r pos who
        | _, _ => s
      | .rebuild _ _ _ | .retag _ _ _ => s
    s.leavePp e .cancelled

end Sys2Proof.Machine
end

