-- ==== Sys2Proof/Machine/Copy.lean ====
section
/-! DEFINITION. The copy engine, majors 0x26 and 0x27 (R237 to R263): shapes, the issue of commands, and the steps of
their delivery, their reports and their completion. -/

namespace Sys2Proof.Machine

/-! Fields of a latched shape (Table 10-1). -/

def CopyOp.opt (o : CopyOp) : Nat := wordBits o.shape[0] 63 60
def CopyOp.fmtCode (o : CopyOp) : Nat := wordBits o.shape[0] 59 56
def CopyOp.fmt (o : CopyOp) : Fmt := fmtOfCode o.fmtCode
/-- b, the bits of an element (R242). -/
def CopyOp.eb (o : CopyOp) : Nat := o.fmt.bits
/-- LEN0. -/
def CopyOp.len0 (o : CopyOp) : Nat := wordBits o.shape[0] 23 0
/-- Strides, sign-extended (R244). -/
def stride32 (v : Word) (hi lo : Nat) : Word := BitVec.ofInt 64 (signedNat 32 (wordBits v hi lo))
def CopyOp.dstr1 (o : CopyOp) : Word := stride32 o.shape[1] 63 32
def CopyOp.sstr1 (o : CopyOp) : Word := stride32 o.shape[1] 31 0
def CopyOp.dstr2 (o : CopyOp) : Word := stride32 o.shape[2] 63 32
def CopyOp.sstr2 (o : CopyOp) : Word := stride32 o.shape[2] 31 0
def CopyOp.idxa (o : CopyOp) : Word := o.shape[2]
def CopyOp.retOff (o : CopyOp) : Nat := wordBits o.shape[2] 52 32
def CopyOp.binds (o : CopyOp) : Bool := o.shape[3].getLsbD 57
def CopyOp.bidx (o : CopyOp) : Nat := wordBits o.shape[3] 56 34
def CopyOp.sigval (o : CopyOp) : Nat := wordBits o.shape[3] 33 18
def CopyOp.sigidx (o : CopyOp) : Nat := wordBits o.shape[3] 17 0
/-- Bytes of a sheaf's data, and of an element or index by OPT[0]. -/
def CopyOp.sheafBytes (o : CopyOp) : Nat := 32 * o.eb
def CopyOp.width (o : CopyOp) : Nat := if o.opt % 2 = 1 then 8 else 4

/-- The operation moves packed or plane sheaves: its unit is a sheaf (R245, R248). -/
def CopyOp.bySheaf (o : CopyOp) : Bool :=
  match o.kind with
  | .cp => o.opt != 0
  | .cpt | .cpx => true
  | .cpg | .cps | .cpr | .cpsig | .tmv => false

/-! Checks at issue (R243, Table 10-4). -/

/-- An address in the linear crib (Table 4-1). -/
def inLinear (a : Word) : Bool := a.toNat < 2097152

/-- A region of the linear crib of `n` bytes on a multiple of the sheaf size. -/
def CopyOp.regionOk (o : CopyOp) (a : Word) (n : Nat) : Bool :=
  inLinear a && a.toNat % o.sheafBytes == 0 && a.toNat + n ≤ 2097152

/-- CB4 or CB2. -/
def CopyOp.codebook (o : CopyOp) : Bool := o.fmtCode == 10 || o.fmtCode == 11

/-- Reason 32. -/
def CopyOp.badOption (o : CopyOp) : Bool :=
  match o.kind with
  | .cp => 2 < o.opt || (o.opt != 0 && o.codebook)
  | .cpt => 3 < o.opt || o.codebook
  | .cpx => 1 < o.opt
  | .cpg | .cps => 1 < o.opt
  | .cpr => 1 < o.opt || 12 < o.fmtCode
  | .cpsig => false
  | .tmv => 1 < o.opt || o.codebook

/-- Reason 33. -/
def CopyOp.noLength (o : CopyOp) : Bool :=
  match o.kind with
  | .cp => o.opt == 0 && o.len0 == 0
  | .cpg | .cps => o.len0 == 0
  | .cpt | .cpx | .cpr | .cpsig | .tmv => false

/-- Bytes of a tile of an operation's sheaves. -/
def CopyOp.tileBytes (o : CopyOp) : Nat := o.sheafBytes * o.n1

/-- Reason 35. -/
def CopyOp.badRegion (o : CopyOp) : Bool :=
  match o.kind with
  | .cp => o.opt != 0 && !o.regionOk o.xb o.tileBytes
  | .cpt => !o.regionOk o.xa o.tileBytes || !o.regionOk o.xb o.tileBytes
  | .cpx => !o.dring && !o.regionOk o.xa (o.tileBytes * o.n2)
  | .cpsig => !(inLinear o.xa && o.xa.toNat + 8 ≤ 2097152)
  | .tmv => (!o.dring && inLinear o.xa && !o.regionOk o.xa (o.tileBytes * o.n2)) ||
      (inLinear o.xb && !o.regionOk o.xb (o.tileBytes * o.n2))
  | .cpg | .cps | .cpr => false

/-- Reason 36. -/
def CopyOp.overlaps (o : CopyOp) : Bool :=
  match o.kind with
  | .cpt => o.xa.toNat < o.xb.toNat + o.tileBytes && o.xb.toNat < o.xa.toNat + o.tileBytes
  | .tmv => !o.dring && !inLinear o.xa && !inLinear o.xb
  | .cp | .cpx | .cpg | .cps | .cpr | .cpsig => false

/-- The lowest reason of Table 10-4 that an operation meets. -/
def CopyOp.issueReason (o : CopyOp) : Option Nat :=
  if o.badOption then some 32
  else if o.noLength then some 33
  else if o.kind != .cpsig && o.dring && (!o.kind.fills || 15 < o.xa.toNat) then some 34
  else if o.badRegion then some 35
  else if o.overlaps then some 36
  else if o.kind = .cpsig ∧ o.xa.toNat % 8 ≠ 0 then some 37
  else none

/-- The ring suits the operation (R243, 3; R249). -/
def CopyOp.ringSuits (o : CopyOp) (r : Ring) : Bool :=
  let rows : Bool := match o.kind with
    | .cpx => o.opt == 1
    | _ => o.opt == 0
  r.nslot != 0 && o.tileBytes ≤ r.slotSize &&
    (r.role == 2 || (r.role == 0 && rows && o.n1 == 32) || (r.role == 1 && !rows && o.n1 == 256))

/-- The issue of a copy-engine command (R237, R241, R243). -/
def issueCopy (kind : CopyKind) (ord sig : Bool) (cq : Fin 4) (xa xb : XReg) (shape : Vector Word 4) (s : State) : Out :=
  let o : CopyOp :=
    { who := s.foc, kind := kind, ord := ord, sig := sig, xa := s.getX xa, xb := s.getX xb, shape := shape
      view := s.ctx.cview, opn := s.ctx.opn.getD cq.val 0, slot := s.ctx.slot, seq := s.ctx.seq, since := s.cycle
      state := .queued, units := 0, bytes := 0, kib := 0, pos := 0, reported := 0, reserved := none, faddr := 0, cause := 0
      reason := 0, told := false, flags := 0, old := [], won := [], idx := []
      entries := if kind = .cp then s.myEntries else [], cast := [], free := 0, applied := [], ahead := [], lastPos := none
      signalled := false, after := s.joinsOf cq.val }
  if !s.mayQueue cq.val then .next (s.accessTrap 0)
  else if 16 ≤ (s.core.cq[cq]).length then .next (s.waitRoom cq.val)
  else if !s.accessReady true then .next s.holdReady
  else if kind.fills && o.dring && !s.mayRing o.ring then .next (s.accessTrap 0)
  else match o.issueReason with
    | some r => .next (s.stop causeEngine 0 (engineInfo s.ctx.slot cq.val false 0 r o.opn))
    | none =>
      if o.toRing && !o.ringSuits s.core.rings[o.ring] then .next (s.stop causeRingConfig 0 0)
      else
        let s := (s.openOp (Fin.ofNat 8 cq.val)).2.trimPoints
        .next { s with core := { s.core with cq := s.core.cq.set cq (s.core.cq[cq] ++ [o]) } }

/-- R250, R251. -/
def execCp (cq : Fin 4) (xa xb : XReg) (sh : Fin 16) (sig : Bool) (s : State) : Out :=
  issueCopy .cp false sig cq xa xb s.ctx.sh[sh] s
/-- R253. -/
def execCpt (cq : Fin 4) (xa xb : XReg) (sh : Fin 16) (sig : Bool) (s : State) : Out :=
  issueCopy .cpt false sig cq xa xb s.ctx.sh[sh] s
/-- R252. -/
def execCpx (cq : Fin 4) (xa xb : XReg) (sh : Fin 16) (sig : Bool) (s : State) : Out :=
  issueCopy .cpx false sig cq xa xb s.ctx.sh[sh] s
/-- R254. -/
def execCpg (cq : Fin 4) (xa xb : XReg) (sh : Fin 16) (sig : Bool) (s : State) : Out :=
  issueCopy .cpg false sig cq xa xb s.ctx.sh[sh] s
/-- R254. -/
def execCps (ord : Bool) (cq : Fin 4) (xa xb : XReg) (sh : Fin 16) (sig : Bool) (s : State) : Out :=
  issueCopy .cps ord sig cq xa xb s.ctx.sh[sh] s
/-- R255. -/
def execCpr (ord : Bool) (cq : Fin 4) (xa xb : XReg) (sh : Fin 16) (sig : Bool) (s : State) : Out :=
  issueCopy .cpr ord sig cq xa xb s.ctx.sh[sh] s
/-- R256: it carries no shape. -/
def execCpsig (cq : Fin 4) (xa xb : XReg) (s : State) : Out :=
  issueCopy .cpsig false false cq xa xb (Vector.replicate 4 0) s
/-- R257. -/
def execTmv (cq : Fin 4) (xa xb : XReg) (sh : Fin 16) (sig : Bool) (s : State) : Out :=
  issueCopy .tmv false sig cq xa xb s.ctx.sh[sh] s

/-- R240: the reserved bits of Table 10-1 are cleared. -/
def execShape (sh : Fin 16) (k : Fin 4) (xa : XReg) (s : State) : Out :=
  let v := s.getX xa
  let v := if k = 3 then v &&& 0x07ffffffffffffff else v
  .next { s with ctx := { s.ctx with sh := s.ctx.sh.set sh ((s.ctx.sh[sh]).set k v) } }

/-! Extent and progress. -/

/-- Bytes of one tile as `tmv` delivers it: its data, and its records unless it goes to a data ring (R249, R257). -/
def CopyOp.imageBytes (o : CopyOp) (dataRing : Bool) : Nat := if dataRing then o.tileBytes else o.tileBytes + 16 * o.n1

/-- The destination is a data ring. -/
def State.toDataRing (s : State) (o : CopyOp) : Bool := o.toRing && s.core.rings[o.ring].role == 2

/-- Operand bytes of an element of `cpr` (R255). -/
def CopyOp.operandBytes (o : CopyOp) : Nat := if o.fmtCode = 9 then 2 * o.width else o.width

/-- Units of an operation that delivers whole units. -/
def CopyOp.unitCount (o : CopyOp) : Nat :=
  match o.kind with
  | .cp | .cpt | .cpr => o.n1
  | .cpx => o.n1 * o.n2
  | .cpsig => 1
  | .cpg | .cps | .tmv => 0

/-- Bytes of an operation that delivers a stream of bytes in shape order; none for the others. -/
def State.streamBytes (s : State) (o : CopyOp) : Option Nat :=
  match o.kind with
  | .cp => if o.opt = 0 then some (o.n2 * o.n1 * o.len0) else none
  | .cpg | .cps => some (o.n1 * o.len0)
  | .tmv => some (o.n2 * o.imageBytes (s.toDataRing o))
  | .cpt | .cpx | .cpr | .cpsig => none

/-- Bytes of the unit that UNITS counts, in such a stream (R250, R254, R257). -/
def State.streamUnit (s : State) (o : CopyOp) : Nat :=
  match o.kind with
  | .tmv => o.imageBytes (s.toDataRing o)
  | _ => o.len0

/-- Everything is delivered. -/
def State.delivered (s : State) (o : CopyOp) : Bool :=
  match s.streamBytes o with
  | some n => o.bytes == n
  | none => o.units == o.unitCount

/-- Bytes that reports count (R248): those of BYTES, or a whole sheaf and record for each sheaf. -/
def CopyOp.counted (o : CopyOp) : Nat := if o.bySheaf then (o.sheafBytes + 16) * o.units else o.bytes

/-- What `counted` comes to at completion. -/
def State.countedTotal (s : State) (o : CopyOp) : Nat :=
  if o.bySheaf then (o.sheafBytes + 16) * o.unitCount
  else match s.streamBytes o with
    | some n => n
    | none => if o.kind = .cpr then o.unitCount * o.operandBytes else 8

/-- Replaces an operation of a queue of the core in focus. -/
def State.setCopy (s : State) (q : Fin 4) (o : CopyOp) : State :=
  { s with core := { s.core with cq := s.core.cq.set q ((s.core.cq[q]).map fun e =>
      if e.who = o.who ∧ e.opn = o.opn then o else e) } }

/-- The class of a delivery (Table 16-1); xb of a `cpsig` is no address (R256). -/
def CopyOp.class_ (o : CopyOp) : Nat :=
  if (!o.toRing && 2 ^ 32 ≤ locOf o.xa) || (o.kind != .cpsig && 2 ^ 32 ≤ locOf o.xb) then 11 else 10

/-- KiB of some bytes, a partial one counted whole. -/
def wholeKib (n : Nat) : Nat := (n + 1023) / 1024

/-- A partial KiB at a completion or a stop is charged as a whole one, once (R411; log 57). -/
def State.chargeRest (s : State) (o : CopyOp) : State := s.charge o.class_ (wholeKib o.bytes - o.kib)

/-- The wait of a copy operation for a slot of its ring, if it waits, ends with END `fin` (R428). -/
def State.endCopyWait (s : State) (o : CopyOp) (fin : Nat) : State :=
  match o.slotRing with
  | some r => s.endSlotWait (s.whoIs 1 o.who) o.since r fin
  | none => s

/-- An operation of the context in focus stops with a fault (R258): its task learns of it, a PAGE-FAULT through the
granger. -/
def State.stopCopy (s : State) (q : Fin 4) (o : CopyOp) (f : MemFault) : State :=
  let told := f.cause != causePageFault
  let s := ((s.endCopyWait o 2).chargeRest o).setCopy q
    { o with state := .faulted, faddr := f.addr, cause := f.cause, reason := f.reason, told := told
             kib := max o.kib (wholeKib o.bytes) }
  let s := if f.cause = causeTagMismatch then { s with core := s.core.tagMiss } else s
  if told then s.postEngine o.who f.addr (engineInfo o.slot q.val false f.cause f.reason o.opn) else s

/-- The progress record of an operation (R259). -/
def CopyOp.record (o : CopyOp) (st : OpState) : Progress :=
  { units := o.units, opn := o.opn, cause := if st = .faulted then o.cause else 0, state := st, bytes := o.bytes
    faddr := if st = .faulted then o.faddr else 0 }

/-- An operation leaves its queue (R237). -/
def State.leaveCopy (s : State) (q : Fin 4) (o : CopyOp) (st : OpState) : State :=
  let s := { s with core := { s.core with cq := s.core.cq.set q ((s.core.cq[q]).filter fun e =>
    !(e.who == o.who && e.opn == o.opn)) } }
  let s := s.closeOp o.who q.val (o.record st)
  let who := s.whoIs 1 o.who
  (s.drainSetter o.who who).noteLeft o.who.coreId q.val who

/-! Start (R238, R284). -/

/-- Free values that an operation needs from its start: one for each row of an unordered scatter (R254). -/
def CopyOp.draws (o : CopyOp) : Nat := if o.kind = .cps ∧ !o.ord then o.n1 else 0

/-- R238: the operation at the head of a queue starts. -/
def execCopyOperationStart (p : CoreId) (q : Fin 4) (s : State) : Out :=
  if !p.ok then .fault .noSuchAgent
  else
    let t := s.focusCore p
    match t.core.cq[q] with
    | [] => .next s
    | o :: _ =>
      if o.state = .queued ∧ t.joined o.who o.after then
        .next (State.setCopy { t with fresh := t.fresh + o.draws } q
          { o with state := .running, since := s.cycle, free := t.fresh })
      else .next s

/-! Delivery (R245). -/

/-- One byte of a stream: where it comes from, where it goes, and the value that replaces it (R249). -/
structure ByteMove where
  src : Word
  dst : Word
  val : Option Byte
  deriving DecidableEq, Repr

/-- Byte n of a plain `cp` (R250). -/
def CopyOp.plainMove (o : CopyOp) (n : Nat) : ByteMove :=
  let k := n % o.len0
  let i1 := word (n / o.len0 % o.n1)
  let i2 := word (n / o.len0 / o.n1)
  ⟨o.xb + i2 * o.sstr2 + i1 * o.sstr1 + word k, o.xa + i2 * o.dstr2 + i1 * o.dstr1 + word k, none⟩

/-- Byte n of a gather or a scatter, given the row's index (R254). -/
def CopyOp.rowMove (o : CopyOp) (n idx : Nat) : ByteMove :=
  let i := word (n / o.len0)
  let k := word (n % o.len0)
  if o.kind = .cpg then ⟨o.xb + word idx * o.sstr1 + k, o.xa + i * o.dstr1 + k, none⟩
  else ⟨o.xb + i * o.sstr1 + k, o.xa + word idx * o.dstr1 + k, none⟩

/-- The address of a record in the side-bank window (R92). -/
def recordAddr (n : Nat) : Word := word (Win.side.base + 16 * n)

/-- An end of `tmv`: byte n of tile t in the linear crib, or in a tile image (R257). -/
def CopyOp.tileByte (o : CopyOp) (base : Word) (t n : Nat) : Word :=
  let d := o.tileBytes
  if inLinear base then
    let b := base.toNat + d * t
    if n < d then word (b + n) else recordAddr (b / o.sheafBytes + (n - d) / 16) + word ((n - d) % 16)
  else base + word ((d + 16 * o.n1) * t + n)

/-- Byte n of the stream of a `tmv`; `slot` is the ring slot of its tile as reserved, with its position (R249, R257). -/
def CopyOp.tileMove (o : CopyOp) (image n : Nat) (slot : Option (Ring × Nat)) : ByteMove :=
  let t := n / image
  let k := n % image
  let d := o.tileBytes
  match slot with
  | none => ⟨o.tileByte o.xb t k, o.tileByte o.xa t k, none⟩
  | some (r, pos) =>
    if k < d then ⟨o.tileByte o.xb t k, word (r.slotOff pos + k), none⟩
    else
      let s := (k - d) / 16
      let j := (k - d) % 16
      ⟨o.tileByte o.xb t k, recordAddr (r.recBase pos + s) + word j,
        if j = 10 then some (BitVec.ofNat 8 (seqTag pos s)) else none⟩

/-- The bytes of the source as they are read: one that the operation has written, or its task has stored to since its
issue, may be as it was before (R238, R246). The free values are those from `fresh` on. -/
def State.sourceBytes (s : State) (o : CopyOp) (ps : List Nat) : List Byte :=
  let lo := ps.foldl min (ps.headD 0)
  let hi := ps.foldl max 0
  let near := o.old.filter fun c => lo ≤ c.1 && c.1 ≤ hi
  ps.zipIdx.map fun e =>
    let bs := s.seenByte s.foc.die e.1 :: (near.filter fun c => c.1 == e.1).map Prod.snd
    bs.getD (Config.pick (s.fresh + e.2) bs.length % bs.length) 0

/-- The former bytes an operation keeps, with those of its destination before it writes them. -/
def State.remember (s : State) (o : CopyOp) (ts : List (List Target)) : List Host.Cell :=
  (ts.flatten.map fun t => (t.place, s.seenByte t.die t.place)) ++ o.old

/-- The moves before the first that cannot be made, with what they found, and why it cannot (R245). -/
def State.tryMoves (s : State) (o : CopyOp) :
    List ByteMove → List (ByteMove × Nat × List Target) × List TlbEntry × Option MemFault
  | [] => ([], [], none)
  | m :: ms => match s.readAddrs o.view [m.src] with
    | .error e => ([], [], some e)
    | .ok r => match s.targetsOf o.view o.entries m.dst with
      | .error e => ([], [], some e)
      | .ok t =>
        let rest := s.tryMoves o ms
        ((m, r.1.headD 0, t.1) :: rest.1, r.2 ++ t.2 ++ rest.2.1, rest.2.2)

/-- KiB that a delivery completes beyond those charged (R411). -/
def kibs (paid after : Nat) : Nat := after / 1024 - paid

/-- The governor's word on a unit that takes BYTES to `after` (R406, R408): it goes on and is charged, waits to the next
tick, or stops as a RAMP-VIOLATION with reason 50. -/
def State.copyUnit (s : State) (q : Fin 4) (o : CopyOp) (after : Nat) (go : State → State) : State :=
  let cost := s.die.weights.getD o.class_ 0 * kibs o.kib after
  match s.admitWork (3 + q.val) cost with
  | .later => s
  | .wait t => t
  | .ramp t => t.stopCopy q o ⟨causeRamp, 0, 50⟩
  | .go s => go (s.chargeEnergy cost)

/-- Bytes that the next unit of a stream may take, and one more by which its end is found: none beyond its tile for a ring
(R238, R245). -/
def State.unitSpan (s : State) (o : CopyOp) (total : Nat) : Nat :=
  let u := s.streamUnit o
  min 257 (if o.toRing then u - o.bytes % u else total - o.bytes)

/-- A unit of at most 256 bytes that ends in no aligned 8-byte word of which the operation writes on (R246). -/
def cutUnit (ms : List ByteMove) : List ByteMove :=
  let word8 (k : Nat) : Nat := (ms[k]?).elim 0 fun m => m.dst.toNat / 8
  if ms.length ≤ 256 then ms
  else ms.take (((List.range 256).reverse.find? fun k => word8 k != word8 (k + 1)).getD 255 + 1)

/-- Indices of a gather or scatter as read: each with its row, the places read and the translations to hold. -/
structure IndexRead where
  idx : List (Nat × Nat)
  places : List Nat
  held : List TlbEntry
  deriving DecidableEq, Repr

/-- The indices of `n` rows from one on, those read before among them; and the first row whose index cannot be read, with
what stops it (R254). -/
def State.readIndices (s : State) (o : CopyOp) : Nat → Nat → IndexRead → IndexRead × Option (Nat × MemFault)
  | 0, _, acc => (acc, none)
  | n + 1, row, acc =>
    if (acc.idx.lookup row).isSome then s.readIndices o n (row + 1) acc
    else match s.readAddrs o.view ((List.range o.width).map fun k => o.idxa + word (row * o.width) + word k) with
      | .error f => (acc, some (row, f))
      | .ok r => State.readIndices { s with fresh := s.fresh + o.width } o n (row + 1)
          { idx := acc.idx ++ [(row, leNat (s.sourceBytes o r.1))], places := acc.places ++ r.1, held := acc.held ++ r.2 }

/-- The next unit of a stream operation (R250, R254, R257): its moves, the operation with the indices it holds, what it
read for them, and the fault that stops it after its moves. -/
structure UnitMoves where
  moves : List ByteMove
  op : CopyOp
  places : List Nat
  held : List TlbEntry
  fault : Option MemFault
  deriving DecidableEq, Repr

/-- The next unit of a stream operation; of the rows of a gather or scatter, the engine may read up to 64 indices ahead
(R254). -/
def State.nextMoves (s : State) (o : CopyOp) (total : Nat) : UnitMoves :=
  let ns := (List.range (s.unitSpan o total)).map (o.bytes + ·)
  match o.kind with
  | .cpg | .cps =>
    let row := o.bytes / o.len0
    let need := ((ns.getLastD o.bytes) / o.len0) + 1 - row
    let more := min (o.n1 - (row + need)) (Config.pick s.fresh 65 % 65)
    let r := s.readIndices o (need + more) row ⟨o.idx.filter fun e => row ≤ e.1, [], []⟩
    let stop := r.2.filter fun f => f.1 < row + need
    let ns := match stop with
      | some f => ns.filter fun n => n / o.len0 < f.1
      | none => ns
    let ms := ns.map fun n => o.rowMove n ((r.1.idx.lookup (n / o.len0)).getD 0)
    { moves := cutUnit ms, op := { o with idx := r.1.idx }, places := r.1.places, held := r.1.held
      fault := if ms.length ≤ 256 then stop.map Prod.snd else none }
  | .tmv =>
    let slot := o.reserved.map fun pos => (s.core.rings[o.ring], pos)
    let ms := ns.map fun n => o.tileMove (o.imageBytes (s.toDataRing o)) n slot
    { moves := cutUnit ms, op := o, places := [], held := [], fault := none }
  | .cp | .cpt | .cpx | .cpr | .cpsig =>
    { moves := cutUnit (ns.map o.plainMove), op := o, places := [], held := [], fault := none }

/-- The task's earlier accesses to what a unit reads and writes are performed (R273). -/
def State.unitClear (s : State) (o : CopyOp) (reads : List Nat) (writes : List (List Target)) : Bool :=
  s.ctx.clearBefore o.seq reads.contains fun a => writes.any fun ts => ts.any fun t => t.place == a

/-- After a tile for a ring is through, its reservation ends (R191, R249). -/
def State.tileEnd (s : State) (o : CopyOp) : State × CopyOp :=
  match o.reserved with
  | none => (s, o)
  | some pos => (s.tileWritten o.ring pos (s.whoIs 1 o.who), { o with reserved := none, lastPos := some pos })

/-- A row of an unordered scatter comes after another that wrote the same byte, in the order in which the rows are written,
which is free (R254). -/
def CopyOp.rowAfter (o : CopyOp) (row other : Nat) : Bool :=
  let rank (i : Nat) : Nat := Config.pick (o.free + i) o.n1
  rank other < rank row || (rank other == rank row && other ≤ row)

/-- The targets of a byte that an operation writes: for an unordered scatter, those that no later row has written. -/
def CopyOp.stillWrites (o : CopyOp) (n : Nat) (ts : List Target) : List Target :=
  if o.kind = .cps ∧ !o.ord then
    ts.filter fun t => (o.won.lookup t.place).all fun j => o.rowAfter (n / o.len0) j
  else ts

/-- The rows whose bytes stand at the places that an unordered scatter has written. -/
def CopyOp.wonBy (o : CopyOp) (ts : List (Nat × List Target)) : List (Nat × Nat) :=
  if o.kind = .cps ∧ !o.ord then
    ts.foldl (fun w e => e.2.foldl (fun w t => assocSet w t.place (e.1 / o.len0)) w) o.won
  else o.won

/-- Targets by their bytes' numbers in the stream, written in order: each is written unless a later row has written it. -/
def CopyOp.settleTargets (o : CopyOp) : List (Nat × List Target) → CopyOp × List (List Target)
  | [] => (o, [])
  | e :: es =>
    let ts := o.stillWrites e.1 e.2
    let r := CopyOp.settleTargets { o with won := o.wonBy [(e.1, ts)] } es
    (r.1, ts :: r.2)

/-- Delivers moves of a stream operation of the context in focus, and stops at a fault after them (R245). -/
def State.deliverMoves (s : State) (q : Fin 4) (o : CopyOp) (ms : List (ByteMove × Nat × List Target))
    (f : Option MemFault) : State :=
  let ps := ms.map fun m => m.2.1
  let after := o.bytes + ms.length
  let go (s : State) : State :=
    let bs := ((s.sourceBytes o ps).zip ms).map fun e => (e.2.1.val).getD e.1
    let w := o.settleTargets (ms.zipIdx.map fun e => (o.bytes + e.2, e.1.2.2))
    let ts := w.2
    let old := s.remember o ts
    let s := { s with fresh := s.fresh + ps.length }.targetWrite (s.whoIs 1 o.who) ts bs
    let u := s.streamUnit o
    let o := { w.1 with bytes := after, kib := max o.kib (after / 1024), units := after / u, since := s.cycle, old := old
                        cast := o.cast ++ s.castPlaces ts }
    let r := if after % u = 0 ∧ !ms.isEmpty then s.tileEnd o else (s, o)
    match f with
    | none => r.1.setCopy q r.2
    | some f => r.1.stopCopy q r.2 f
  match ms, f with
  | [], some f => s.stopCopy q o f
  | _, _ => s.copyUnit q o after go

/-- A multicast write in progress keeps a unit back at its group's root switch (R334). -/
def State.rootHolds (s : State) (o : CopyOp) (as : List Word) : Bool :=
  !o.entries.isEmpty && as.any fun a => (o.entries.find? fun g => g.covers a.toNat).any fun g => s.rootBusy g.swg

/-- The next unit of a stream operation of the context in focus. -/
def State.deliverStream (s : State) (q : Fin 4) (o : CopyOp) (total : Nat) : State :=
  let u := s.nextMoves o total
  let r := s.tryMoves u.op u.moves
  let f := match r.2.2 with
    | some f => some f
    | none => u.fault
  if s.rootHolds o (u.moves.map ByteMove.dst) ||
      !s.unitClear o (u.places ++ r.1.map fun m => m.2.1) (r.1.map fun m => m.2.2) then s
  else
    let s := (s.holdTlb s.foc.die (u.held ++ r.2.1))
    State.deliverMoves { s with fresh := s.fresh + 1 + u.places.length } q u.op r.1 f

/-! Operations by sheaf (R251 to R253). -/

/-- What a sheaf reads and writes, found whole before any of it moves (R245): the source bytes to read, and, from their
values, the destination bytes with their values; `taken` is how far BYTES and the stream go. -/
structure SheafMove where
  dst : List Word
  bytes : List Byte
  taken : Nat
  deriving DecidableEq, Repr

/-- Addresses of consecutive bytes. -/
def addrRun (a : Word) (n : Nat) : List Word := (List.range n).map fun k => a + word k

/-- The addresses of encoding plane k of sheaf i of a plane-major region of S sheaves (R94). -/
def planeRun (base b sheaves k i : Nat) : List Word := addrRun (word (base + ((b - 1 - k) * sheaves + i) * 32)) 32

/-- The planes of a sheaf in the order of a stream: falling k, those present (R95). -/
def planesDown (b mask : Nat) : List Nat := ((List.range b).reverse).filter fun k => mask / 2 ^ k % 2 == 1

/-- Reads addresses for an operation: the bytes, the places and the translations, or the first failure. -/
def State.sheafRead (s : State) (o : CopyOp) (as : List Word) : Except MemFault (List Byte × List Nat × List TlbEntry) :=
  match s.readAddrs o.view as with
  | .error e => .error e
  | .ok r => .ok (s.sourceBytes o r.1, r.1, r.2)

/-- A sheaf as read: its move, the places read, and the translations to hold. -/
structure SheafRead where
  move : SheafMove
  places : List Nat
  held : List TlbEntry
  deriving DecidableEq, Repr

/-- The next sheaf of `cp` with pack or compact (R251); its stream may begin at any address (log 69). -/
def State.packSheaf (s : State) (o : CopyOp) : Except MemFault SheafRead :=
  let b := o.eb
  let i := o.units
  let base := o.xb.toNat
  match s.sheafRead o (addrRun (recordAddr (base / o.sheafBytes + i)) 16) with
  | .error e => .error e
  | .ok r =>
    let rec_ := leNat r.1 % 2 ^ 94
    let az := recZero rec_
    let data := if az then [] else if o.opt = 1 then ((List.range b).reverse).flatMap fun k => planeRun base b o.n1 k i
      else addrRun (word (base + o.sheafBytes * i)) o.sheafBytes
    match s.sheafRead o data with
    | .error e => .error e
    | .ok d =>
      let planes := if o.opt = 1 ∧ !az then (List.range b).reverse.map fun k => (k, (d.1.drop (32 * (b - 1 - k))).take 32) else []
      let present := planes.filter fun e => e.2.any (· != 0)
      let mask := if az then 0 else if o.opt = 1 then (present.map fun e => 2 ^ e.1).sum else 2 ^ b - 1
      let out := leBytes 16 (rec_ + mask * 2 ^ 96) ++ (if o.opt = 1 then present.flatMap Prod.snd else d.1)
      .ok ⟨⟨addrRun (o.xa + word o.pos) out.length, out, out.length⟩, r.2.1 ++ d.2.1, r.2.2 ++ d.2.2⟩

/-- The place of sheaf i of tile t of `cpx`: its base in the crib, its first record if it has records, and the position
whose tags they carry (R249, R252). -/
structure SheafDest where
  base : Nat
  recs : Option Nat
  pos : Option Nat
  deriving DecidableEq, Repr

/-- The destination of the tile that `cpx` fills now; none while its slot is not reserved. -/
def State.expandDest (s : State) (o : CopyOp) : Option SheafDest :=
  if o.dring then
    o.reserved.map fun pos =>
      let r := s.core.rings[o.ring]
      ⟨r.slotOff pos, if r.role = 2 then none else some (r.recBase pos), some pos⟩
  else
    let a := o.xa.toNat + o.tileBytes * (o.units / o.n1)
    some ⟨a, some (a / o.sheafBytes), none⟩

/-- A record with the SEQ of its ring position (R249). -/
def taggedRecord (r : Nat) (pos : Option Nat) (i : Nat) : Nat := pos.elim r fun p => putBits r 87 80 (seqTag p i)

/-- The next sheaf of `cpx` (R252); its stream may begin at any address (log 69). -/
def State.expandSheaf (s : State) (o : CopyOp) (d : SheafDest) : Except MemFault SheafRead :=
  let b := o.eb
  let i := o.units % o.n1
  let a := o.xb + word o.pos
  match s.sheafRead o (addrRun a 16) with
  | .error e => .error e
  | .ok r =>
    let q := leNat r.1
    let mask := natBits q 127 96
    let az := recZero q
    let full := 2 ^ b - 1
    if full < mask ∨ (az ∧ mask ≠ 0) ∨ (o.opt = 1 ∧ mask ≠ 0 ∧ mask ≠ full) then .error ⟨0, a, 40⟩
    else
      let ks := planesDown b mask
      match s.sheafRead o (addrRun (a + 16) (32 * ks.length)) with
      | .error e => .error e
      | .ok data =>
        let plane (k : Nat) : List Byte :=
          match ks.findIdx? (· == k) with
          | some j => (data.1.drop (32 * j)).take 32
          | none => List.replicate 32 0
        let body : List (Word × Byte) :=
          if az then []
          else if o.opt = 1 then
            (addrRun (word (d.base + o.sheafBytes * i)) o.sheafBytes).zip
              (if mask = 0 then List.replicate o.sheafBytes 0 else data.1)
          else (List.range b).flatMap fun k => (planeRun d.base b o.n1 k i).zip (plane k)
        let rec_ := match d.recs with
          | none => []
          | some n => (addrRun (recordAddr (n + i)) 16).zip (leBytes 16 (taggedRecord (q % 2 ^ 94) d.pos i))
        let all := body ++ rec_
        .ok ⟨⟨all.map Prod.fst, all.map Prod.snd, 16 + 32 * ks.length⟩, r.2.1 ++ data.2.1, r.2.2 ++ data.2.2⟩

/-- A record of a transposed sheaf: LIVE and AZ as its codes make them (R253). -/
def relabelled (r : Nat) (f : Fmt) (codes : List Nat) : Nat :=
  putBits (putBits r 79 64 (liveOf f 0 codes)) 92 92 (if codes.all (codeZero f 0) then 1 else 0)

/-- The next sheaf of `cpt` (R253). -/
def State.turnSheaf (s : State) (o : CopyOp) : Except MemFault SheafRead :=
  let b := o.eb
  let i := o.units
  let row (base : Nat) : List Word := addrRun (word (base + o.sheafBytes * i)) o.sheafBytes
  let planes (base : Nat) : List Word := ((List.range b).reverse).flatMap fun k => planeRun base b o.n1 k i
  let back := o.opt % 2 = 1
  match s.sheafRead o (if back then planes o.xb.toNat else row o.xb.toNat) with
  | .error e => .error e
  | .ok d =>
    let codes := if back then (planeCodes b 1 d.1).headD []
      else (List.range 256).map fun k => natBits (leNat d.1) (b * k + b - 1) (b * k)
    let body := if back then (row o.xa.toNat).zip (leBytes o.sheafBytes (ofLanes b codes))
      else (planes o.xa.toNat).zip (((List.range b).reverse).flatMap fun k =>
        leBytes 32 (ofLanes 1 (codes.map fun c => c / 2 ^ k % 2)))
    match s.sheafRead o (if 2 ≤ o.opt then addrRun (recordAddr (o.xb.toNat / o.sheafBytes + i)) 16 else []) with
    | .error e => .error e
    | .ok r =>
      let rec_ := if 2 ≤ o.opt then
          (addrRun (recordAddr (o.xa.toNat / o.sheafBytes + i)) 16).zip (leBytes 16 (relabelled (leNat r.1) o.fmt codes))
        else []
      let all := body ++ rec_
      .ok ⟨⟨all.map Prod.fst, all.map Prod.snd, o.sheafBytes⟩, d.2.1 ++ r.2.1, d.2.2 ++ r.2.2⟩

/-- The next sheaf of an operation, as read; none while its ring slot is not reserved. -/
def State.nextSheaf (s : State) (o : CopyOp) : Option (Except MemFault SheafRead) :=
  match o.kind with
  | .cpt => some (s.turnSheaf o)
  | .cpx => (s.expandDest o).map (s.expandSheaf o)
  | .cp | .cpg | .cps | .cpr | .cpsig | .tmv => some (s.packSheaf o)

/-- Delivers the next sheaf of an operation of the context in focus, whole or not at all (R245). -/
def State.deliverSheaf (s : State) (q : Fin 4) (o : CopyOp) : State :=
  match s.nextSheaf o with
  | none => s
  | some (.error f) => s.stopCopy q o f
  | some (.ok r) =>
    match s.writeAddrs o.view o.entries r.move.dst with
    | .error f => s.stopCopy q o f
    | .ok t =>
      if s.rootHolds o r.move.dst || !s.unitClear o r.places t.1 then s
      else (s.holdTlb s.foc.die (r.held ++ t.2)).copyUnit q o (o.bytes + r.move.taken) fun s =>
        let old := s.remember o t.1
        let s := { s with fresh := s.fresh + r.places.length }.targetWrite (s.whoIs 1 o.who) t.1 r.move.bytes
        let after := o.bytes + r.move.taken
        let o := { o with units := o.units + 1, bytes := after, kib := max o.kib (after / 1024), pos := o.pos + r.move.taken
                          since := s.cycle, old := old, cast := o.cast ++ s.castPlaces t.1 }
        let e := if o.units % o.n1 = 0 then s.tileEnd o else (s, o)
        e.1.setCopy q e.2

/-! Remote atomics (R255). -/

/-- Element e of a `cpr` as its checks find it: the target, the places of its operands, and the translations to hold. -/
structure RemoteAtomic where
  target : Nat
  operands : List Nat
  held : List TlbEntry
  deriving DecidableEq, Repr

/-- The checks of element e of a `cpr`, those of each access in the order of R82 (R244, R245, R255). -/
def State.checkElement (s : State) (o : CopyOp) (e : Nat) : Except MemFault RemoteAtomic :=
  let w := o.width
  let a := o.xa + word e * o.dstr1
  let src := o.xb + word (e * o.operandBytes)
  let ret := o.retOff + w * e
  if !keyOk src then .error ⟨causeAccess, src, 3⟩
  else if locOf src % w ≠ 0 then .error ⟨causeMisalign, src, 5⟩
  else if (winOf (locOf src)).isNone then .error ⟨causeAccess, src, 1⟩
  else if winOf (locOf src) ≠ some .crib ∧ winOf (locOf src) ≠ some .swizzled then .error ⟨causeAccess, src, 4⟩
  else match s.readAddrs o.view (addrRun src o.operandBytes) with
    | .error f => .error f
    | .ok ops =>
      if !keyOk a then .error ⟨causeAccess, a, 3⟩
      else if locOf a % w ≠ 0 then .error ⟨causeMisalign, a, 5⟩
      else if (winOf (locOf a)).isNone then .error ⟨causeAccess, a, 1⟩
      else if winOf (locOf a) ≠ some .mapped then .error ⟨causeAccess, a, 4⟩
      else match s.checkEngine o.view a w true with
        | .error f => .error f
        | .ok t =>
          let p := t.places.headD 0
          if (s.poisonIn p w).isSome then .error ⟨causeEcc, a, 0⟩
          else if ret % w ≠ 0 then .error ⟨causeMisalign, word ret, 5⟩
          else if 2097152 < ret + w then .error ⟨causeAccess, word ret, 2⟩
          else .ok ⟨p, ops.1, ops.2 ++ t.held⟩

/-- The first element of a list of numbers from `n` that is not in it, with what is left of the list. -/
def advanceUnits (l : List Nat) : Nat → Nat → Nat × List Nat
  | 0, u => (u, l)
  | k + 1, u => if l.contains u then advanceUnits (l.filter (· != u)) k (u + 1) else (u, l)

/-- Applies a checked element of a `cpr` of the context in focus (R255), once its task's earlier accesses are performed. A
word poisoned since its check stays poisoned, and so does what it returns (R390; log 18). -/
def State.applyElement (s : State) (q : Fin 4) (o : CopyOp) (k : CheckedAtomic) : State :=
  let w := o.width
  let d := s.foc.die
  let ret := cribPlace s.foc.coreId (o.retOff + w * k.elem)
  let c := leNat (k.operands.take w)
  let v := if o.fmtCode = 9 then leNat (k.operands.drop w) else c
  let old := s.homeNat k.target w
  let out := if 10 ≤ o.fmtCode then floatAtomic (o.fmtCode - 10) (w == 8) old v
    else (intAtomic o.fmtCode w old v c, FlagSet.none)
  let who := s.whoIs 1 o.who
  let u := advanceUnits (k.elem :: o.applied) (o.applied.length + 1) o.units
  let o' := { o with units := u.1, applied := u.2, bytes := u.1 * o.operandBytes, since := s.cycle
                     ahead := o.ahead.filter fun e => e.elem != k.elem, kib := max o.kib (u.1 * o.operandBytes / 1024)
                     flags := o.flags ||| out.2.bits, old := s.remember o [(List.range w).map fun j => ⟨d, ret + j⟩] }
  let hurt := if (s.poisonIn k.target w).isSome then [wordOf k.target, wordOf ret] else []
  if !s.ctx.clearBefore o.seq (within k.target w) (fun a => within k.target w a || within ret w a) then s
  else s.copyUnit q o o'.bytes fun s =>
    let s := s.performWrite none who 0 d (cellsAt k.target (leBytes w out.1))
    let s := (s.unitWrite who d ret (leBytes w old)).setCopy q o'
    { s with poison := (s.poison ++ hurt).eraseDups }

/-- A `cpr` of the context in focus applies one of the elements it has checked; `n` numbers the free choice. -/
def State.applyOne (s : State) (q : Fin 4) (o : CopyOp) (n : Nat) : State :=
  match o.ahead[Config.pick n o.ahead.length % o.ahead.length]? with
  | some k => s.applyElement q o k
  | none => s

/-- The next step of a `cpr` of the context in focus (R255). In order, an element is checked and applied. Unordered, any
element is applied whose predecessors have all been checked without fault, at most 64 ahead; none is checked while its
task is being saved (R262). -/
def State.deliverElement (s : State) (q : Fin 4) (o : CopyOp) : State :=
  let n := s.draw
  let s := n.2
  let e := o.units + o.applied.length + o.ahead.length
  let idle := o.ahead.isEmpty
  let saving : Bool := match s.ctx.status with
    | .saving _ => true
    | _ => false
  let more := e < o.unitCount && (idle || (o.ahead.length < 64 && !Config.coin n.1))
  if saving || !more then s.applyOne q o n.1
  else match s.checkElement o e with
    | .error f => if idle then s.stopCopy q o f else s.applyOne q o n.1
    | .ok r =>
      if !s.ctx.clearBefore o.seq r.operands.contains (fun _ => false) then s.applyOne q o n.1
      else
        let k : CheckedAtomic := ⟨e, r.target, s.sourceBytes o r.operands⟩
        let s := { s with fresh := s.fresh + r.operands.length }.holdTlb s.foc.die r.held
        if o.ord then s.applyElement q o k else s.setCopy q { o with ahead := o.ahead ++ [k] }

/-! Steps of an operation at work. -/

/-- The word of a `cpsig` (R256). -/
def State.deliverWord (s : State) (q : Fin 4) (o : CopyOp) : State :=
  let p := cribPlace s.foc.coreId o.xa.toNat
  if !s.ctx.clearBefore o.seq (fun _ => false) (within p 8) then s
  else s.copyUnit q o 8 fun s =>
    (s.unitWrite (s.whoIs 1 o.who) s.foc.die p (leBytes 8 o.xb.toNat)).setCopy q { o with units := 1, bytes := 8 }

/-- The most that one step may add to what reports count. -/
def CopyOp.stride (o : CopyOp) : Nat :=
  if o.bySheaf then o.sheafBytes + 16 else if o.kind = .cpr then 65 * o.operandBytes else 256

/-- A report is due before anything more is delivered: what is unreported would pass 64 KiB (R248). -/
def CopyOp.reportDue (o : CopyOp) : Bool :=
  o.binds && o.kind != .cpsig && o.reported < o.counted && 65536 < o.counted - o.reported + o.stride

/-- The operation at the head of a queue of the core in focus, when it runs. -/
def Core.runningCopy (c : Core) (q : Fin 4) : Option CopyOp :=
  match c.cq[q] with
  | o :: _ => if o.state = .running then some o else none
  | [] => none

/-- The next tile of an operation has no ring slot yet (R191). -/
def CopyOp.needsSlot (o : CopyOp) : Bool := o.toRing && o.reserved.isNone

/-- A queue of the core in focus has a unit to deliver. -/
def State.unitDue (s : State) (q : Fin 4) : Bool :=
  (s.core.runningCopy q).any fun o => !s.delivered o && !o.reportDue && !o.needsSlot

/-- The queue that the engine serves next, one unit each in turn (R238). -/
def State.copyTurn (s : State) : Option (Fin 4) :=
  ((List.range 4).map fun k => (Fin.ofNat 4 (s.core.cqTurn + k) : Fin 4)).find? s.unitDue

/-- The links that the next unit of an operation of the context in focus needs: remote reads and writes, the atomics of a
`cpr`, and multicast data (R318). -/
def State.copyLinks (s : State) (o : CopyOp) : List Link :=
  let d := s.foc.die
  let out (as : List Word) (ts : List (List Target)) : List Link :=
    writeLinks d ((ts.flatten.filter fun t => t.die == d).map Target.place) ++
      ((ts.flatten.map Target.die).eraseDups.filter (· != d)).map (fun m => ⟨d, m, 2⟩) ++
      ((as.filterMap fun a => o.entries.find? fun g => g.covers a.toNat).flatMap fun g =>
        ((s.membersOf g.swg).filter (16 ≤ ·)).map fun _ => ⟨d, 16, 2⟩)
  match s.streamBytes o with
  | some n =>
    let u := s.nextMoves o n
    let r := s.tryMoves u.op u.moves
    readLinks d (u.places ++ r.1.map fun m => m.2.1) ++ out (u.moves.map ByteMove.dst) (r.1.map fun m => m.2.2)
  | none =>
    if o.bySheaf then
      match s.nextSheaf o with
      | some (.ok r) => readLinks d r.places ++ match s.writeAddrs o.view o.entries r.move.dst with
        | .ok t => out r.move.dst t.1
        | .error _ => []
      | _ => []
    else if o.kind = .cpr then
      readLinks d (o.ahead.map CheckedAtomic.target) ++
        match s.checkElement o (o.units + o.applied.length + o.ahead.length) with
        | .ok r => readLinks d [r.target]
        | .error _ => []
    else []

/-- R245: the next unit of a queue's running operation, in its turn (R238). -/
def execCopyUnitDelivery (p : CoreId) (q : Fin 4) (s : State) : Out :=
  if !p.ok then .fault .noSuchAgent
  else
    let t := s.focusCore p
    match t.core.runningCopy q with
    | none => .next s
    | some o =>
      let t := t.focusOn o.who
      if t.copyTurn ≠ some q then .next s
      else
        let t := { t with core := { t.core with cqTurn := q.val + 1 } }
        .next (t.overLinks (fun _ => t.copyLinks o) (fun _ => t.stopCopy q o ⟨0, 0, 41⟩) fun t =>
          match t.streamBytes o with
          | some n => t.deliverStream q o n
          | none =>
            if o.bySheaf then t.deliverSheaf q o
            else if o.kind = .cpr then t.deliverElement q o
            else t.deliverWord q o)

/-- Reports what is not reported yet (R248): the operation after it, or a stop. -/
def State.sendReport (s : State) (q : Fin 4) (o : CopyOp) (go : State → CopyOp → State) : State :=
  let n := o.counted - o.reported
  if !o.binds || o.kind = .cpsig || n = 0 then go s o
  else match (s.uncast s.foc.die o.cast).reportTo (boundBarrier s.foc.coreId o.bidx) (s.whoIs 1 o.who) s.foc.die n with
    | .error f => s.stopCopy q o ⟨f.1, boundAddr o.bidx, f.2⟩
    | .ok t =>
      let o := { o with reported := o.counted, cast := [] }
      go (t.setCopy q o) o

/-- R248: a bound operation reports its progress. -/
def execCopyBarrierReport (p : CoreId) (q : Fin 4) (s : State) : Out :=
  if !p.ok then .fault .noSuchAgent
  else
    let t := s.focusCore p
    match t.core.runningCopy q with
    | none => .next s
    | some o =>
      let t := t.focusOn o.who
      if t.delivered o then .next s else .next (t.sendReport q o fun t _ => t)

/-- TAIL has passed the last tile that an operation finished (R247). -/
def State.tailPassed (s : State) (o : CopyOp) : Bool :=
  o.lastPos.all fun pos => !(s.core.rings[o.ring].filled.contains pos)

/-- R247: an operation completes: its signal, its last report, its flags. -/
def execCopyCompletion (p : CoreId) (q : Fin 4) (s : State) : Out :=
  if !p.ok then .fault .noSuchAgent
  else
    let t := s.focusCore p
    match t.core.runningCopy q with
    | none => .next s
    | some o =>
      let t := t.focusOn o.who
      let at_ := cribPlace p (8 * o.sigidx)
      let sigs := o.sig && !o.signalled
      if !(t.delivered o && t.tailPassed o) then .next s
      else if sigs && !t.ctx.clearBefore o.seq (fun _ => false) (within at_ 8) then .next s
      else
        let t := t.uncast p.die o.cast
        let t := if sigs then t.unitWrite (t.whoIs 1 o.who) p.die at_ (leBytes 8 o.sigval) else t
        let o := { o with signalled := o.signalled || o.sig, cast := [] }
        .next ((t.setCopy q o).sendReport q o fun t o =>
          ((t.chargeRest o).raiseBits o.flags).leaveCopy q o .done)

/-! Resolution, cancellation and teardown (R260 to R262). -/

/-- The operations of the context in focus in a copy queue. -/
def State.myCopies (s : State) (q : Fin 4) : List CopyOp := (s.core.cq[q]).filter fun o => o.who == s.foc

/-- `qrty` on a copy queue (R260). -/
def State.retryCopy (s : State) (q : Fin 4) : State :=
  match (s.myCopies q).find? fun o => o.state == .faulted with
  | none => s
  | some o => s.setCopy q { o with state := .running, faddr := 0, cause := 0, reason := 0, told := false, since := s.cycle }

/-- DOM of the tile an operation was filling: that of its first record, as far as it can be read (R261). -/
def State.tileDom (s : State) (o : CopyOp) : Nat :=
  let peek (a : Word) : Nat := match s.readAddrs o.view (addrRun a 16) with
    | .ok r => recTag (leNat (s.seenBytes s.foc.die r.1))
    | .error _ => 0
  match o.kind, o.reserved with
  | .tmv, some _ => peek (o.tileByte o.xb o.units o.tileBytes)
  | .cpx, some pos =>
    if o.units % o.n1 = 0 then peek (o.xb + word o.pos)
    else recTag (s.recordAt s.foc.coreId (s.core.rings[o.ring].recBase pos))
  | _, _ => 0

/-- A reserved slot is completed with all-zero records (R230, R261). -/
def State.voidSlot (s : State) (o : CopyOp) : State :=
  match o.reserved with
  | none => s
  | some pos =>
    let r := s.core.rings[o.ring]
    let who := s.whoIs 1 o.who
    let dom := s.tileDom o
    let s := if r.role = 2 then s else (List.range (roleRecords r.role)).foldl (fun s i =>
      s.putRow who 0 (some (r.recBase pos + i)) [] (2 ^ 92 + dom * 2 ^ 88 + seqTag pos i * 2 ^ 80)) s
    s.tileWritten o.ring pos who

/-- The aborted arrival of an operation that ends undelivered (R261). -/
def State.abortCopy (s : State) (o : CopyOp) : State :=
  if o.binds && o.kind != .cpsig then
    s.abortTo (boundBarrier s.foc.coreId o.bidx) (s.whoIs 1 o.who) s.foc.die (s.countedTotal o - o.reported)
  else s

/-- Cancels an operation of the context in focus. -/
def State.cancelOp (s : State) (q : Fin 4) (o : CopyOp) : State :=
  let s := if o.state = .running then (s.endCopyWait o Config.waitCancelled.toNat).chargeRest o else s
  ((s.voidSlot o).abortCopy o).leaveCopy q { o with reserved := none } .cancelled

/-- `qcan` on a copy queue (R261): the faulted operation, or else the oldest. -/
def State.cancelCopy (s : State) (q : Fin 4) : State :=
  match (s.myCopies q).find? fun o => o.state == .faulted with
  | some o => s.cancelOp q o
  | none => match s.myCopies q with
    | o :: _ => s.cancelOp q o
    | [] => s

/-- Teardown discards the operations of the context in focus (R262). -/
def State.dropCopies (s : State) : State :=
  [0, 1, 2, 3].foldl (fun s q => (s.myCopies q).foldl (fun s o =>
    (((s.endCopyWait o 3).voidSlot o).abortCopy o).leaveCopy q { o with reserved := none } .cancelled) s) s

end Sys2Proof.Machine
end

