-- ==== Sys2Proof/Machine/Collective.lean ====
section
/-! DEFINITION. The collective engine and major 0x2c (R316 to R335): group entries, collectives from issue to
completion, multicast stores and reducing loads, faults and cancellation, and the links of the fabric. -/

namespace Sys2Proof.Machine

/-! The operations of a die (R322). -/

/-- The operations of a die's collective engine, with their queues. -/
def State.xops (s : State) (d : Nat) : List (Fin 8 × XOp) :=
  (List.finRange 8).flatMap fun q => ((s.dieAt d).xq[q]).map fun o => (q, o)

/-- The k-th collective of a switch group on a die, while it has not ended (R327). -/
def State.xPeer (s : State) (swg k d : Nat) : Option (Fin 8 × XOp) :=
  (s.xops d).find? fun e => e.2.g.swg == swg && e.2.seqNo == k

/-- The operation at the head of a queue. -/
def State.xHead (s : State) (d : Nat) (q : Fin 8) : Option XOp := ((s.dieAt d).xq[q]).head?

/-- Replaces an operation of a queue. -/
def State.setXop (s : State) (d : Nat) (q : Fin 8) (o : XOp) : State :=
  let x := s.dieAt d
  s.setDieAt d { x with xq := x.xq.set q ((x.xq[q]).map fun e =>
    if e.g.swg = o.g.swg ∧ e.seqNo = o.seqNo then o else e) }

/-- A member has cancelled the operation's collective (R332). -/
def State.isDead (s : State) (d : Nat) (o : XOp) : Bool := (s.dieAt d).dead.contains (o.g.swg, o.seqNo)

/-! Fields of a descriptor (Tables 10-1, 13-6, 13-7). -/

def XOp.fmt (o : XOp) : Fmt := fmtOfCode (natBits o.ctl 55 52)
def XOp.opCode (o : XOp) : Nat := natBits o.ctl 57 56
def XOp.rootRank (o : XOp) : Nat := natBits o.ctl 47 32
def XOp.count (o : XOp) : Nat := natBits o.ctl 31 0
def XOp.sig (o : XOp) : Bool := natBits o.bsw 58 58 == 1
def XOp.binds (o : XOp) : Bool := natBits o.bsw 57 57 == 1
def XOp.bidx (o : XOp) : Nat := natBits o.bsw 56 34
def XOp.sigval (o : XOp) : Nat := natBits o.bsw 33 18
def XOp.sigidx (o : XOp) : Nat := natBits o.bsw 17 0

/-- B, the bytes of one block (R325). -/
def XOp.block (o : XOp) : Nat := o.count * o.fmt.bits / 8

/-- `xrs` and `xar` reduce. -/
def XKind.reduces : XKind → Bool
  | .reduceScatter | .allReduce => true
  | .allGather | .broadcast => false

/-- Bytes of SRC and of DST on a die, of n members (R325). -/
def XOp.srcLen (o : XOp) (n : Nat) : Nat := if o.kind = .reduceScatter then n * o.block else o.block
def XOp.dstLen (o : XOp) (n : Nat) : Nat := if o.kind = .allGather then n * o.block else o.block

/-- Members of the operation's group. -/
def State.xSize (s : State) (o : XOp) : Nat := (s.membersOf o.g.swg).length

/-- The rank of a die in the operation's group. -/
def State.xRank (s : State) (o : XOp) (d : Nat) : Nat := (s.membersOf o.g.swg).idxOf d

/-- What the headers of a collective's members agree in (R327). -/
def XOp.header (o : XOp) : XKind × Bool × Fmt × Nat × Nat × Nat :=
  (o.kind, o.ord, o.fmt, o.opCode, o.count, o.rootRank)

/-! Checks at issue (R324, R326). -/

/-- A precise ENGINE-FAULT of major 0x2c at issue (Table 10-5). -/
def State.fabricStop (s : State) (reason : Nat) : State :=
  s.stop causeEngine 0 (engineInfo s.ctx.slot 7 false 0 reason (s.ctx.opn[7]))

/-- Entries that hold a place in the collective issue queue: a collective passes on at once (R322). -/
def Ctx.xiUsed (x : Ctx) : Nat := (x.xiq.filter fun e => match e.op with
  | .passed _ => false
  | .bind _ _ | .store _ _ _ _ | .reduce _ _ _ _ _ _ _ => true).length

/-- Reads the 64 bytes of a descriptor in the linear crib as the task sees them, or traps (R324, R326, R391). -/
def readDescriptor (s : State) (a : Word) (go : Nat → Out) : Out :=
  if !inLinear a then .next (s.memTrap ⟨causeAccess, a, 4⟩ false)
  else if a.toNat % 64 ≠ 0 then .next (s.memTrap ⟨causeMisalign, a, 5⟩ false)
  else
    let ps := (List.range 64).map fun k => cribPlace s.foc.coreId (a.toNat + k)
    match s.readPoison ps with
    | some k => .next (s.poisonTrap a k)
    | none => go (leNat (s.ownBytes ps))

/-- A field of a descriptor: `n` bytes at an offset. -/
def descField (v off n : Nat) : Nat := v / 256 ^ off % 256 ^ n

/-- R324: held until the task's stores to the descriptor are performed, which it releases. -/
def execXgrp (xd : XReg) (g : Fin 8) (xa : XReg) (s : State) : Out :=
  let a := s.getX xa
  if !s.accessReady false then .next s.holdReady
  else readDescriptor s a fun v =>
    if s.ctx.stores.any fun p => p.places.any fun b => within (cribPlace s.foc.coreId a.toNat) 64 b then .next s.holdReady
    else
    let e : GroupEntry := ⟨descField v 0 2, descField v 8 8, descField v 16 8, descField v 24 8⟩
    let bad := descField v 2 6 ≠ 0 ∨ descField v 32 32 ≠ 0 ∨ e.abase % 65536 ≠ 0 ∨ e.asize % 65536 ≠ 0 ∨
      e.rbase % 65536 ≠ 0 ∨ (e.asize ≠ 0 ∧ e.abase < 2 ^ 32)
    if bad then .next (s.fabricStop 32)
    else match s.viewOf s.foc.die e.swg with
      | none => .next (s.fabricStop 44)
      | some v =>
        let h := (s.ctx.task.map Task.launch).getD 0
        let d := s.foc.die
        let fill (l : Launch) : Launch :=
          if l.handle = h then
            { l with groups := (l.groups.filter fun x => !(x.1 == d && x.2.1 == g.val)) ++ [(d, g.val, e)] }
          else l
        .next (State.setX { s.trimPoints with launches := s.launches.map fill } xd (word v.rank))

/-- The consumer ring that an operand names (Table 13-4), none when it does not exist in the launch or no task of the
launch there is assigned it (R326). -/
def State.consumer (s : State) (v : Word) : Option RingBinding :=
  s.ctx.task.bind fun t =>
    let ring : Fin 16 := Fin.ofNat 16 (wordBits v 3 0)
    let here (c : CtxId) : Bool := c.die == s.foc.die && (s.ctxAt c).task.any fun u =>
      u.launch == t.launch && u.rmask.testBit ring.val &&
        (if v.getLsbD 12 then c.core == s.foc.core
         else u.stage == t.stage && u.d == t.d && u.k == wordBits v 11 8 && u.c == wordBits v 6 4)
    (s.knownCtxs.find? here).map fun c => ⟨c.coreId, ring⟩

/-- The binding that waits for the next collective of the context in focus on a queue (R331). -/
def State.pendingBind (s : State) (q : Fin 8) : Option (XiEntry × Word) :=
  s.ctx.xiq.findSome? fun e => match e.op with
    | .bind p v => if p = q then some (e, v) else none
    | .passed _ | .store _ _ _ _ | .reduce _ _ _ _ _ _ _ => none

/-- The tile of a ring that a bound output is cut into (R331). -/
def XOp.tileSize (o : XOp) (r : Ring) : Nat := if r.role = 0 then 1024 * o.fmt.bits else r.slotSize

/-- Ranges of addresses overlap. -/
def rangesMeet (a m b n : Nat) : Bool := a < b + n && b < a + m

/-- The allowed overlap of SRC and DST (R326). -/
def XOp.inPlace (o : XOp) (r : Nat) : Bool :=
  match o.kind with
  | .allReduce | .broadcast => o.dst == o.src
  | .allGather => o.src == o.dst + r * o.block
  | .reduceScatter => o.dst == o.src + r * o.block

/-- A descriptor that no collective of its kind may have (R326, reason 32); `v` is the whole of it, n the members. -/
def XOp.badDescriptor (o : XOp) (v n : Nat) : Bool :=
  descField v 32 32 != 0 || natBits o.ctl 63 60 != 0 || natBits o.ctl 51 51 != 0 ||
  (o.kind.reduces && (!([Fmt.fp32, Fmt.bf16, Fmt.fp16].contains o.fmt) || o.opCode == 3)) ||
  o.count == 0 || o.count * o.fmt.bits % 8 != 0 || (o.kind == .broadcast && n ≤ o.rootRank)

/-- The first cause that stops a collective at issue after its address checks (R326, 2 and 3). -/
inductive XRefusal where
  | reason (r : Nat)
  | ring
  deriving DecidableEq, Repr

/-- The checks of R326 on a filled entry; r is this die's rank, n the members. -/
def State.xRefusal (s : State) (o : XOp) (v n r : Nat) : Option XRefusal :=
  if o.badDescriptor v n then some (.reason 32)
  else match o.bind with
    | none =>
      if rangesMeet o.src (o.srcLen n) o.dst (o.dstLen n) && !o.inPlace r then some (.reason 48) else none
    | some b =>
      let g := (s.coreAt b.core).rings[b.ring]
      let suits : Bool := g.nslot != 0 && g.role != 1
      if suits && (o.dstLen n % o.tileSize g != 0 || 2 ^ 32 < o.dstLen n) then some (.reason 47)
      else if !suits || g.slotSize < o.tileSize g then some .ring else none

/-- A member's next number on a switch group (R319). -/
def Die.nextOn (x : Die) (swg : Nat) : Nat := (x.swSeq.lookup swg).getD 0

/-- An entry of the collective issue queue of the context in focus (R322). -/
def State.enterXi (s : State) (op : XiOp) : State :=
  let n := s.openOp 7
  let s := n.2
  let e : XiEntry :=
    { op := op, opn := n.1, slot := s.ctx.slot, seq := s.ctx.seq, after := s.joinsOf 7, rootNo := none, refused := []
      fault := none, cast := [] }
  { s with ctx := { s.ctx with xiq := s.ctx.xiq ++ [e] } }

/-- A record of an entry without progress of its own. -/
def plainRecord (opn : Nat) (st : OpState) : Progress :=
  { units := if st = .done then 1 else 0, opn := opn, cause := 0, state := st, bytes := 0, faddr := 0 }

/-- An entry of the context in focus leaves its collective issue queue (R322). -/
def State.leaveXi (s : State) (opn : Nat) (r : Progress) : State :=
  let s := { s with ctx := { s.ctx with xiq := s.ctx.xiq.filter fun e => e.opn != opn } }
  let s := s.closeOp s.foc 7 r
  let who := s.whoDie 5 s.foc.die
  (s.noteOwnLeft s.foc 7 who).drainSetter s.foc who

/-- The issue of a collective (R325, R326): it passes to its xq at once, with the binding that waits for it (R331). -/
def issueCollective (kind : XKind) (ord : Bool) (q : Fin 8) (xa : XReg) (s : State) : Out :=
  let a := s.getX xa
  let t := s.ctx.task
  let bound := s.pendingBind q
  let cons := bound.bind fun b => s.consumer b.2
  if 8 ≤ s.ctx.xiUsed then .next (s.waitRoom 7)
  else if !s.accessReady true then .next s.holdReady
  else if !(t.any fun t => t.xqm.testBit q.val) then .next (s.accessTrap 0)
  else if !inLinear a then .next (s.memTrap ⟨causeAccess, a, 4⟩ false)
  else if bound.isSome && cons.isNone then .next (s.accessTrap 0)
  else readDescriptor s a fun v =>
    let ctl := descField v 16 8
    match s.myLaunch.bind fun l => l.entry s.foc.die (natBits ctl 50 48) with
    | none => .next (s.fabricStop 46)
    | some g =>
      let view := s.viewOf s.foc.die g.swg
      let o : XOp :=
        { who := s.foc, launch := (t.map Task.launch).getD 0, task := (t.map Task.index).getD 0, opn := s.ctx.opn[7]
          slot := s.ctx.slot, seq := s.ctx.seq, kind := kind, ord := ord, g := g, seqNo := s.die.nextOn g.swg
          src := descField v 0 8, dst := descField v 8 8, dlen := 0, ctl := ctl, bsw := descField v 24 8, bind := cons
          asn := s.space.1, root := s.space.2, issued := s.cycle, since := s.cycle, state := .queued, checked := false
          matched := false, units := 0, bytes := 0, kib := 0, reported := 0, reserved := none, faddr := 0, cause := 0, reason := 0
          told := false, flags := 0, old := [], late := [], lastPos := none, signalled := false, after := s.joinsOf 7 }
      let n := (view.map MemberView.n).getD 0
      let o := { o with dlen := o.dstLen n }
      match s.xRefusal o v n ((view.map MemberView.rank).getD 0) with
      | some (.reason r) => .next (s.fabricStop r)
      | some .ring => .next (s.stop causeRingConfig 0 0)
      | none =>
        let s := match bound with
          | some b => s.leaveXi b.1.opn (plainRecord b.1.opn .done)
          | none => s
        let s := s.trimPoints.enterXi (.passed q)
        .next { s with die := { s.die with
          xq := s.die.xq.set q (s.die.xq[q] ++ [o])
          swSeq := assocSet s.die.swSeq g.swg (o.seqNo + 1) } }

/-- R325, R326. -/
def execXag (q : Fin 8) (xa : XReg) (s : State) : Out := issueCollective .allGather false q xa s
/-- R325, R326. -/
def execXrs (ord : Bool) (q : Fin 8) (xa : XReg) (s : State) : Out := issueCollective .reduceScatter ord q xa s
/-- R325, R326. -/
def execXar (ord : Bool) (q : Fin 8) (xa : XReg) (s : State) : Out := issueCollective .allReduce ord q xa s
/-- R325, R326. -/
def execXbc (q : Fin 8) (xa : XReg) (s : State) : Out := issueCollective .broadcast false q xa s

/-- R331: a later binding of the same queue takes the place of an earlier one. -/
def execXsig (q : Fin 8) (xa : XReg) (s : State) : Out :=
  let v := s.getX xa
  let old := s.pendingBind q
  if old.isNone && 8 ≤ s.ctx.xiUsed then .next (s.waitRoom 7)
  else if wordBits v 63 13 ≠ 0 ∨ v.getLsbD 7 then .next (s.fabricStop 32)
  else
    let s := match old with
      | some e => s.leaveXi e.1.opn (plainRecord e.1.opn .done)
      | none => s
    .next (s.enterXi (.bind q v))

/-! Multicast stores and reducing loads at issue (R334, R335). -/

/-- Issue of an access through an aperture: its entry and the offset in it. -/
def apertureIssue (s : State) (xa : XReg) (n : Nat) (wr : Bool) (go : State → GroupEntry → Nat → Out) : Out :=
  let a := s.getX xa
  if 8 ≤ s.ctx.xiUsed then .next (s.waitRoom 7)
  else if !s.accessReady wr then .next s.holdReady
  else match s.aperture a with
    | none => .next (s.fabricStop 46)
    | some g =>
      if a.toNat % n ≠ 0 then .next (s.memTrap ⟨causeMisalign, a, 5⟩ wr)
      else go s.trimPoints g (a.toNat - g.abase)

/-- R334. -/
def execStmc (dbl : Bool) (xa xb : XReg) (s : State) : Out :=
  apertureIssue s xa (opBytes dbl) true fun s g off =>
    .next (s.enterXi (.store g off (leBytes (opBytes dbl) (s.getX xb).toNat) (s.membersOf g.swg)))

/-- R335. -/
def execLdrd (ord : Bool) (op : RedOp2) (dbl : Bool) (xd xa : XReg) (s : State) : Out :=
  apertureIssue s xa (opBytes dbl) false fun s g off => .next (s.enterXi (.reduce g off ord op dbl xd []))

/-! Reduction arithmetic (R329). -/

/-- The flags that a reduction reports. -/
def FlagSet.reduced (f : FlagSet) : FlagSet :=
  { FlagSet.none with nv := f.nv, ov := f.ov, nx := f.nx, nfs := f.nfs }

/-- A sum under some binary tree: two of the values left, of no fixed choice, are added until one is left. -/
def treeSum (w : FpFmt) (fresh : Nat) : Nat → List Nat → FlagSet → Nat × FlagSet
  | 0, xs, f => (xs.headD 0, f)
  | k + 1, xs, f =>
    if xs.length ≤ 1 then (xs.headD 0, f)
    else
      let i := Config.pick (fresh + 2 * k) xs.length % xs.length
      let ys := xs.eraseIdx i
      let j := Config.pick (fresh + 2 * k + 1) ys.length % ys.length
      let r := w.add 0 (xs.getD i 0) (ys.getD j 0)
      treeSum w fresh k (r.1 :: ys.eraseIdx j) (f.or { r.2 with nfs := false })

/-- The least or greatest of values. -/
def extreme (w : FpFmt) (wantMax : Bool) : List Nat → Nat × FlagSet
  | [] => (0, FlagSet.none)
  | x :: xs => xs.foldl (fun r y =>
      let m := w.minMax wantMax r.1 y
      (m.1, r.2.or { m.2 with nfs := false })) (x, FlagSet.none)

/-- The ceiling of the binary logarithm of a count. -/
def ceilLog2 (n : Nat) : Nat := if n ≤ 1 then 0 else Nat.log2 (n - 1) + 1

/-- The ordered add: the bin-cell sum. -/
def orderedSum (f : FpFmt) (codes : List Nat) : Nat × FlagSet :=
  let vs := codes.map f.decode
  let isNan : FVal → Bool
    | .nan _ => true
    | .inf _ | .num _ _ _ => false
  let inf (neg : Bool) : Bool := vs.contains (.inf neg)
  if vs.any isNan || (inf true && inf false) then f.markNfs (f.nanCode, FlagSet.invalid)
  else if inf false then f.markNfs (f.infCode, FlagSet.none)
  else if inf true then f.markNfs (f.signed true f.infCode, FlagSet.none)
  else
    let tops := vs.filterMap fun v => match v with
      | .num _ m e => if m = 0 then none else some (e + (Nat.log2 m : Int))
      | .nan _ | .inf _ => none
    match tops with
    | [] => (0, FlagSet.none)
    | t :: ts =>
      let e0 : Int := ts.foldl max t + 1 + ceilLog2 codes.length
      let c := vs.foldl (fun (c : Nat × FlagSet) v =>
        let r := binAddTo c.1 v
        (r.1, c.2.or r.2)) ((e0 % 4096).toNat, FlagSet.none)
      let r := binValue c.1 f
      (r.1, r.2.or c.2)

/-- One element reduced over its contributions: operator 0 add, 1 minimum, 2 maximum; `w` is the format of the
arithmetic, `f` that of the values. -/
def reduceCodes (w f : FpFmt) (op : Nat) (ord : Bool) (fresh : Nat) (codes : List Nat) : Nat × FlagSet :=
  if op = 0 ∧ ord then
    let r := orderedSum f codes
    (r.1, r.2.reduced)
  else
    let wide := if w = f then codes.map fun c => (c, FlagSet.none) else codes.map (f.convert w 0)
    let xs := wide.map Prod.fst
    let f0 := wide.foldl (fun (a : FlagSet) x => a.or { x.2 with nfs := false }) FlagSet.none
    let r := if op = 0 then treeSum w fresh xs.length xs FlagSet.none else extreme w (op == 2) xs
    let out := if w = f then w.markNfs (r.1, FlagSet.none) else w.convert f 0 r.1
    (out.1, ((f0.or r.2).or out.2).reduced)

/-! A die's own side (R328). -/

/-- `n` bytes of the SRC or DST of an operation on its die (R325, R328). -/
def State.checkX (s : State) (d : Nat) (o : XOp) (a : Word) (n : Nat) (write : Bool) : Except MemFault Found :=
  let loc := locOf a
  if !keyOk a then .error ⟨causeAccess, a, 3⟩
  else match winOf loc with
    | none => .error ⟨causeAccess, a, 1⟩
    | some w =>
      if w.base + w.size < loc + n then .error ⟨causeAccess, a, 2⟩
      else match w with
        | .crib | .granary => .ok ⟨(List.range n).map fun k => winPlace o.who.coreId 0 w (loc + k), [], []⟩
        | .barn =>
          if o.who.core = 96 then .error ⟨causeAccess, a, 1⟩
          else .ok ⟨(List.range n).map fun k => winPlace o.who.coreId 0 w (loc + k), [], []⟩
        | .mapped => s.checkMapped d collectiveOwner o.asn o.root ⟨write, false, true, false⟩ a n
        | .swizzled | .spatial | .side | .square | .squareOther => .error ⟨causeAccess, a, 4⟩

/-- The die's engine reads SRC: every member's for most kinds, the root's for a broadcast (R325). -/
def State.readsSrc (s : State) (d : Nat) (o : XOp) : Bool := o.kind != .broadcast || s.xRank o d == o.rootRank

/-- A fault of an operation reaches its task, in its context or as it is saved (R332, R333). -/
def State.tellTask (s : State) (o : XOp) (addr : Word) (info : Word) : State :=
  s.toTask o.launch o.task fun x => { x with pend := x.pend ++ [⟨causeEngine, addr, info⟩] }

/-- Charges class 13 for an operation (R411): a task that is saved finds the charge when it resumes. -/
def State.chargeX (s : State) (d : Nat) (o : XOp) (units : Nat) : State :=
  if units = 0 then s
  else
    let x := s.dieAt d
    let e := x.weights[13] * units
    (s.setDieAt d { x with etick := x.etick + e }).toTask o.launch o.task fun c => { c with echg := c.echg + e }

/-- A partial KiB at a completion or a stop is charged as a whole one (R411). -/
def State.chargeRestX (s : State) (d : Nat) (o : XOp) : State := s.chargeX d o (wholeKib o.bytes - o.kib)

/-- The operations of all members of the quarter for a collective, by die, when every one has issued it; a member beyond the
quarter is taken to have issued its own with the same header (log 64). -/
def State.xAll (s : State) (o : XOp) : Option (List (Nat × Fin 8 × XOp)) :=
  ((s.membersOf o.g.swg).filter (· < 16)).mapM fun m => (s.xPeer o.g.swg o.seqNo m).map fun e => (m, e)

/-- The member of a matched collective that issued it last. -/
def lastMember (all : List (Nat × Fin 8 × XOp)) : Nat :=
  match all with
  | [] => 0
  | e :: es => (es.foldl (fun (b : Nat × Fin 8 × XOp) x => if b.2.2.issued ≤ x.2.2.issued then x else b) e).1

/-- The wait of a collective on die d for the last member to issue it ends (Table 17-5, kind 14): satisfied when all have,
else with END `fin` (R428). -/
def State.endMatchWait (s : State) (d : Nat) (o : XOp) (fin : Nat) : State :=
  let home := s.foc
  let s := s.focusDie d
  let log (setter fin : Nat) : State := s.logUnit (s.whoDie 5 d) setter 14 fin (word o.g.swg) (s.cycle - o.since)
  let s := match s.xAll o with
    | some all => if d = lastMember all then s else log (s.whoDie 5 (lastMember all)) 0
    | none => log 65535 fin
  s.focusOn home

/-- What a collective on die d waits for, a member or a slot of a ring, ends with END `fin` (R428). -/
def State.endXWait (s : State) (d : Nat) (o : XOp) (fin : Nat) : State :=
  if o.state ≠ .running then s
  else if !o.matched then s.endMatchWait d o fin
  else match o.slotRing with
    | some b =>
      let home := s.foc
      ((s.focusCore b.core).endSlotWait (s.whoDie 5 d) o.since b.ring fin).focusOn home
    | none => s

/-- An operation stops with a fault on its die (R332): its task learns of it, a PAGE-FAULT through the granger. -/
def State.stopX (s : State) (d : Nat) (q : Fin 8) (o : XOp) (f : MemFault) : State :=
  let told := f.cause != causePageFault
  let s := ((s.endXWait d o 2).chargeRestX d o).setXop d q
    { o with state := .faulted, faddr := f.addr.toNat, cause := f.cause, reason := f.reason, told := told
             kib := max o.kib (wholeKib o.bytes) }
  let p := o.who.coreId
  let k := s.coreAt p
  let s := if f.cause = causeTagMismatch then s.setCoreAt p k.tagMiss else s
  if told then s.tellTask o f.addr (engineInfo o.slot 7 false f.cause f.reason o.opn) else s

/-- The joins of an operation are over (R284); those of a saved task ended before it was saved. -/
def State.xJoined (s : State) (o : XOp) : Bool :=
  match s.taskCtx o.launch o.task with
  | some c => s.joined c o.after
  | none => true

/-- The whole of a range, when it has bytes. -/
def State.checkRange (s : State) (d : Nat) (o : XOp) (a n : Nat) (write : Bool) : Option MemFault :=
  if n = 0 then none
  else match s.checkX d o (word a) n write with
    | .error f => some f
    | .ok _ => none

/-- R322, R328: the operation at the head of a queue starts, and its die checks its own side. -/
def execCollectiveStart (d : Nat) (q : Fin 8) (s : State) : Out :=
  if 16 ≤ d then .fault .noSuchAgent
  else match s.xHead d q with
    | none => .next s
    | some o =>
      if o.state ≠ .queued ∨ s.isDead d o ∨ !s.xJoined o then .next s
      else
        let bad := match if s.readsSrc d o then s.checkRange d o o.src (o.srcLen (s.xSize o)) false else none with
          | some f => some f
          | none => if o.bind.isNone then s.checkRange d o o.dst o.dlen true else none
        match bad with
        | some f => .next (s.stopX d q o f)
        | none => .next (s.setXop d q { o with state := .running, checked := true, since := s.cycle })

/-! Matching (R327). -/

/-- The links of the control messages of a collective between a die and the other members (R318). -/
def State.xLinks (s : State) (d : Nat) (o : XOp) (lane : Nat) : List Link :=
  ((s.membersOf o.g.swg).filter (· != d)).map fun m => ⟨min m 16, d, lane⟩

/-- A collective stops on every member of the quarter that runs it (R317, R327). -/
def State.stopAll (s : State) (o : XOp) (reason : Nat) : State :=
  ((s.membersOf o.g.swg).filter (· < 16)).foldl (fun s m => match s.xPeer o.g.swg o.seqNo m with
    | some (q, p) => if p.state = .running then s.stopX m q p ⟨0, 0, reason⟩ else s
    | none => s) s

/-- R327: the headers of a collective are compared once every member has issued it. -/
def execCollectiveHeaderMatch (d : Nat) (q : Fin 8) (s : State) : Out :=
  if 16 ≤ d then .fault .noSuchAgent
  else match s.xHead d q with
    | none => .next s
    | some o =>
      if o.state ≠ .running ∨ o.matched then .next s
      else match s.xAll o with
        | none => .next s
        | some all =>
          if all.any fun e => e.2.2.state == .faulted || s.isDead e.1 e.2.2 then .next s
          else .next (s.overLinks (fun _ => s.xLinks d o 3) (fun _ => s.stopAll o 41) fun s =>
            if all.all fun e => e.2.2.header == o.header then
              all.foldl (fun s e => (s.endMatchWait e.1 e.2.2 0).setXop e.1 e.2.1 { e.2.2 with matched := true }) s
            else all.foldl (fun s e => s.stopX e.1 e.2.1 e.2.2 ⟨0, 0, 42⟩) s)

/-! Data (R325). -/

/-- A run of source bytes: the rank whose SRC holds it, its offset there, and its length. -/
structure XRun where
  rank : Nat
  off : Nat
  len : Nat
  deriving DecidableEq, Repr

/-- Parts of a run of gathered bytes by block. -/
def blockRuns (b : Nat) : Nat → Nat → Nat → List XRun
  | 0, _, _ => []
  | k + 1, lo, n =>
    if n = 0 then []
    else
      let m := min n (b - lo % b)
      ⟨lo / b, lo % b, m⟩ :: blockRuns b k (lo + m) (n - m)

/-- The source bytes from which `len` bytes of DST at an offset are made, on the die of rank r of n. -/
def XOp.runs (o : XOp) (n r lo len : Nat) : List XRun :=
  match o.kind with
  | .allGather => blockRuns o.block len lo len
  | .broadcast => [⟨o.rootRank, lo, len⟩]
  | .reduceScatter => (List.range n).map fun j => ⟨j, r * o.block + lo, len⟩
  | .allReduce => (List.range n).map fun j => ⟨j, lo, len⟩

/-- What a unit finds of its sources: their bytes, a member that is not ready, or a member that stops. -/
inductive XGather where
  | bytes (bs : List (List Byte)) (s : State)
  | wait
  | stopped (s : State)
  deriving DecidableEq, Repr

/-- The task's accesses before an operation are performed as far as they meet its places (R273). -/
def State.xClear (s : State) (o : XOp) (rd wr : Nat → Bool) : Bool :=
  match s.taskCtx o.launch o.task with
  | some c => (s.ctxAt c).clearBefore o.seq rd wr
  | none => true

/-- One run of source bytes, read by the engine of its die (R328, R391). -/
def State.readRun (s : State) (o : XOp) (r : XRun) : XGather :=
  let m := (s.membersOf o.g.swg).getD r.rank 0
  if 16 ≤ m then
    let n := s.draw
    .bytes [(List.range r.len).map (Config.remoteByte n.1)] n.2
  else match s.xPeer o.g.swg o.seqNo m with
  | none => .wait
  | some (q, p) =>
    if p.state ≠ .running ∨ !p.checked ∨ s.isDead m p then .wait
    else
      let a := word (p.src + r.off)
      match s.checkX m p a r.len false with
      | .error f => .stopped (s.stopX m q p f)
      | .ok f =>
        match f.places.findIdx? fun a => s.poison.contains (wordOf a) with
        | some k => .stopped (s.stopX m q p ⟨causeEcc, a + word k, 0⟩)
        | none =>
          if !s.xClear p f.places.contains fun _ => false then .wait
          else
            let n := s.draw
            let width := max 1 (p.fmt.bits / 8)
            let byte (e : Nat × Nat) : Byte := match p.old.lookup e.1 with
              | some b => b
              | none => match p.late.lookup e.1 with
                | some b => if Config.readNow n.1 ((r.off + e.2) / width) then b else s.seenByte m e.1
                | none => s.seenByte m e.1
            .bytes [f.places.zipIdx.map byte] (n.2.holdTlb m f.held)

/-- All the runs of a unit. -/
def State.readRuns (s : State) (o : XOp) : List XRun → XGather
  | [] => .bytes [] s
  | r :: rs => match s.readRun o r with
    | .wait => .wait
    | .stopped t => .stopped t
    | .bytes b s => match s.readRuns o rs with
      | .wait => .wait
      | .stopped t => .stopped t
      | .bytes bs t => .bytes (b ++ bs) t

/-- The bytes of a unit of DST from its sources, with their flags. -/
def XOp.combine (o : XOp) (fresh : Nat) (bs : List (List Byte)) : List Byte × FlagSet :=
  if o.kind.reduces then
    let w := o.fmt.bits / 8
    let cols := bs.map fun b => chunks w (b.length / w) b
    let rs := (List.range (cols.headD []).length).map fun i =>
      reduceCodes fmt32 o.fmt.layout o.opCode o.ord (fresh + i * 2 * bs.length) (cols.map fun c => c.getD i 0)
    (unchunk w (rs.map Prod.fst), allFlags (rs.map Prod.snd))
  else (bs.flatten, FlagSet.none)

/-- Free values that a unit may use. -/
def XOp.draws (o : XOp) (bs : List (List Byte)) : Nat :=
  if o.kind.reduces then 2 * bs.length * (bs.headD []).length else 0

/-- The operation at the head of a queue, when it delivers data. -/
def State.xDelivering (s : State) (d : Nat) (q : Fin 8) : Option XOp :=
  (s.xHead d q).filter fun o => o.state == .running && o.matched && !s.isDead d o

/-- The next `len` bytes of an operation's output go to some places of its die, once its sources are read, the governor
admits them, and the task's earlier accesses are performed; `fin` does what follows. -/
def State.deliverX (s : State) (d : Nat) (q : Fin 8) (o : XOp) (len : Nat) (ps : List Nat)
    (fin : State → XOp → List Byte → State) : State :=
  s.overLinks (fun _ => s.xLinks d o 2) (fun _ => s.stopAll o 41) fun s =>
  let n := s.xSize o
  match s.readRuns o (o.runs n (s.xRank o d) o.bytes len) with
  | .wait => s
  | .stopped t => t
  | .bytes bs s =>
    let cost := (s.dieAt d).weights[13] * kibs o.kib (o.bytes + len)
    let admitted := match s.taskCtx o.launch o.task with
      | some c => (s.focusOn c).admitWork (7 + q.val) cost
      | none => (s.focusDie d).admitFree ⟨7 + q.val, o.who⟩ cost
    if !s.xClear o (fun _ => false) ps.contains then s
    else match admitted with
      | .later => s
      | .wait t => t
      | .ramp t => t.stopX d q o ⟨causeRamp, 0, 50⟩
      | .go s =>
        let out := o.combine s.fresh bs
        let s := { s with fresh := s.fresh + o.draws bs }.chargeX d o (kibs o.kib (o.bytes + len))
        let keep : Bool := o.kind == .allReduce && o.dst == o.src && o.bind.isNone
        let old := if keep then o.old ++ ps.map fun a => (a, s.seenByte d a) else o.old
        let s := s.unitCells (s.whoDie 5 d) d (ps.zip out.1)
        let o := { o with bytes := o.bytes + len, kib := max o.kib ((o.bytes + len) / 1024), units := o.units + 1, since := s.cycle
                          old := old }
        fin s { o with flags := o.flags ||| out.2.bits } out.1

/-- R325: the engine writes the next 4 KiB unit of DST. -/
def execCollectiveDataUnit (d : Nat) (q : Fin 8) (s : State) : Out :=
  if 16 ≤ d then .fault .noSuchAgent
  else match s.xDelivering d q with
    | none => .next s
    | some o =>
      let len := min 4096 (o.dlen - o.bytes)
      if o.bind.isSome || len = 0 then .next s
      else match s.checkX d o (word (o.dst + o.bytes)) len true with
        | .error f => .next (s.stopX d q o f)
        | .ok r => .next ((s.holdTlb d r.held).deliverX d q o len r.places fun s o _ => s.setXop d q o)

/-- The records of an A tile that a bound collective has written (R331). -/
def State.xRecords (s : State) (who : Nat) (o : XOp) (r : Ring) (pos : Nat) (bytes : List Byte) : State :=
  if r.role ≠ 0 then s
  else (rowCodes o.fmt.bits bytes).zipIdx.foldl (fun s e =>
    s.putRow who 0 (some (r.recBase pos + e.2)) [] (mkRecord o.fmt 0 e.1 0 0 (seqTag pos e.2))) s

/-- R331: a bound collective writes its next tile into the slot reserved for it. -/
def execXsigTileDelivery (d : Nat) (q : Fin 8) (s : State) : Out :=
  if 16 ≤ d then .fault .noSuchAgent
  else match s.xDelivering d q with
    | none => .next s
    | some o => match o.bind, o.reserved with
      | some b, some pos =>
        let r := (s.coreAt b.core).rings[b.ring]
        let t := o.tileSize r
        let ps := (List.range t).map fun k => cribPlace b.core (r.slotOff pos + k)
        if o.dlen < o.bytes + t then .next s
        else .next (s.deliverX d q o t ps fun s o bytes =>
          let who := s.whoDie 5 d
          let home := s.foc
          let s := ((s.focusCore b.core).xRecords who o r pos bytes).tileWritten b.ring pos who
          (s.focusOn home).setXop d q { o with reserved := none, lastPos := some pos })
      | _, _ => .next s

/-- A bound collective still owes tiles to a ring of a core (R331). -/
def State.owesTiles (s : State) (p : CoreId) (rings : Nat) : Bool :=
  (s.xops p.die).any fun e => match e.2.bind with
    | some b => b.core == p && rings.testBit b.ring.val && e.2.bytes < e.2.dlen
    | none => false

/-! Completion and cancellation (R330, R332). -/

/-- The progress record of an operation (R259). -/
def XOp.record (o : XOp) (st : OpState) : Progress :=
  { units := o.units, opn := o.opn, cause := if st = .faulted then o.cause else 0, state := st, bytes := o.bytes
    faddr := if st = .faulted then word o.faddr else 0 }

/-- A context with a collective of its task ended (R330, R333). -/
def Ctx.endCollective (x : Ctx) (r : Progress) : Ctx :=
  { x with xiq := x.xiq.filter fun e => e.opn != r.opn
           lastOp := if r.opn + 1 = x.opn[7] then x.lastOp.set 7 r else x.lastOp }

/-- An operation leaves its queue, and its entry its context's queue. -/
def State.leaveX (s : State) (d : Nat) (q : Fin 8) (o : XOp) (st : OpState) : State :=
  let x := s.dieAt d
  let gone (e : XOp) : Bool := e.g.swg == o.g.swg && e.seqNo == o.seqNo
  let s := s.setDieAt d { x with xq := x.xq.set q ((x.xq[q]).filter fun e => !gone e)
                                 dead := x.dead.filter (· != (o.g.swg, o.seqNo)) }
  let s := s.toTask o.launch o.task fun x => x.endCollective (o.record st)
  match s.taskCtx o.launch o.task with
  | some c => s.drainSetter c (s.whoDie 5 d)
  | none => s

/-- The SRC of an operation has been read for every member (R330): those that still work on it have their data. -/
def State.srcRead (s : State) (d : Nat) (o : XOp) : Bool :=
  !s.readsSrc d o || ((s.membersOf o.g.swg).filter (· < 16)).all fun m =>
    (s.xPeer o.g.swg o.seqNo m).all fun e => e.2.bytes == e.2.dlen

/-- TAIL has passed the last tile of a bound collective (R247, R330). -/
def State.xTailPassed (s : State) (o : XOp) : Bool :=
  o.bind.all fun b => o.lastPos.all fun pos => !((s.coreAt b.core).rings[b.ring].filled.contains pos)

/-- R330: an operation completes: its signal, its barrier report, its flags. -/
def execCollectiveCompletion (d : Nat) (q : Fin 8) (s : State) : Out :=
  if 16 ≤ d then .fault .noSuchAgent
  else match s.xDelivering d q with
    | none => .next s
    | some o =>
      let n := o.dlen
      let at_ := cribPlace o.who.coreId (8 * o.sigidx)
      let sigs := o.sig && !o.signalled
      if o.bytes ≠ n ∨ !s.srcRead d o ∨ !s.xTailPassed o then .next s
      else if sigs && !s.xClear o (fun _ => false) (within at_ 8) then .next s
      else
        let who := s.whoDie 5 d
        let s := if sigs then s.unitWrite who d at_ (leBytes 8 o.sigval) else s
        let o := { o with signalled := o.signalled || o.sig }
        let fin (s : State) (o : XOp) : State :=
          ((s.chargeRestX d o).toTask o.launch o.task fun x => { x with cstat := orCstat x.cstat o.flags }).leaveX d q o .done
        if o.binds && o.reported < n then
          match s.reportTo (boundBarrier o.who.coreId o.bidx) who d (n - o.reported) with
          | .error f => .next (s.stopX d q o ⟨f.1, boundAddr o.bidx, f.2⟩)
          | .ok t => .next (fin t { o with reported := n })
        else .next (fin s o)

/-- An operation ends cancelled on its die (R332): its reserved slot is completed with all-zero records (R230), its
barrier gets the aborted arrival (R261). A wait of its ends with END `fin` (R428). -/
def State.abortX (s : State) (d : Nat) (q : Fin 8) (o : XOp) (fin : Nat) : State :=
  let who := s.whoDie 5 d
  let s := s.endXWait d o fin
  let s := if o.state = .running then s.chargeRestX d o else s
  let s := match o.bind, o.reserved with
    | some b, some pos =>
      let home := s.foc
      let s := s.focusCore b.core
      let r := s.core.rings[b.ring]
      let s := if r.role = 2 then s else (List.range (roleRecords r.role)).foldl (fun s i =>
        s.putRow who 0 (some (r.recBase pos + i)) [] (2 ^ 92 + seqTag pos i * 2 ^ 80)) s
      (s.tileWritten b.ring pos who).focusOn home
    | _, _ => s
  let s := if o.binds then s.abortTo (boundBarrier o.who.coreId o.bidx) who d (o.dlen - o.reported) else s
  s.leaveX d q { o with reserved := none } .cancelled

/-- A member cancels a collective (R332): it ends there, and every other member that has not ended it, or not issued it
yet, is to end it. -/
def State.cancelX (s : State) (d : Nat) (q : Fin 8) (o : XOp) (fin : Nat) : State :=
  let mark (s : State) (m : Nat) : State :=
    let x := s.dieAt m
    if m ≠ d ∧ ((s.xPeer o.g.swg o.seqNo m).isSome ∨ x.nextOn o.g.swg ≤ o.seqNo) then
      s.setDieAt m { x with dead := x.dead ++ [(o.g.swg, o.seqNo)] }
    else s
  (((s.membersOf o.g.swg).filter (· < 16)).foldl mark s).abortX d q o fin

/-- R332: a collective that another member has cancelled ends on this die with reason 45. -/
def execPeerCancel (d : Nat) (q : Fin 8) (s : State) : Out :=
  if 16 ≤ d then .fault .noSuchAgent
  else match ((s.dieAt d).xq[q]).find? (s.isDead d) with
    | none => .next s
    | some o => .next (s.overLinks (fun _ => s.xLinks d o 3) (fun _ => s) fun s =>
        (s.abortX d q o Config.waitCancelled.toNat).tellTask o 0 (engineInfo o.slot 7 false 0 45 o.opn))

/-! Multicast stores at the members (R334). -/

/-- The writes of multicast stores to a group anywhere: their places in the root switch's order, offsets, lengths and
the members still without them. -/
def State.rootStores (s : State) (swg : Nat) : List (Nat × Nat × Nat × List Nat) :=
  s.knownCtxs.flatMap fun c => (s.ctxAt c).xiq.filterMap fun e => match e.op, e.rootNo with
    | .store g off bs left, some n => if g.swg = swg then some (n, off, bs.length, left) else none
    | _, _ => none

/-- A store may reach a member now: the stores before it in the root switch's order that share a byte with it have
(R334). -/
def State.rootTurn (s : State) (swg off len m : Nat) (no : Option Nat) : Bool :=
  (s.rootStores swg).all fun r =>
    no.any (· ≤ r.1) || !rangesMeet off len r.2.1 r.2.2.1 || !r.2.2.2.contains m

/-- Earlier entries of the context's queue let a multicast store reach member m (R274, R334): reducing loads and stores to
other groups are through, and stores to its own group have reached m. -/
def State.xiBefore (s : State) (e : XiEntry) (swg m : Nat) : Bool :=
  s.ctx.xiq.all fun f => e.opn ≤ f.opn || match f.op with
    | .store g _ _ left => left.isEmpty || (g.swg == swg && !left.contains m)
    | .reduce _ _ _ _ _ _ _ => false
    | .passed _ | .bind _ _ => true

/-- The oldest multicast store of the context in focus that member m has still to take, and may. -/
def State.storeFor (s : State) (m : Nat) : Option (XiEntry × GroupEntry × Nat × List Byte × List Nat) :=
  let stores := s.ctx.xiq.filterMap fun e => match e.op with
    | .store g off bs left => if left.contains m then some (e, g, off, bs, left) else none
    | .passed _ | .bind _ _ | .reduce _ _ _ _ _ _ _ => none
  stores.find? fun e =>
    !e.1.refused.contains m && s.joined s.foc e.1.after && s.xiBefore e.1 e.2.1.swg m &&
    s.rootTurn e.2.1.swg e.2.2.1 e.2.2.2.1.length m e.1.rootNo

/-- Replaces an entry of the collective issue queue of the context in focus. -/
def State.setXi (s : State) (e : XiEntry) : State :=
  { s with ctx := { s.ctx with xiq := s.ctx.xiq.map fun x => if x.opn = e.opn then e else x } }

/-- An entry of the context in focus stops with a fault, of which the task learns once. -/
def State.stopXi (s : State) (e : XiEntry) (f : MemFault) : State :=
  let s := s.setXi { e with fault := some (f.cause, f.reason, f.addr) }
  if e.fault.isSome then s else s.postEngine s.foc f.addr (engineInfo e.slot 7 false f.cause f.reason e.opn)

/-- R334: a member applies a multicast write, or refuses it. Of a member beyond the quarter only its acknowledgement is
seen (log 64). -/
def execStmcMemberWrite (c : CtxId) (m : Nat) (s : State) : Out :=
  if !c.ok || 8208 ≤ m then .fault .noSuchAgent
  else
    let t := s.focusOn c
    match t.storeFor m with
    | none => .next s
    | some (e, g, off, bs, left) =>
      let fail (t : State) : State := t.stopXi e ⟨0, word off, 41⟩
      let taken (t : State) (no : Nat) (ps : List Nat) : State :=
        t.setXi { e with op := .store g off bs (left.filter (· != m)), rootNo := some no, cast := e.cast ++ ps }
      let no := e.rootNo.getD t.fresh
      if 16 ≤ m then
        .next (t.overLinks (fun _ => [⟨c.die, 16, 2⟩]) (fun _ => fail t) fun t =>
          taken { t with fresh := t.fresh + 1 } no [])
      else .next (t.overLinks (fun _ => [⟨c.die, m, 2⟩]) (fun _ => fail t) fun t =>
        match t.checkMember m g.swg off bs.length true with
        | .error _ => t.stopXi { e with refused := e.refused ++ [m] } ⟨0, word off, 43⟩
        | .ok r =>
          if !t.ctx.clearBefore e.seq (fun _ => false) r.places.contains then s
          else
            let t := t.holdTlb m r.held
            let t := { t with fresh := t.fresh + 1 }
            let t := if m = c.die then t else t.carry c.die m
            let t := (t.performWrite none (t.whoDie 5 c.die) 0 m (r.places.zip bs)).charge 13 1
            taken t no (if m = c.die then [] else r.places))

/-- R275, R334: a multicast store that every member has applied, and which is visible on its task's die, leaves the
queue. -/
def execStmcAcknowledged (c : CtxId) (s : State) : Out :=
  if !c.ok then .fault .noSuchAgent
  else
    let t := s.focusOn c
    match t.ctx.xiq.find? fun e => match e.op with
      | .store _ _ _ left => left.isEmpty
      | .passed _ | .bind _ _ | .reduce _ _ _ _ _ _ _ => false with
    | none => .next s
    | some e => .next ((t.uncast c.die e.cast).leaveXi e.opn (plainRecord e.opn .done))

/-! Reducing loads (R335). -/

/-- The first entry of the context in focus that xiq has to perform itself (R274). -/
def State.xiFirst (s : State) : Option XiEntry :=
  s.ctx.xiq.find? fun e => match e.op with
    | .passed _ | .bind _ _ => false
    | .store _ _ _ _ | .reduce _ _ _ _ _ _ _ => true

/-- R335: one more member reads its value, seeing what the issuing die has seen (R267, R273), and with the last of them the
load returns. -/
def execLdrdReturn (c : CtxId) (s : State) : Out :=
  if !c.ok then .fault .noSuchAgent
  else
    let t := s.focusOn c
    match t.xiFirst with
    | none => .next s
    | some e => match e.op with
      | .passed _ | .bind _ _ | .store _ _ _ _ => .next s
      | .reduce g off ord op dbl xd got =>
        let left := (t.membersOf g.swg).filter fun m => (got.lookup m).isNone
        let n := opBytes dbl
        if e.fault.isSome ∨ !t.joined c e.after then .next s
        else if left.isEmpty then
          let f := if dbl then fmt64 else fmt32
          let k := match op with
            | .add => 0
            | .min => 1
            | .max => 2
          let r := reduceCodes f f k ord t.fresh (got.map Prod.snd)
          let t := { t with fresh := t.fresh + 2 * got.length
                            ctx := t.ctx.receive (if xd = 0 then none else some xd) (word r.1) r.2 }
          .next (t.leaveXi e.opn (plainRecord e.opn .done))
        else
          let m := left.getD (Config.pick t.fresh left.length % left.length) 0
          let k := t.fresh
          let t := { t with fresh := t.fresh + 1 }
          let give (t : State) (v : Nat) : State := t.setXi { e with op := .reduce g off ord op dbl xd (got ++ [(m, v)]) }
          .next (t.overLinks (fun _ => [⟨c.die, min m 16, 0⟩, ⟨min m 16, c.die, 1⟩])
            (fun _ => t.stopXi e ⟨0, word off, 41⟩) fun t =>
            if 16 ≤ m then give t (leNat ((List.range n).map (Config.remoteByte k)))
            else match t.checkMember m g.swg off n false with
            | .error f => t.stopXi e f
            | .ok r =>
              if !t.ctx.clearBefore e.seq r.places.contains fun _ => false then s
              else match r.places.findIdx? fun a => t.poison.contains (wordOf a) with
                | some k => t.stopXi e ⟨causeEcc, word (off + k), 0⟩
                | none =>
                  let t := if m = c.die then t else t.carry c.die m
                  give ((t.holdTlb m r.held).charge 13 1) (leNat (t.seenBytes m r.places)))

/-! `qrty`, `qcan` and teardown (R332 to R335). -/

/-- The collectives of the task in focus. -/
def State.myCollectives (s : State) : List (Fin 8 × XOp) :=
  (s.xops s.foc.die).filter fun e => s.ctx.task.any fun t => t.launch == e.2.launch && t.index == e.2.task

/-- A faulted entry of the collective issue queue of the context in focus: one of its own, or a collective. -/
inductive XFaulted where
  | entry (e : XiEntry)
  | op (q : Fin 8) (o : XOp)
  deriving DecidableEq, Repr

/-- The oldest faulted one. -/
def State.faultedX (s : State) : Option XFaulted :=
  s.ctx.xiq.findSome? fun e => match e.op with
    | .passed _ => (s.myCollectives.find? fun x => x.2.opn == e.opn && x.2.state == .faulted).map fun x => .op x.1 x.2
    | .bind _ _ | .store _ _ _ _ | .reduce _ _ _ _ _ _ _ => if e.fault.isSome then some (.entry e) else none

/-- `qrty` on xiq (R332, R334, R335). -/
def State.retryXi (s : State) : State :=
  match s.faultedX with
  | none => s
  | some (.op q o) =>
    s.setXop s.foc.die q { o with state := if o.checked then .running else .queued, faddr := 0, cause := 0, reason := 0
                                  told := false }
  | some (.entry e) =>
    let op := match e.op with
      | .reduce g off ord op dbl xd _ => .reduce g off ord op dbl xd []
      | op => op
    s.setXi { e with fault := none, refused := [], op := op }

/-- `qcan` on xiq (R332, R334, R335). -/
def State.cancelXi (s : State) : State :=
  match s.faultedX with
  | some (.op q o) => s.cancelX s.foc.die q o Config.waitCancelled.toNat
  | some (.entry e) =>
    let s := match e.op with
      | .reduce _ _ _ _ dbl xd _ => s.setX xd (word (if dbl then fmt64 else fmt32).nanCode)
      | .passed _ | .bind _ _ | .store _ _ _ _ => s
    s.leaveXi e.opn (plainRecord e.opn .cancelled)
  | none =>
    match s.ctx.xiq.findSome? fun e => match e.op with
      | .passed _ => s.myCollectives.find? fun x => x.2.opn == e.opn
      | .bind _ _ | .store _ _ _ _ | .reduce _ _ _ _ _ _ _ => none with
    | none => s
    | some x => s.cancelX s.foc.die x.1 x.2 Config.waitCancelled.toNat

/-- Teardown of the task in focus: its collectives are cancelled, its other entries abandoned (R333). -/
def State.dropCollectives (s : State) : State :=
  let s := s.myCollectives.foldl (fun s x => s.cancelX s.foc.die x.1 x.2 3) s
  { s with ctx := { s.ctx with xiq := [] } }

/-! Links (R316 to R319). -/

/-- Cycles in a millisecond (R1). -/
def cyclesPerMs : Nat := 1900000

/-- R317: a receiver discards a flit and asks for a resend. -/
def execFlitRetry (d port : Nat) (s : State) : Out :=
  if 16 ≤ d ∨ 18 ≤ port then .fault .noSuchAgent
  else
    let x := s.dieAt d
    let old := ((x.resends.lookup port).getD []).take 63
    .next (s.setDieAt d { x with resends := assocSet x.resends port (s.cycle :: old) })

/-- A flit of a port is delivered: its resends count anew (R317). -/
def State.flitDelivered (s : State) (d port : Nat) : State :=
  if 16 ≤ d ∨ 18 ≤ port then s
  else
    let x := s.dieAt d
    s.setDieAt d { x with resends := assocErase x.resends port }

/-- R318: a receiver pauses a lane for want of room, or takes flits of it again. -/
def execLanePause (d port : Nat) (lane : Fin 4) (s : State) : Out :=
  if 16 ≤ d ∨ 18 ≤ port then .fault .noSuchAgent
  else
    let x := s.dieAt d
    let k := (port, lane.val)
    .next (s.setDieAt d { x with paused := if x.paused.contains k then x.paused.filter (· != k) else x.paused ++ [k] })

/-- The path of a port carries what goes from its die to another. -/
def onPath (d port e : Nat) : Bool := fabricPort d (min e 16) == some port

/-- The copy operations of a core that need a failed path stop (R317). -/
def State.failCopies (s : State) (p : CoreId) : State :=
  let home := s.foc
  ((List.finRange 4).foldl (fun (s : State) (q : Fin 4) =>
    let s := s.focusCore p
    match s.core.runningCopy q with
    | none => s
    | some o =>
      let s := s.focusOn o.who
      if (s.copyLinks o).any s.linkFailed then s.stopCopy q o ⟨0, 0, 41⟩ else s) s).focusOn home

/-- The collectives of a die that need a path stop, on every member that runs them (R317). -/
def State.failCollectives (s : State) (d port : Nat) : State :=
  (s.xops d).foldl (fun s e =>
    let far := (s.membersOf e.2.g.swg).filter (onPath d port)
    if e.2.state ≠ .running ∨ far.isEmpty then s
    else s.stopAll e.2 41) s

/-- The multicast stores and reducing loads of a context that need a path stop (R317). -/
def State.failEntries (s : State) (port : Nat) (c : CtxId) : State :=
  s.atCtx c fun s => s.ctx.xiq.foldl (fun s e =>
    let stop (ms : List Nat) (off : Nat) : State :=
      if e.fault.isNone && ms.any (onPath c.die port) then s.stopXi e ⟨0, word off, 41⟩ else s
    match e.op with
    | .store _ off _ left => stop left off
    | .reduce g off _ _ _ _ got => stop ((s.membersOf g.swg).filter fun m => (got.lookup m).isNone) off
    | .passed _ | .bind _ _ => s) s

/-- R317: a path that has not delivered a flit after 64 resends within 1 ms is failed, and stays so; what needs it later
stops as well. -/
def execFabricPathFailed (d port : Nat) (s : State) : Out :=
  if 16 ≤ d ∨ 18 ≤ port then .fault .noSuchAgent
  else
    let x := s.dieAt d
    let recent := ((x.resends.lookup port).getD []).filter fun c => s.cycle ≤ c + cyclesPerMs
    if recent.length < 64 then .next s
    else
      let s := s.setDieAt d { x with resends := assocErase x.resends port, lost := (port :: x.lost).eraseDups }
      let s := s.knownCores.foldl State.failCopies s
      let s := s.failCollectives d port
      .next ((s.knownCtxs.filter fun c => c.die == d).foldl (fun s c => s.failEntries port c) s)

/-- R319: a switch group is installed in the switches, and its view in each member die's collective engine. -/
def execSwitchGroupInstall (g : SwitchGroup) (s : State) : Out :=
  if g.members.any (8208 ≤ ·) then .fault .noSuchAgent
  else if 4096 ≤ g.swg ∨ g.members.length < 2 ∨ 8192 < g.members.length ∨ g.members.eraseDups.length ≠ g.members.length then .next s
  else
    let s := { s with groups := (s.groups.filter fun (e : SwitchGroup) => e.swg != g.swg) ++ [g] }
    .next (s.diePositions.foldl (fun s d =>
      let x := s.dieAt d
      let views := x.views.filter fun (v : MemberView) => v.swg != g.swg
      let mine : List MemberView := if g.members.contains d then [⟨g.swg, g.members.length, g.members.idxOf d, g.root⟩] else []
      s.setDieAt d { x with views := views ++ mine }) s)

end Sys2Proof.Machine
end

