-- ==== Sys2Proof/Machine/Control.lean ====
section
/-! DEFINITION. Control transfers and hardware loops, majors 0x10 to 0x13 (R60 to R62, R65 to R72). A transfer, a loop
start and the end of a level wait for the end of their group (R25, R67, R70). -/

namespace Sys2Proof.Machine

/-- A taken transfer to an address (R25). -/
def State.take (s : State) (target : Word) (isRet : Bool) : State :=
  { s with ctx := { s.ctx with xfer := some ⟨target, isRet, none⟩ } }

/-- A target relative to the bundle, in bundles (R60, R61). -/
def State.relTarget (s : State) (m n : Nat) : Word := s.ctx.pc + BitVec.ofInt 64 (signedField m n * 16)

/-- R60. -/
def execBr (qn : Fin 8) (neg : Bool) (off : Fin 2097152) (s : State) : Out :=
  .next (if s.getQ qn != neg then s.take (s.relTarget 2097152 off.val) false else s)

/-- R61. -/
def execJmp (off : Fin 16777216) (s : State) : Out := .next (s.take (s.relTarget 16777216 off.val) false)

/-- R61. -/
def execCall (off : Fin 16777216) (s : State) : Out :=
  .next ((s.take (s.relTarget 16777216 off.val) false).setX 63 (s.ctx.pc + 16))

/-- R62. -/
def execJr (xa : XReg) (s : State) : Out := .next (s.take (s.getX xa) false)

/-- R62. -/
def execCallr (xd xa : XReg) (s : State) : Out := .next ((s.take (s.getX xa) false).setX xd (s.ctx.pc + 16))

/-- R62. -/
def execRet (xa : XReg) (s : State) : Out := .next (s.take (s.getX xa) true)

/-- A LOOP-SHAPE found at issue (R68, R70, R72). -/
def State.loopShape (s : State) : State := s.stop causeLoopShape 0 0

/-- R67. -/
def execLpset (lv : Fin 6) (xa : XReg) (endoff : Fin 8192) (s : State) : Out :=
  let l : LoopStart := ⟨lv, (s.getX xa).toNat, s.ctx.pc + word (endoff.val * 16)⟩
  .next { s with ctx := { s.ctx with loopStart := some l } }

/-- R67. -/
def execLpseti (lv : Fin 6) (count : Fin 1024) (endoff : Fin 512) (s : State) : Out :=
  let l : LoopStart := ⟨lv, count.val, s.ctx.pc + word (endoff.val * 16)⟩
  .next { s with ctx := { s.ctx with loopStart := some l } }

/-- R68: the lowest pair not yet used; a fifth raises LOOP-SHAPE. -/
def execLpstr (lv : Fin 6) (xr xs : XReg) (s : State) : Out :=
  let l := s.ctx.lv[lv]
  match [0, 1, 2, 3].find? fun k : Fin 4 => !l.pairs[k].valid with
  | none => .next s.loopShape
  | some k => .next (s.setLevel lv { l with pairs := l.pairs.set k ⟨xr, s.getX xs, true, none⟩ })

/-- R70. -/
def execLpbrk (lv : Fin 6) (qn : Fin 8) (neg : Bool) (s : State) : Out :=
  let l := s.ctx.lv[lv]
  if !l.act then .next s.loopShape
  else if s.getQ qn != neg then
    .next { s with ctx := { s.ctx with xfer := some ⟨l.stop + 16, false, some lv⟩ } }
  else .next s

/-- The field of a level that `lprd` selects (R71, Table 3-8). -/
def LoopLevel.field (l : LoopLevel) (sel : Fin 8) : Word :=
  if !l.act then 0
  else match sel with
    | 0 => word l.rem
    | 1 => word l.iter
    | 2 => l.start
    | 3 => l.stop
    | 4 => if l.pairs[0].valid then l.pairs[0].stride else 0
    | 5 => if l.pairs[1].valid then l.pairs[1].stride else 0
    | 6 => if l.pairs[2].valid then l.pairs[2].stride else 0
    | 7 => if l.pairs[3].valid then l.pairs[3].stride else 0

/-- R71. -/
def execLprd (xd : XReg) (lv : Fin 6) (sel : Fin 8) (s : State) : Out := giveX s xd (s.ctx.lv[lv].field sel)

/-- The pending stride of a pair (R72). -/
def State.pendStride (s : State) (lv : Fin 6) (k : Fin 4) (v : Word) : State :=
  let l := s.ctx.lv[lv]
  if l.pairs[k].valid then s.setLevel lv { l with pairs := l.pairs.set k { l.pairs[k] with pending := some v } }
  else s.loopShape

/-- R72. -/
def execLpwr (lv : Fin 6) (sel : Fin 8) (xa : XReg) (s : State) : Out :=
  let l := s.ctx.lv[lv]
  let v := s.getX xa
  if !l.act then .next s.loopShape
  else .next (match sel with
    | 0 => if 2 ^ 32 ≤ v.toNat then s.loopShape else s.setLevel lv { l with pendRem := some v.toNat }
    | 1 => s
    | 2 => if v.toNat % 16 ≠ 0 then s.stop causeMisalign 0 0 else s.setLevel lv { l with pendStart := some v }
    | 3 => if v.toNat % 16 ≠ 0 then s.stop causeMisalign 0 0 else s.setLevel lv { l with pendStop := some v }
    | 4 => s.pendStride lv 0 v
    | 5 => s.pendStride lv 1 v
    | 6 => s.pendStride lv 2 v
    | 7 => s.pendStride lv 3 v)

end Sys2Proof.Machine
end

