-- ==== Sys2Proof/Machine/Queues.lean ====
section
/-! DEFINITION. What a task does with its queues (R76 to R78, R203, R230, R258 to R261, R288, R332): `qtst`, `qstat`,
`qcan` and `qrty`; the reservation of ring slots by engines (R191); and the granger's service of a PAGE-FAULT of a
queue (R258, R288, R298). -/

namespace Sys2Proof.Machine

/-! Progress records (R259). -/

/-- The record of a matrix-queue entry: its committed passes. -/
def MqEntry.record (e : MqEntry) : Progress :=
  { units := e.committed, opn := e.opn, cause := (e.fault.map EntryFault.cause).getD 0
    state := if e.cancelled then .cancelled else if e.fault.isSome then .faulted
      else if e.staged.isSome || e.bread.isSome || !e.fetched.isEmpty then .running else .queued
    bytes := 0, faddr := (e.fault.map EntryFault.addr).getD 0 }

/-- The record of a post-processing entry: its output tiles. -/
def PpEntry.record (e : PpEntry) : Progress :=
  { units := e.units, opn := e.opn, cause := (e.fault.map EntryFault.cause).getD 0
    state := if e.fault.isSome then .faulted else if e.started then .running else .queued
    bytes := 0, faddr := (e.fault.map EntryFault.addr).getD 0 }

/-- The record of a Square request. -/
def SqRequest.record (r : SqRequest) : Progress :=
  { units := 0, opn := r.opn, cause := (r.fault.map Prod.fst).getD 0
    state := if r.fault.isSome then .faulted else .queued, bytes := 0
    faddr := if r.fault.isSome then r.addr else 0 }

/-- The record of an ordered add that is not yet applied: the one at which its batch stopped is faulted (R298; log 61). -/
def State.addRecord (s : State) (a : OrderedAdd) : Progress :=
  let stop := s.stoppedBatch.bind fun k => ((s.dieAt k.1).batches[k.2]?).bind fun b =>
    if (sortBy OrderedAdd.le b.adds).head?.any fun h => h.opn == a.opn then b.fault else none
  { units := 0, opn := a.opn, cause := (stop.map Prod.fst).getD 0
    state := if stop.isSome then .faulted else .queued, bytes := 0, faddr := if stop.isSome then a.addr else 0 }

/-- The records of the Square requests of the context in focus, and of its ordered adds that have left the queue and are
not yet applied (log 61). -/
def State.squareRecords (s : State) : List Progress :=
  let left := (s.openAdds s.foc).filter fun a => s.ctx.sq.all fun r => r.opn != a.opn
  sortBy (fun a b => a.opn ≤ b.opn) (s.ctx.sq.map SqRequest.record ++ left.map s.addRecord)

/-- The record of an entry of the collective issue queue: a collective's is that of its operation. -/
def State.xiRecord (s : State) (e : XiEntry) : Progress :=
  let own (units : Nat) : Progress :=
    { units := units, opn := e.opn, cause := (e.fault.map Prod.fst).getD 0
      state := if e.fault.isSome then .faulted else if units = 0 then .queued else .running, bytes := 0
      faddr := (e.fault.map fun f => f.2.2).getD 0 }
  match e.op with
  | .passed _ => match s.myCollectives.find? fun x => x.2.opn == e.opn with
    | some x => x.2.record x.2.state
    | none => own 0
  | .bind _ _ => own 0
  | .store g _ _ left => own ((s.membersOf g.swg).length - left.length)
  | .reduce _ _ _ _ _ _ got => own got.length

/-- The records of the operations of the context in focus in a queue, in issue order. -/
def State.records (s : State) (q : Fin 8) : List Progress :=
  if q = 4 then (s.core.ppq.filter fun e => e.who == s.foc).map PpEntry.record
  else if q = 5 then (s.core.mq.filter fun e => e.who == s.foc).map MqEntry.record
  else if q = 6 then s.squareRecords
  else if q = 7 then s.ctx.xiq.map s.xiRecord
  else ((s.core.cq.getD q.val []).filter fun o => o.who == s.foc).map fun o => o.record o.state

/-- An operation neither completed nor cancelled. -/
def Progress.open_ (r : Progress) : Bool := r.state != .done && r.state != .cancelled && r.state != .none

/-- The record that `qstat` reads (R259): the oldest open operation's, else the most recently issued one's. -/
def State.progress (s : State) (q : Fin 8) : Progress :=
  let rs := s.records q
  match rs.find? Progress.open_ with
  | some r => r
  | none => match rs.find? fun r => r.opn + 1 == s.ctx.opn[q] with
    | some r => r
    | none => s.ctx.lastOp[q]

/-- Table 10-6, STATE. -/
def OpState.code : OpState → Nat
  | .none => 0
  | .queued => 1
  | .running => 2
  | .faulted => 3
  | .done => 4
  | .cancelled => 5

/-- The word of Table 10-6. -/
def Progress.word_ (r : Progress) : Word :=
  word (r.state.code + r.cause % 256 * 2 ^ 8 + r.opn % 65536 * 2 ^ 16 + r.units % 65536 * 2 ^ 32)

/-! Conditions (Table 3-10). -/

/-- A queue has room for one more operation of the context in focus. -/
def State.hasRoom (s : State) (q : Fin 8) : Bool :=
  if q = 4 then s.core.ppq.length < 8
  else if q = 5 then s.core.mq.length < 8
  else if q = 6 then s.ctx.sq.length < 16
  else if q = 7 then s.ctx.xiUsed < 8
  else (s.core.cq.getD q.val []).length < 16

/-- An operation of the context in focus in a queue is stopped by a fault and awaits its resolution: one that the granger
has not passed on yet does not. -/
def State.awaits (s : State) (q : Fin 8) : Bool :=
  if q = 6 then (s.ctx.sq.any fun r => r.fault.any fun f => f.2.2) ||
    match s.stoppedBatch with
    | some (d, k) => ((s.dieAt d).batches[k]?).any fun b => b.fault.any fun f => f.2.2
    | none => false
  else if q = 7 then s.ctx.xiq.any (fun e => e.fault.isSome) ||
    s.myCollectives.any fun x => x.2.state == .faulted && x.2.told
  else if q.val < 4 then (s.core.cq.getD q.val []).any fun o => o.who == s.foc && o.state == .faulted && o.told
  else (s.records q).any fun r => r.state == .faulted

/-- The most recently issued operation of the context in focus in a queue has ended; an ordered add ends when it is applied
(log 61). -/
def State.lastDone (s : State) (q : Fin 8) : Bool :=
  (s.records q).all fun r => !r.open_ || r.opn + 1 != s.ctx.opn[q]

/-- Table 3-10. -/
def State.queueTest (s : State) (cond : QCond) (q : Fin 8) : Bool :=
  match cond with
  | .empty => !((s.records q).any Progress.open_)
  | .space => s.hasRoom q
  | .fault => s.awaits q
  | .done => s.lastDone q

/-- The number of a condition (Table 3-10). -/
def QCond.num : QCond → Nat
  | .empty => 0
  | .space => 1
  | .fault => 2
  | .done => 3

/-- What the running bundle samples of a queue: the first `qtst` fixes it for the bundle (R77). -/
def State.queueSample (s : State) (q : Fin 8) : List Bool :=
  (s.ctx.qsam.lookup q.val).getD [s.queueTest .empty q, s.queueTest .space q, s.queueTest .fault q, s.queueTest .done q]

/-- R76 to R78: a true `done` or `empty` is an acquire at core scope. -/
def execQtst (cond : QCond) (qd queue : Fin 8) (s : State) : Out :=
  if queue.val < 4 ∧ !s.mayQueue queue.val then .next (s.accessTrap 0)
  else
    let sample := s.queueSample queue
    let ok := sample.getD (QCond.num cond) false
    let s := State.setQ { s with ctx := { s.ctx with qsam := assocSet s.ctx.qsam queue.val sample } } qd ok
    .next (if ok && (cond == .empty || cond == .done) then s.orderPoint .acq .core else s)

/-- R259. -/
def execQstat (sel : QSel) (xd : XReg) (queue : Fin 8) (s : State) : Out :=
  if queue.val < 4 ∧ !s.mayQueue queue.val then .next (s.accessTrap 0)
  else
    let r := s.progress queue
    let v := match sel with
      | .word => r.word_
      | .bytes => word r.bytes
      | .faddr => r.faddr
    let s := s.setX xd v
    .next (if r.state = .done then s.orderPoint .acq .core else s)

/-- R261, and R203, R230, R288, R332 for the other queues. -/
def execQcan (queue : Fin 8) (s : State) : Out :=
  if queue.val < 4 ∧ !s.mayQueue queue.val then .next (s.accessTrap 0)
  else if queue = 4 then .next s.cancelPp
  else if queue = 5 then .next s.cancelMq
  else if queue = 6 then .next s.cancelSq
  else if queue = 7 then .next s.cancelXi
  else .next (s.cancelCopy (Fin.ofNat 4 queue.val))

/-- R260, and R203, R230, R288, R332 for the other queues. -/
def execQrty (queue : Fin 8) (s : State) : Out :=
  if queue.val < 4 ∧ !s.mayQueue queue.val then .next (s.accessTrap 0)
  else if queue = 4 then .next s.retryPp
  else if queue = 5 then .next s.retryMq
  else if queue = 6 then .next s.retrySq
  else if queue = 7 then .next s.retryXi
  else .next (s.retryCopy (Fin.ofNat 4 queue.val))

/-! Slots of rings (R191). -/

/-- An engine producer that needs the next slot of a ring. -/
inductive Producer where
  | store (e : PpEntry)
  | copy (q : Fin 4) (o : CopyOp)
  | collective (q : Fin 8) (o : XOp)
  deriving DecidableEq, Repr

/-- The engines that wait for the next slot of a ring of the core in focus. -/
def State.producersFor (s : State) (r : Fin 16) : List Producer :=
  let ps := s.core.ppq.head?.toList.filter fun e => e.slotRing == some r
  let cs := (List.finRange 4).filterMap fun q => (s.core.cq[q]).head?.bind fun o =>
    if o.slotRing = some r then some (Producer.copy q o) else none
  let xs := (List.finRange 8).filterMap fun q => (s.die.xq[q]).head?.bind fun o =>
    if o.slotRing = some ⟨s.foc.coreId, r⟩ ∧ !s.isDead s.foc.die o then some (Producer.collective q o) else none
  ps.map Producer.store ++ cs ++ xs

/-- A producer takes the slot at a position. -/
def State.giveSlot (s : State) (pos : Nat) (p : Producer) : State :=
  match p with
  | .store e => s.setPp { e with reserved := some pos }
  | .copy q o => s.setCopy q { o with reserved := some pos }
  | .collective q o => s.setXop s.foc.die q { o with reserved := some pos }

/-- The wait of a producer for a slot of a ring is satisfied (Table 17-5, kind 8). -/
def State.slotFound (s : State) (r : Fin 16) (p : Producer) : State :=
  match p with
  | .store e => s.endSlotWait (s.whoIs 2 e.who) e.since r 0
  | .copy _ o => s.endSlotWait (s.whoIs 1 o.who) o.since r 0
  | .collective _ o => s.endSlotWait (s.whoDie 5 s.foc.die) o.since r 0

/-- R191: an engine producer reserves the next slot of a ring once one is free. -/
def execRingSlotReserve (p : CoreId) (r : Fin 16) (s : State) : Out :=
  if !p.ok then .fault .noSuchAgent
  else
    let t := s.focusCore p
    let ps := t.producersFor r
    match ps[Config.pick t.fresh ps.length % ps.length]?, t.reserveSlot r with
    | some x, some _ => match (t.slotFound r x).reserveSlot r with
      | some (pos, t) => .next (State.giveSlot { t with fresh := t.fresh + 1 } pos x)
      | none => .next s
    | _, _ => .next s

/-! The granger's service of a PAGE-FAULT of a queue. -/

/-- What the granger does for it: stores of page-table entries in its die's HBM, blocks of Square space backed (R286),
tags of pages mapped for the first time (R100). -/
def State.grangerWork (s : State) (f : Service) : State :=
  let d := f.who.die
  let s := f.stores.foldl (fun s e => s.unitWrite (s.whoDie 7 d) d (localPlace d e.1) (leBytes 8 e.2)) s
  let s := (f.back.filter isSquare).foldl (fun s p =>
    let x := s.dieAt (squareDie p)
    s.setDieAt (squareDie p) { x with backed := ((p - 2 ^ 67) % 2 ^ 26 / 65536 :: x.backed).eraseDups }) s
  let anew (a : Nat) : Bool := f.fresh.any fun p => p / 65536 == a / 65536
  let keep (cs : List Host.Cell) : List Host.Cell := cs.filter fun c => !(spread c.1).tail.any anew
  { s with
    mem := keep s.mem, flight := s.flight.map fun w : Flight => { w with cells := keep w.cells }
    hist := s.hist.filter fun h => !anew h.1 }

/-- A copy operation's fault reaches its task (R258). -/
def State.passCopy (s : State) (q : Fin 4) (o : CopyOp) (serviced : Bool) : State :=
  (s.setCopy q { o with told := true }).postEngine o.who o.faddr
    (engineInfo o.slot q.val serviced o.cause o.reason o.opn)

/-- A faulted request of the Square resumes, or its task learns of it (R288). -/
def State.passSq (s : State) (r : SqRequest) (f : Nat × Nat × Bool) (serviced : Bool) : State :=
  let put (g : Option (Nat × Nat × Bool)) (s : State) : State :=
    { s with ctx := { s.ctx with sq := s.ctx.sq.map fun e => if e.opn = r.opn then { e with fault := g } else e } }
  if serviced then put none s
  else (put (some (f.1, f.2.1, true)) s).postEngine s.foc (s.requestTaddr r f.1) (engineInfo r.slot 6 false f.1 f.2.1 r.opn)

/-- A stopped batch resumes, or the task of its request learns of it (R298). -/
def State.passBatch (s : State) (d k : Nat) (serviced : Bool) : State :=
  let bs := (s.dieAt d).batches
  match bs[k]? with
  | none => s
  | some b => match b.fault, sortBy OrderedAdd.le b.adds with
    | some f, a :: _ =>
      if serviced then s.setBatches d (bs.set k { b with fault := none })
      else (s.setBatches d (bs.set k { b with fault := some (f.1, f.2.1, true) })).tellAdder a f.1 f.2.1 false
    | _, _ => s

/-- A collective's fault reaches its task, which may be saved and takes it when it resumes (R332, R333). -/
def State.passX (s : State) (f : Service) (q : Fin 8) (o : XOp) : State :=
  ((s.grangerWork f).setXop s.foc.die q { o with told := true }).tellTask o (word o.faddr)
    (engineInfo o.slot 7 f.serviced o.cause o.reason o.opn)

/-- R258, R288, R298, R333, R381: the granger has finished with a PAGE-FAULT of a queue (8 for an ordered batch), or of a trapped
context, which it resumes. -/
def execFaultServiced (f : Service) (s : State) : Out :=
  if !f.who.ok then .fault .noSuchAgent
  else
    let t := s.focusOn f.who
    if f.queue < 4 then
      let q : Fin 4 := Fin.ofNat 4 f.queue
      match (t.myCopies q).find? fun o => o.state == .faulted && !o.told with
      | some o => .next ((t.grangerWork f).passCopy q o f.serviced)
      | none => .next s
    else if f.queue = 6 then
      match t.ctx.sq.findSome? fun r => (r.fault.filter fun g => !g.2.2).map fun g => (r, g) with
      | some (r, g) => .next ((t.grangerWork f).passSq r g f.serviced)
      | none => match t.ctx.wordWait.bind fun w => (w.fault.filter fun g => !g.2.2).map fun g => (w, g) with
        | some (w, g) => .next ((t.grangerWork f).passWait w g f.serviced)
        | none => .next s
    else if f.queue = 7 then
      match t.myCollectives.find? fun x => x.2.state == .faulted && !x.2.told with
      | some (q, o) => .next (t.passX f q o)
      | none => match (t.xops t.foc.die).find? fun x =>
          x.2.state == .faulted && !x.2.told && (t.taskCtx x.2.launch x.2.task).isNone with
        | some (q, o) => .next (t.passX f q o)
        | none => .next s
    else if f.queue = 8 then
      match t.stoppedBatch with
      | some (d, k) =>
        if ((t.dieAt d).batches[k]?).any fun b => b.fault.any fun g => !g.2.2 then
          .next ((t.grangerWork f).passBatch d k f.serviced)
        else .next s
      | none => .next s
    else if f.queue = 9 then
      let trapped := t.ctx.status == .trapped && !t.isCtrl && t.ctx.trap.cause == word causePageFault
      .next (if trapped && f.serviced then (t.grangerWork f).resume else s)
    else .next s

end Sys2Proof.Machine
end

