-- ==== Sys2Proof/Machine/Bale.lean ====
section
/-! DEFINITION. Launch records (R337 to R339), the bale and its checks (R45 to R47, R314), and the reasons for which a
dispatcher refuses a launch (R341, Table 14-3). -/

namespace Sys2Proof.Machine

/-! The launch record (Table 14-1). -/

def recBale (r : Record) : Nat := byteField r 0x00 8
def recEntry (r : Record) : Nat := byteField r 0x08 4
def recShape (r : Record) : Nat := byteField r 0x0c 4
def recCtl (r : Record) : Nat := byteField r 0x12 1
def recLq (r : Record) : Nat := byteField r 0x13 1
def recStep (r : Record) : Nat := byteField r 0x14 4
def recWinBase (r : Record) (k : Nat) : Nat := byteField r (0x18 + 12 * k) 8
def recWinSize (r : Record) (k : Nat) : Nat := byteField r (0x20 + 12 * k) 4
def recCribLo (r : Record) : Nat := byteField r 0x48 2
def recCribHi (r : Record) : Nat := byteField r 0x4a 2
def recStack (r : Record) : Nat := byteField r 0x4c 2
def recCqm (r : Record) : Nat := byteField r 0x4e 2
def recRmask (r : Record) : Nat := byteField r 0x50 2
def recAmask (r : Record) : Nat := byteField r 0x52 2
def recXqm (r : Record) : Nat := byteField r 0x54 1
def recSqBlk (r : Record) : Nat := byteField r 0x56 2
def recSqCnt (r : Record) : Nat := byteField r 0x58 2
def recFrame (r : Record) : Nat := byteField r 0x5c 4
def recEpoch (r : Record) : Nat := byteField r 0x60 8
def recParent (r : Record) : Nat := byteField r 0x68 8
def recCrec (r : Record) : Nat := byteField r 0x70 8
def recSiga (r : Record) : Nat := byteField r 0x78 8

/-- T, C, K, D and S of SHAPE. -/
def recT (r : Record) : Nat := natBits (recShape r) 1 0 + 1
def recC (r : Record) : Nat := natBits (recShape r) 4 2 + 1
def recK (r : Record) : Nat := natBits (recShape r) 8 5 + 1
def recD (r : Record) : Nat := natBits (recShape r) 12 9 + 1
def recS (r : Record) : Nat := natBits (recShape r) 16 13 + 1

/-- PRIO, MODE, PIN, DET and REPRO of CTL. -/
def recPrio (r : Record) : Nat := natBits (recCtl r) 2 0
def recMode (r : Record) : Nat := natBits (recCtl r) 4 3
def recPin (r : Record) : Bool := natBits (recCtl r) 5 5 == 1
def recDet (r : Record) : Bool := natBits (recCtl r) 6 6 == 1
def recRepro (r : Record) : Bool := natBits (recCtl r) 7 7 == 1

/-- The copy queues of launch context t, and of all contexts together (CQM). -/
def recCqOf (r : Record) (t : Nat) : Nat := natBits (recCqm r) (4 * t + 3) (4 * t)
def recCqAll (r : Record) : Nat := (List.range (recT r)).foldl (fun m t => m ||| recCqOf r t) 0

/-- Contexts that a die gives the launch (R345). -/
def recShare (r : Record) : Nat := recS r * recK r * recC r * recT r

/-- The record with PARENT written (R350). -/
def withParent (r : Record) (h : Nat) : Record := r.take 0x68 ++ leBytes 8 h ++ r.drop 0x70

/-- The host states a parent (Table 14-3, reason 2). -/
def hostParent (r : Record) (host : Bool) : Bool := host && recParent r != 0

/-! The bale header (Table 2-16) and its tables (Table 2-17), by the bytes of the image. -/

abbrev Image := List Byte

def baleCodeOff (b : Image) : Nat := byteField b 0x08 4
def baleCodeLen (b : Image) : Nat := byteField b 0x0c 4
def baleEntry (b : Image) : Nat := byteField b 0x10 4
def baleHandler (b : Image) : Nat := byteField b 0x14 4
def baleCribOff (b : Image) : Nat := byteField b 0x18 4
def baleCribCnt (b : Image) : Nat := byteField b 0x1c 4
def baleLiveOff (b : Image) : Nat := byteField b 0x20 4
def baleLiveCnt (b : Image) : Nat := byteField b 0x24 4
def baleRingOff (b : Image) : Nat := byteField b 0x28 4
def baleRingCnt (b : Image) : Nat := byteField b 0x2c 4
def baleParamOff (b : Image) : Nat := byteField b 0x30 4
def baleParamCnt (b : Image) : Nat := byteField b 0x34 4
def baleConstOff (b : Image) : Nat := byteField b 0x38 4
def baleConstLen (b : Image) : Nat := byteField b 0x3c 4
def baleStep (b : Image) : Nat := byteField b 0x40 4

/-- The value that stands for none in ENTRY, HANDLER and STEP. -/
def noWord : Nat := 0xffffffff

/-- A crib segment: crib offset, length, and image offset of its bytes. -/
structure Segment where
  off : Nat
  len : Nat
  src : Nat
  deriving DecidableEq, Repr

def baleSegments (b : Image) : List Segment :=
  (List.range (baleCribCnt b)).map fun i =>
    let a := baleCribOff b + 16 * i
    ⟨byteField b a 4, byteField b (a + 4) 4, byteField b (a + 8) 4⟩

/-- A live-range entry (R46): its checkpoint, its crib ranges, and the registers, tiles and rings it lists. -/
structure LiveEntry where
  n : Nat
  count : Nat
  ranges : Nat
  x : Nat
  v : Nat
  q : Nat
  m : Nat
  w : Nat
  other : Nat
  tiles : Nat
  rings : Nat
  deriving DecidableEq, Repr

def baleLive (b : Image) : List LiveEntry :=
  (List.range (baleLiveCnt b)).map fun i =>
    let a := baleLiveOff b + 32 * i
    { n := byteField b a 2, count := byteField b (a + 2) 2, ranges := byteField b (a + 4) 4, x := byteField b (a + 8) 8
      v := byteField b (a + 16) 4, q := byteField b (a + 20) 1, m := byteField b (a + 21) 1, w := byteField b (a + 22) 1
      other := byteField b (a + 23) 1, tiles := byteField b (a + 24) 2, rings := byteField b (a + 26) 2 }

/-- The crib ranges of a live-range entry: offset and length. -/
def LiveEntry.spans (e : LiveEntry) (b : Image) : List (Nat × Nat) :=
  (List.range e.count).map fun j => (byteField b (e.ranges + 8 * j) 4, byteField b (e.ranges + 8 * j + 4) 4)

/-- The live-range entry of a checkpoint (R370). -/
def liveEntry (b : Image) (n : Nat) : Option LiveEntry := (baleLive b).find? fun e => e.n == n

/-- A ring descriptor (R46). -/
structure RingDesc where
  ring : Nat
  role : Nat
  nslot : Nat
  slotb : Nat
  tscale : Nat
  base : Nat
  sbase : Nat
  deriving DecidableEq, Repr

def baleRings (b : Image) : List RingDesc :=
  (List.range (baleRingCnt b)).map fun i =>
    let a := baleRingOff b + 16 * i
    { ring := byteField b a 1, role := byteField b (a + 1) 1, nslot := byteField b (a + 2) 1
      slotb := byteField b (a + 3) 1, tscale := byteField b (a + 4) 1, base := byteField b (a + 8) 4
      sbase := byteField b (a + 12) 4 }

/-- The configuration and side words that a descriptor stands for (Tables 8-1, 8-2). -/
def RingDesc.cfg (r : RingDesc) : Word :=
  word (r.base + r.slotb * 2 ^ 32 + r.nslot * 2 ^ 40 + r.role * 2 ^ 48 + r.tscale * 2 ^ 56)
def RingDesc.side (r : RingDesc) : Word := word r.sbase

/-- A descriptor keeps the rules of `rset` that it alone can break (R47). -/
def RingDesc.ok (r : RingDesc) : Bool :=
  r.role ≤ 2 && r.nslot ≤ 64 && r.base < 2097152 && r.sbase < 16384 && ringWordOk r.cfg r.side

/-- A parameter declaration: its window and its least size. -/
structure ParamDecl where
  window : Nat
  size : Nat
  deriving DecidableEq, Repr

def baleParams (b : Image) : List ParamDecl :=
  (List.range (baleParamCnt b)).map fun i =>
    let a := baleParamOff b + 8 * i
    ⟨byteField b a 1, byteField b (a + 4) 4⟩

/-! The checks of R47. -/

/-- One bit of a CRC-32 by the IEEE 802.3 polynomial, in reflected form. -/
def crcBit (c : Nat) : Nat := if c % 2 = 1 then c / 2 ^^^ 0xedb88320 else c / 2

/-- One byte of it. -/
def crcByte (c : Nat) (b : Byte) : Nat := (List.range 8).foldl (fun c _ => crcBit c) (c ^^^ b.toNat)

/-- CRC-32 (IEEE 802.3) of some bytes. -/
def crc32 (bs : List Byte) : Nat := bs.foldl crcByte 0xffffffff ^^^ 0xffffffff

/-- The image with CHECK zero. -/
def uncheckedImage (b : Image) : Image := b.take 0x44 ++ leBytes 4 0 ++ b.drop 0x48

/-- The least length of an image by its header. -/
def headerEnd (b : Image) : Nat :=
  [80, baleCodeOff b + baleCodeLen b, baleCribOff b + 16 * baleCribCnt b, baleLiveOff b + 32 * baleLiveCnt b,
    baleRingOff b + 16 * baleRingCnt b, baleParamOff b + 8 * baleParamCnt b,
    baleConstOff b + baleConstLen b].foldl max 0

/-- The least length of an image by its header and tables: where it ends (R47; the header gives no length). -/
def imageEnd (b : Image) : Nat :=
  ((baleSegments b).map (fun g : Segment => g.src + g.len) ++
    (baleLive b).map fun e : LiveEntry => e.ranges + 8 * e.count).foldl max (headerEnd b)

/-- No number stands twice in a list. -/
def noRepeat : List Nat → Bool
  | [] => true
  | a :: l => !l.contains a && noRepeat l

/-- An image passes the checks of R47, but for the ends of what it holds, which its reading has shown. -/
def imageOk (b : Image) : Bool :=
  byteField b 0 4 == 0x454c4142 && byteField b 4 2 == 1 && byteField b 0x44 4 == crc32 (uncheckedImage b) &&
  baleCodeOff b % 16 == 0 && baleCodeLen b % 16 == 0 && baleEntry b % 16 == 0 && baleEntry b < baleCodeLen b &&
  (baleHandler b == noWord || baleHandler b < baleCodeLen b) &&
  baleRingCnt b ≤ 16 && baleParamCnt b ≤ 4 &&
  (baleSegments b).all (fun g => g.off + g.len ≤ 2097152) &&
  (baleLive b).all (fun e => (e.spans b).all fun r => r.1 + r.2 ≤ 2097152) &&
  (baleRings b).all RingDesc.ok && (baleParams b).all (fun p => p.window < 4) && noRepeat ((baleLive b).map LiveEntry.n)

/-! Reading the image. -/

/-- The holder number of a die's dispatcher. -/
def dispatcherOwner : Nat := 98

/-- `n` bytes that a die's dispatcher reads at a translated address in an address space. -/
def State.dispatcherBytes (s : State) (d asn root a n : Nat) : Option (List Byte) :=
  if a % 2 ^ 48 < 2 ^ 32 ∨ 2 ^ 48 < a % 2 ^ 48 + n ∨ !highOk (word a) then none
  else match s.checkMapped d dispatcherOwner asn root ⟨false, false, false, false⟩ (word a) n with
    | .error _ => none
    | .ok r => if (s.poisonAt r.places).isSome then none else some (s.seenBytes d r.places)

/-- The image of a bale as the dispatcher of a die finds it: header, tables, then the whole (R45 to R47); none when it
fails a check. -/
def State.baleImage (s : State) (d asn root a : Nat) : Option Image :=
  if a % 16 ≠ 0 then none
  else
    let get := s.dispatcherBytes d asn root a
    (get 80).bind fun h => (get (headerEnd h)).bind fun b => (get (imageEnd b)).bind fun b =>
      if imageOk b then some b else none

/-! The promise (R314). -/

/-- A slot word names an instruction with an ordered form and lacks its ordered bit (R314, Table 2-11). -/
def unorderedWord (w : Nat) : Bool :=
  let major := natBits w 30 25
  if major = 0x26 then (natBits w 6 4 == 4 || natBits w 6 4 == 5) && natBits w 1 1 == 0
  else if major = 0x2a then (natBits w 2 0 == 0 || natBits w 2 0 == 3) && natBits w 5 5 == 0
  else if major = 0x2c then (natBits w 2 0 == 1 || natBits w 2 0 == 2 || natBits w 2 0 == 7) && natBits w 3 3 == 0
  else false

/-- A bale's promise is "ordered" (R314). -/
def promised (b : Image) : Bool :=
  (List.range (baleCodeLen b / 4)).all fun i => !unorderedWord (byteField b (baleCodeOff b + 4 * i) 4)

/-! Refusals (Table 14-3). -/

/-- Reason 2: a field that must be zero, MODE, K, LQ, PARENT or ENTRY. -/
def badRecord (r : Record) (b : Image) (host : Bool) : Bool :=
  natBits (recShape r) 31 17 != 0 || recLq r > 31 || byteField r 0x55 1 != 0 || byteField r 0x5a 2 != 0 ||
  recMode r == 3 || recK r > 12 || hostParent r host ||
  (recEntry r != noWord && (recEntry r % 16 != 0 || baleCodeLen b ≤ recEntry r))

/-- Reason 3: too many contexts on a die, or dies that DMASK does not name well. -/
def State.badShape (s : State) (r : Record) : Bool :=
  384 < recShare r || (recDies r).length != recD r || (recDies r).any fun q => (s.dieOfQdn q).isNone

/-- Reason 5: a declared window unbound or too small, or pw3 bound beside a constant block. -/
def badParams (r : Record) (b : Image) : Bool :=
  (baleConstLen b != 0 && recWinSize r 3 != 0) ||
  (baleParams b).any fun p =>
    let have_ := if p.window = 3 ∧ baleConstLen b ≠ 0 then baleConstLen b else recWinSize r p.window
    have_ == 0 || have_ < p.size

/-- Reason 6: the crib range, what the bale needs in it, the masks, and the Square-space range. -/
def badResources (r : Record) (b : Image) : Bool :=
  let lo := recCribLo r
  let hi := recCribHi r
  let spans := (baleSegments b).map (fun g => (g.off, g.len)) ++
    (baleRings b).map (fun g => (g.base, g.nslot * g.slotb * 4096)) ++ (baleLive b).flatMap fun e => e.spans b
  let queues := (List.range (recT r)).flatMap fun t => (List.range 4).filter fun q => (recCqOf r t).testBit q
  hi ≤ lo || 512 < hi || spans.any (fun p => p.1 < lo * 4096 || hi * 4096 < p.1 + p.2) ||
  (baleRings b).any (fun g => !(recRmask r).testBit g.ring) || !noRepeat queues || 1024 < recSqBlk r + recSqCnt r ||
  hi - lo < recT r * recStack r

/-- Reason 7: a pinned launch's shape, frame and dies. -/
def State.badPin (s : State) (r : Record) : Bool :=
  recPin r && (recT r != 1 || recFrame r == 0 || 2 ^ 23 < recFrame r ||
    (recDies r).any fun q => (s.dieOfQdn q).any fun d => !(s.dieAt d).lock)

/-- The lowest-numbered reason for which a record is refused (R341), none when it passes CHECK. `b` is its bale as
found, `depth` how many levels it lies below a host launch. -/
def State.refusalOf (s : State) (r : Record) (b : Option Image) (host : Bool) (depth : Nat) : Option Nat :=
  match b with
  | none => some 1
  | some b =>
    if badRecord r b host then some 2
    else if s.badShape r then some 3
    else if recRepro r && !promised b then some 4
    else if badParams r b then some 5
    else if badResources r b then some 6
    else if s.badPin r then some 7
    else if 8 ≤ depth then some 8 else none

end Sys2Proof.Machine
end

