-- ==== Sys2Proof/Machine/Window.lean ====
section
/-! DEFINITION. The host's control window of a die (R393, R394): its command and response rings, and how a command is
answered. -/

namespace Sys2Proof.Machine

/-- The places of a command slot and of a response entry (Table 15-8). -/
def commandPlace (d n : Nat) : Nat := controlPlace d (0x10000 + n % 256 * 256)
def responsePlace (d n : Nat) : Nat := controlPlace d (0x20000 + n % 1024 * 64)

/-- Fields of a command (R394). -/
def cmdOpc (c : List Byte) : Nat := byteField c 0 2
def cmdTag (c : List Byte) : Nat := byteField c 4 4
def cmdArg (c : List Byte) (k : Nat) : Nat := byteField c (8 + 8 * k) 8
def cmdRecord (c : List Byte) : Record := (c.drop 0x80).take 128

/-- a less b for 32-bit pointers. -/
def ptrLess (a b : Nat) : Nat := (a + 2 ^ 32 - b % 2 ^ 32) % 2 ^ 32

/-- Answers the command taken on a die (R394): CHEAD passes it, its response is written, RTAIL advances. -/
def State.respond (s : State) (d status val0 val1 : Nat) : State :=
  let x := s.dieAt d
  match x.cmd with
  | none => s
  | some c =>
    let bs := leBytes 4 (cmdTag c) ++ leBytes 4 status ++ leBytes 8 val0 ++ leBytes 8 val1 ++ List.replicate 36 0 ++
      leBytes 4 (x.rtail / 1024 % 2)
    let s := s.unitWrite (s.whoDie 7 d) d (responsePlace d x.rtail) bs
    let x := s.dieAt d
    s.setDieAt d { x with chead := (x.chead + 1) % 2 ^ 32, rtail := (x.rtail + 1) % 2 ^ 32, cmd := none }

end Sys2Proof.Machine
end

