-- ==== Sys2Proof/Machine/Launch.lean ====
section
/-! DEFINITION. The dispatcher (R339 to R347, R350 to R353): the order of placement, the share of a launch on a die and
its holds, pre-emption requests, placement with the start of tasks, retirement, teardown, and the arrival of records. -/

namespace Sys2Proof.Machine

/-! Launches. -/

/-- Replaces a launch, known by its handle. -/
def State.setLaunch (s : State) (l : Launch) : State :=
  { s with launches := s.launches.map fun k => if k.handle = l.handle then l else k }

/-- Home quarter die number and serial number of a handle (R339). -/
def Launch.qdn (l : Launch) : Nat := natBits l.handle 51 48
def Launch.serial (l : Launch) : Nat := natBits l.handle 31 0

/-- A die time is before another (R359). -/
def timeBefore (a b : Nat) : Bool := a != b && (b + 2 ^ 64 - a) % 2 ^ 64 < 2 ^ 63

/-- One launch comes before another in placement order (R343). -/
def Launch.before (a b : Launch) : Bool :=
  b.prio < a.prio || (a.prio == b.prio && (timeBefore a.arrival b.arrival ||
    (a.arrival == b.arrival && (a.qdn < b.qdn || (a.qdn == b.qdn && a.serial < b.serial)))))

/-- STEP of a launch in mW (Table 14-1). -/
def Launch.step (l : Launch) : Nat := if recStep l.record = noWord then baleStep l.bale else recStep l.record

/-- A non-detached child of a launch that has not retired (R351). -/
def State.owesChild (s : State) (h : Nat) : Bool :=
  s.launches.any fun k => k.parent == some h && !recDet k.record && k.state != .retired

/-- Launches of a die's dispatcher that have not retired, with the records on their way in (R350). -/
def State.unretired (s : State) (d : Nat) : Nat :=
  (s.launches.filter fun l => l.home == d && l.state != .retired).length + (s.dieAt d).arrivals.length

/-- Records in a launch queue of a die, with those on their way in (R342). -/
def State.queued (s : State) (d q : Nat) : Nat :=
  ((s.dieAt d).lq.getD q []).length + ((s.dieAt d).arrivals.filter fun a => a.queue == q).length

/-- A launch queue of a die has room for a record (R342, R350). -/
def State.queueRoom (s : State) (d q : Nat) : Bool := s.queued d q < 64 && s.unretired d < 1024

/-- Room may have come: the contexts of a die whose `launch` waits for it, and not yet for CHECK, try again (Table 17-5,
kind 13). -/
def State.roomLeft (s : State) (d : Nat) : State :=
  let sent := (s.dieAt d).arrivals.filterMap fun a => a.issuer.map Prod.fst
  s.wakeAll (s.whoDie 6 d) fun c w => c.die == d && !sent.contains c && match w with
    | .launch _ => true
    | _ => false

/-- A launch leaves its queue. -/
def State.unqueue (s : State) (l : Launch) : State :=
  let x := s.dieAt l.home
  (s.setDieAt l.home { x with lq := x.lq.map fun q => q.filter (· != l.handle) }).roomLeft l.home

/-! The share of a launch on a die (R345). -/

/-- Contexts held for launches, with the launch. -/
def State.heldSpots (s : State) : List (Nat × CtxId) :=
  s.launches.flatMap fun l => l.holds.flatMap fun h => h.2.map fun c => (l.handle, c)

/-- A context can be given: free, or among those that count as gone, and held for no launch. -/
def State.ctxOpen (s : State) (gone : List CtxId) (c : CtxId) : Bool :=
  (gone.contains c || (s.ctxAt c).status == .free) && !(s.heldSpots.any fun e => e.2 == c)

/-- The launches that have tasks, or contexts held for them, on a core. -/
def State.launchesOn (s : State) (gone : List CtxId) (p : CoreId) : List Nat :=
  ([0, 1, 2, 3].filterMap fun k =>
    if gone.contains (p.ctxId k) then none else (s.ctxAt (p.ctxId k)).task.map Task.launch) ++
  (s.heldSpots.filter fun e => e.2.coreId == p).map Prod.fst

/-- Two launches cannot share a core: their crib ranges, rings, tiles or copy queues meet. -/
def recordsClash (a b : Record) : Bool :=
  (recCribLo a < recCribHi b && recCribLo b < recCribHi a) || recRmask a &&& recRmask b != 0 ||
  recAmask a &&& recAmask b != 0 || recCqAll a &&& recCqAll b != 0

/-- A core can take tasks of a launch beside what other launches have there (R345, R346). -/
def State.coreOpens (s : State) (gone : List CtxId) (l : Launch) (p : CoreId) : Bool :=
  p.core < 96 && (s.launchesOn gone p).all fun h => h == l.handle || match s.launchOf h with
    | some o => !recPin o.record && !recPin l.record && !recordsClash o.record l.record
    | none => false

/-- How many stages of a launch a core can hold a core's tasks of: the copy queues of CQM belong to one, a pinned task is
alone (R237, R358). -/
def State.coreRoom (s : State) (gone : List CtxId) (l : Launch) (p : CoreId) : Nat :=
  if s.coreOpens gone l p then
    let n := ([0, 1, 2, 3].filter fun k => s.ctxOpen gone (p.ctxId k)).length / recT l.record
    if recPin l.record then (if (s.launchesOn gone p).isEmpty then min n 1 else 0)
    else if recCqAll l.record = 0 then n else min n 1
  else 0

/-- A die can give a launch its collective queues and its Square-space range (R345). -/
def State.dieOpens (s : State) (l : Launch) (d : Nat) : Bool :=
  s.launches.all fun o => o.handle == l.handle ||
    !(o.holds.any (fun h => h.1 == d) || (o.state == .running && (s.launchDies o).contains d)) ||
    (recXqm o.record &&& recXqm l.record == 0 &&
      (recSqBlk o.record + recSqCnt o.record ≤ recSqBlk l.record ||
        recSqBlk l.record + recSqCnt l.record ≤ recSqBlk o.record || recSqCnt o.record == 0 || recSqCnt l.record == 0))

/-- The most stages, up to a number, that a cluster can give C different cores each, by the room of its cores. -/
def stagesIn (rooms : List Nat) (c : Nat) : Nat → Nat
  | 0 => 0
  | n + 1 => if (n + 1) * c ≤ (rooms.map (min (n + 1))).sum then n + 1 else stagesIn rooms c n

/-- A die can give a launch its share at once (R345). -/
def State.fits (s : State) (gone : List CtxId) (l : Launch) (d : Nat) : Bool :=
  let stages (q : Nat) : Nat :=
    stagesIn ((List.range 8).map fun j => s.coreRoom gone l ⟨d, 8 * q + j⟩) (recC l.record) (recS l.record)
  s.dieOpens l d && recS l.record * recK l.record ≤ ((List.range 12).map stages).sum

/-- The cores of a choice of contexts, in the order stage, cluster, core; none where the contexts of one differ in
core. -/
def coresOf (t : Nat) : Nat → List CtxId → Option (List CoreId)
  | 0, cs => if cs.isEmpty then some [] else none
  | n + 1, cs => match cs.take t with
    | [] => none
    | c :: ks => if ks.all (fun k => k.coreId == c.coreId) then (coresOf t n (cs.drop t)).map (c.coreId :: ·) else none

/-- No two elements of a list are equal. -/
def allDiffer {α : Type} [BEq α] : List α → Bool
  | [] => true
  | a :: l => !l.contains a && allDiffer l

/-- The clusters of a stage, each with its C different cores, are different ones. -/
def stageOk (c k : Nat) (ps : List CoreId) : Bool :=
  let groups := (List.range k).map fun j => (ps.drop (j * c)).take c
  groups.all (fun g => allDiffer g && g.all fun p => g.all fun q => p.core / 8 == q.core / 8) &&
    allDiffer (groups.map fun g => (g.map fun p => p.core / 8).headD 0)

/-- A choice of contexts of a die is a share of a launch there, in the order stage, cluster, core, context. -/
def State.spotsOk (s : State) (l : Launch) (d : Nat) (cs : List CtxId) : Bool :=
  let r := l.record
  cs.length == recShare r && allDiffer cs && cs.all (fun c => c.ok && c.die == d && s.ctxOpen [] c) &&
  match coresOf (recT r) (recS r * recK r * recC r) cs with
  | none => false
  | some ps =>
    (List.range (recS r)).all (fun j => stageOk (recC r) (recK r) ((ps.drop (j * (recK r * recC r))).take (recK r * recC r))) &&
    ps.all fun p => (ps.filter (· == p)).length ≤ s.coreRoom [] l p

/-! Holds (R345) and pre-emption requests (R347). -/

/-- A launch ahead in a die's placement order waits, or a pre-empted task is to be resumed there first (R343, R349). -/
def State.behind (s : State) (l : Launch) (d : Nat) : Bool :=
  s.launches.any fun o =>
    (o.state == .queued && o.handle != l.handle && o.before l && (s.launchDies o).contains d) ||
    (l.prio ≤ o.prio && o.saved.any fun t => t.die == d)

/-- The slots for STEP can be drawn from a die's package (R404). -/
def State.coversStep (s : State) (l : Launch) (d : Nat) : Bool := mwUnits l.step ≤ (s.pkgOf d).pool

/-- Draws slots from the pool of a die's package and gives them to the die (R403, R404). -/
def State.drawSlots (s : State) (d h n : Nat) (reserve : Bool) : State :=
  if n = 0 then s
  else
    let p := (s.pkgOf d).take n
    (s.setPkgAt (d / 2) p.1).addGrant d none (some h) p.2 reserve

/-- Releases every hold of a launch, with its reserves (R345, R404). -/
def State.releaseHolds (s : State) (l : Launch) : State :=
  let s := l.holds.foldl (fun s e => s.returnGrants e.1 fun g => g.launch == some l.handle && !g.live) s
  s.setLaunch { l with holds := [] }

/-- A task that may be pre-empted for a launch, with its launch. -/
structure Victim where
  ctx : CtxId
  launch : Launch
  index : Nat
  deriving DecidableEq, Repr

/-- The order in which victims are taken: lowest effective priority, latest arrival, highest task index (R347). -/
def Victim.le (a b : Victim) : Bool :=
  a.launch.prio < b.launch.prio || (a.launch.prio == b.launch.prio &&
    (timeBefore b.launch.arrival a.launch.arrival || (a.launch.arrival == b.launch.arrival && b.index ≤ a.index)))

/-- The tasks of a die that a launch may pre-empt, in that order. -/
def State.victims (s : State) (l : Launch) (d : Nat) : List Victim :=
  sortBy Victim.le (s.knownCtxs.filterMap fun c =>
    let x := s.ctxAt c
    if c.die = d ∧ c.core < 96 ∧ x.preq.isNone then
      x.task.bind fun t => (s.launchOf t.launch).bind fun o =>
        if o.prio < l.prio ∧ !recPin o.record ∧ !l.spared.contains (t.launch, t.index) then some ⟨c, o, t.index⟩ else none
    else none)

/-- The shortest beginning of a list of victims whose contexts, gone, let a launch fit. -/
def State.enough (s : State) (l : Launch) (d : Nat) (vs : List Victim) : Option (List Victim) :=
  ((List.range (vs.length + 1)).map fun n => vs.take n).find? fun g => s.fits (g.map Victim.ctx) l d

/-- Sends pre-emption requests on a die to just enough tasks for a launch, unless some are out (R347). -/
def State.requestRoom (s : State) (l : Launch) (d : Nat) : State :=
  if s.knownCtxs.any fun c => c.die == d && (s.ctxAt c).preq.any fun r => r.1 == l.handle then s
  else match s.enough l d (s.victims l d) with
    | none => s
    | some vs => vs.foldl (fun s v =>
        let x := s.ctxAt v.ctx
        s.setCtxAt v.ctx { x with preq := some (l.handle, s.cycle + (s.dieAt l.home).gdead * 1900) }) s

/-- R345: a die of a launch, after those before it, grants its hold on a choice of contexts or refuses. -/
def execHoldRequest (h d : Nat) (spots : List CtxId) (s : State) : Out :=
  if 16 ≤ d then .fault .noSuchAgent
  else match s.launchOf h with
    | none => .next s
    | some l =>
      let has (e : Nat) : Bool := l.holds.any fun x => x.1 == e
      let turn := l.state == .queued && !has d && (s.launchDies l).contains d &&
        ((s.launchDies l).takeWhile (· != d)).all has
      if !turn then .next s
      else if !s.behind l d && s.fits [] l d && s.coversStep l d then
        if s.spotsOk l d spots then
          let t := if recPin l.record then s else s.drawSlots d h (mwUnits l.step) true
          .next (t.setLaunch { l with holds := l.holds ++ [(d, spots)] })
        else .next s
      else
        let t := s.releaseHolds l
        .next (if !s.behind l d && !s.fits [] l d then t.requestRoom { l with holds := [] } d else t)

/-- R343: a full aging interval of waiting raises a queued launch's effective priority. -/
def execAgingInterval (h : Nat) (s : State) : Out :=
  match s.launchOf h with
  | none => .next s
  | some l =>
    let x := s.dieAt l.home
    let waited := ((s.dtimeOf x).toNat + 2 ^ 64 - l.arrival % 2 ^ 64) % 2 ^ 64
    if l.state = .queued ∧ l.prio < 7 ∧ (l.aged + 1) * x.gage * 65536000 ≤ waited then
      .next (s.setLaunch { l with prio := l.prio + 1, aged := l.aged + 1 })
    else .next s

/-! Placement (R346). -/

/-- The coordinates and resources of a task by its place in a die's share (R19, R338). -/
def Launch.taskAt (l : Launch) (di i : Nat) : Task :=
  let r := l.record
  let t := i % recT r
  let c := i / recT r % recC r
  let k := i / (recT r * recC r) % recK r
  let st := i / (recT r * recC r * recK r)
  { launch := l.handle, index := (((st * recD r + di) * recK r + k) * recC r + c) * recT r + t, t := t, c := c, k := k
    d := di, stage := st, shape := recShape r, codeBase := word (recBale r + baleCodeOff l.bale)
    codeLen := baleCodeLen l.bale, bale := recBale r, rmask := recRmask r, amask := recAmask r, cqm := recCqOf r t
    xqm := recXqm r, asn := l.asn, root := l.root, harea := l.harea }

/-- The parameter windows of a launch's tasks (R47, Table 14-1). -/
def Launch.windows (l : Launch) : Vector ParamWindow 4 :=
  Vector.ofFn fun k : Fin 4 =>
    if k = 3 ∧ baleConstLen l.bale ≠ 0 then ⟨word (recBale l.record + baleConstOff l.bale), baleConstLen l.bale⟩
    else ⟨word (recWinBase l.record k.val), recWinSize l.record k.val⟩

/-- The entry address of a launch's tasks, and of their handler, 0 for none (Tables 14-1, 15-1). -/
def Launch.entryPc (l : Launch) : Word :=
  word (recBale l.record + baleCodeOff l.bale + if recEntry l.record = noWord then baleEntry l.bale else recEntry l.record)
def Launch.handlerPc (l : Launch) : Word :=
  if baleHandler l.bale = noWord then 0 else word (recBale l.record + baleCodeOff l.bale + baleHandler l.bale)

/-- A context as a task of a launch starts in it (R36, R346): the observation registers are the context's own. -/
def Launch.startCtx (l : Launch) (t : Task) (c : CtxId) (old : Ctx) : Ctx :=
  let r := l.record
  let x := Ctx.init c.ctx false
  let flags := (if recRepro r then 2 ^ 24 else 0) + recMode r * 2 ^ 22 + (if recPin r then 2 ^ 21 else 0)
  { x with
    x := x.x.set 62 (word ((recCribHi r - recStack r * t.t) * 4096)), cstat := orCstat x.cstat flags
    pw := l.windows, pc := l.entryPc, tvec := l.handlerPc, obk := old.obk, owa := old.owa, lastWait := old.lastWait
    frlen := if recPin r then recFrame r else 0, epoch := if recPin r then word (recEpoch r) else 0
    status := .ready, task := some t }

/-- A task starts in a context; a pinned one waits for EPOCH (R346, R361). -/
def State.startTask (s : State) (l : Launch) (t : Task) (c : CtxId) : State :=
  let s := s.focusOn c
  let s := { s with ctx := l.startCtx t c s.ctx }
  if recPin l.record && s.beforeEpoch then s.startWait .epoch else s

/-- Zeroes the accumulator tiles of a mask on the core in focus (R193). -/
def State.clearTiles (s : State) (mask : Nat) : State :=
  let ts := (List.range 16).filter fun k => mask.testBit k
  (ts.foldl (fun s k => s.putAcc (tilePlace s.foc.coreId k) (List.replicate 32768 0)) s).setLevels ts 0

/-- An unconfigured ring with its counters 0 (R188). -/
def Ring.blank : Ring :=
  { cfg := 0, side := 0, head := 0, tail := 0, claim := 0, resv := 0, filled := [], popper := 65535, opened := 0 }

/-- The rings of a mask on the core in focus take what a description gives them, none an unconfigured ring; a staged tile
of one is no kept copy any more (R188, R207). -/
def State.placeRings (s : State) (mask : Nat) (f : Fin 16 → Option Ring) : State :=
  { s with core := { s.core with
      rings := Vector.ofFn fun n => if mask.testBit n.val then (f n).getD Ring.blank else s.core.rings[n]
      staged := s.core.staged.filter fun t => !mask.testBit t.ring.val } }

/-- What placement does on a core (R47, R188, R193): crib segments, rings, tiles. -/
def State.setUpCore (s : State) (l : Launch) (p : CoreId) : State :=
  let s := s.focusCore p
  let who := s.whoDie 6 p.die
  let s := (baleSegments l.bale).foldl (fun s g =>
    s.unitWrite who p.die (cribPlace p g.off) ((l.bale.drop g.src).take g.len)) s
  let s := s.placeRings (recRmask l.record) fun n =>
    ((baleRings l.bale).reverse.find? fun g => g.ring == n.val).map fun g => { Ring.blank with cfg := g.cfg, side := g.side }
  s.clearTiles (recAmask l.record)

/-- The reserves of a launch on a die become grants, made now and so the youngest (R404, R405). -/
def State.openGrants (s : State) (d h : Nat) : State :=
  let x := s.dieAt d
  let mine (g : Grant) : Bool := g.launch == some h && !g.live
  let made := (x.grants.filter mine).map fun g => { g with expires := some s.grantEnd }
  s.setDieAt d { x with grants := (x.grants.filter fun g => !mine g) ++ made }

/-- A pinned launch reserves its STEP at its placement, on every die that holds for it; none while a pool does not cover
it (R404; log 58). -/
def State.reserveSteps (s : State) (l : Launch) : Option State :=
  if recPin l.record then
    l.holds.foldl (fun t e => t.bind fun t =>
      if t.coversStep l e.1 then some (t.drawSlots e.1 l.handle (mwUnits l.step) true) else none) (some s)
  else some s

/-- A die's part of a placement: what it holds becomes tasks, and its first bundles see what the launching die saw (R346,
Table 11-3). -/
def State.placeOn (s : State) (l : Launch) (di : Nat) (e : Nat × List CtxId) : State :=
  let s := s.carry l.home e.1
  let s := ((e.2.map CtxId.coreId).eraseDups).foldl (fun s p => s.setUpCore l p) s
  let s := e.2.zipIdx.foldl (fun s c => s.startTask l (l.taskAt di c.2) c.1) s
  if recPin l.record && timeBefore (s.dtimeOf (s.dieAt e.1)).toNat (recEpoch l.record) then s
  else s.openGrants e.1 l.handle

/-- R346: a launch with its holds on every die, and none ahead of it, is placed: every task starts. With one ahead it
gives its holds up. -/
def execLaunchPlacement (h : Nat) (p : Placement) (s : State) : Out :=
  match s.launchOf h with
  | none => .next s
  | some l =>
    let dies := s.launchDies l
    if l.state ≠ .queued ∨ dies.any (fun d => l.holds.all fun e => e.1 != d) then .next s
    else if dies.any (s.behind l) then .next (s.releaseHolds l)
    else match s.reserveSteps l with
    | none => .next s
    | some s =>
      let l := { l with harea := p.harea, hcap := p.hcap }
      let s' := l.holds.zipIdx.foldl (fun t e => t.placeOn l e.2 e.1) s
      let tasks := l.holds.zipIdx.flatMap fun e => e.1.2.zipIdx.map fun c => ((l.taskAt e.2 c.2).index, TaskPlace.on c.1)
      let l := { l with state := .running, holds := [], tasks := tasks, tplace := (s.dtimeOf (s.dieAt l.home)).toNat }
      .next ((s'.focusOn s.foc).setLaunch l |>.unqueue l)

/-! Retirement (R340, R351). -/

/-- The completion record of a launch (Table 14-2). -/
def Launch.completion (l : Launch) : List Byte :=
  let promise := (if !l.bale.isEmpty && promised l.bale then 1 else 0) + if recRepro l.record then 2 else 0
  leBytes 8 l.handle ++ leBytes 8 (l.parent.getD 0) ++ leBytes 4 l.status ++ leBytes 4 l.cause ++ leBytes 8 promise ++
    leBytes 8 l.tplace ++ leBytes 8 l.tend ++ leBytes 4 l.dropped ++ leBytes 4 l.preempt ++ leBytes 8 0

/-- A write of a launch's home die at an address of its record, 0 for none: translated memory, or Square space for the
signal word (R340). One that cannot be made is dropped. -/
def State.homeWrite (s : State) (l : Launch) (a : Nat) (bs : List Byte) (square : Bool) : State :=
  let d := l.home
  let who := s.whoDie 6 d
  if a = 0 ∨ !keyOk (word a) then s
  else match winOf (locOf (word a)) with
    | some .mapped =>
      match s.checkMapped d dispatcherOwner l.asn l.root ⟨true, false, false, false⟩ (word a) bs.length with
      | .ok r => s.performWrite none who 0 d (r.places.zip bs)
      | .error _ => s
    | some w =>
      let p := winPlace ⟨d, 0⟩ 0 w (locOf (word a))
      if square && (w == .square || w == .squareOther) && s.squareBacked p then s.unitWrite who d p bs else s
    | none => s

/-- A launch retires with a status and a cause (R340): its tasks' writes are released at quarter scope (Table 11-3), then
the home die writes the record and the word, then every `lwait` on it may return. -/
def State.retireAs (s : State) (l : Launch) (status cause : Nat) : State :=
  let s := (s.launchDies l).foldl (fun s d => s.diePositions.foldl (fun s e => s.carry d e) s) s
  let l := { l with state := .retired, status := status, cause := cause, tend := (s.dtimeOf (s.dieAt l.home)).toNat
                    holds := [], saved := [], groups := [] }
  let s := (s.setLaunch l).unqueue l
  let s := s.homeWrite l (recCrec l.record) l.completion false
  let s := s.homeWrite l (recSiga l.record) ((l.completion.drop 16).take 8) true
  s.knownCtxs.foldl (fun s c =>
    let x := s.ctxAt c
    if x.status = .waiting (.child (word l.handle)) then s.setCtxAt c { x with setter := s.whoDie 6 l.home } else s) s

/-- R351: a launch whose tasks are done retires, or drains until its non-detached children have retired. -/
def execLaunchRetire (h : Nat) (s : State) : Out :=
  match s.launchOf h with
  | none => .next s
  | some l =>
    let ended := l.state == .draining || (l.state == .running && l.tasks.all fun t => t.2 == .done)
    if !ended then .next s
    else if s.owesChild h then .next (s.setLaunch { l with state := .draining })
    else .next (s.retireAs l 0 0)

/-! Teardown (R352, R353). -/

/-- Stores already issued by the context in focus are performed: their slots have committed (R352). -/
def State.performStores (s : State) : State :=
  s.ctx.stores.foldl (fun s p => s.performWrite (some s.foc) s.self p.seq s.foc.die p.cells)
    { s with ctx := { s.ctx with stores := [] } }

/-- The context in focus is free again; its observation registers and its most recent wait record stay (R433). -/
def State.freeCtx (s : State) : State :=
  let x := freshCtx s.foc
  { s with ctx := { x with obk := s.ctx.obk, owa := s.ctx.owa, lastWait := s.ctx.lastWait } }

/-- A task of a die takes no part in harvest merges any more, and the ordered adds that it has not put into a batch are
discarded (R280, R295, R352). -/
def State.leaveSquares (s : State) (die launch task : Nat) : State :=
  let d := 2 * (die / 2)
  let hold (h : HeldArrival) : HeldArrival := if h.launch = launch ∧ h.task = task then { h with adds := [] } else h
  [d, d + 1].foldl (fun s e =>
    let x := s.dieAt e
    s.setDieAt e { x with
      harvesters := x.harvesters.filter fun h => !(h.launch == launch && h.task == task)
      heldArr := x.heldArr.map hold }) s

/-- Teardown of the task in focus (R352): its entries, buffer and pending sets are discarded (R204, R262, R280, R295,
R333), its grants return (R409), its context is freed where it stands. -/
def State.dropTask (s : State) : State :=
  let s := ((s.endWait 3).performStores.dropCopies).dropCollectives
  let s := s.ctx.task.elim s fun t => s.leaveSquares s.foc.die t.launch t.index
  let who := s.foc
  let mq := s.core.mq.filter fun e => e.who == who
  let pp := s.core.ppq.filter fun e => e.who == who
  let s := mq.foldl (fun s e => (s.endTileWait e 3).leaveMq e .cancelled) s
  let s := pp.foldl (fun s e => (s.endStoreWait e 3).leavePp e .cancelled) s
  let s := s.returnGrants who.die fun g => g.owner == some who
  s.freeCtx

/-- Teardown of a saved task (R262, R333): its bound copy operations send their aborted arrivals, its collectives are
cancelled. -/
def State.dropSaved (s : State) (h : Nat) (t : SavedTask) : State :=
  let s := (t.ops.foldl (fun s o => (s.focusOn o.2.who).abortCopy o.2) s).leaveSquares t.die h t.index
  ((s.xops t.die).filter fun x => x.2.launch == h && x.2.task == t.index).foldl (fun s x => s.cancelX t.die x.1 x.2 3) s

/-- The records that tasks of a launch have on their way in, on any die, are dropped (R353): how many, and the rest. -/
def State.dropArrivals (s : State) (h : Nat) : Nat × State :=
  let mine (a : Arrival) : Bool := a.issuer.any fun i => (s.ctxAt i.1).task.any fun t => t.launch == h
  let n := (s.diePositions.map fun d => ((s.dieAt d).arrivals.filter mine).length).sum
  (n, s.diePositions.foldl (fun t d =>
    if (s.dieAt d).arrivals.any mine then
      let x := t.dieAt d
      t.setDieAt d { x with arrivals := x.arrivals.filter fun a => !mine a }
    else t) s)

/-- Everything a launch has in the machine goes (R352): the launch as it is to be retired. -/
def State.clearLaunch (s : State) (h : Nat) : State :=
  match s.launchOf h with
  | none => s
  | some l =>
    let a := s.dropArrivals h
    let s := a.2
    let s := l.tasks.foldl (fun s t => match t.2 with
      | .on c => if (s.ctxAt c).isTask h t.1 then (s.focusOn c).dropTask else s
      | .saved | .done => s) s
    let s := l.saved.foldl (fun s t => s.dropSaved h t) s
    let s := s.diePositions.foldl (fun s d =>
      if (s.dieAt d).grants.any fun g => g.launch == some h then s.returnGrants d fun g => g.launch == some h else s) s
    s.setLaunch { l with dropped := l.dropped + a.1, holds := [] }

/-- A launch and its non-detached descendants that have not retired, each after its own (R350 to R352). -/
def State.lineage (s : State) : Nat → Nat → List Nat
  | 0, _ => []
  | n + 1, h =>
    (s.launches.filter fun k => k.parent == some h && !recDet k.record && k.state != .retired).flatMap
      (fun k => s.lineage n k.handle) ++ [h]

/-- Teardown of a launch with a status and a cause (R352); `record` is whether completion records follow. -/
def State.tearDown (s : State) (h status cause : Nat) (record : Bool) : State :=
  match s.launchOf h with
  | none => s
  | some l =>
    if l.state = .retired then s
    else
      let home := s.foc
      let hs := s.lineage 9 h
      let s := hs.foldl State.clearLaunch s
      let s := hs.foldl (fun s k => match s.launchOf k with
        | none => s
        | some l =>
          let st := if k = h then (status, cause) else (2, 0)
          if record then s.retireAs l st.1 st.2
          else (s.setLaunch { l with state := .retired, status := st.1, cause := st.2, saved := [], groups := [] }).unqueue l) s
      s.focusOn home

/-- The granger ends the launch of the context in focus with a cause (R376, R380, R381). A context whose launch is not
known is freed alone. -/
def State.endLaunch (s : State) (cause : Nat) : State :=
  match s.myLaunch with
  | some l => s.tearDown l.handle 3 cause true
  | none => s.dropTask

/-! Records arrive (R341, R344). -/

/-- A launch as a dispatcher makes it of a record. -/
def newLaunch (handle home : Nat) (r : Record) (b : Image) (parent : Option Launch) (now asn root : Nat) : Launch :=
  { handle := handle, home := home, record := r, bale := b, state := .queued
    prio := match parent with
      | some p => min (recPrio r) p.prio
      | none => recPrio r
    arrival := now, aged := 0, parent := parent.map Launch.handle
    depth := match parent with
      | some p => p.depth + 1
      | none => 0
    fromHost := parent.isNone, hostValid := parent.isNone, status := 0, cause := 0, tplace := 0, tend := 0, dropped := 0
    preempt := 0, holds := [], spared := [], asn := asn, root := root, harea := 0, hcap := 0, tasks := [], saved := []
    groups := [] }

/-- The record that a die's dispatcher takes next: a host's, or one whose `launch` still waits for it. -/
def State.nextArrival (s : State) (d : Nat) : Option (Nat × Arrival) :=
  (s.dieAt d).arrivals.zipIdx.findSome? fun e => match e.1.issuer with
    | none => some (e.2, e.1)
    | some (c, a) => if (s.ctxAt c).status = .waiting (.launch a) then some (e.2, e.1) else none

/-- A launch passes CHECK: it is queued with its arrival stamp, and its handle goes to the host or to xd (R342, R344,
R364). -/
def State.acceptLaunch (s : State) (d : Nat) (a : Arrival) (l : Launch) : State :=
  let x := s.dieAt d
  let lq := if h : a.queue < 32 then x.lq.set a.queue (x.lq[a.queue] ++ [l.handle]) else x.lq
  let s := { (s.setDieAt d { x with lq := lq }) with launches := s.launches ++ [l] }
  match a.issuer with
  | none => s.respond d 0 l.handle 0
  | some (c, _) =>
    let t := s.focusOn c
    match t.ctx.ib.map fun ws => slotInstrD ws t.ctx.slot with
    | some (.launch xd _) =>
      let t := t.setX xd (word l.handle)
      State.commitSlot { t with ctx := { t.ctx with setter := t.whoDie 6 d } }
    | _ => s

/-- A launch fails CHECK for a reason (R341): LAUNCH-ERROR at the slot, or the host's record and response. -/
def State.refuseLaunch (s : State) (d : Nat) (a : Arrival) (l : Launch) (reason : Nat) : State :=
  match a.issuer with
  | none =>
    let s := { s with launches := s.launches ++ [l] }
    (s.retireAs l 1 reason).respond d 2 l.handle reason
  | some (c, _) => (s.focusOn c).stop causeLaunch 0 (word reason)

/-- R344: the dispatcher latches the record, allots a handle and checks it against its bale. -/
def execLaunchRecordArrival (d asn root : Nat) (s : State) : Out :=
  if 16 ≤ d then .fault .noSuchAgent
  else match s.nextArrival d with
    | none => .next s
    | some (k, a) =>
      let parent := a.issuer.bind fun i => (s.ctxAt i.1).task.bind fun t => s.launchOf t.launch
      let x := s.dieAt d
      let s := s.setDieAt d { x with serial := (x.serial + 1) % 2 ^ 32, arrivals := x.arrivals.eraseIdx k }
      let b := s.baleImage d (asn % 256) root (recBale a.record)
      let l := newLaunch (s.qdn d * 2 ^ 48 + x.serial) d a.record (b.getD []) parent (s.dtimeOf x).toNat (asn % 256) root
      let l := { l with fromHost := a.issuer.isNone, hostValid := a.issuer.isNone }
      match s.refusalOf a.record b a.issuer.isNone l.depth with
      | none => .next (s.acceptLaunch d a l)
      | some reason => .next (s.refuseLaunch d a l reason)

end Sys2Proof.Machine
end

