-- ==== Sys2Proof/Machine/Time.lean ====
section
/-! DEFINITION. The instructions of major 0x2d but `ckpt` (R363 to R369, R371 to R373), the returns of their waits, the
start of pinned tasks (R361), the discipline of die time (R359, R360), and the harvest area (R280). -/

namespace Sys2Proof.Machine

/-! `launch`, `lwait`, `ltear` (R364 to R366). -/

/-- The record of a `launch` enters the dispatcher of its die, with the issuing launch as its parent (R350). -/
def State.submit (s : State) (a : Word) (r : Record) : State :=
  let parent := (s.ctx.task.map Task.launch).getD 0
  let old := s.die.arrivals.filter fun e => e.issuer.map Prod.fst != some s.foc
  let e : Arrival := ⟨withParent r parent, recLq r % 32, some (s.foc, a)⟩
  { s with die := { s.die with arrivals := old ++ [e] } }

/-- R364: a release at package scope, then the wait for CHECK. -/
def execLaunch (_xd xa : XReg) (s : State) : Out :=
  let a := s.getX xa
  let rel : OrderPoint := ⟨.rel, .pkg, s.ctx.seq⟩
  if !s.accessReady false then .next s.holdReady
  else if !inLinear a ∨ 2097152 < a.toNat + 128 then .next (s.memTrap ⟨causeAccess, a, 4⟩ false)
  else if a.toNat % 64 ≠ 0 then .next (s.memTrap ⟨causeMisalign, a, 5⟩ false)
  else
    let ps := (List.range 128).map fun k => cribPlace s.foc.coreId (a.toNat + k)
    match s.readPoison ps with
    | some k => .next (s.poisonTrap a k)
    | none =>
      if !(s.readsDone rel && s.writesDone rel) then .next s.holdReady
      else
        let r := s.ownBytes ps
        let mine (e : Arrival) : Bool := e.issuer.map Prod.fst == some s.foc
        let t := { s with die := { s.die with arrivals := s.die.arrivals.filter fun e => !mine e } }
        if !t.queueRoom s.foc.die (recLq r % 32) then .next (s.holdFor (.launch a))
        else .next ((s.submit a r).nextSeq.waitFor (.launch a))

/-- The child of the launch of the task in focus that a handle names (R365, R366). -/
def State.childOf (s : State) (h : Word) : Option Launch :=
  (s.launchOf h.toNat).filter fun l => l.parent.isSome && l.parent == s.ctx.task.map Task.launch

/-- The completion word of a launch (R365). -/
def Launch.word_ (l : Launch) : Word := word (l.status + l.cause * 2 ^ 32)

/-- `lwait` returns on a retired launch: an acquire at quarter scope (R351). -/
def State.lwaitDone (s : State) (xd : XReg) (l : Launch) : State :=
  (s.setX xd l.word_).nextSeq.orderPoint .acq .qtr

/-- R365. -/
def execLwait (xd xa : XReg) (s : State) : Out :=
  match s.childOf (s.getX xa) with
  | none => .next (s.accessTrap 4)
  | some l => .next (if l.state = .retired then s.lwaitDone xd l else s.waitFor (.child (s.getX xa)))

/-- R365: `lwait` returns the completion word after the child retires. -/
def execLwaitReturn (c : CtxId) (s : State) : Out :=
  if !c.ok then .fault .noSuchAgent
  else
    let t := s.focusOn c
    match t.ctx.status, t.ctx.ib.map fun ws => slotInstrD ws t.ctx.slot with
    | .waiting (.child h), some (.lwait xd _) => match t.launchOf h.toNat with
      | some l => if l.state = .retired then .next (t.lwaitDone xd l).commitSlot else .next s
      | none => .next s
    | _, _ => .next s

/-- R366: a child, or in the granger any launch, is torn down. -/
def execLtear (xa : XReg) (s : State) : Out :=
  let h := s.getX xa
  if s.isCtrl then .next (s.tearDown h.toNat 2 0 true)
  else match s.childOf h with
    | none => .next (s.accessTrap 4)
    | some l => .next (s.tearDown l.handle 2 0 true)

/-! `yield`, `done`, `getc` (R367 to R369). -/

/-- R367: the turn ends; it does nothing in a pinned task (R358). -/
def execYield (s : State) : Out :=
  .next (if s.isPinned then s else { s with core := { s.core with turn := 64 } })

/-- The faults that entries of the context in focus wait on, as their traps tell them: the first of cq0 to cq3, ppq, mq,
sq and xiq (R368, R202). -/
def State.entryFault (s : State) : Option AsyncFault :=
  let copy (q : Fin 4) : Option AsyncFault :=
    ((s.myCopies q).find? fun o => o.state == .faulted && o.told).map fun o =>
      ⟨causeEngine, o.faddr, engineInfo o.slot q.val false o.cause o.reason o.opn⟩
  let pp := s.faultedPp.bind fun e => e.fault.map fun f => ⟨f.cause, f.addr, entryInfo e.slot 4 f⟩
  let mq := s.faultedMq.bind fun e => e.fault.map fun f => ⟨f.cause, f.addr, entryInfo e.slot 5 f⟩
  let sq := s.ctx.sq.findSome? fun r => (r.fault.filter fun f => f.2.2).map fun f =>
    ⟨causeEngine, s.requestTaddr r f.1, engineInfo r.slot 6 false f.1 f.2.1 r.opn⟩
  let add := s.stoppedBatch.bind fun k => ((s.dieAt k.1).batches[k.2]?).bind fun b => (b.fault.filter fun f => f.2.2).bind
    fun f => (sortBy OrderedAdd.le b.adds).head?.map fun a => s.adderFault a f.1 f.2.1 false
  let xi := match s.faultedX with
    | some (.op _ o) => if o.told then some ⟨causeEngine, word o.faddr, engineInfo o.slot 7 false o.cause o.reason o.opn⟩ else none
    | some (.entry e) => e.fault.map fun f => ⟨causeEngine, f.2.2, engineInfo e.slot 7 false f.1 f.2.1 e.opn⟩
    | none => none
  ([0, 1, 2, 3].findSome? copy).orElse fun _ => pp.orElse fun _ => mq.orElse fun _ => sq.orElse fun _ => add.orElse fun _ => xi

/-- The entries of the context in focus have completed, and its stores are performed; bindings lapse (R368). -/
def State.drained (s : State) : Bool :=
  [0, 1, 2, 3].all (fun q => (s.myCopies q).isEmpty) && s.core.ppq.all (fun e => e.who != s.foc) &&
  s.core.mq.all (fun e => e.who != s.foc) && s.ctx.sq.isEmpty && s.ctx.stores.isEmpty &&
  s.ctx.xiq.all fun e => match e.op with
    | .bind _ _ => true
    | .passed _ | .store _ _ _ _ | .reduce _ _ _ _ _ _ _ => false

/-- A task's place in its launch changes. -/
def State.setTask (s : State) (h index : Nat) (p : TaskPlace) : State :=
  match s.launchOf h with
  | none => s
  | some l => s.setLaunch { l with tasks := l.tasks.map fun t => if t.1 = index then (t.1, p) else t }

/-- The task in focus is retired (R368): its sets close, its buffer is discarded, its grants return (R409). -/
def State.endTask (s : State) : State :=
  let task := s.ctx.task
  let who := s.foc
  let i := slotInfo .done
  let s := ((s.endWait 0).charge i.cls i.amount).closeSet.endGroup
  let s := s.countBundle
  let s := s.returnGrants who.die fun g => g.owner == some who
  let s := match task with
    | some t => s.setTask t.launch t.index .done
    | none => s
  s.freeCtx

/-- R368. -/
def execDone (s : State) : Out :=
  match s.ctx.pend with
  | f :: rest => .next (State.stop { s with ctx := { s.ctx with pend := rest } } f.cause f.addr f.info)
  | [] => match s.entryFault with
    | some f => .next (s.stop f.cause f.addr f.info)
    | none =>
      if s.drained then
        let t := s.endTask
        .next { t with ctx := { t.ctx with slotEnd := .gone } }
      else .next (s.waitFor .doneDrain)

/-- R368: after the context's entries complete, `done` frees the context. -/
def execDoneDrainEnd (c : CtxId) (s : State) : Out :=
  if !c.ok then .fault .noSuchAgent
  else
    let t := s.focusOn c
    .next (if t.ctx.status = .waiting .doneDrain ∧ t.drained ∧ t.ctx.pend.isEmpty then t.endTask else s)

/-- The word of selector 7 (Table 14-7) with a core number. -/
def State.physWord (s : State) (core : Nat) : Word := word (s.foc.ctx + core * 4 + s.qdn s.foc.die * 512)

/-- R369, Table 14-7. No value of `getc` names the granger (R11): there the core field is free (log 62). -/
def execGetc (sel : Fin 8) (xd : XReg) (s : State) : Out :=
  let get (f : Task → Nat) : Nat := (s.ctx.task.map f).getD 0
  if sel = 7 then
    if s.foc.core = 96 then
      let n := s.draw
      .next (n.2.setX xd (s.physWord (Config.grangerCore n.1 % 96)))
    else .next (s.setX xd (s.physWord s.foc.core))
  else
    let v := if sel = 0 then get Task.t
    else if sel = 1 then get Task.c
    else if sel = 2 then get Task.k
    else if sel = 3 then get Task.d
    else if sel = 4 then get Task.stage
    else if sel = 5 then get Task.index
    else get Task.shape
    .next (s.setX xd (word v))

/-! Time (R371 to R373). -/

/-- Die time is ahead of, or equal to, a value (R359). -/
def State.reached (s : State) (v : Word) : Bool := (s.dtime - v).toNat < 2 ^ 63

/-- R371. -/
def execTwait (xa : XReg) (s : State) : Out :=
  .next (if s.reached (s.getX xa) then s else s.waitFor (.time (s.getX xa)))

/-- R371: `twait` returns once die time reaches its value. -/
def execTwaitReturn (c : CtxId) (s : State) : Out :=
  if !c.ok then .fault .noSuchAgent
  else
    let t := s.focusOn c
    match t.ctx.status with
    | .waiting (.time v) =>
      .next (if t.reached v then State.commitSlot { t with ctx := { t.ctx with setter := t.whoDie 7 c.die } } else s)
    | _ => .next s

/-- The sync word (R372). -/
def Die.sync (x : Die) : Word := word (min x.offMag 65535 + (if x.lock then 2 ^ 16 else 0) + if x.grand then 2 ^ 17 else 0)

/-- R372. -/
def execTget (sel : TgetSel) (xd : XReg) (s : State) : Out :=
  .next (s.setX xd (match sel with
    | .dtime => s.dtime
    | .frcnt => word s.frcnt
    | .frnum => word s.frnum
    | .frlen => word s.ctx.frlen
    | .sync => s.die.sync))

/-- R373: the frame of the granger's own context, from the next group. -/
def execFrset (xa xb : XReg) (s : State) : Out :=
  if !s.isCtrl then .next s.privTrap
  else .next { s with ctx := { s.ctx with defer := s.ctx.defer ++ [.frame (wordBits (s.getX xa) 22 0) (s.getX xb)] } }

/-! Time's own events (R359 to R361). -/

/-- R361: a pinned task that waits for EPOCH starts there; its launch's reserve becomes a grant (R404). -/
def execPinnedTaskStart (c : CtxId) (s : State) : Out :=
  if !c.ok then .fault .noSuchAgent
  else
    let t := s.focusOn c
    if t.ctx.status = .waiting .epoch ∧ !t.beforeEpoch then
      .next ((t.endWait 0).openGrants c.die ((t.ctx.task.map Task.launch).getD 0))
    else .next s

/-- How far a die's time is from the grandmaster's, in 2^-16 ns: the time derived from the cycle count (R360; log 12). -/
def State.offsetOf (s : State) (x : Die) : Nat := (x.timeOff + s.slewed x).natAbs

/-- A die's time is within 12 ns of the grandmaster's (R360). -/
def State.within12 (s : State) (x : Die) : Bool := s.offsetOf x ≤ 12 * 65536

/-- R360: a message of the time protocol sets the rate of a die's time, within 200 ppm (R359), and tells its offset, by
which the die is locked or not. -/
def execPtpSyncMessage (d : Nat) (m : PtpMsg) (s : State) : Out :=
  if 16 ≤ d then .fault .noSuchAgent
  else
    .next (s.overLinks (fun _ => [⟨16, d, 3⟩]) (fun _ => s) fun s =>
      let x := s.dieAt d
      s.setDieAt d { x with
        timeOff := x.timeOff + s.slewed x, timeMark := s.cycle, slew := max (-200) (min 200 m.rate)
        offMag := (s.offsetOf x + 65535) / 65536, grand := m.grand, lock := s.within12 x })

/-- R360: a die whose offset leaves 12 ns clears LOCK and goes on counting. -/
def execLockLoss (d : Nat) (s : State) : Out :=
  if 16 ≤ d then .fault .noSuchAgent
  else
    let x := s.dieAt d
    .next (s.setDieAt d { x with lock := false, offMag := max x.offMag 13 })

/-! The harvest area (R280). -/

/-- R280: the granger gives a launch's harvest area room for more held bytes, or, where it cannot (`n` 0), ends the
launch. -/
def execHarvestAreaExtended (c : CtxId) (n : Nat) (s : State) : Out :=
  if !c.ok then .fault .noSuchAgent
  else
    let t := s.focusOn c
    if t.ctx.status ≠ .waiting .harvestArea then .next s
    else if n = 0 then .next (t.endLaunch causeLaunch)
    else match t.myLaunch with
      | none => .next s
      | some l =>
        let h := some l.handle
        let t := t.setLaunch { l with hcap := l.hcap + n }
        .next (t.wakeAll (t.whoDie 7 c.die) fun k w =>
          w == .harvestArea && ((t.ctxAt k).task.map Task.launch) == h)

end Sys2Proof.Machine
end

