-- ==== Sys2Proof/Machine/Preempt.lean ====
section
/-! DEFINITION. Pre-emption (R347 to R349, R370): the checkpoint, the save of a context, the deadline of a request, and
resumption. -/

namespace Sys2Proof.Machine

/-! The checkpoint (R370). -/

/-- An entry of the context in focus in mq, ppq, sq or xiq is stopped by a fault (R204, R348). -/
def State.heldByFault (s : State) : Bool :=
  s.faultedMq.isSome || s.faultedPp.isSome || (s.ctx.sq.any fun r => r.fault.isSome) || s.faultedX.isSome

/-- A checkpoint of the task in focus is kept from pre-empting: in its handler (R380), by a faulted entry, or by tiles
still owed to a ring of its launch (R331). -/
def State.keptOn (s : State) : Bool :=
  s.ctx.inh || s.heldByFault || s.owesTiles s.foc.coreId ((s.ctx.task.map Task.rmask).getD 0)

/-- The live-range entry of a checkpoint of the task in focus. -/
def State.entryAt (s : State) (n : Nat) : Option LiveEntry := s.myLaunch.bind fun l => liveEntry l.bale n

/-- The context in focus leaves its `ckpt` behind and drains (R348): slots of the bundle after it are issued on
resumption. -/
def State.leaveCheckpoint (s : State) (n : Nat) : State :=
  let s := s.commitSlot
  match s.ctx.slotEnd with
  | .commit =>
    let kept := s.keptGroup none false
    let mask := BitVec.ofNat 4 s.doneMask
    let next := s.decided
    let s := if s.ctx.ib.isSome then
        let s := s.leaveGroup
        { s with ctx := { s.ctx with reissue := some (mask, next), saved := some kept } }
      else
        let g := (s.ctx.grpR, s.ctx.grpW)
        let s := s.leaveGroup
        { s with ctx := { s.ctx with grpR := g.1, grpW := g.2, defer := kept.dither } }
    { s with ctx := { s.ctx with
        ib := none, done := 0, slot := 0, xfer := none, loopStart := none, status := .saving n, slotEnd := .gone } }
  | _ => s

/-- R370: without a request, or when kept from pre-empting, it commits and does nothing. -/
def execCkpt (n : Fin 65536) (s : State) : Out :=
  match s.entryAt n.val with
  | none => .next (s.accessTrap 4)
  | some _ => .next (if s.ctx.preq.isNone || s.keptOn then s else s.leaveCheckpoint n.val)

/-! What is saved (R348). -/

/-- The context as a live-range entry and the state always saved keep it: everything else is as at a task's start (R349,
R75). -/
def Ctx.kept (x : Ctx) (e : LiveEntry) : Ctx :=
  let z := Ctx.init 0 false
  let other (k : Nat) : Bool := e.other.testBit k
  { z with
    x := Vector.ofFn fun n => if e.x.testBit n.val then x.x[n] else 0
    q := Vector.ofFn fun n => if e.q.testBit n.val then x.q[n] else n.val == 0
    v := Vector.ofFn fun n => if e.v.testBit n.val then x.v[n] else 0
    vtag := Vector.ofFn fun n => if e.v.testBit n.val then x.vtag[n] else 0
    m := Vector.ofFn fun n => if e.m.testBit n.val then x.m[n] else z.m[n]
    w := Vector.ofFn fun n => if e.w.testBit n.val then x.w[n] else 0
    wpend := x.wpend.filter fun p => e.w.testBit p.1.val
    cb := if other 0 then x.cb else z.cb
    pk := if other 1 then x.pk else z.pk
    sh := if other 2 then x.sh else z.sh
    ht := if other 3 then x.ht else z.ht
    lv := if other 4 then x.lv else z.lv
    pw := x.pw, cstat := x.cstat, cview := x.cview, pp := x.pp, phase := x.phase, dstep := x.dstep, defer := x.defer
    pc := x.pc, tvec := x.tvec, pend := x.pend, reissue := x.reissue, saved := x.saved, grpR := x.grpR, grpW := x.grpW
    from_ := x.from_, bundles := x.bundles, ecnt := x.ecnt, echg := x.echg, eput := x.eput, task := x.task, seq := x.seq, points := x.points
    xiq := x.xiq, ordSeq := x.ordSeq, opn := x.opn, lastOp := x.lastOp, joins := x.joins, arrived := x.arrived
    hbuf := x.hbuf, haddr := x.haddr }

/-- The bytes that are not 0, and the poisoned words, of `n` bytes at a place, by their offset in the range. -/
def State.saveBytes (s : State) (base off n : Nat) : SavedBytes :=
  let bs := (Mem.slice s.mem (base + off) n).zipIdx
  { cells := (bs.filter fun b => b.1 != 0).map fun b => (off + b.2, b.1)
    poison := (s.poison.filter fun p => within (base + off) n p).map (· - base) }

/-- Two saved ranges together. -/
def SavedBytes.join (a b : SavedBytes) : SavedBytes := ⟨a.cells ++ b.cells, a.poison ++ b.poison⟩

/-- The side-bank records of a ring's slots, as byte offset and length (R189). -/
def Ring.recordSpan (r : Ring) : Nat × Nat := (16 * r.sbase, 16 * roleRecords r.role * r.nslot)

/-- The numbers of a mask of 16. -/
def maskList (m : Nat) : List Nat := (List.range 16).filter m.testBit

/-- The copy operations of the context in focus, with their queues (R262). -/
def State.copyOps (s : State) : List (Nat × CopyOp) :=
  (List.finRange 4).flatMap fun q => (s.myCopies q).map fun o => (q.val, o)

/-- The task in focus as it is saved (R348). -/
def State.saveTask (s : State) (l : Launch) (t : Task) (e : LiveEntry) : SavedTask :=
  let p := s.foc.coreId
  let ring (n : Nat) : Ring := s.core.rings.getD n Ring.blank
  let records (n : Nat) : SavedBytes := s.saveBytes (sidePlace p 0) (ring n).recordSpan.1 (ring n).recordSpan.2
  { index := t.index, die := p.die, ctx := s.ctx.kept e, ops := s.copyOps
    writes := (s.flight.filter fun w => w.writer == some s.foc).map Flight.id
    crib := (e.spans l.bale).foldl (fun b r => b.join (s.saveBytes (cribPlace p 0) r.1 r.2)) ⟨[], []⟩
    tiles := (maskList (e.tiles &&& t.amask)).map fun k =>
      (k, s.core.tileL.getD k 0, s.saveBytes (tilePlace p k) 0 32768)
    rings := (maskList (e.rings &&& t.rmask)).map fun n => (n, ring n, records n)
    recs := (maskList t.rmask).map fun n => (ring n).recordSpan }

/-- The context in focus has drained for its save: matrix, post-processing, Square and issue-queue entries, loads and
stores (R348, 1 and 2), and the checked elements of its copy operations, which stop at a unit boundary (R255, R262). -/
def State.quiet (s : State) : Bool :=
  s.core.ppq.all (fun e => e.who != s.foc) && s.core.mq.all (fun e => e.who != s.foc) && s.ctx.sq.isEmpty &&
  s.core.cq.all (fun (q : List CopyOp) => q.all fun o => o.who != s.foc || o.ahead.isEmpty) &&
  s.ctx.stores.isEmpty && s.ctx.loads.isEmpty && s.ctx.xiq.all fun e => match e.op with
    | .bind _ _ | .passed _ => true
    | .store _ _ _ _ | .reduce _ _ _ _ _ _ _ => false

/-- The task in focus is saved and its context freed (R348, 3 to 7). -/
def State.saveCtx (s : State) (l : Launch) (t : Task) (e : LiveEntry) : State :=
  let s := s.closeSet
  let who := s.foc
  let k := s.saveTask l t e
  let s := s.copyOps.foldl (fun s o => s.endCopyWait o.2 4) s
  let s := { s with core := { s.core with cq := s.core.cq.map fun (q : List CopyOp) => q.filter fun o => o.who != who } }
  let s := s.returnGrants who.die fun g => g.owner == some who
  let tasks := l.tasks.map fun e => if e.1 = t.index then (e.1, TaskPlace.saved) else e
  (s.setLaunch { l with tasks := tasks, saved := l.saved ++ [k], preempt := l.preempt + 1 }).freeCtx

/-- R348: after the drains a pre-empted task's state is saved and its context freed. A fault found on the way keeps it on
its core, with the request pending. -/
def execContextSave (c : CtxId) (s : State) : Out :=
  if !c.ok then .fault .noSuchAgent
  else
    let t := s.focusOn c
    match t.ctx.status with
    | .saving n => match t.myLaunch, t.ctx.task, t.entryAt n with
      | some l, some k, some e =>
        if t.heldByFault then .next { t with ctx := { t.ctx with status := .ready } }
        else .next (if t.quiet then t.saveCtx l k e else s)
      | _, _, _ => .next s
    | _ => .next s

/-- R347: a request unmet at its deadline is withdrawn; its launch chooses other victims. -/
def execPreemptDeadline (c : CtxId) (s : State) : Out :=
  if !c.ok then .fault .noSuchAgent
  else
    let x := s.ctxAt c
    let saving : Bool := match x.status with
      | .saving _ => true
      | _ => false
    match x.preq, x.task with
    | some (h, deadline), some t =>
      if deadline ≤ s.cycle ∧ !saving then
        let s := s.setCtxAt c { x with preq := none }
        match s.launchOf h with
        | some l => .next (s.setLaunch { l with spared := l.spared ++ [(t.launch, t.index)] })
        | none => .next s
      else .next s
    | _, _ => .next s

/-! Resumption (R349). -/

/-- Puts saved bytes and poison back at a place. -/
def State.putSaved (s : State) (base : Nat) (b : SavedBytes) : State :=
  { s with mem := Mem.setAll s.mem (b.cells.map fun c => (base + c.1, c.2))
           poison := (s.poison ++ b.poison.map (base + ·)).eraseDups }

/-- Zeroes bytes of a memory that no other die sees. -/
def State.zeroBytes (s : State) (a n : Nat) : State := s.putAcc a (List.replicate n 0)

/-- Other tasks of a launch on the core of a context. -/
def State.siblings (s : State) (h : Nat) (c : CtxId) : List Task :=
  [0, 1, 2, 3].filterMap fun k =>
    if k = c.ctx then none
    else (s.ctxAt (c.coreId.ctxId k)).task.filter fun t => t.launch == h

/-- The ramp slots that a resumption draws, in mW (R404). -/
def Launch.resumeStep (l : Launch) : Nat := (l.step + recShare l.record - 1) / recShare l.record

/-- A saved task can be resumed in a context (R349): free, on its die, with its launch's items to be had there, no launch
of higher priority waiting for the die, and the pool covering its share (R404). -/
def State.mayResume (s : State) (l : Launch) (k : SavedTask) (c : CtxId) : Bool :=
  let cqm := (k.ctx.task.map Task.cqm).getD 0
  l.state == .running && k.die == c.die && c.core < 96 && s.ctxOpen [] c && s.coreOpens [] l c.coreId &&
  (s.siblings l.handle c).all (fun t => t.cqm &&& cqm == 0) &&
  !(s.launches.any fun o => o.state == .queued && l.prio < o.prio && (s.launchDies o).contains c.die) &&
  mwUnits l.resumeStep ≤ (s.pkgOf c.die).pool

/-- A side-bank record owns a byte of a launch's crib range at some element width (R90). -/
def Launch.ownsRecord (l : Launch) (n : Nat) : Bool :=
  [4, 8, 16, 32].any fun b => recCribLo l.record * 4096 < 32 * b * (n + 1) && 32 * b * n < recCribHi l.record * 4096

/-- The side-bank records of a launch's crib range on the core in focus read 0, but those that another launch there owns too
(R349; log 67). -/
def State.clearRecords (s : State) (l : Launch) : State :=
  let p := s.foc.coreId
  let others := s.launches.filter fun o => o.handle != l.handle && [0, 1, 2, 3].any fun k =>
    (s.ctxAt (p.ctxId k)).task.any fun t => t.launch == o.handle
  let gone (a : Nat) : Bool :=
    let n := (a - sidePlace p 0) / 16
    within (sidePlace p 0) 262144 a && l.ownsRecord n && !(others.any fun o => o.ownsRecord n)
  { s with mem := s.mem.filter fun c => !gone c.1, poison := s.poison.filter fun a => !gone a }

/-- The shared items of a launch on the core in focus return as a task saved them; what it did not list is as at
placement (R349). -/
def State.restoreShared (s : State) (l : Launch) (k : SavedTask) : State :=
  let p := s.foc.coreId
  let lo := recCribLo l.record * 4096
  let s := (s.zeroBytes (cribPlace p lo) (recCribHi l.record * 4096 - lo)).clearRecords l
  let s := s.putSaved (cribPlace p 0) k.crib
  let s := s.clearTiles (recAmask l.record)
  let s := k.tiles.foldl (fun s t => (s.putSaved (tilePlace p t.1) t.2.2).setLevels [t.1] t.2.1) s
  let s := s.placeRings (recRmask l.record) fun n => (k.rings.lookup n.val).map Prod.fst
  let s := k.recs.foldl (fun s r => s.zeroBytes (sidePlace p r.1) r.2) s
  k.rings.foldl (fun s r => s.putSaved (sidePlace p 0) r.2.2) s

/-- A saved copy operation as it goes on in a context: on another core it has what the saved items keep of its crib and
its ring (R262, R349). -/
def CopyOp.resumed (o : CopyOp) (c : CtxId) (rings : List Nat) (now : Nat) : CopyOp :=
  let stays := o.who.coreId == c.coreId
  { o with
    who := c, since := now
    reserved := if rings.contains o.ring.val then o.reserved else none
    old := if stays then o.old else o.old.filter fun e => placeLevel e.1 != 0
    won := if stays then o.won else o.won.filter fun e => placeLevel e.1 != 0 }

/-- A saved task goes on in the context in focus (R349). -/
def State.restore (s : State) (l : Launch) (k : SavedTask) : State :=
  let c := s.foc
  let alone := (s.siblings l.handle c).isEmpty
  let s := if alone then s.restoreShared l k else s
  let rings (o : CopyOp) : List Nat :=
    if alone then k.rings.map Prod.fst else if o.who.coreId == c.coreId then List.range 16 else []
  let s := k.ops.foldl (fun s o =>
    { s with core := { s.core with cq := s.core.cq.mapIdx fun q e =>
        if q = o.1 then e ++ [o.2.resumed c (rings o.2) s.cycle] else e } }) s
  let cstat := (k.ctx.cstat &&& ~~~(0xc0000 : Word)) ||| word (c.ctx % 4 * 262144)
  let writer (w : Flight) : Flight := if k.writes.contains w.id then { w with writer := some c } else w
  { s with
    ctx := { k.ctx with
      cstat := cstat, obk := s.ctx.obk, owa := s.ctx.owa, lastWait := s.ctx.lastWait, status := .restoring }
    flight := s.flight.map writer }

/-- R349: the dispatcher restores a pre-empted task on a suitable core of its die; its share of STEP is a grant (R404).
The task is restoring until a second turn of the dispatcher readies it (R354). -/
def execTaskResume (h t : Nat) (c : CtxId) (s : State) : Out :=
  if !c.ok then .fault .noSuchAgent
  else if (s.ctxAt c).status = .restoring ∧ (s.ctxAt c).isTask h t then
    .next (s.atCtx c fun s => { s with ctx := { s.ctx with status := .ready } })
  else match (s.launchOf h).bind fun l => (l.saved.find? fun k => k.index == t).map fun k => (l, k) with
    | none => .next s
    | some (l, k) =>
      if s.mayResume l k c then
        let s := (s.focusOn c).restore l k
        let tasks := l.tasks.map fun e => if e.1 = t then (e.1, TaskPlace.on c) else e
        let s := s.setLaunch { l with tasks := tasks, saved := l.saved.filter fun e => e.index != t }
        .next (s.drawSlots c.die h (mwUnits l.resumeStep) false)
      else .next s

end Sys2Proof.Machine
end

