-- ==== Sys2Proof/Machine/System.lean ====
section
/-! DEFINITION. System registers, traps by instruction and resumption (R375 to R388): `trap`, `brk`, `eret`, `sysrd`,
`syswr`, `tlbinv`, what the granger does to a context through `gcmd`, and the register writes that have a row of their
own. -/

namespace Sys2Proof.Machine

/-! Values. -/

/-- Units of power as mW, rounded down (R401). -/
def unitsMw (n : Nat) : Nat := n / 194560

/-- `gest` (Table 16-2). -/
def State.gest (s : State) : Word :=
  let p (d : Nat) : Nat := (s.dieAt d).pLast
  let d := 2 * (s.foc.die / 2)
  word (unitsMw (p d + p (d + 1)) % 2 ^ 32 + unitsMw s.die.pLast % 2 ^ 32 * 2 ^ 32)

/-- `gramp` (Table 16-3). -/
def Package.gramp (p : Package) : Word := word (p.rate + p.burst * 2 ^ 16)

/-- `tstat` (Table 15-2). -/
def Ctx.tstat (x : Ctx) : Word := word (x.inh.toNat + (!x.pend.isEmpty).toNat * 2 + x.fwd.toNat * 4)

/-- A register below 0x100 as the agents in focus have it (Tables 15-1, 16-2, 17-1); none for a number that names no
register (R377, R414, R420). -/
def State.getSys (s : State) (n : Nat) : Option Word :=
  let c := s.ctx
  let p := s.pkgOf s.foc.die
  if n = 0x000 then some c.cstat
  else if n = 0x001 then some c.cview
  else if n = 0x002 then some c.tstat
  else if n = 0x003 then some c.tvec
  else if n = 0x004 then some c.tscr[0]
  else if n = 0x005 then some c.tscr[1]
  else if n = 0x008 then some c.trap.cause
  else if n = 0x009 then some c.trap.bundle
  else if n = 0x00a then some c.trap.slot
  else if n = 0x00b then some c.trap.done
  else if n = 0x00c then some c.trap.addr
  else if n = 0x00d then some c.trap.info
  else if n = 0x00e then some c.trap.next
  else if n = 0x040 then some (word c.ecnt)
  else if n = 0x041 then some (word (s.eidleOf s.die s.core))
  else if n = 0x042 then some (word s.core.ebal)
  else if n = 0x043 then some (word s.core.bcyc)
  else if n = 0x044 then some s.gest
  else if n = 0x045 then some (s.gslotOf s.foc.die)
  else if n = 0x046 then some (s.gstatOf s.foc.die)
  else if n = 0x048 then some (word s.die.estat)
  else if n = 0x049 then some p.gramp
  else if n = 0x04a then some (word p.pmax)
  else if n = 0x04b then some (word s.die.guncore)
  else if n = 0x050 then some (BitVec.ofInt 64 (s.cycle - s.core.ocycBase))
  else if n = 0x051 then some s.core.obnd
  else if n = 0x052 then some s.core.omrg
  else if n = 0x053 then some s.core.ospl
  else if n = 0x054 then some s.core.otrm
  else if n = 0x055 then some s.core.oskr
  else if n = 0x056 then some s.core.orst
  else if n = 0x057 then some s.core.oqst
  else if n = 0x058 then some s.core.othr
  else if n = 0x059 then some s.core.otag
  else if n = 0x060 then some s.core.otctl
  else if n = 0x064 then some c.obk[0]
  else if n = 0x065 then some c.obk[1]
  else if n = 0x066 then some c.owa[0]
  else if n = 0x067 then some c.owa[1]
  else if n = 0x068 then some (word s.die.owmin)
  else if n = 0x06a then some s.die.otring
  else if n = 0x06b then some s.die.owring
  else if n = 0x06c then some (word s.die.ottail)
  else if n = 0x06d then some (word s.die.owtail)
  else none

/-- The granger's own registers (Table 15-1); `gcmd` reads 0 (R376). -/
def State.getGranger (s : State) (n : Nat) : Option Word :=
  if n = 0x100 then some s.die.gsel
  else if n = 0x101 then some 0
  else if n = 0x102 then some (word s.die.gage)
  else if n = 0x103 then some (word s.die.gdead)
  else if n = 0x104 then some s.die.gqdn
  else if n = 0x105 then some s.die.gecc
  else none

/-- The number belongs to the controller (Table 15-1). -/
def grangerReg (n : Nat) : Bool := (0x100 ≤ n && n ≤ 0x105) || (0x200 ≤ n && n ≤ 0x2ff)

/-- The context that `gsel` selects (R376). -/
def State.selected (s : State) : CtxId := ⟨s.foc.die, wordBits s.die.gsel 8 2, wordBits s.die.gsel 1 0⟩

/-- A register of the context in focus as its group found it (R6, R23). -/
def State.readSys (s : State) (n : Nat) : Option Word :=
  let g := s.ctx.found
  State.getSys { s with ctx := { s.ctx with cstat := g.cstat, ecnt := g.ecnt } } n

/-- What `sysrd` returns: a register of the context in focus, of the granger, or of the selected context. -/
def State.sysValue (s : State) (n : Nat) : Option Word :=
  if n < 0x100 then s.readSys n
  else if n < 0x200 then s.getGranger n
  else if n < 0x300 then
    if s.selected.ok then (s.focusOn s.selected).getSys (n - 0x200) else none
  else none

/-- R387; a read of `ottail` or `owtail` acquires at die scope (R424, R428). -/
def execSysrd (xd : XReg) (srn : Fin 1024) (s : State) : Out :=
  if grangerReg srn.val ∧ !s.isCtrl then .next s.privTrap
  else match s.sysValue srn.val with
    | none => .next (s.accessTrap 4)
    | some v =>
      let t := s.setX xd v
      .next (if srn.val % 256 = 0x6c ∨ srn.val % 256 = 0x6d then t.nextSeq.orderPoint .acq .die else t)

/-! Writes. -/

/-- Registers that no privilege writes: they ignore it (R4, R387). -/
def readOnlyReg (n : Nat) : Bool := n == 0x002 || n == 0x044 || n == 0x045 || n == 0x06c || n == 0x06d

/-- Registers of the trap record (Table 15-1). -/
def trapReg (n : Nat) : Bool := 0x008 ≤ n && n ≤ 0x00e

/-- A task writes the register (Tables 15-1, 16-2, 17-1). -/
def taskReg (n : Nat) : Bool := n == 0x000 || n == 0x001 || n == 0x004 || n == 0x005 || trapReg n

/-- A value that its register does not take: GRAN 5 to 7 (R87), none of the reason codes; RATE, BURST or PMAX out of range
(R414), reason 4. -/
def State.refusesValue (s : State) (n : Nat) (v : Word) : Option Nat :=
  if n = 0x001 ∧ 5 ≤ wordBits v 19 17 then some 0
  else if s.foc.die % 2 = 1 then none
  else if n = 0x049 ∧ (rateOf v < 16 ∨ 480 < rateOf v ∨ burstOf v = 0) then some 4
  else if n = 0x04a ∧ wordBits v 11 0 < 100 then some 4
  else none

/-- A write by `syswr`: flags of cstat clear at once, so that one raised after it stays; the rest is seen from the next
group (R377). -/
def State.writeLater (s : State) (n : Nat) (v : Word) : State :=
  let cstat := if n = 0x000 then clearFlags s.ctx.cstat v else s.ctx.cstat
  { s with ctx := { s.ctx with cstat := cstat, defer := s.ctx.defer ++ [.sys n v] } }

/-- A write of a register of the selected context. -/
def State.writeSelected (s : State) (n : Nat) (v : Word) : State :=
  s.atCtx s.selected fun t =>
    let cstat := if n = 0x000 then clearFlags t.ctx.cstat v else t.ctx.cstat
    State.putSys { t with ctx := { t.ctx with cstat := cstat } } n v

/-! What the granger does to a trapped context (R376, R381). -/

/-- A field of `gecc` counts one more; it saturates (Table 15-1). -/
def countErr (gecc : Word) (hi lo : Nat) : Word :=
  word (putBits gecc.toNat hi lo (min (wordBits gecc hi lo + 1) (2 ^ (hi + 1 - lo) - 1)))

/-- The granger adds an ECC-UNCORRECTABLE or an ARRAY-CHECK that it services to `gecc` (R381; log 59). -/
def State.noteEcc (s : State) : State :=
  if s.ctx.trap.cause = word causeEcc ∨ s.ctx.trap.cause = word causeArrayCheck then
    { s with die := { s.die with gecc := countErr s.die.gecc 47 32 } }
  else s

/-- The context in focus is trapped, not the granger's own (R376). -/
def State.isTrapped (s : State) : Bool := s.ctx.status == .trapped && !s.isCtrl

/-- FORWARD: the trap of the context in focus is delivered to its task's handler; without one it ends the launch (R380,
R381). -/
def State.forward (s : State) : State :=
  let s := s.noteEcc
  if s.ctx.tvec ≠ 0 ∧ s.ctx.inh = false then
    { s with ctx := { s.ctx with fwd := true, inh := true, pc := s.ctx.tvec, status := .ready } }
  else State.endLaunch { s with ctx := { s.ctx with fwd := true } } (wordBits s.ctx.trap.cause 7 0)

/-- A command to a context (R376). -/
def State.command (s : State) (c : CtxId) (cmd cause : Nat) : State :=
  s.atCtx c fun t =>
    if !t.isTrapped then t
    else if cmd = 1 then t.resume
    else if cmd = 2 then t.noteEcc.endLaunch cause
    else if cmd = 3 then t.forward
    else t

/-- R376. -/
def execGcmdResume (c : CtxId) (s : State) : Out := if !c.ok then .fault .noSuchAgent else .next (s.command c 1 0)
/-- R376. -/
def execGcmdEnd (c : CtxId) (cause : Nat) (s : State) : Out :=
  if !c.ok then .fault .noSuchAgent else .next (s.command c 2 (cause % 256))
/-- R376, R380. -/
def execGcmdForward (c : CtxId) (s : State) : Out := if !c.ok then .fault .noSuchAgent else .next (s.command c 3 0)

/-- R387 at task privilege (R375, R377). -/
def State.taskWrite (s : State) (n : Nat) (v : Word) : State :=
  if grangerReg n then s.privTrap
  else if (s.getSys n).isNone then s.accessTrap 4
  else if trapReg n && !s.ctx.inh then s.privTrap
  else if !taskReg n then s
  else match s.refusesValue n v with
    | some r => s.accessTrap r
    | none => s.writeLater n v

/-- R387 at controller privilege (R376). -/
def State.grangerWrite (s : State) (n : Nat) (v : Word) : State :=
  if n = 0x101 then (if s.selected.ok then s.command s.selected (wordBits v 7 0) (wordBits v 15 8) else s)
  else if (s.sysValue n).isNone then s.accessTrap 4
  else if n < 0x200 then
    if readOnlyReg n then s
    else match s.refusesValue n v with
      | some r => s.accessTrap r
      | none => s.writeLater n v
  else if readOnlyReg (n - 0x200) then s
  else match s.refusesValue (n - 0x200) v with
    | some r => s.accessTrap r
    | none => s.writeSelected (n - 0x200) v

/-- R387. -/
def execSyswr (srn : Fin 1024) (xa : XReg) (s : State) : Out :=
  let v := s.getX xa
  .next (if s.isCtrl then s.grangerWrite srn.val v else s.taskWrite srn.val v)

/-! Writes that have a row of their own. -/

/-- R87: GRAN 5 to 7 changes nothing, and raises ACCESS in the bundle that writes. -/
def execCviewWrite (c : CtxId) (v : Word) (s : State) : Out :=
  if !c.ok then .fault .noSuchAgent
  else
    let t := s.focusOn c
    if 5 ≤ wordBits v 19 17 then .next (if t.ctx.ib.isSome then t.accessTrap 0 else s)
    else .next (t.putSys 0x001 v)

/-- R410: a controller's write of an energy counter. -/
def execEcntWrite (c : CtxId) (v : Word) (s : State) : Out :=
  if !c.ok then .fault .noSuchAgent else .next (s.atCtx c fun t => t.putSys 0x040 v)

/-- Does something with a die in focus. -/
def State.onDie (s : State) (d : Nat) (f : State → State) : State := (f (s.focusDie d)).focusOn s.foc

/-- R403, R414. -/
def execGrampWrite (p : Nat) (v : Word) (s : State) : Out :=
  if 8 ≤ p then .fault .noSuchAgent
  else .next (s.onDie (2 * p) fun t => if (t.refusesValue 0x049 v).isSome then t else t.putSys 0x049 v)

/-- R421. -/
def execOtringWrite (d : Nat) (v : Word) (s : State) : Out :=
  if 16 ≤ d then .fault .noSuchAgent else .next (s.onDie d fun t => t.putSys 0x06a v)
/-- R421. -/
def execOwringWrite (d : Nat) (v : Word) (s : State) : Out :=
  if 16 ≤ d then .fault .noSuchAgent else .next (s.onDie d fun t => t.putSys 0x06b v)

/-! Traps by instruction, return, translations. -/

/-- R386. -/
def execTrap (code : Fin 1024) (s : State) : Out := .next (s.commitStop causeSoftware 0 (word code.val))
/-- R386. -/
def execBrk (code : Fin 1024) (s : State) : Out := .next (s.commitStop causeBreak 0 (word code.val))

/-- R383: the other slots of its bundle commit first, so it takes effect at the bundle's end (R25). -/
def execEret (s : State) : Out :=
  if !s.isCtrl ∧ s.ctx.inh = false then .next s.privTrap
  else .next { s with ctx := { s.ctx with eretPend := true } }

/-- An entry of a translation buffer that `tlbinv` removes (R388). -/
def TlbEntry.hit (e : TlbEntry) (kind : TlbKind) (a b : Word) : Bool :=
  match kind with
  | .page => e.asn == wordBits b 7 0 && e.base ≤ a.toNat && a.toNat < e.base + e.size
  | .as_ => e.asn == wordBits b 7 0
  | .all => true

/-- The dies that a REACH names (R388). -/
def State.reached_ (s : State) (r : TlbReach) : List Nat :=
  match r with
  | .die => [s.foc.die]
  | .pkg => [2 * (s.foc.die / 2), 2 * (s.foc.die / 2) + 1]
  | .qtr => s.diePositions

/-- R388: it waits for the releases before it, so that what follows sees the page tables they order. -/
def execTlbinv (kind : TlbKind) (reach : TlbReach) (xa xb : XReg) (s : State) : Out :=
  if !s.isCtrl then .next s.privTrap
  else if !s.accessReady true then .next s.holdReady
  else
    let a := s.getX xa
    let b := s.getX xb
    .next ((s.reached_ reach).foldl (fun s d =>
      let x := s.dieAt d
      s.setDieAt d { x with tlb := x.tlb.filter fun e => !e.hit kind a b }) s)

/-! Soft errors (R389, R390). -/

/-- The die whose protected memory holds a place, if any does. -/
def placeDie (p : Nat) : Option Nat :=
  if p < 2 ^ 53 then some (p / 2 ^ 38)
  else if p < 2 ^ 66 then none
  else if p < 2 ^ 67 then some ((p - 2 ^ 66) / 2 ^ 26)
  else if p < 2 ^ 68 then some ((p - 2 ^ 67) / 2 ^ 26)
  else if p < 2 ^ 69 then some ((p - 2 ^ 68) / 2 ^ 27)
  else if p < 2 ^ 70 then some ((p - 2 ^ 69) / 2 ^ 28)
  else if p < 2 ^ 71 then some ((p - 2 ^ 70) / 2 ^ 25)
  else if p < 2 ^ 72 then some ((p - 2 ^ 71) / 2 ^ 26)
  else none

/-- R389, R390: the scrub reads a word with a single-bit error, which is corrected and counted, or with a double-bit
error, which poisons it. -/
def execPatrolScrub (d place : Nat) (dbl : Bool) (s : State) : Out :=
  if 16 ≤ d then .fault .noSuchAgent
  else if placeDie place ≠ some d then .next s
  else
    let x := s.dieAt d
    let w := wordOf place
    let bad := dbl || s.poison.contains w
    let gecc := if bad then countErr x.gecc 47 32 else countErr x.gecc 31 0
    let s := s.setDieAt d { x with gecc := gecc }
    .next (if bad && !s.poison.contains w then { s with poison := s.poison ++ [w] } else s)

end Sys2Proof.Machine
end

