-- ==== Sys2Proof/Machine/Power.lean ====
section
/-! DEFINITION. The power and energy instructions (R415 to R418), and the governor's own events (R401, R403). -/

namespace Sys2Proof.Machine

/-- What `eget` reads (R416). -/
def State.egetValue (s : State) (sel : EgetSel) (xa : Word) : Word :=
  let reg (n : Nat) : Word := (s.readSys n).getD 0
  let start := s.die.gov0.getD (s.gslotOf s.foc.die, s.gstatOf s.foc.die, s.die.estat)
  match sel with
  | .ecnt => reg 0x040
  | .eidle => reg 0x041
  | .ebal => reg 0x042
  | .bcyc => reg 0x043
  | .gest => reg 0x044
  | .gslot => start.1
  | .gstat => start.2.1
  | .wgt => word (s.die.weights.getD (wordBits xa 3 0) 0)
  | .estat => word start.2.2

/-- R416. -/
def execEget (sel : EgetSel) (xd xa : XReg) (s : State) : Out := .next (s.setX xd (s.egetValue sel (s.getX xa)))

/-- R417: the weight holds for charges from the next cycle. -/
def execEset (cls : Fin 16) (xa : XReg) (s : State) : Out :=
  if !s.isCtrl then .next s.privTrap
  else .next { s with die := { s.die with reweigh := s.die.reweigh ++ [(cls, wordBits (s.getX xa) 23 0)] } }

/-- R418: as much of the request as the pool holds. -/
def execGvhintRsv (xd xa : XReg) (s : State) : Out :=
  let r := (s.pkgOf s.foc.die).take (mwUnits (s.getX xa).toNat)
  let t := if r.2 = 0 then s else (s.setPkgAt (s.foc.die / 2) r.1).addGrant s.foc.die (some s.foc) none r.2 false
  .next (t.setX xd (word (unitsMw r.2)))

/-- R418. -/
def execGvhintRel (s : State) : Out := .next (s.returnGrants s.foc.die fun g => g.owner == some s.foc)

/-- R401, R403, R405 to R407: the end of a package's tick, when its 64 cycles have passed. -/
def execGovernorTick (p : Nat) (s : State) : Out :=
  if 8 ≤ p then .fault .noSuchAgent else .next (if s.tickDue p then s.governorTick p else s)

/-- R403: grants 256 ticks old return what is left of them. -/
def execGrantExpiry (d : Nat) (s : State) : Out :=
  if 16 ≤ d then .fault .noSuchAgent else .next (if s.grantDue d then s.expireGrants d else s)

end Sys2Proof.Machine
end

