-- ==== Sys2Proof/Machine/Observe.lean ====
section
/-! DEFINITION. The observation instructions (R429 to R433): software trace records, memory tags and their history, the
wait log; and the samples of R423. -/

namespace Sys2Proof.Machine

/-- R430. -/
def execTrc (xa xb : XReg) (s : State) : Out :=
  .next (if s.traces 2 then s.trace 3 s.ctx.slot (wordBits (s.getX xb) 31 0) s.ctx.pc (s.getX xa) else s)

/-! Memory tags. -/

/-- The page of an address as the task in focus translates it, with the entries to hold (R96 to R98). -/
def State.pageOf (s : State) (a : Word) : Except MemFault (XPage × List TlbEntry) :=
  match s.translate s.foc.die s.foc.core s.space.1 s.space.2 (locOf a) with
  | .error r => .error (walkFault a r)
  | .ok r => .ok r

/-- The page that a `tagset` of `n` granules at an address may change, in the order of R82 (R431). -/
def State.tagPage (s : State) (a : Word) (n : Nat) : Except MemFault (XPage × List TlbEntry) :=
  if !keyOk a then .error ⟨causeAccess, a, 3⟩
  else if a.toNat % 32 ≠ 0 then .error ⟨causeMisalign, a, 5⟩
  else if locOf a < 2 ^ 32 then .error ⟨causeAccess, a, 4⟩
  else match s.pageOf a with
    | .error f => .error f
    | .ok (p, es) => match s.protect ⟨true, false, true, s.ctx.ctrl⟩ p with
      | some r => .error ⟨causeAccess, a, r⟩
      | none =>
        if 4096 < n ∨ p.base + p.size < locOf a + 32 * n ∨ natBits p.pte 4 4 = 0 then .error ⟨causeAccess, a, 15⟩
        else .ok (p, es)

/-- Word 1 of a history entry (R431). -/
def historyWord (new old who gran n : Nat) : Word :=
  word (n - 1 + gran % 2 ^ 28 * 2 ^ 12 + who * 2 ^ 40 + old * 2 ^ 56 + new * 2 ^ 60)

/-- The tags of granules of a page change: a write of each, performed like a store, that the task itself sees at once; and
the page's history gains its entry (R431; log 50). -/
def State.changeTags (s : State) (p : XPage) (a : Word) (n : Nat) : State :=
  let here := (s.pagePlace p (locOf a)).getD 0
  let page := (s.pagePlace p p.base).getD 0
  let w := historyWord (keyOf a) (s.ownTag here).toNat s.self ((locOf a - p.base) / 32) n
  let old := (s.hist.lookup page).getD []
  let cs := (List.range n).map fun k => (⟨s.ctx.seq, [(tagPlace (here + 32 * k), BitVec.ofNat 8 (keyOf a))]⟩ : PendingStore)
  { s with
    ctx := { s.ctx with stores := s.ctx.stores ++ cs }
    hist := assocSet s.hist page (((s.dtime, w) :: old).take 16) }.nextSeq

/-- R431. -/
def execTagset (xa xb : XReg) (s : State) : Out :=
  let a := s.getX xa
  let n := (s.getX xb).toNat
  let found := (s.tagPage a n).map fun r => (⟨[], r.2, [r.1]⟩ : Found)
  guarded s a found (locsOf a (32 * n)) true noFault fun s r =>
    .next (match r.pages with
      | [p] => if n = 0 then s else s.changeTags p a n
      | _ => s)

/-- The page that `tagget` reads, checked as a load's but for its tag (R432). -/
def State.readPage (s : State) (a : Word) : Except MemFault (XPage × List TlbEntry) :=
  if !keyOk a then .error ⟨causeAccess, a, 3⟩
  else match winOf (locOf a) with
    | none => .error ⟨causeAccess, a, 1⟩
    | some .mapped => match s.pageOf a with
      | .error f => .error f
      | .ok (p, es) => match s.protect ⟨false, false, true, s.ctx.ctrl⟩ p with
        | some r => .error ⟨causeAccess, a, r⟩
        | none => .ok (p, es)
    | some _ => .error ⟨causeAccess, a, 4⟩

/-- A `tagget` passes its checks and gives xd a value, is held, or traps. -/
def tagRead (s : State) (xd : XReg) (a : Word) (f : XPage → Word) : Out :=
  if !s.accessReady false then .next s.holdReady
  else match s.readPage a with
    | .error e => .next (s.memTrap e false)
    | .ok (p, es) => .next (((s.holdTlb s.foc.die es).setX xd (f p)).nextSeq)

/-- R432. -/
def execTaggetTag (xd xa : XReg) (s : State) : Out :=
  let a := s.getX xa
  tagRead s xd a fun p =>
    if natBits p.pte 4 4 = 0 then 0 else word (s.ownTag ((s.pagePlace p (locOf a)).getD 0)).toNat

/-- R432. -/
def execTaggetHist (xd xa xb : XReg) (s : State) : Out :=
  let b := s.getX xb
  tagRead s xd (s.getX xa) fun p =>
    let h := (s.hist.lookup ((s.pagePlace p p.base).getD 0)).getD []
    let e := h.getD (wordBits b 3 0) (0, 0)
    if b.getLsbD 4 then e.2 else e.1

/-- R433. -/
def execWlrd (sel : WlrdSel) (xd xa : XReg) (s : State) : Out :=
  .next (match sel with
    | .tail => (s.setX xd (word s.die.owtail)).nextSeq.orderPoint .acq .die
    | .ring => s.setX xd s.die.owring
    | .min => s.setX xd (word s.die.owmin)
    | .last => s.setX xd (s.ctx.lastWait.getD (wordBits (s.getX xa) 1 0) 0))

/-- R423: in the last cycle of a sample interval. -/
def execTraceSample (p : CoreId) (s : State) : Out :=
  if !p.ok then .fault .noSuchAgent else .next (if s.sampleDue p then s.sample p else s)

end Sys2Proof.Machine
end

