-- ==== Sys2Proof/Machine/Host.lean ====
section
/-! DEFINITION. The host's commands (R393 to R398, R400), reset and bring-up (R399, R400), and the heartbeat. -/

namespace Sys2Proof.Machine

/-- R393: the granger, while it runs, counts a millisecond. -/
def execHeartbeat (d : Nat) (s : State) : Out :=
  if 16 ≤ d then .fault .noSuchAgent
  else
    let x := s.dieAt d
    .next (if x.boot = 0 ∨ x.boot = 255 then s else s.setDieAt d { x with heartbeat := (x.heartbeat + 1) % 2 ^ 64 })

/-! The control window (R393). -/

/-- A byte of the status page of a die: BOOTSTATE, FAILCODE, HEARTBEAT, and the firmware identity (Table 15-8; log 60). -/
def Die.statusByte (x : Die) (k : Nat) : Byte :=
  (leBytes 4 x.boot ++ leBytes 4 x.failcode ++ leBytes 8 x.heartbeat ++ leBytes 4 x.bank ++ leBytes 4 x.version ++
    leBytes 4 x.svn ++ x.digest.take 48).getD k 0

/-- A byte of the pointers page of a die (Table 15-8). -/
def Die.pointerByte (x : Die) (k : Nat) : Byte :=
  let field (at_ v : Nat) : Option Byte := if at_ ≤ k ∧ k < at_ + 4 then (leBytes 4 v)[k - at_]? else none
  ((((field 0 x.ctail).orElse fun _ => field 0x40 x.chead).orElse fun _ => field 0x80 x.rtail).orElse fun _ =>
    field 0xc0 x.rhead).getD 0

/-- What the host reads at an offset of a die's control window (R393). -/
def State.windowByte (s : State) (d off : Nat) : Byte :=
  if off < 0x1000 then (s.dieAt d).statusByte off
  else if off < 0x2000 then (s.dieAt d).pointerByte (off - 0x1000)
  else if 0x10000 ≤ off ∧ off < 0x30000 then s.seenByte d (controlPlace d off)
  else 0

/-- A number of four bytes with one of them replaced. -/
def setByte (v k : Nat) (b : Byte) : Nat := putBits v (8 * k + 7) (8 * k) b.toNat

/-- The host writes a byte into a die's control window (R393): CTAIL, RHEAD or the command ring; any other is discarded. -/
def State.hostByte (s : State) (d off : Nat) (b : Byte) : State :=
  let x := s.dieAt d
  if 0x1000 ≤ off ∧ off < 0x1004 then s.setDieAt d { x with ctail := setByte x.ctail (off - 0x1000) b }
  else if 0x10c0 ≤ off ∧ off < 0x10c4 then s.setDieAt d { x with rhead := setByte x.rhead (off - 0x10c0) b }
  else if 0x10000 ≤ off ∧ off < 0x20000 then s.performWrite none 65535 0 d [(controlPlace d off, b)]
  else s

/-- The host writes bytes into a die's control window, which the link of the package's die 0 exposes (R393). -/
def State.hostStore (s : State) (d off : Nat) (bs : List Byte) : State :=
  if d < 2 * s.npkg then bs.zipIdx.foldl (fun s e => s.hostByte d (off + e.2) e.1) s else s

/-- The host writes bytes of its own memory: the last write of each in coherence order, which every die sees (Table
11-1). -/
def State.hostMemory (s : State) (a : Nat) (bs : List Byte) : State :=
  let cs := cellsAt (hostPlace a) bs
  let s := s.diePositions.foldl (fun s d => s.pullIn d cs) s
  let w : Flight := { id := s.fresh, writer := none, seq := 0, cells := cs, seen := s.diePositions, preds := [] }
  if bs.isEmpty || 2 ^ 48 < a + bs.length then s
  else { s with fresh := s.fresh + 1, poison := clearPoison s.poison cs, flight := s.flight ++ [w] }.settled

/-! Taking a command (R394). -/

/-- Commands in a die's ring: a CTAIL too far ahead counts as CHEAD + 256. -/
def Die.waiting (x : Die) : Nat := min (ptrLess x.ctail x.chead) 256

/-- A command names zero where it must, and an operation and a selector of Table 15-9. -/
def cmdOk (c : List Byte) : Bool :=
  cmdOpc c ≤ 9 && byteField c 2 2 == 0 && ((c.drop 0x20).take 0x60).all (· == 0) &&
  (cmdOpc c != 8 || [2, 3, 4, 16, 17, 18, 32, 33, 34].contains (cmdArg c 0))

/-- The granger performs the command in this state of bring-up (R394). -/
def mayPerform (boot opc : Nat) : Bool :=
  if boot = 0 then false
  else if boot = 255 then opc == 9
  else if boot < 7 then [0, 3, 8, 9].contains opc
  else true

/-- R394: the granger takes the next command of a die's ring; a malformed one is answered at once. -/
def execCommandRingPoll (d : Nat) (s : State) : Out :=
  if 16 ≤ d then .fault .noSuchAgent
  else
    let x := s.dieAt d
    if x.cmd.isSome ∨ x.waiting = 0 ∨ 1024 ≤ ptrLess x.rtail x.rhead then .next s
    else
      let c := s.seenBytes d ((List.range 256).map (commandPlace d x.chead + ·))
      if !mayPerform x.boot (cmdOpc c) then .next s
      else
        let t := s.setDieAt d { x with cmd := some c }
        .next (if cmdOk c then t else t.respond d 1 0 0)

/-- Performs the command taken on a die when it is the one of an operation and, for CONFIG, of a selector. -/
def onCommand (d opc : Nat) (sel : Option Nat) (s : State) (f : List Byte → State) : Out :=
  if 16 ≤ d then .fault .noSuchAgent
  else match (s.dieAt d).cmd with
    | none => .next s
    | some c => if cmdOpc c = opc ∧ sel.all (· == cmdArg c 0) then .next (f c) else .next s

/-- R394. -/
def execHostNop (d : Nat) (s : State) : Out := onCommand d 0 none s fun _ => s.respond d 0 0 0

/-- R342: the record enters its queue when there is room; the answer follows CHECK. -/
def execHostLaunch (d : Nat) (s : State) : Out :=
  onCommand d 1 none s fun c =>
    let x := s.dieAt d
    let q := cmdArg c 0 % 32
    if (x.arrivals.any fun a => a.issuer.isNone) || !s.queueRoom d q then s
    else s.setDieAt d { x with arrivals := x.arrivals ++ [⟨cmdRecord c, q, none⟩] }

/-- R352: a valid host launch is torn down. -/
def execHostTear (d : Nat) (s : State) : Out :=
  onCommand d 2 none s fun c => match s.launchOf (cmdArg c 0) with
    | some l => if l.fromHost && l.hostValid then (s.tearDown l.handle 2 0 true).respond d 0 0 0 else s.respond d 2 0 0
    | none => s.respond d 2 0 0

/-! CONFIG (Table 15-9). -/

/-- A register of a die takes a CONFIG value: a value that the register does not take is refused. -/
def State.configure (s : State) (d n : Nat) (c : List Byte) : State :=
  let v := word (cmdArg c 1)
  if ((s.focusDie d).refusesValue n v).isSome then s.respond d 2 0 0
  else (s.onDie d fun t => t.putSys n v).respond d 0 0 0

/-- R394, R343. -/
def execConfigGage (d : Nat) (s : State) : Out := onCommand d 8 (some 2) s fun c => s.configure d 0x102 c
/-- R394, R347. -/
def execConfigGdead (d : Nat) (s : State) : Out := onCommand d 8 (some 3) s fun c => s.configure d 0x103 c
/-- R399. -/
def execConfigGqdn (d : Nat) (s : State) : Out := onCommand d 8 (some 4) s fun c => s.configure d 0x104 c
/-- R414. -/
def execConfigGramp (d : Nat) (s : State) : Out := onCommand d 8 (some 16) s fun c => s.configure d 0x049 c
/-- R414. -/
def execConfigGpmax (d : Nat) (s : State) : Out := onCommand d 8 (some 17) s fun c => s.configure d 0x04a c
/-- R414. -/
def execConfigGuncore (d : Nat) (s : State) : Out := onCommand d 8 (some 18) s fun c => s.configure d 0x04b c
/-- R420, R421. -/
def execConfigOtring (d : Nat) (s : State) : Out := onCommand d 8 (some 32) s fun c => s.configure d 0x06a c
/-- R420, R421. -/
def execConfigOwring (d : Nat) (s : State) : Out := onCommand d 8 (some 33) s fun c => s.configure d 0x06b c
/-- R420. -/
def execConfigOwmin (d : Nat) (s : State) : Out := onCommand d 8 (some 34) s fun c => s.configure d 0x068 c

/-! Host memory. -/

/-- A range of bus addresses does not run past their end. -/
def hostRange (a n : Nat) : Bool := a + n ≤ 2 ^ 64

/-- The granger of a die writes host memory. -/
def State.hostWrite (s : State) (d a : Nat) (bs : List Byte) : State := s.unitWrite (s.whoDie 7 d) d (hostPlace a) bs

/-- The granger of a die reads host memory. -/
def State.hostRead (s : State) (d a n : Nat) : List Byte := s.seenBytes d ((List.range n).map (hostPlace a + ·))

/-! The summary (R395, Table 15-10). -/

/-- An entry whose layout the spec leaves open. -/
def openEntry (type size : Nat) (fields : List Nat) : List Byte :=
  (List.range size).map fun k => Config.summaryByte type k fields

/-- A section: its header and its entries. -/
def section_ (type size : Nat) (es : List (List Byte)) : List Byte :=
  leBytes 4 type ++ leBytes 4 size ++ leBytes 4 es.length ++ leBytes 4 0 ++ es.flatten

/-- Codes of launch and context states (Table 15-10). -/
def LaunchState.code : LaunchState → Nat
  | .check => 0
  | .queued => 1
  | .running => 2
  | .draining => 3
  | .retired => 4

def CtxStatus.code : CtxStatus → Nat
  | .free => 0
  | .ready => 1
  | .waiting _ => 2
  | .trapped => 3
  | .saving _ | .restoring => 4

/-- Launches of the dies of a package. -/
def State.launchEntries (s : State) (ds : List Nat) : List (List Byte) :=
  (s.launches.filter fun l => ds.contains l.home && l.state != .retired).map fun l =>
    let placed := (l.tasks.filter fun t => match t.2 with
      | .on _ => true
      | .saved | .done => false).length
    openEntry 1 64 [l.handle, l.state.code, l.prio, recDmask l.record, l.parent.getD 0, l.arrival, placed, l.preempt]

/-- Launch queues. -/
def State.queueEntries (s : State) (ds : List Nat) : List (List Byte) :=
  ds.flatMap fun d => (List.range 32).map fun q =>
    let l := (s.dieAt d).lq.getD q []
    openEntry 2 16 [d % 2, q, l.length, l.headD 0]

/-- Contexts of the cores of dies. -/
def ctxsOf (ds : List Nat) : List CtxId :=
  ds.flatMap fun d => (List.range 96).flatMap fun c => (List.range 4).map fun k => ⟨d, c, k⟩

/-- Contexts: a wait's object stands in its entry while it waits. -/
def State.ctxEntries (s : State) (ds : List Nat) : List (List Byte) :=
  (ctxsOf ds).map fun c =>
    let x := s.ctxAt c
    let obj := match x.status with
      | .waiting w => ((waitKind w).map fun k => k.2.toNat).getD 0
      | _ => 0
    openEntry 3 64 [c.die % 2, c.core, c.ctx, x.status.code, (x.task.map Task.launch).getD 0,
      (x.task.map Task.index).getD 0, x.pc.toNat, x.trap.cause.toNat, x.inh.toNat, obj]

/-- Operations of the queues of every context. -/
def State.opEntries (s : State) (ds : List Nat) : List (List Byte) :=
  (ctxsOf ds).flatMap fun c =>
    let t := s.focusOn c
    (List.finRange 8).flatMap fun q => (t.records q).map fun r =>
      openEntry 4 48 [c.die % 2, c.core, c.ctx, q.val, r.word_.toNat, r.bytes, r.faddr.toNat]

/-- Pending faults: the trap of a trapped context, and those that wait for delivery. -/
def State.faultEntries (s : State) (ds : List Nat) : List (List Byte) :=
  (ctxsOf ds).flatMap fun c =>
    let x := s.ctxAt c
    let one (cause addr info fwd : Nat) : List Byte := openEntry 5 48 [c.die % 2, c.core, c.ctx, cause, addr, info, fwd]
    (if x.status = .trapped then [one x.trap.cause.toNat x.trap.addr.toNat x.trap.info.toNat x.fwd.toNat] else []) ++
      x.pend.map fun f => one f.cause f.addr.toNat f.info.toNat 0

/-- The governor's words (R414). -/
def State.powerEntries (s : State) (ds : List Nat) : List (List Byte) :=
  ds.map fun d =>
    let t := s.focusDie d
    let p := s.pkgOf d
    [d % 2, t.gest.toNat, (s.gslotOf d).toNat, (s.gstatOf d).toNat, p.gramp.toNat, p.pmax].flatMap (leBytes 8)

/-- Counters (R422). -/
def State.counterEntries (s : State) (ds : List Nat) : List (List Byte) :=
  ds.flatMap fun d =>
    ((List.range 96).map fun c =>
      let t := s.focusCore ⟨d, c⟩
      leBytes 2 (d % 2) ++ leBytes 2 c ++ leBytes 4 0 ++
        (List.range 10).flatMap fun k => leBytes 8 ((t.getSys (0x050 + k)).getD 0).toNat) ++
    [leBytes 2 (d % 2) ++ leBytes 2 0xffff ++ leBytes 4 0 ++ leBytes 8 (s.dieAt d).gecc.toNat ++ List.replicate 72 0]

/-- Time of each die, with the frame number of a pinned task. -/
def State.timeEntries (s : State) (ds : List Nat) : List (List Byte) :=
  ds.map fun d =>
    let x := s.dieAt d
    let pinned := (ctxsOf [d]).find? fun c => (s.ctxAt c).task.isSome && pinOf (s.ctxAt c).cstat
    openEntry 8 32 [d % 2, (s.dtimeOf x).toNat, x.sync.toNat, (pinned.map fun c => (s.focusOn c).frnum).getD 0]

/-- Firmware. -/
def State.firmwareEntries (s : State) (ds : List Nat) : List (List Byte) :=
  ds.map fun d =>
    let x := s.dieAt d
    openEntry 9 128 [d % 2, x.bank, x.version, x.svn, leNat x.digest, leNat (Config.romMeasurement d).toList]

/-- The summary of a package's device as it stands. -/
def State.summary (s : State) (d : Nat) : List Byte :=
  let ds := [2 * (d / 2), 2 * (d / 2) + 1]
  let body := section_ 1 64 (s.launchEntries ds) ++ section_ 2 16 (s.queueEntries ds) ++ section_ 3 64 (s.ctxEntries ds) ++
    section_ 4 48 (s.opEntries ds) ++ section_ 5 48 (s.faultEntries ds) ++ section_ 6 48 (s.powerEntries ds) ++
    section_ 7 88 (s.counterEntries ds) ++ section_ 8 32 (s.timeEntries ds) ++ section_ 9 128 (s.firmwareEntries ds)
  let now := (s.dtimeOf (s.dieAt (2 * (d / 2)))).toNat
  leBytes 4 0x59534552 ++ leBytes 4 1 ++ leBytes 8 (64 + body.length) ++ leBytes 8 now ++ leBytes 8 now ++ leBytes 4 9 ++
    List.replicate 28 0 ++ body

/-- The other die of a package. -/
def otherDie (d : Nat) : Nat := if d % 2 = 0 then d + 1 else d - 1

/-- Nothing is left of the other die's commands but a RESYNC (R395). -/
def State.ringClear (s : State) (d : Nat) : Bool :=
  let x := s.dieAt d
  match x.cmd with
  | some c => cmdOpc c == 3
  | none => x.waiting == 0

/-- R395: after every earlier command of both rings, the state is sampled at once, and host handles end. -/
def execHostResync (d : Nat) (s : State) : Out :=
  onCommand d 3 none s fun c =>
    if !s.ringClear (otherDie d) then s
    else
      let bs := s.summary d
      let ds := [d, otherDie d]
      let ends (l : Launch) : Launch := if ds.contains l.home then { l with hostValid := false } else l
      let t := { s with launches := s.launches.map ends }
      if cmdArg c 1 < bs.length then t.respond d 5 bs.length 0
      else if !hostRange (cmdArg c 0) bs.length then t.respond d 4 0 0
      else (t.hostWrite d (cmdArg c 0) bs).respond d 0 bs.length 0

/-! Firmware (R396, R397). -/

/-- VERSION, SVN and BODYLEN of an image. -/
def imgVersion (f : List Byte) : Nat := byteField f 4 4
def imgSvn (f : List Byte) : Nat := byteField f 8 4
def imgBody (f : List Byte) : List Byte := (f.drop 512).take (byteField f 12 4)
/-- The image without anything after its body. -/
def imgWhole (f : List Byte) : List Byte := f.take (512 + byteField f 12 4)

/-- SHA-384 as a list of bytes. -/
def sha384 (bs : List Byte) : List Byte := (Config.sha384 bs).toList

/-- A package's ROM accepts an image (R396). -/
def Package.accepts (p : Package) (f : List Byte) : Bool :=
  let key := (f.drop 0x40).take 97
  let named := (List.range 4).any fun k => (p.keys[k]?).any (· == sha384 key) && !p.revoked.contains k
  byteField f 0 4 == 0x57464b5a && 512 + byteField f 12 4 ≤ f.length && named &&
    Config.ecdsaOk key (sha384 (f.take 0x180)) ((f.drop 0x180).take 96) &&
    (f.drop 0x10).take 48 == sha384 (imgBody f) && p.minSvn ≤ imgSvn f

/-- The bank that a die's running firmware did not come from. -/
def spareBank (x : Die) : Fin 2 := if x.bank = 0 then 1 else 0

/-- R397. -/
def execHostFwstage (d : Nat) (s : State) : Out :=
  onCommand d 4 none s fun c =>
    let x := s.dieAt d
    let p := s.pkgOf d
    if !hostRange (cmdArg c 0) (cmdArg c 1) then s.respond d 4 0 0
    else
      let f := s.hostRead d (cmdArg c 0) (cmdArg c 1)
      let ok := p.accepts f
      let b : Bank := if ok then ⟨imgWhole f, true⟩ else { p.banks[spareBank x] with valid := false }
      (s.setPkgAt (d / 2) { p with banks := p.banks.set (spareBank x) b }).respond d (if ok then 0 else 3) 0 0

/-- R397: refused when no valid image is staged. -/
def execHostFwact (d : Nat) (s : State) : Out :=
  onCommand d 5 none s fun c =>
    let x := s.dieAt d
    let p := s.pkgOf d
    if !(p.banks[spareBank x]).valid then s.respond d 2 0 0
    else
      let svn := if cmdArg c 0 % 2 = 1 then max p.minSvn x.svn else p.minSvn
      (s.setPkgAt (d / 2) { p with active := (spareBank x).val, minSvn := svn }).respond d 0 0 0

/-! Attestation (R398). -/

/-- The settings and fuses that a report digests. -/
def State.settings (s : State) (d : Nat) : List Nat :=
  let p := s.pkgOf d
  let die (e : Nat) : List Nat :=
    let x := s.dieAt e
    [x.gage, x.gdead, x.gqdn.toNat, x.guncore, x.otring.toNat, x.owring.toNat, x.owmin]
  die (2 * (d / 2)) ++ die (2 * (d / 2) + 1) ++ [p.rate, p.burst, p.pmax, p.minSvn] ++ p.keys.map leNat ++ p.revoked

/-- The report but for its signature. -/
def State.report (s : State) (d : Nat) (nonce : List Byte) : List Byte :=
  let e := 2 * (d / 2)
  let x := s.dieAt e
  let y := s.dieAt (e + 1)
  let digest (f : List Byte) : List Byte := (f ++ List.replicate 48 0).take 48
  leBytes 4 0x54544b5a ++ leBytes 4 1 ++ leBytes 8 (s.dtimeOf x).toNat ++ nonce ++
    sha384 (Config.identityKey (d / 2)).toList ++ (Config.romMeasurement e).toList ++ digest x.digest ++ digest y.digest ++
    leBytes 4 x.svn ++ leBytes 4 y.svn ++ sha384 (Config.settingsBytes (s.settings d)) ++ leBytes 8 0

/-- R398. -/
def execHostAttest (d : Nat) (s : State) : Out :=
  onCommand d 6 none s fun c =>
    if cmdArg c 2 < 416 then s.respond d 5 0 0
    else if !hostRange (cmdArg c 0) 48 || !hostRange (cmdArg c 1) 416 then s.respond d 4 0 0
    else
      let r := s.report d (s.hostRead d (cmdArg c 0) 48)
      let k := s.draw
      let sig := (Config.ecdsaSign (d / 2) k.1 (sha384 r)).toList
      (k.2.hostWrite d (cmdArg c 1) (r ++ sig)).respond d 0 416 0

/-- Table 15-9, CERT. -/
def execHostCert (d : Nat) (s : State) : Out :=
  onCommand d 7 none s fun c =>
    let bs := Config.certificate (d / 2)
    if cmdArg c 1 < bs.length then s.respond d 5 bs.length 0
    else if !hostRange (cmdArg c 0) bs.length then s.respond d 4 0 0
    else (s.hostWrite d (cmdArg c 0) bs).respond d 0 bs.length 0

/-! Reset and bring-up (R399, R400). -/

/-- A core whose engines are stopped (R400). -/
def Core.stopped (c : Core) : Core :=
  { c with mq := [], staged := [], ppq := [], cq := Vector.replicate 4 [], divBusy := [], held := false, used := []
           issued := false, own := [], turn := 0, dry := 0 }

/-- A die after a warm reset, before its first stage (R400): its dispatcher, engines and ring pointers are empty. -/
def Die.restarted (x : Die) : Die :=
  { x with lq := Vector.replicate 32 [], serial := 0, arrivals := [], batches := [], heldArr := [], harvesters := []
           xq := Vector.replicate 8 [], dead := [], paused := [], resends := [], lost := [], boot := 0, failcode := 0, ctail := 0, chead := 0
           rtail := 0, rhead := 0, cmd := none }

/-- A launch is in the dispatcher or on a core of a die. -/
def State.onPackage (s : State) (ds : List Nat) (l : Launch) : Bool :=
  l.state != .retired && (ds.contains l.home || (s.launchDies l).any ds.contains)

/-- The device of a package is reset with its memory, fuses and time kept (R400). -/
def State.warmReset (s : State) (d : Nat) : State :=
  let ds := [2 * (d / 2), 2 * (d / 2) + 1]
  let s := (s.launches.filter (s.onPackage ds)).foldl (fun s l => s.tearDown l.handle 2 0 false) s
  let s := { s with launches := s.launches.filter fun l => !ds.contains l.home }
  let s := (s.knownCores.filter fun p => ds.contains p.die).foldl (fun s p => s.setCoreAt p (s.coreAt p).stopped) s
  let fresh (s : State) (c : CtxId) : State :=
    let x := s.ctxAt c
    s.setCtxAt c { freshCtx c with obk := x.obk, owa := x.owa }
  let s := (s.knownCtxs.filter fun c => ds.contains c.die).foldl fresh s
  ds.foldl (fun s e => s.setDieAt e (s.dieAt e).restarted) s

/-- R400: the response is written before the reset begins. -/
def execHostReset (d : Nat) (s : State) : Out := onCommand d 9 none s fun _ => (s.respond d 0 0 0).warmReset d

/-- R399: the state after power-on; fuses, flash and what stands outside the packages remain. -/
def execPowerOnReset (s : State) : Out :=
  let keep (p : Package) : Package :=
    { Package.init with keys := p.keys, revoked := p.revoked, minSvn := p.minSvn, banks := p.banks, active := p.active }
  .next { State.reset with
    npkg := s.npkg, pkgs := s.pkgs.map fun e => (e.1, keep e.2), groups := s.groups
    mem := s.mem.filter fun c => 2 ^ 53 ≤ c.1 && c.1 < 2 ^ 66, fresh := s.fresh, agenda := s.agenda }

/-- The bank that a package's ROM boots from: the active one, else the other (R397). -/
def Package.bootBank (p : Package) : Option Nat :=
  [p.active, 1 - p.active].find? fun k => match p.banks[k]? with
    | some b => b.valid && p.accepts b.image
    | none => false

/-- A die reports FAILED at a stage (R399). -/
def Die.failed (x : Die) (stage : Nat) : Die := { x with boot := 255, failcode := stage }

/-- R399: a die ends a stage of its bring-up, or fails it. The first verifies firmware, the sixth waits for the quarter
die number and for lock. -/
def execBootStageAdvance (d : Nat) (ok : Bool) (s : State) : Out :=
  if 16 ≤ d then .fault .noSuchAgent
  else
    let x := s.dieAt d
    let p := s.pkgOf d
    if x.boot = 0 then
      match if ok then p.bootBank else none with
      | none => .next (s.setDieAt d (x.failed 1))
      | some k =>
        let f := ((p.banks[k]?).map Bank.image).getD []
        .next (s.setDieAt d { x with
          boot := 1, bank := k, version := imgVersion f, svn := imgSvn f, digest := sha384 f })
    else if 7 ≤ x.boot then .next s
    else if !ok then .next (s.setDieAt d (x.failed (x.boot + 1)))
    else if x.boot = 5 ∧ !(x.gqdn.getLsbD 4 && x.lock) then .next s
    else .next (s.setDieAt d { x with boot := x.boot + 1 })

/-- R399: during bring-up a fabric manager gives a die its quarter die number. -/
def execQuarterDieNumberMessage (d : Nat) (n : Fin 16) (s : State) : Out :=
  if 16 ≤ d then .fault .noSuchAgent
  else
    let x := s.dieAt d
    .next (if x.boot < 7 then s.setDieAt d { x with gqdn := word (16 + n.val) } else s)

end Sys2Proof.Machine
end

