-- ==== Sys2Proof/Machine/Approx.lean ====
section
/-! DEFINITION. Rational approximations of the functions of Table 5-7, by which the bounds of R133 are judged: dyadic
numbers of 400 significant bits, whose error lies far below the slack that the judgement allows (log 9). -/

namespace Sys2Proof.Machine

/-- A dyadic number m x 2^e. -/
structure Dy where
  m : Int
  e : Int
  deriving DecidableEq, Repr

namespace Dy

/-- Bits kept. -/
def prec : Nat := 400

/-- Cuts a number to the bits kept. -/
def cut (x : Dy) : Dy :=
  let n := Nat.log2 x.m.natAbs + 1
  if n ≤ prec then x else ⟨x.m / 2 ^ (n - prec), x.e + (n - prec : Nat)⟩

def ofInt (n : Int) : Dy := ⟨n, 0⟩
def neg (x : Dy) : Dy := ⟨-x.m, x.e⟩
def abs (x : Dy) : Dy := ⟨x.m.natAbs, x.e⟩
def scale (x : Dy) (k : Int) : Dy := ⟨x.m, x.e + k⟩

/-- The mantissa at a lower exponent. -/
def at_ (x : Dy) (e : Int) : Int := x.m * 2 ^ (x.e - e).toNat

/-- The sum; of two numbers far apart the smaller counts as 0. -/
def add (x y : Dy) : Dy :=
  if x.m = 0 then y
  else if y.m = 0 then x
  else
    let tx := x.e + Nat.log2 x.m.natAbs
    let ty := y.e + Nat.log2 y.m.natAbs
    if ty + 2 * prec < tx then x
    else if tx + 2 * prec < ty then y
    else
      let e := min x.e y.e
      cut ⟨x.at_ e + y.at_ e, e⟩

def sub (x y : Dy) : Dy := x.add y.neg
def mul (x y : Dy) : Dy := cut ⟨x.m * y.m, x.e + y.e⟩

/-- The quotient; 0 for a divisor 0. -/
def div (x y : Dy) : Dy :=
  let k := prec + Nat.log2 y.m.natAbs + 2
  cut ⟨x.m * 2 ^ k / y.m, x.e - y.e - k⟩

/-- x < y. -/
def lt (x y : Dy) : Bool := (x.sub y).m < 0

/-- The largest integer not above a number. -/
def floor (x : Dy) : Int := if 0 ≤ x.e then x.m * 2 ^ x.e.toNat else x.m / 2 ^ (-x.e).toNat

/-- The series Σ t_k with t_{k+1} = t_k x z x num(k) / den(k), n terms from a first one. -/
def series (z : Dy) (num den : Nat → Nat) : Nat → Nat → Dy → Dy
  | 0, _, _ => ⟨0, 0⟩
  | n + 1, k, t =>
    t.add (series z num den n (k + 1) (((t.mul z).mul (ofInt (num k))).div (ofInt (den k))))

def one : Dy := ofInt 1
def half : Dy := ⟨1, -1⟩

/-- 2 atanh z = 2 (z + z^3/3 + …), for |z| ≤ 1/3. -/
def atanh2 (z : Dy) : Dy :=
  let z2 := z.mul z
  ((List.range 130).foldl (fun (p : Dy × Dy) k => (p.1.add (p.2.div (ofInt ((2 * k + 1 : Nat) : Int))), p.2.mul z2)) (⟨0, 0⟩, z)).1.scale 1

/-- ln 2 = 2 atanh (1/3). -/
def ln2 : Dy := atanh2 (one.div (ofInt 3))

/-- atan of 1/n, for an integer n. -/
def atanInv (n : Nat) : Dy :=
  ((List.range 140).foldl (fun (p : Dy × Dy) k =>
    let q := p.2.div (ofInt ((2 * k + 1 : Nat) : Int))
    (if k % 2 = 0 then p.1.add q else p.1.sub q, p.2.div (ofInt ((n * n : Nat) : Int)))) (⟨0, 0⟩, one.div (ofInt n))).1

/-- π = 16 atan (1/5) - 4 atan (1/239). -/
def pi : Dy := ((atanInv 5).scale 4).sub ((atanInv 239).scale 2)

/-- e^y - 1 for |y| ≤ 1, without loss for small y. -/
def expm1Small (y : Dy) : Dy := series y (fun _ => 1) (fun k => k + 2) 90 0 y

/-- 2^x. -/
def exp2 (x : Dy) : Dy :=
  let k := (x.add half).floor
  let f := x.sub (ofInt k)
  (one.add (expm1Small (f.mul ln2))).scale k

/-- e^y. -/
def exp (y : Dy) : Dy := exp2 (y.div ln2)

/-- e^y - 1. -/
def expm1 (y : Dy) : Dy := if (abs y).lt one then expm1Small y else (exp y).sub one

/-- ln x for x > 0, without loss near 1, divided by ln 2. -/
def log2 (x : Dy) : Dy :=
  let n := Nat.log2 x.m.natAbs
  let m : Dy := ⟨x.m, -(n : Int)⟩
  let big : Bool := !(m.lt ⟨3, -1⟩)
  let m := if big then m.scale (-1) else m
  let k : Int := x.e + n + if big then 1 else 0
  (ofInt k).add ((atanh2 ((m.sub one).div (m.add one))).div ln2)

/-- tanh x = (e^2x - 1) / (e^2x + 1). -/
def tanh (x : Dy) : Dy :=
  let q := expm1 (x.scale 1)
  q.div (q.add (ofInt 2))

/-- 1 / (1 + e^-x). -/
def sigm (x : Dy) : Dy := one.div (one.add (exp x.neg))

/-- sin y for |y| ≤ 2. -/
def sinSmall (y : Dy) : Dy := series (y.mul y).neg (fun _ => 1) (fun k => (2 * k + 2) * (2 * k + 3)) 60 0 y

/-- A square root. -/
def sqrt (x : Dy) : Dy :=
  let r := sqrtDyadic x.m.natAbs x.e prec
  cut ⟨r.1, r.2⟩

/-- erf z for |z| ≤ 11, by e^(-z²) Σ 2^n z^(2n+1) / (1·3·…·(2n+1)) times 2/√π. -/
def erf (z : Dy) : Dy :=
  let z2 := z.mul z
  let s := series z2 (fun _ => 2) (fun k => 2 * k + 3) 700 0 z
  ((exp z2.neg).mul s).mul ((ofInt 2).div (sqrt pi))

/-- x (1 + erf (x / √2)) / 2. -/
def gelu (x : Dy) : Dy := ((x.mul (one.add (erf (x.div (sqrt (ofInt 2)))))).scale (-1))

end Dy

end Sys2Proof.Machine
end

