-- ==== Sys2Proof/Machine/Special.lean ====
section
/-! DEFINITION. Special functions, major 0x1d (R132 to R135): the exact rows, the bound within which a result is free
(log 9), and the refinement step. -/

namespace Sys2Proof

/-- The format of a type of major 0x1d (R132). -/
def FpTy.fmt : FpTy → Machine.FpFmt
  | .f32 => Machine.fmt32
  | .bf16 => Machine.fmtBf16
  | .f16 => Machine.fmt16

/-- The type as an element type. -/
def FpTy.el : FpTy → ElTy
  | .f32 => .f32
  | .bf16 => .bf16
  | .f16 => .f16

end Sys2Proof

namespace Sys2Proof.Machine

/-- The functions of Table 5-7. -/
inductive SpFn where
  | rcp | rsq | sqrt | exp2 | log2 | tanh | sigm | gelu | sin | cos
  deriving DecidableEq, Repr

/-- The func value of a function (R132). -/
def SpFn.code : SpFn → Nat
  | .rcp => 0
  | .rsq => 1
  | .sqrt => 2
  | .exp2 => 3
  | .log2 => 4
  | .tanh => 5
  | .sigm => 6
  | .gelu => 7
  | .sin => 8
  | .cos => 9

/-- Flags of Table 5-8 and of results that leave the range (R134). -/
def flagDz : FlagSet := { FlagSet.none with dz := true }
def flagUnder : FlagSet := { FlagSet.none with uf := true, nx := true }

/-- One and one half with a sign. -/
def vOne (neg : Bool) : FVal := .num neg 1 0
def vHalf : FVal := .num false 1 (-1)
def vZero (neg : Bool) : FVal := .num neg 0 0

/-- The rows of Table 5-8 for NaN, zeros, infinities and negative numbers. -/
def fixedRow (fn : SpFn) (x : FVal) : Option (FVal × FlagSet) :=
  let bad : FVal × FlagSet := (.nan false, FlagSet.invalid)
  let ok (v : FVal) : FVal × FlagSet := (v, FlagSet.none)
  match x with
  | .nan s => some (.nan false, if s then FlagSet.invalid else FlagSet.none)
  | .inf false => some (match fn with
    | .rcp | .rsq => ok (vZero false)
    | .sqrt | .exp2 | .log2 | .gelu => ok (.inf false)
    | .tanh | .sigm => ok (vOne false)
    | .sin | .cos => bad)
  | .inf true => some (match fn with
    | .rcp => ok (vZero true)
    | .rsq | .sqrt | .log2 | .sin | .cos => bad
    | .exp2 | .sigm => ok (vZero false)
    | .tanh => ok (vOne true)
    | .gelu => ok (vZero true))
  | .num neg m _ =>
    if m = 0 then some (match fn with
      | .rcp | .rsq => (.inf neg, flagDz)
      | .sqrt | .tanh | .gelu | .sin => ok (vZero neg)
      | .exp2 | .cos => ok (vOne false)
      | .log2 => (.inf true, flagDz)
      | .sigm => ok vHalf)
    else if neg then (match fn with
      | .rsq | .sqrt | .log2 => some bad
      | _ => none)
    else none

/-- The exponent of a power of two. -/
def powTwo (m : Nat) (e : Int) : Option Int := if m = 2 ^ Nat.log2 m then some (e + Nat.log2 m) else none

/-- Twice a magnitude as an integer, where it is one. -/
def twiceInt (m : Nat) (e : Int) : Option Nat :=
  if 0 ≤ e + 1 then some (m * 2 ^ (e + 1).toNat)
  else if m % 2 ^ (-(e + 1)).toNat = 0 then some (m / 2 ^ (-(e + 1)).toNat) else none

/-- The exact results of R133 and Table 5-8 for a finite non-zero operand. A power of two beyond 2^4096, or below its
inverse, rounds in every format as that one does. -/
def exactCase (fn : SpFn) (neg : Bool) (m : Nat) (e : Int) : Option FVal :=
  match fn with
  | .rcp => (powTwo m e).map fun k => .num neg 1 (-k)
  | .exp2 => match twiceInt m e with
    | some n =>
      let k : Nat := min (n / 2) 4096
      if n % 2 = 0 then some (.num false 1 (if neg then -k else k)) else none
    | none => none
  | .log2 => (powTwo m e).map fun k => ofScaled false k 0
  | .sin => (twiceInt m e).map fun n =>
    if n % 2 = 0 then vZero neg else vOne (neg != (n % 4 == 3))
  | .cos => (twiceInt m e).map fun n => if n % 2 = 1 then vZero false else vOne (n % 4 == 2)
  | _ => none

/-- sin of π times a positive dyadic: the argument is brought below one half exactly (R133). -/
def sinPi (x : Dy) : Dy :=
  let r := x.sub (Dy.ofInt (2 * (x.scale (-1)).floor))
  let upper := !(r.lt Dy.one)
  let r := if upper then r.sub Dy.one else r
  let r := if Dy.half.lt r then Dy.one.sub r else r
  let y := Dy.sinSmall (Dy.pi.mul r)
  if upper then y.neg else y

/-- The value of a function, close to its exact value (Table 5-7), for a finite operand outside the exact rows. Far out
on a tail, where every format rounds alike, a value of the tail stands for it. -/
def specialNear (fn : SpFn) (neg : Bool) (m : Nat) (e : Int) : Dy :=
  let a : Dy := ⟨m, e⟩
  let x := if neg then a.neg else a
  let far (n : Int) : Bool := (Dy.ofInt n).lt a
  let nearOne : Dy := Dy.one.sub ⟨1, -280⟩
  match fn with
  | .rcp => Dy.one.div x
  | .rsq => Dy.one.div (Dy.sqrt a)
  | .sqrt => Dy.sqrt a
  | .exp2 => if far 4096 then ⟨1, if neg then -4096 else 4096⟩ else Dy.exp2 x
  | .log2 => Dy.log2 a
  | .tanh => if far 128 then (if neg then nearOne.neg else nearOne) else Dy.tanh x
  | .sigm => if far 200 then (if neg then ⟨1, -280⟩ else nearOne) else Dy.sigm x
  | .gelu => if far 15 then (if neg then ⟨-1, -1000⟩ else a.mul nearOne) else Dy.gelu x
  | .sin => if neg then (sinPi a).neg else sinPi a
  | .cos => sinPi (a.add Dy.half)

/-- Whether the fast grade of a function has an absolute bound beside the relative one (Table 5-7). -/
def SpFn.absBound : SpFn → Bool
  | .log2 | .tanh | .gelu | .sin | .cos => true
  | _ => false

/-- A unit in the last place of a format at a value (R133). -/
def FpFmt.ulpAt (f : FpFmt) (t : Dy) : Dy :=
  ⟨1, max (t.e + Nat.log2 t.m.natAbs - f.mw) (f.emin - f.mw)⟩

/-- The bound of Table 5-7 around a value, with the slack of the value's own error. -/
def specialBound (f : FpFmt) (fn : SpFn) (acc : Bool) (t : Dy) : Dy :=
  let rel := t.abs.scale (-12)
  let b :=
    if acc then f.ulpAt t
    else if fn.absBound && rel.lt ⟨1, -20⟩ then ⟨1, -20⟩ else rel
  b.add (t.abs.scale (-250))

/-- A code lies within the bound of Table 5-7. -/
def withinBound (f : FpFmt) (fn : SpFn) (acc : Bool) (t : Dy) (code : Nat) : Bool :=
  match f.decode code with
  | .num neg m e =>
    let v : Dy := ⟨signedM neg m, e⟩
    !((specialBound f fn acc t).lt (v.sub t).abs)
  | _ => false

/-- A code's magnitude. -/
def FpFmt.mag (f : FpFmt) (code : Nat) : Nat := code % 2 ^ (f.ew + f.mw)

/-- A result of a special function of a sign as it is written (R132, R134): below the smallest normal the fast grade writes
zero, and a result that is zero is so marked in either grade. -/
def flushed (f : FpFmt) (acc neg : Bool) (code : Nat) : Nat × FlagSet :=
  if f.mag code = 0 ∨ (!acc ∧ f.mag code < 2 ^ f.mw) then (f.signed neg 0, flagUnder) else (code, FlagSet.none)

/-- An exact result of Table 5-8 as it is written (R134). -/
def exactResult (f : FpFmt) (acc : Bool) (v : FVal) : Nat × FlagSet :=
  let r := f.encode 0 v
  if v.isZero then (r.1, FlagSet.none)
  else if f.nonFinite r.1 then r
  else
    let w := flushed f acc v.isNeg r.1
    (w.1, r.2.or w.2)

/-- The largest finite value of a format. -/
def FpFmt.maxDy (f : FpFmt) : Dy := ⟨(2 ^ (f.mw + 1) - 1 : Nat), f.bias - f.mw⟩

/-- The least magnitude that a grade does not write as zero: the smallest subnormal, or in the fast grade the smallest
normal (R134). -/
def FpFmt.leastDy (f : FpFmt) (acc : Bool) : Dy := ⟨1, if acc then f.emin - f.mw else f.emin⟩

/-- A result outside the exact rows: overflow, a zero for an exact value below the grade's least, the correctly rounded
accurate square root, or a free value within the bound. Where the free value lies outside the bound, the code nearest to
the exact value stands for it: where no code of the type lies within the bound, as often in the fast grade of bf16, that
is the model's choice (R132 to R134, log 9). -/
def boundedResult (f : FpFmt) (ty : Nat) (fn : SpFn) (acc : Bool) (code : Nat) (neg : Bool) (m : Nat) (e : Int) :
    Nat × FlagSet :=
  let t := specialNear fn neg m e
  let tneg := t.m < 0
  if f.maxDy.lt t.abs then (f.signed tneg f.infCode, { FlagSet.none with ov := true, nx := true })
  else if t.abs.lt (f.leastDy acc) then (f.signed tneg 0, flagUnder)
  else if fn = .sqrt ∧ acc then
    let r := sqrtDyadic m e (f.mw + 4)
    f.round 0 false r.1 r.2
  else
    let c := Config.special fn.code acc ty code % 2 ^ f.bits
    flushed f acc tneg (if withinBound f fn acc t c then c else (f.round 0 tneg t.m.natAbs t.e).1)

/-- One lane of a special function (R132 to R134). -/
def specialLane (ft : FpTy) (fn : SpFn) (acc : Bool) (code : Nat) : Nat × FlagSet :=
  let f := ft.fmt
  let x := match f.decode code with
    | .num neg m e => if !acc && f.mag code < 2 ^ f.mw then vZero neg else .num neg m e
    | v => v
  f.markNfs (match fixedRow fn x with
    | some (v, fl) => ((f.encode 0 v).1, fl)
    | none => match x with
      | .num neg m e => match exactCase fn neg m e with
        | some v => exactResult f acc v
        | none => boundedResult f ft.code fn acc code neg m e
      | _ => (code, FlagSet.none))

/-- A special function of the lanes of va (R133). -/
def special (s : State) (fn : SpFn) (acc : Bool) (ft : FpTy) (w : Width) (vd va : VReg) : Out :=
  tagged s (s.tags0 [va]) (giveLanes s vd ft.el.lw ((s.lanesOf ft.el w va).map (specialLane ft fn acc)) 0)

/-- R133. -/
def execVrcp (acc : Bool) (ft : FpTy) (w : Width) (vd va : VReg) (s : State) : Out := special s .rcp acc ft w vd va
/-- R133. -/
def execVrsq (acc : Bool) (ft : FpTy) (w : Width) (vd va : VReg) (s : State) : Out := special s .rsq acc ft w vd va
/-- R133. -/
def execVsqrt (acc : Bool) (ft : FpTy) (w : Width) (vd va : VReg) (s : State) : Out := special s .sqrt acc ft w vd va
/-- R133. -/
def execVexp2 (acc : Bool) (ft : FpTy) (w : Width) (vd va : VReg) (s : State) : Out := special s .exp2 acc ft w vd va
/-- R133. -/
def execVlog2 (acc : Bool) (ft : FpTy) (w : Width) (vd va : VReg) (s : State) : Out := special s .log2 acc ft w vd va
/-- R133. -/
def execVtanh (acc : Bool) (ft : FpTy) (w : Width) (vd va : VReg) (s : State) : Out := special s .tanh acc ft w vd va
/-- R133. -/
def execVsigm (acc : Bool) (ft : FpTy) (w : Width) (vd va : VReg) (s : State) : Out := special s .sigm acc ft w vd va
/-- R133. -/
def execVgelu (acc : Bool) (ft : FpTy) (w : Width) (vd va : VReg) (s : State) : Out := special s .gelu acc ft w vd va
/-- R133. -/
def execVsin (acc : Bool) (ft : FpTy) (w : Width) (vd va : VReg) (s : State) : Out := special s .sin acc ft w vd va
/-- R133. -/
def execVcos (acc : Bool) (ft : FpTy) (w : Width) (vd va : VReg) (s : State) : Out := special s .cos acc ft w vd va

/-- An intermediate step of a refinement: its flags but NFS, which belongs to what is written (R116, R135). -/
def FpFmt.step (f : FpFmt) (rm : Nat) (r : FVal × FlagSet) : FVal × FlagSet :=
  let c := f.encode rm r.1
  (f.decode c.1, c.2.or r.2)

/-- One lane of `vrfn`: the estimate y of the function of x (R135). A signalling NaN in either sets NV (R115). -/
def refine (f : FpFmt) (rm : Nat) (rsq : Bool) (y x : Nat) : Nat × FlagSet :=
  let vy := f.decode y
  let vx := f.decode x
  let last (e : FVal × FlagSet) (fl : FlagSet) : Nat × FlagSet :=
    let r := f.finish rm (exactFma rm vy e.1 vy)
    (r.1, r.2.or (e.2.or fl))
  match vy with
  | .num _ 0 _ | .inf _ | .nan _ => f.markNfs (y, snanFlag [vy, vx])
  | .num _ _ _ => match fixedRow (if rsq then .rsq else .rcp) (match vx with
      | .num true m e => if m = 0 then .num true m e else .num false m e
      | v => v) with
    | some (v, fl) => f.markNfs ((f.encode 0 v).1, fl)
    | none =>
      if rsq then
        let t := f.step rm (exactMul vy vy)
        let h := (exactMul vHalf vx).1
        last (f.step rm (exactFma rm h.neg t.1 vHalf)) t.2
      else last (f.step rm (exactFma rm vx.neg vy (vOne false))) FlagSet.none

/-- R135. -/
def execVrfn (ft : FpTy) (w : Width) (vd va : VReg) (k : Fin 32) (s : State) : Out :=
  tagged s (s.tags0 [va, vd])
    (giveLanes s vd ft.el.lw
      (List.zipWith (refine ft.fmt s.rm (k.val == 1)) (s.lanesOf ft.el w vd) (s.lanesOf ft.el w va)) 0)

end Sys2Proof.Machine
end

