-- ==== Sys2Proof/Machine/Dispatch.lean ====
section
/-! DEFINITION. The dispatch: one arm per constructor of Instr, each a direct call of its meaning. -/

namespace Sys2Proof.Machine

def exec (i : Instr) (s : State) : Host.Outcome State Fault Refusal :=
  match i with
  | .nop => Sys2Proof.Machine.execNop s
  | .add xd xa xb => Sys2Proof.Machine.execAdd xd xa xb s
  | .sub xd xa xb => Sys2Proof.Machine.execSub xd xa xb s
  | .band xd xa xb => Sys2Proof.Machine.execBand xd xa xb s
  | .bor xd xa xb => Sys2Proof.Machine.execBor xd xa xb s
  | .bxor xd xa xb => Sys2Proof.Machine.execBxor xd xa xb s
  | .andn xd xa xb => Sys2Proof.Machine.execAndn xd xa xb s
  | .shl xd xa xb => Sys2Proof.Machine.execShl xd xa xb s
  | .shr xd xa xb => Sys2Proof.Machine.execShr xd xa xb s
  | .sar xd xa xb => Sys2Proof.Machine.execSar xd xa xb s
  | .rot xd xa xb => Sys2Proof.Machine.execRot xd xa xb s
  | .smin xd xa xb => Sys2Proof.Machine.execSmin xd xa xb s
  | .smax xd xa xb => Sys2Proof.Machine.execSmax xd xa xb s
  | .minu xd xa xb => Sys2Proof.Machine.execMinu xd xa xb s
  | .maxu xd xa xb => Sys2Proof.Machine.execMaxu xd xa xb s
  | .mul xd xa xb => Sys2Proof.Machine.execMul xd xa xb s
  | .mulh xd xa xb => Sys2Proof.Machine.execMulh xd xa xb s
  | .mulhu xd xa xb => Sys2Proof.Machine.execMulhu xd xa xb s
  | .div xd xa xb => Sys2Proof.Machine.execDiv xd xa xb s
  | .divu xd xa xb => Sys2Proof.Machine.execDivu xd xa xb s
  | .rem xd xa xb => Sys2Proof.Machine.execRem xd xa xb s
  | .remu xd xa xb => Sys2Proof.Machine.execRemu xd xa xb s
  | .clz xd xa => Sys2Proof.Machine.execClz xd xa s
  | .ctz xd xa => Sys2Proof.Machine.execCtz xd xa s
  | .popc xd xa => Sys2Proof.Machine.execPopc xd xa s
  | .sext sz xd xa => Sys2Proof.Machine.execSext sz xd xa s
  | .zext sz xd xa => Sys2Proof.Machine.execZext sz xd xa s
  | .mov xd xa => Sys2Proof.Machine.execMov xd xa s
  | .cmp cond qd xa xb => Sys2Proof.Machine.execCmp cond qd xa xb s
  | .bfx xd xa pos len => Sys2Proof.Machine.execBfx xd xa pos len s
  | .bfi xd xa pos len => Sys2Proof.Machine.execBfi xd xa pos len s
  | .addi xd xa imm => Sys2Proof.Machine.execAddi xd xa imm s
  | .andi xd xa imm => Sys2Proof.Machine.execAndi xd xa imm s
  | .ori xd xa imm => Sys2Proof.Machine.execOri xd xa imm s
  | .xori xd xa imm => Sys2Proof.Machine.execXori xd xa imm s
  | .shli xd xa amt => Sys2Proof.Machine.execShli xd xa amt s
  | .shri xd xa amt => Sys2Proof.Machine.execShri xd xa amt s
  | .sari xd xa amt => Sys2Proof.Machine.execSari xd xa amt s
  | .roti xd xa amt => Sys2Proof.Machine.execRoti xd xa amt s
  | .cmpi cond qd xa imm => Sys2Proof.Machine.execCmpi cond qd xa imm s
  | .li xd imm => Sys2Proof.Machine.execLi xd imm s
  | .lio xd imm => Sys2Proof.Machine.execLio xd imm s
  | .sel xd qn neg xa xb => Sys2Proof.Machine.execSel xd qn neg xa xb s
  | .pand qd qa qb => Sys2Proof.Machine.execPand qd qa qb s
  | .por qd qa qb => Sys2Proof.Machine.execPor qd qa qb s
  | .pxor qd qa qb => Sys2Proof.Machine.execPxor qd qa qb s
  | .pandn qd qa qb => Sys2Proof.Machine.execPandn qd qa qb s
  | .pset qd xa => Sys2Proof.Machine.execPset qd xa s
  | .pget xd qa => Sys2Proof.Machine.execPget xd qa s
  | .br qn neg off => Sys2Proof.Machine.execBr qn neg off s
  | .jmp off => Sys2Proof.Machine.execJmp off s
  | .call off => Sys2Proof.Machine.execCall off s
  | .jr xa => Sys2Proof.Machine.execJr xa s
  | .callr xd xa => Sys2Proof.Machine.execCallr xd xa s
  | .ret xa => Sys2Proof.Machine.execRet xa s
  | .lpset lv xa endoff => Sys2Proof.Machine.execLpset lv xa endoff s
  | .lpseti lv count endoff => Sys2Proof.Machine.execLpseti lv count endoff s
  | .lpstr lv xr xs => Sys2Proof.Machine.execLpstr lv xr xs s
  | .lpbrk lv qn neg => Sys2Proof.Machine.execLpbrk lv qn neg s
  | .lprd xd lv sel => Sys2Proof.Machine.execLprd xd lv sel s
  | .lpwr lv sel xa => Sys2Proof.Machine.execLpwr lv sel xa s
  | .ld sz xt xa off => Sys2Proof.Machine.execLd sz xt xa off s
  | .st sz xt xa off => Sys2Proof.Machine.execSt sz xt xa off s
  | .ldp dbl xd pw xa off => Sys2Proof.Machine.execLdp dbl xd pw xa off s
  | .qtst cond qd queue => Sys2Proof.Machine.execQtst cond qd queue s
  | .vadd et w vd va vb => Sys2Proof.Machine.execVadd et w vd va vb s
  | .vsub et w vd va vb => Sys2Proof.Machine.execVsub et w vd va vb s
  | .vmul et w vd va vb => Sys2Proof.Machine.execVmul et w vd va vb s
  | .vfma et w vd va vb => Sys2Proof.Machine.execVfma et w vd va vb s
  | .vfms et w vd va vb => Sys2Proof.Machine.execVfms et w vd va vb s
  | .vfnma et w vd va vb => Sys2Proof.Machine.execVfnma et w vd va vb s
  | .vmin et w vd va vb => Sys2Proof.Machine.execVmin et w vd va vb s
  | .vmax et w vd va vb => Sys2Proof.Machine.execVmax et w vd va vb s
  | .vabs et w vd va => Sys2Proof.Machine.execVabs et w vd va s
  | .vneg et w vd va => Sys2Proof.Machine.execVneg et w vd va s
  | .vand et w vd va vb => Sys2Proof.Machine.execVand et w vd va vb s
  | .vor et w vd va vb => Sys2Proof.Machine.execVor et w vd va vb s
  | .vxor et w vd va vb => Sys2Proof.Machine.execVxor et w vd va vb s
  | .vandn et w vd va vb => Sys2Proof.Machine.execVandn et w vd va vb s
  | .vshl et w vd va vb => Sys2Proof.Machine.execVshl et w vd va vb s
  | .vshr et w vd va vb => Sys2Proof.Machine.execVshr et w vd va vb s
  | .vsar et w vd va vb => Sys2Proof.Machine.execVsar et w vd va vb s
  | .vcpy et w vd va => Sys2Proof.Machine.execVcpy et w vd va s
  | .vcmp cond et w md va vb => Sys2Proof.Machine.execVcmp cond et w md va vb s
  | .vsel w vd va vb mn => Sys2Proof.Machine.execVsel w vd va vb mn s
  | .vmand md ma mb => Sys2Proof.Machine.execVmand md ma mb s
  | .vmor md ma mb => Sys2Proof.Machine.execVmor md ma mb s
  | .vmnot md ma => Sys2Proof.Machine.execVmnot md ma s
  | .vmcnt et w xd mn => Sys2Proof.Machine.execVmcnt et w xd mn s
  | .vmfst et w xd mn => Sys2Proof.Machine.execVmfst et w xd mn s
  | .vbcast et w vd xa => Sys2Proof.Machine.execVbcast et w vd xa s
  | .vins et vd xa xb => Sys2Proof.Machine.execVins et vd xa xb s
  | .vext et xd va xb => Sys2Proof.Machine.execVext et xd va xb s
  | .vred op et w vd va => Sys2Proof.Machine.execVred op et w vd va s
  | .vscan op et w vd va => Sys2Proof.Machine.execVscan op et w vd va s
  | .vperm et w vd va vb => Sys2Proof.Machine.execVperm et w vd va vb s
  | .vshuf pat et w vd va => Sys2Proof.Machine.execVshuf pat et w vd va s
  | .vslide et w vd va n => Sys2Proof.Machine.execVslide et w vd va n s
  | .vcomp et w vd va mn => Sys2Proof.Machine.execVcomp et w vd va mn s
  | .vpart et w vd mn => Sys2Proof.Machine.execVpart et w vd mn s
  | .vgat et w vd va vb => Sys2Proof.Machine.execVgat et w vd va vb s
  | .vsct et w vd va vb => Sys2Proof.Machine.execVsct et w vd va vb s
  | .vld w vt xa off => Sys2Proof.Machine.execVld w vt xa off s
  | .vst w vt xa off => Sys2Proof.Machine.execVst w vt xa off s
  | .vldx w vt xa off pk => Sys2Proof.Machine.execVldx w vt xa off pk s
  | .vldt w vt xa off pk => Sys2Proof.Machine.execVldt w vt xa off pk s
  | .pkset pk xa => Sys2Proof.Machine.execPkset pk xa s
  | .vrcp acc ft w vd va => Sys2Proof.Machine.execVrcp acc ft w vd va s
  | .vrsq acc ft w vd va => Sys2Proof.Machine.execVrsq acc ft w vd va s
  | .vsqrt acc ft w vd va => Sys2Proof.Machine.execVsqrt acc ft w vd va s
  | .vexp2 acc ft w vd va => Sys2Proof.Machine.execVexp2 acc ft w vd va s
  | .vlog2 acc ft w vd va => Sys2Proof.Machine.execVlog2 acc ft w vd va s
  | .vtanh acc ft w vd va => Sys2Proof.Machine.execVtanh acc ft w vd va s
  | .vsigm acc ft w vd va => Sys2Proof.Machine.execVsigm acc ft w vd va s
  | .vgelu acc ft w vd va => Sys2Proof.Machine.execVgelu acc ft w vd va s
  | .vsin acc ft w vd va => Sys2Proof.Machine.execVsin acc ft w vd va s
  | .vcos acc ft w vd va => Sys2Proof.Machine.execVcos acc ft w vd va s
  | .vrfn ft w vd va k => Sys2Proof.Machine.execVrfn ft w vd va k s
  | .vcvt src dst rnd sat dith w vd va => Sys2Proof.Machine.execVcvt src dst rnd sat dith w vd va s
  | .vqnt et w vd va vb => Sys2Proof.Machine.execVqnt et w vd va vb s
  | .vdqnt et w vd va vb => Sys2Proof.Machine.execVdqnt et w vd va vb s
  | .vscl et w vd va => Sys2Proof.Machine.execVscl et w vd va s
  | .cbld cb va => Sys2Proof.Machine.execCbld cb va s
  | .cbq cb2 et w vd va cb => Sys2Proof.Machine.execCbq cb2 et w vd va cb s
  | .cbx cb2 et w vd va cb => Sys2Proof.Machine.execCbx cb2 et w vd va cb s
  | .dthset xd xa wr => Sys2Proof.Machine.execDthset xd xa wr s
  | .vpk b w vd va => Sys2Proof.Machine.execVpk b w vd va s
  | .vupk b w vd va => Sys2Proof.Machine.execVupk b w vd va s
  | .mma acc cnt ra rb wp keep => Sys2Proof.Machine.execMma acc cnt ra rb wp keep s
  | .mmz acc cnt ra rb wp keep => Sys2Proof.Machine.execMmz acc cnt ra rb wp keep s
  | .pcw wd xa => Sys2Proof.Machine.execPcw wd xa s
  | .pcwr wd ws xa fld => Sys2Proof.Machine.execPcwr wd ws xa fld s
  | .accz acc cnt tag => Sys2Proof.Machine.execAccz acc cnt tag s
  | .accrd vd tile xa imm => Sys2Proof.Machine.execAccrd vd tile xa imm s
  | .accwr tile va xa imm => Sys2Proof.Machine.execAccwr tile va xa imm s
  | .mwait mask => Sys2Proof.Machine.execMwait mask s
  | .rset ring xa xb => Sys2Proof.Machine.execRset ring xa xb s
  | .rget sel xd ring => Sys2Proof.Machine.execRget sel xd ring s
  | .rpush ring k => Sys2Proof.Machine.execRpush ring k s
  | .rpop ring k => Sys2Proof.Machine.execRpop ring k s
  | .ppst acc cnt xa ring toRing set => Sys2Proof.Machine.execPpst acc cnt xa ring toRing set s
  | .ppcfgWord set wd xa => Sys2Proof.Machine.execPpcfgWord set wd xa s
  | .ppcfgThreshold ht xa => Sys2Proof.Machine.execPpcfgThreshold ht xa s
  | .htag xa cnt tag => Sys2Proof.Machine.execHtag xa cnt tag s
  | .hrec xa xb cnt => Sys2Proof.Machine.execHrec xa xb cnt s
  | .hthr w vd va ht => Sys2Proof.Machine.execHthr w vd va ht s
  | .hfwd w vd va vb => Sys2Proof.Machine.execHfwd w vd va vb s
  | .hinv w vd va vb => Sys2Proof.Machine.execHinv w vd va vb s
  | .cp cq xa xb sh sig => Sys2Proof.Machine.execCp cq xa xb sh sig s
  | .cpt cq xa xb sh sig => Sys2Proof.Machine.execCpt cq xa xb sh sig s
  | .cpx cq xa xb sh sig => Sys2Proof.Machine.execCpx cq xa xb sh sig s
  | .cpg cq xa xb sh sig => Sys2Proof.Machine.execCpg cq xa xb sh sig s
  | .cps ord cq xa xb sh sig => Sys2Proof.Machine.execCps ord cq xa xb sh sig s
  | .cpr ord cq xa xb sh sig => Sys2Proof.Machine.execCpr ord cq xa xb sh sig s
  | .cpsig cq xa xb => Sys2Proof.Machine.execCpsig cq xa xb s
  | .tmv cq xa xb sh sig => Sys2Proof.Machine.execTmv cq xa xb sh sig s
  | .shape sh k xa => Sys2Proof.Machine.execShape sh k xa s
  | .qstat sel xd queue => Sys2Proof.Machine.execQstat sel xd queue s
  | .qcan queue => Sys2Proof.Machine.execQcan queue s
  | .qrty queue => Sys2Proof.Machine.execQrty queue s
  | .fence kind scope => Sys2Proof.Machine.execFence kind scope s
  | .qfence mask => Sys2Proof.Machine.execQfence mask s
  | .harvest xa => Sys2Proof.Machine.execHarvest xa s
  | .amoadd dbl acq rel xd xa xb => Sys2Proof.Machine.execAmoadd dbl acq rel xd xa xb s
  | .amoand dbl acq rel xd xa xb => Sys2Proof.Machine.execAmoand dbl acq rel xd xa xb s
  | .amoor dbl acq rel xd xa xb => Sys2Proof.Machine.execAmoor dbl acq rel xd xa xb s
  | .amoxor dbl acq rel xd xa xb => Sys2Proof.Machine.execAmoxor dbl acq rel xd xa xb s
  | .amomin dbl acq rel xd xa xb => Sys2Proof.Machine.execAmomin dbl acq rel xd xa xb s
  | .amomax dbl acq rel xd xa xb => Sys2Proof.Machine.execAmomax dbl acq rel xd xa xb s
  | .amominu dbl acq rel xd xa xb => Sys2Proof.Machine.execAmominu dbl acq rel xd xa xb s
  | .amomaxu dbl acq rel xd xa xb => Sys2Proof.Machine.execAmomaxu dbl acq rel xd xa xb s
  | .amoswap dbl acq rel xd xa xb => Sys2Proof.Machine.execAmoswap dbl acq rel xd xa xb s
  | .amocas dbl acq rel xd xa xb => Sys2Proof.Machine.execAmocas dbl acq rel xd xa xb s
  | .amofadd ord dbl cls xd xa xb => Sys2Proof.Machine.execAmofadd ord dbl cls xd xa xb s
  | .amofmin dbl cls xd xa xb => Sys2Proof.Machine.execAmofmin dbl cls xd xa xb s
  | .amofmax dbl cls xd xa xb => Sys2Proof.Machine.execAmofmax dbl cls xd xa xb s
  | .redfadd ord dbl cls xa xb => Sys2Proof.Machine.execRedfadd ord dbl cls xa xb s
  | .binadd dbl cls xa xb => Sys2Proof.Machine.execBinadd dbl cls xa xb s
  | .binfold dbl cls xd xa => Sys2Proof.Machine.execBinfold dbl cls xd xa s
  | .bininit cls xa xb => Sys2Proof.Machine.execBininit cls xa xb s
  | .barinit xa xb => Sys2Proof.Machine.execBarinit xa xb s
  | .arrive xd xa => Sys2Proof.Machine.execArrive xd xa s
  | .bwait qd xa xb => Sys2Proof.Machine.execBwait qd xa xb s
  | .arrwt qd xa => Sys2Proof.Machine.execArrwt qd xa s
  | .bexpect xa xb => Sys2Proof.Machine.execBexpect xa xb s
  | .waitw cond dbl qd xa xb => Sys2Proof.Machine.execWaitw cond dbl qd xa xb s
  | .wake xa => Sys2Proof.Machine.execWake xa s
  | .xag xq xa => Sys2Proof.Machine.execXag xq xa s
  | .xrs ord xq xa => Sys2Proof.Machine.execXrs ord xq xa s
  | .xar ord xq xa => Sys2Proof.Machine.execXar ord xq xa s
  | .xbc xq xa => Sys2Proof.Machine.execXbc xq xa s
  | .xsig xq xa => Sys2Proof.Machine.execXsig xq xa s
  | .xgrp xd g xa => Sys2Proof.Machine.execXgrp xd g xa s
  | .stmc dbl xa xb => Sys2Proof.Machine.execStmc dbl xa xb s
  | .ldrd ord op dbl xd xa => Sys2Proof.Machine.execLdrd ord op dbl xd xa s
  | .launch xd xa => Sys2Proof.Machine.execLaunch xd xa s
  | .lwait xd xa => Sys2Proof.Machine.execLwait xd xa s
  | .ltear xa => Sys2Proof.Machine.execLtear xa s
  | .yield => Sys2Proof.Machine.execYield s
  | .done => Sys2Proof.Machine.execDone s
  | .getc sel xd => Sys2Proof.Machine.execGetc sel xd s
  | .ckpt n => Sys2Proof.Machine.execCkpt n s
  | .twait xa => Sys2Proof.Machine.execTwait xa s
  | .tget sel xd => Sys2Proof.Machine.execTget sel xd s
  | .frset xa xb => Sys2Proof.Machine.execFrset xa xb s
  | .trap code => Sys2Proof.Machine.execTrap code s
  | .eret => Sys2Proof.Machine.execEret s
  | .sysrd xd srn => Sys2Proof.Machine.execSysrd xd srn s
  | .syswr srn xa => Sys2Proof.Machine.execSyswr srn xa s
  | .brk code => Sys2Proof.Machine.execBrk code s
  | .tlbinv kind reach xa xb => Sys2Proof.Machine.execTlbinv kind reach xa xb s
  | .eget sel xd xa => Sys2Proof.Machine.execEget sel xd xa s
  | .eset cls xa => Sys2Proof.Machine.execEset cls xa s
  | .gvhintRsv xd xa => Sys2Proof.Machine.execGvhintRsv xd xa s
  | .gvhintRel => Sys2Proof.Machine.execGvhintRel s
  | .trc xa xb => Sys2Proof.Machine.execTrc xa xb s
  | .tagset xa xb => Sys2Proof.Machine.execTagset xa xb s
  | .taggetTag xd xa => Sys2Proof.Machine.execTaggetTag xd xa s
  | .taggetHist xd xa xb => Sys2Proof.Machine.execTaggetHist xd xa xb s
  | .wlrd sel xd xa => Sys2Proof.Machine.execWlrd sel xd xa s
  | .issueTurnEnd c => Sys2Proof.Machine.execIssueTurnEnd c s
  | .stampedBundleIssue c => Sys2Proof.Machine.execStampedBundleIssue c s
  | .asyncFaultDelivery c => Sys2Proof.Machine.execAsyncFaultDelivery c s
  | .dividerFree c => Sys2Proof.Machine.execDividerFree c s
  | .bTileStaging p => Sys2Proof.Machine.execBTileStaging p s
  | .passStart p => Sys2Proof.Machine.execPassStart p s
  | .passCommit p miss => Sys2Proof.Machine.execPassCommit p miss s
  | .matrixRetire p => Sys2Proof.Machine.execMatrixRetire p s
  | .cancelledEntryRetire p => Sys2Proof.Machine.execCancelledEntryRetire p s
  | .acczExecute p => Sys2Proof.Machine.execAcczExecute p s
  | .accrdExecute p => Sys2Proof.Machine.execAccrdExecute p s
  | .accwrExecute p => Sys2Proof.Machine.execAccwrExecute p s
  | .ringSlotReserve p r => Sys2Proof.Machine.execRingSlotReserve p r s
  | .ppeEntryStart p => Sys2Proof.Machine.execPpeEntryStart p s
  | .ppstTileComplete p => Sys2Proof.Machine.execPpstTileComplete p s
  | .hrecTileComplete p => Sys2Proof.Machine.execHrecTileComplete p s
  | .htagApply p => Sys2Proof.Machine.execHtagApply p s
  | .copyOperationStart p q => Sys2Proof.Machine.execCopyOperationStart p q s
  | .copyUnitDelivery p q => Sys2Proof.Machine.execCopyUnitDelivery p q s
  | .copyBarrierReport p q => Sys2Proof.Machine.execCopyBarrierReport p q s
  | .copyCompletion p q => Sys2Proof.Machine.execCopyCompletion p q s
  | .squareRequestApply c => Sys2Proof.Machine.execSquareRequestApply c s
  | .orderedBatchApply d => Sys2Proof.Machine.execOrderedBatchApply d s
  | .barrierWaitReturn c => Sys2Proof.Machine.execBarrierWaitReturn c s
  | .waitwReturn c => Sys2Proof.Machine.execWaitwReturn c s
  | .mwaitReturn c => Sys2Proof.Machine.execMwaitReturn c s
  | .rgetWaitReturn c => Sys2Proof.Machine.execRgetWaitReturn c s
  | .lwaitReturn c => Sys2Proof.Machine.execLwaitReturn c s
  | .twaitReturn c => Sys2Proof.Machine.execTwaitReturn c s
  | .doneDrainEnd c => Sys2Proof.Machine.execDoneDrainEnd c s
  | .collectiveStart d q => Sys2Proof.Machine.execCollectiveStart d q s
  | .collectiveHeaderMatch d q => Sys2Proof.Machine.execCollectiveHeaderMatch d q s
  | .collectiveDataUnit d q => Sys2Proof.Machine.execCollectiveDataUnit d q s
  | .xsigTileDelivery d q => Sys2Proof.Machine.execXsigTileDelivery d q s
  | .collectiveCompletion d q => Sys2Proof.Machine.execCollectiveCompletion d q s
  | .peerCancel d q => Sys2Proof.Machine.execPeerCancel d q s
  | .stmcMemberWrite c m => Sys2Proof.Machine.execStmcMemberWrite c m s
  | .stmcAcknowledged c => Sys2Proof.Machine.execStmcAcknowledged c s
  | .ldrdReturn c => Sys2Proof.Machine.execLdrdReturn c s
  | .flitRetry d port => Sys2Proof.Machine.execFlitRetry d port s
  | .lanePause d port lane => Sys2Proof.Machine.execLanePause d port lane s
  | .fabricPathFailed d port => Sys2Proof.Machine.execFabricPathFailed d port s
  | .launchRecordArrival d asn root => Sys2Proof.Machine.execLaunchRecordArrival d asn root s
  | .agingInterval h => Sys2Proof.Machine.execAgingInterval h s
  | .holdRequest h d spots => Sys2Proof.Machine.execHoldRequest h d spots s
  | .launchPlacement h p => Sys2Proof.Machine.execLaunchPlacement h p s
  | .preemptDeadline c => Sys2Proof.Machine.execPreemptDeadline c s
  | .pinnedTaskStart c => Sys2Proof.Machine.execPinnedTaskStart c s
  | .contextSave c => Sys2Proof.Machine.execContextSave c s
  | .taskResume h t c => Sys2Proof.Machine.execTaskResume h t c s
  | .launchRetire h => Sys2Proof.Machine.execLaunchRetire h s
  | .ptpSyncMessage d m => Sys2Proof.Machine.execPtpSyncMessage d m s
  | .lockLoss d => Sys2Proof.Machine.execLockLoss d s
  | .governorTick p => Sys2Proof.Machine.execGovernorTick p s
  | .grantExpiry d => Sys2Proof.Machine.execGrantExpiry d s
  | .traceSample p => Sys2Proof.Machine.execTraceSample p s
  | .patrolScrub d place dbl => Sys2Proof.Machine.execPatrolScrub d place dbl s
  | .heartbeat d => Sys2Proof.Machine.execHeartbeat d s
  | .commandRingPoll d => Sys2Proof.Machine.execCommandRingPoll d s
  | .hostNop d => Sys2Proof.Machine.execHostNop d s
  | .hostLaunch d => Sys2Proof.Machine.execHostLaunch d s
  | .hostTear d => Sys2Proof.Machine.execHostTear d s
  | .hostResync d => Sys2Proof.Machine.execHostResync d s
  | .hostFwstage d => Sys2Proof.Machine.execHostFwstage d s
  | .hostFwact d => Sys2Proof.Machine.execHostFwact d s
  | .hostAttest d => Sys2Proof.Machine.execHostAttest d s
  | .hostCert d => Sys2Proof.Machine.execHostCert d s
  | .configGage d => Sys2Proof.Machine.execConfigGage d s
  | .configGdead d => Sys2Proof.Machine.execConfigGdead d s
  | .configGqdn d => Sys2Proof.Machine.execConfigGqdn d s
  | .configGramp d => Sys2Proof.Machine.execConfigGramp d s
  | .configGpmax d => Sys2Proof.Machine.execConfigGpmax d s
  | .configGuncore d => Sys2Proof.Machine.execConfigGuncore d s
  | .configOtring d => Sys2Proof.Machine.execConfigOtring d s
  | .configOwring d => Sys2Proof.Machine.execConfigOwring d s
  | .configOwmin d => Sys2Proof.Machine.execConfigOwmin d s
  | .hostReset d => Sys2Proof.Machine.execHostReset d s
  | .powerOnReset => Sys2Proof.Machine.execPowerOnReset s
  | .bootStageAdvance d ok => Sys2Proof.Machine.execBootStageAdvance d ok s
  | .gcmdResume c => Sys2Proof.Machine.execGcmdResume c s
  | .gcmdEnd c cause => Sys2Proof.Machine.execGcmdEnd c cause s
  | .gcmdForward c => Sys2Proof.Machine.execGcmdForward c s
  | .cviewWrite c v => Sys2Proof.Machine.execCviewWrite c v s
  | .grampWrite p v => Sys2Proof.Machine.execGrampWrite p v s
  | .ecntWrite c v => Sys2Proof.Machine.execEcntWrite c v s
  | .otringWrite d v => Sys2Proof.Machine.execOtringWrite d v s
  | .owringWrite d v => Sys2Proof.Machine.execOwringWrite d v s
  | .loadReturn c k => Sys2Proof.Machine.execLoadReturn c k s
  | .writePerformed w => Sys2Proof.Machine.execWritePerformed w s
  | .faultServiced f => Sys2Proof.Machine.execFaultServiced f s
  | .harvestAreaExtended c n => Sys2Proof.Machine.execHarvestAreaExtended c n s
  | .switchGroupInstall g => Sys2Proof.Machine.execSwitchGroupInstall g s
  | .quarterDieNumberMessage d n => Sys2Proof.Machine.execQuarterDieNumberMessage d n s

end Sys2Proof.Machine
end

