-- ==== Sys2Proof/Machine/Turn.lean ====
section
/-! DEFINITION. Whose turn it is (log 4): what must happen before anything else, the turns that `agenda` schedules, and
the turn that is taken when it schedules none. -/

namespace Sys2Proof.Machine

/-- An operation of an agent, which has no encoding. -/
def isEvent (i : Instr) : Bool := (slotInfo i).unit.isNone && i != .nop

/-! What is due before any other turn, done. -/

/-- A queued launch has waited a full aging interval (R343). -/
def State.agingDue (s : State) (l : Launch) : Bool :=
  let x := s.dieAt l.home
  let waited := ((s.dtimeOf x).toNat + 2 ^ 64 - l.arrival % 2 ^ 64) % 2 ^ 64
  l.state == .queued && l.prio < 7 && x.gage != 0 && (l.aged + 1) * x.gage * 65536000 ≤ waited

/-- The deadline of a pre-emption request is past, and its task is not being saved (R347). -/
def State.deadlineDue (s : State) (c : CtxId) : Bool :=
  let x := s.ctxAt c
  match x.status with
  | .saving _ => false
  | _ => x.preq.any (fun r => r.2 ≤ s.cycle) && x.task.isSome

/-- An outcome that is a next state. -/
def nextOf (o : Out) : Option State :=
  match o with
  | .next t => some t
  | .fault _ | .refused _ => none

/-- The end of a governor tick (R401), the end of a grant (R403), an aging interval (R343), a deadline (R347), the loss
of lock (R360), the cycle of a stamp (R362). -/
def State.due (s : State) : Option State :=
  match (List.range s.npkg).find? s.tickDue with
  | some p => some (s.governorTick p)
  | none => match s.diePositions.find? s.grantDue with
    | some d => some (s.expireGrants d)
    | none => match s.launches.find? s.agingDue with
      | some l => nextOf (execAgingInterval l.handle s)
      | none => match s.knownCtxs.find? s.deadlineDue with
        | some c => nextOf (execPreemptDeadline c s)
        | none => match s.diePositions.find? fun d => (s.dieAt d).lock && !s.within12 (s.dieAt d) with
        | some d => nextOf (execLockLoss d s)
        | none =>
          (s.knownCtxs.find? fun c => match (s.ctxAt c).status with
            | .waiting (.stamp n) => (s.focusOn c).stampTime n != .early
            | _ => false).map s.stampIssue

/-! The turn taken when none is scheduled (log 4): an operation that some agent has to do, else the next core to issue, else
a cycle passes. -/

/-- An operation of an agent, as a meaning. -/
abbrev Event := State → Out

/-- A PAGE-FAULT of a queue that the granger leaves to the task. -/
def faultPassed (c : CtxId) (q : Nat) : Event := execFaultServiced ⟨c, q, [], [], [], false⟩

/-- The operation that may end a wait. -/
def waitEnd (c : CtxId) : Wait → List Event
  | .word _ => [execWaitwReturn c, faultPassed c 6]
  | .barrier _ _ => [execBarrierWaitReturn c, faultPassed c 6]
  | .child _ => [execLwaitReturn c]
  | .time _ => [execTwaitReturn c]
  | .ringHead _ | .ringTail _ => [execRgetWaitReturn c]
  | .matrix _ => [execMwaitReturn c]
  | .doneDrain => [execDoneDrainEnd c]
  | .divider => [execDividerFree c]
  | .harvestArea => [execHarvestAreaExtended c 1048576]
  | .epoch => [execPinnedTaskStart c]
  | .queueFull _ | .launch _ | .reduce | .stamp _ | .tick | .invalidate => []

/-- What the granger does to a context that is trapped (R380, R381): a page fault is not mapped, and no debugger is
there. -/
def serviceOf (c : CtxId) (x : Ctx) : List Event :=
  let cause := wordBits x.trap.cause 7 0
  if x.status ≠ .trapped ∨ x.ctrl then []
  else if routeOf cause = .grangerThenTask ∧ x.fwd = false then [execGcmdForward c] else [execGcmdEnd c cause]

/-- Operations for a context. -/
def State.ctxEvents (s : State) (c : CtxId) : List Event :=
  let x := s.ctxAt c
  let when_ (b : Bool) (l : List Event) : List Event := if b then l else []
  let members := x.xiq.flatMap fun e => match e.op with
    | .store _ _ _ left => left.map fun m => execStmcMemberWrite c m
    | .passed _ | .bind _ _ | .reduce _ _ _ _ _ _ _ => []
  when_ (!x.loads.isEmpty) [execLoadReturn c 0] ++ when_ (!x.stores.isEmpty) [execWritePerformed (.perform c 0)] ++
  when_ (!x.sq.isEmpty) [execSquareRequestApply c, faultPassed c 6] ++
  when_ (!x.xiq.isEmpty) (members ++ [execStmcAcknowledged c, execLdrdReturn c, faultPassed c 7]) ++
  when_ (!x.pend.isEmpty && !x.inh) [execAsyncFaultDelivery c] ++ serviceOf c x ++
  match x.status with
  | .waiting w => waitEnd c w
  | .saving _ => [execContextSave c]
  | .restoring => match x.task with
    | some t => [execTaskResume t.launch t.index c]
    | none => []
  | .free | .ready | .trapped => []

/-- Operations for a core. -/
def State.coreEvents (s : State) (p : CoreId) : List Event :=
  let x := s.coreAt p
  let when_ (b : Bool) (l : List Event) : List Event := if b then l else []
  let copies := (List.finRange 4).flatMap fun q => match x.cq[q] with
    | [] => []
    | o :: _ => [execCopyOperationStart p q, execCopyBarrierReport p q, execCopyUnitDelivery p q, execCopyCompletion p q,
        faultPassed o.who q.val]
  let busy := !x.ppq.isEmpty || x.cq.any (fun (q : List CopyOp) => !q.isEmpty) ||
    !(s.xops p.die).isEmpty
  when_ (!x.mq.isEmpty) [execBTileStaging p, execPassStart p, execPassCommit p 0, execMatrixRetire p, execCancelledEntryRetire p,
    execAcczExecute p, execAccrdExecute p, execAccwrExecute p] ++
  when_ busy ((List.finRange 16).map fun r => execRingSlotReserve p r) ++
  when_ (!x.ppq.isEmpty) [execPpeEntryStart p, execPpstTileComplete p, execHrecTileComplete p, execHtagApply p] ++ copies

/-- The address space that the granger gives the next launch of a die (R96): a task's own to a launch that it makes. -/
def State.arrivalSpace (s : State) (d : Nat) : Nat × Nat :=
  match s.nextArrival d with
  | some (_, a) => (a.issuer.bind fun i => (s.ctxAt i.1).task.map fun t => (t.asn, t.root)).getD (0, 0)
  | none => (0, 0)

/-- Operations for a die: its Square, its collective engine, its dispatcher and its host. -/
def State.dieEvents (s : State) (d : Nat) : List Event :=
  let x := s.dieAt d
  let when_ (b : Bool) (l : List Event) : List Event := if b then l else []
  let stopped := x.batches.flatMap fun b =>
    if b.fault.any fun f => !f.2.2 then (b.adds.map fun a => faultPassed a.who 8) else []
  let away := (s.xops d).any fun e => e.2.state == .faulted && !e.2.told && (s.taskCtx e.2.launch e.2.task).isNone
  let collectives := when_ away [faultPassed ⟨d, 0, 0⟩ 7] ++ (List.finRange 8).flatMap fun q =>
    if (x.xq[q]).isEmpty then []
    else [execCollectiveStart d q, execCollectiveHeaderMatch d q, execCollectiveDataUnit d q, execXsigTileDelivery d q,
      execCollectiveCompletion d q, execPeerCancel d q]
  when_ (!x.batches.isEmpty) (execOrderedBatchApply d :: stopped) ++ collectives ++
  when_ (!x.arrivals.isEmpty) [execLaunchRecordArrival d (s.arrivalSpace d).1 (s.arrivalSpace d).2] ++ when_ (x.waiting != 0) [execCommandRingPoll d] ++
  when_ x.cmd.isSome [execHostNop d, execHostLaunch d, execHostTear d, execHostResync d, execHostFwstage d, execHostFwact d,
    execHostAttest d, execHostCert d, execConfigGage d, execConfigGdead d, execConfigGqdn d, execConfigGramp d, execConfigGpmax d,
    execConfigGuncore d, execConfigOtring d, execConfigOwring d, execConfigOwmin d, execHostReset d]

/-- Contexts of a core for one more stage of a launch, by core: T of those that can be given. -/
def State.openSpots (s : State) (l : Launch) (used : List CtxId) (p : CoreId) : List CtxId :=
  let n := s.coreRoom [] l p - (used.filter fun c => c.coreId == p).length / recT l.record
  let open_ := ((List.range 4).map p.ctxId).filter fun c => s.ctxOpen [] c && !used.contains c
  if n = 0 then [] else open_.take (recT l.record)

/-- A share of a launch on a die, stage by stage, from the lowest clusters and cores that have room. -/
def State.chooseSpots (s : State) (l : Launch) (d : Nat) : List CtxId :=
  (List.range (recS l.record)).foldl (fun used _ =>
    let cluster (q : Nat) : List CtxId :=
      let cs := ((List.range 8).map fun j => s.openSpots l used ⟨d, 8 * q + j⟩).filter fun t => !t.isEmpty
      if cs.length < recC l.record then [] else (cs.take (recC l.record)).flatten
    used ++ ((((List.range 12).map cluster).filter fun t => !t.isEmpty).take (recK l.record)).flatten) []

/-- The context in which a saved task can go on, if there is one. -/
def State.resumeSpot (s : State) (l : Launch) (k : SavedTask) : Option CtxId :=
  (List.range 96).findSome? fun p => ((List.range 4).map (CoreId.ctxId ⟨k.die, p⟩)).find? (s.mayResume l k)

/-- Operations for a launch: its holds once every die can give its share, its placement, its end, its saved tasks. -/
def State.launchEvents (s : State) (l : Launch) : List Event :=
  let dies := s.launchDies l
  let free := dies.filter fun d => l.holds.all fun e => e.1 != d
  match l.state with
  | .queued =>
    if free.isEmpty then [execLaunchPlacement l.handle ⟨0, 0⟩]
    else if dies.any (s.behind l) then []
    else if free.all fun d => s.fits [] l d && s.coversStep l d then
      (free.take 1).map fun d => execHoldRequest l.handle d (s.chooseSpots l d)
    else (free.filter fun d => !s.fits [] l d).map fun d => execHoldRequest l.handle d []
  | .running =>
    (l.saved.filterMap fun k => (s.resumeSpot l k).map fun c => execTaskResume l.handle k.index c) ++ [execLaunchRetire l.handle]
  | .draining => [execLaunchRetire l.handle]
  | .check | .retired => []

/-- Writes in flight that may become visible on another die. -/
def State.flightEvents (s : State) : List Event :=
  s.flight.flatMap fun w =>
    (s.diePositions.filter fun d => !w.seen.contains d).map fun d => execWritePerformed (.reach w.id d)

/-- Some cores, those with a pinned task that is to issue first (R408). -/
def State.pinnedFirst (s : State) (ps : List CoreId) : List CoreId :=
  ps.filter s.pinnedDue ++ ps.filter fun p => !s.pinnedDue p

/-- Operations that agents have to do, of dies that are not stopped (R375). -/
def State.events (s : State) : List Event :=
  let up (d : Nat) : Bool := !s.dieStopped d
  (s.knownCtxs.filter fun c => up c.die).flatMap s.ctxEvents ++ s.flightEvents ++
    (s.pinnedFirst (s.knownCores.filter fun p => up p.die)).flatMap s.coreEvents ++
    (s.diePositions.filter up).flatMap s.dieEvents ++
    (s.diePositions.filter fun d => !up d && (s.dieAt d).cmd.isSome).map (fun d => execHostReset d) ++
    (s.diePositions.filter fun d => !up d && (s.dieAt d).waiting != 0).map (fun d => execCommandRingPoll d) ++
    (s.launches.filter fun l => up l.home).flatMap s.launchEvents

/-- The machine after an operation, if it did anything but bring another agent into focus. -/
def State.effect (s : State) (e : Event) : Option State :=
  (nextOf (e s)).filter fun t => decide (t.focusOn s.foc ≠ (s.focusOn t.foc).focusOn s.foc)

/-- The turn taken when none is scheduled. -/
def State.auto (s : State) (run : Run) : Picked :=
  match s.events.findSome? s.effect with
  | some t => .spent t
  | none => match (s.pinnedFirst s.knownCores).find? fun p => (s.primaryOf p).isSome && !(s.coreAt p).issued with
    | some p => s.issue run p
    | none => .spent (s.passCycles 1)

/-! Turns. -/

/-- A read of a context's registers fails in both copies (R389): ECC-UNCORRECTABLE at the slot that its bundle has
reached, with which the granger ends the launch. -/
def State.parityFails (s : State) (c : CtxId) : State :=
  let runs := c.ok && match (s.ctxAt c).status with
    | .ready | .waiting _ => true
    | .free | .trapped | .saving _ | .restoring => false
  if !runs then s
  else (s.atCtx c fun t =>
    if t.ctx.ib.isSome then t.stop causeEcc 0 0 else t.refuseBundle causeEcc 0 0 t.lowestLeft).command c 2 causeEcc

/-- A parity error of a die's register files is corrected from the second copy, and counted (R389, Table 15-1). -/
def State.parityRetry (s : State) (d : Nat) : State :=
  let x := s.dieAt d
  s.setDieAt d { x with gecc := countErr x.gecc 63 48 }

/-- The die whose agent an operation is, where a stopped die has it no more (R375): the writes and messages of other agents
that reach it, the host's reset and the power-on reset go on. -/
def eventDie : Instr → Option Nat
  | .issueTurnEnd c | .stampedBundleIssue c | .asyncFaultDelivery c | .dividerFree c | .squareRequestApply c
  | .barrierWaitReturn c | .waitwReturn c | .mwaitReturn c | .rgetWaitReturn c | .lwaitReturn c | .twaitReturn c
  | .doneDrainEnd c | .stmcAcknowledged c | .ldrdReturn c | .preemptDeadline c | .pinnedTaskStart c | .contextSave c
  | .gcmdResume c | .gcmdForward c => some c.die
  | .stmcMemberWrite c _ | .gcmdEnd c _ | .cviewWrite c _ | .ecntWrite c _ | .loadReturn c _ | .harvestAreaExtended c _
  | .taskResume _ _ c => some c.die
  | .bTileStaging p | .passStart p | .matrixRetire p | .cancelledEntryRetire p | .acczExecute p | .accrdExecute p
  | .accwrExecute p | .ppeEntryStart p | .ppstTileComplete p | .hrecTileComplete p | .htagApply p | .traceSample p => some p.die
  | .passCommit p _ | .ringSlotReserve p _ => some p.die
  | .copyOperationStart p _ | .copyUnitDelivery p _ | .copyBarrierReport p _ | .copyCompletion p _ => some p.die
  | .orderedBatchApply d | .heartbeat d | .hostNop d | .hostLaunch d | .hostTear d | .hostResync d | .hostFwstage d
  | .hostFwact d | .hostAttest d | .hostCert d | .configGage d | .configGdead d | .configGqdn d | .configGramp d
  | .configGpmax d | .configGuncore d | .configOtring d | .configOwring d | .configOwmin d => some d
  | .collectiveStart d _ | .collectiveHeaderMatch d _ | .collectiveDataUnit d _ | .xsigTileDelivery d _
  | .collectiveCompletion d _ => some d
  | .launchRecordArrival d _ _ | .holdRequest _ d _ | .patrolScrub d _ _ | .otringWrite d _ | .owringWrite d _ => some d
  | .writePerformed (.perform c _) => some c.die
  | .faultServiced f => some f.who.die
  | _ => none

/-- A turn that `agenda` schedules. -/
def State.turn (s : State) (run : Run) : Turn → Picked
  | .event i => if isEvent i && (eventDie i).all (fun d => !s.dieStopped d) then .event i s else .spent s
  | .issue p => s.issue run p
  | .merge p k => s.merge run p k.val
  | .idle n => .spent (s.passCycles n)
  | .drop d k => .spent (s.dropEntry d k)
  | .retry d => .spent (s.parityRetry d)
  | .parity c => .spent (s.parityFails c)
  | .host d off bs => .spent (s.hostStore d off bs)
  | .hostMem a bs => .spent (s.hostMemory a bs)
  | .flit d port => .spent (s.flitDelivered d port)

/-- What the machine does in its next step. -/
def State.next (s : State) (run : Run) : Picked :=
  if s.going then s.goOn run
  else match s.due with
    | some t => .spent t
    | none => match s.agenda with
      | t :: ts => State.turn { s with agenda := ts } run t
      | [] => s.auto run

/-- After a slot: the primary's bundle goes on or rests, a secondary's slot has merged. -/
def State.after (s : State) : State := if s.going then s.finish else s.finishMerged

/-! Placing an instruction where the next step fetches it. -/

/-- The slot that an instruction's unit allows, the lowest (Table 2-3). -/
def homeSlot (i : Instr) : Nat := match (slotInfo i).unit with
  | some u => u.slots.headD 0
  | none => 0

/-- A bundle of one slot word, ended by its last slot (R21, R22). -/
def bundleWith (k : Nat) (w : SlotWord) : Vector SlotWord 4 :=
  if k = 3 then #v[0, 0, 0, w]
  else if k = 2 then #v[0, 0, w, 0x80000000]
  else if k = 1 then #v[0, w, 0, 0x80000000]
  else #v[w, 0, 0, 0x80000000]

/-- The bytes of a bundle (R21). -/
def bundleBytes (ws : Vector SlotWord 4) : List Byte := ws.toList.flatMap fun w => leBytes 4 w.toNat

/-- The first location of translated memory, where `loadBundle` puts the code range. -/
def loadBase : Word := 0x100000000

/-- The task under which a single bundle runs: its code range is the bundle, its masks name every ring, tile and queue
(log 14). -/
def loadTask : Task :=
  { launch := 0, index := 0, t := 0, c := 0, k := 0, d := 0, stage := 0, shape := 0, codeBase := loadBase,
    codeLen := 16, bale := 4294967296, rmask := 65535, amask := 65535, cqm := 15, xqm := 255, asn := 0, root := 0,
    harea := 0 }

/-- The translation of the code page: a 64 KiB page with read, write and execute rights on the first bytes of the HBM
of the die in focus (R97). -/
def State.loadEntry (s : State) : TlbEntry :=
  ⟨s.foc.core, 0, loadBase.toNat, 65536, 15 + s.qdn s.foc.die * 2 ^ 38⟩

/-- A bundle as the only code of a task in the context in focus, which issues next (log 14). -/
def State.loadBundle (s : State) (ws : Vector SlotWord 4) : State :=
  let gqdn := if s.die.gqdn.getLsbD 4 then s.die.gqdn else word (16 + s.foc.die % 16)
  let s := { s with die := { s.die with gqdn := gqdn, throttled := false, heldOld := [], heldNew := [] } }
  let cs := cellsAt (hbmPlace s.foc.die 0) (bundleBytes ws)
  { s with
    going := false
    ctx := { s.ctx with
      status := .ready, task := some loadTask, pc := loadBase, ib := none, done := 0, slot := 0, slotEnd := .commit
      xfer := none, loopStart := none, eretPend := false, reissue := none, exempt := none, pend := []
      grpR := [], grpW := [], gstart := none }
    core := { s.core with primary := s.foc.ctx, turn := 0, dry := 0, used := [], issued := false }
    die := { s.die with tlb := s.loadEntry :: s.die.tlb }
    mem := Mem.setAll s.mem cs
    poison := s.poison.filter fun p => !(cs.any fun c => wordOf c.1 == p)
    flight := s.flight.filter fun f => !cellsMeet f.cells cs
    agenda := .issue s.foc.coreId :: s.agenda }

end Sys2Proof.Machine
end

