-- ==== Sys2Proof/Machine/Step.lean ====
section
/-! DEFINITION. One step of the machine, and the placing of an instruction for the next one. -/

namespace Sys2Proof.Machine

/-- One step: what `State.next` picks runs through `exec`. -/
def step (s : State) : Host.Outcome State Fault Refusal :=
  match s.next exec with
  | .spent t => .next t
  | .event i t => exec i t
  | .slot i t => match exec i t with
    | .next u => .next u.after
    | .fault f => .fault f
    | .refused r => .refused r

/-- The state with an instruction's bits placed where the next step fetches: alone in a bundle, in the slot of its
unit. -/
def State.withFetchWord (s : State) (nbits w : Nat) : State :=
  match Sys2Proof.decodeTableWord nbits w with
  | none => s
  | some i => s.loadBundle (bundleWith (homeSlot i) (BitVec.ofNat 32 (w % 2 ^ nbits)))

end Sys2Proof.Machine
end

