-- ==== Sys2Proof/Safety.lean ====
section
/-! DEFINITION. What counts as a safe run, in the terms that statements use: a machine whose memory is in its canonical
form, and a step that does not stop. -/

namespace Sys2Proof.Machine

/-- The outcome is a next state. -/
def goesOn (o : Host.Outcome State Fault Refusal) : Bool :=
  match o with
  | .next _ => true
  | .fault _ => false
  | .refused _ => false

/-- The memory keeps its canonical form. -/
def State.memOk (s : State) : Bool := Mem.wf s.mem

end Sys2Proof.Machine
end

