-- ==== Sys2Proof/Certificates/Slice0/Obligations.lean ====
section
/-! DEFINITION. The statements about the machine. The parts of each, and the words they are stated in, stand in the
namespace `Claims`; a part says what an instruction or an agent does in the spec's terms, and an obligation joins the parts
of one subject. -/

namespace Sys2Proof.Claims

open Sys2Proof.Machine

/-! Vocabulary: what an instruction leaves as it was. -/

/-- Every byte of memory reads in `t` as in `s`: to the task in focus at its next access, and at its home. -/
def SameBytes (s t : State) : Prop :=
  ∀ a, t.ownByte t.ctx.seq a = s.ownByte s.ctx.seq a ∧ t.homeByte a = s.homeByte a

/-- `t` is `s` but for the x registers: xd reads `v`, unless it is x0, and every other one reads as before. -/
def WritesX (s t : State) (xd : XReg) (v : Word) : Prop :=
  (∀ r, t.getX r = if r = xd ∧ r ≠ 0 then v else s.getX r) ∧
  t = { s with ctx := { s.ctx with x := t.ctx.x } } ∧ SameBytes s t

/-- `t` is `s` but for the predicates: qd reads `v`, unless it is q0, and every other one reads as before. -/
def WritesQ (s t : State) (qd : Fin 8) (v : Bool) : Prop :=
  (∀ r, t.getQ r = if r = qd ∧ r ≠ 0 then v else s.getQ r) ∧
  t = { s with ctx := { s.ctx with q := t.ctx.q } } ∧ SameBytes s t

/-- A number of `n` bits read with its sign. -/
def signedBits (n : Nat) (v : Nat) : Int := ((v : Int) + 2 ^ (n - 1)) % 2 ^ n - 2 ^ (n - 1)

/-- The width in bits that `sext` and `zext` name (R52). -/
def extWidth : ExtSize → Nat
  | .b => 8
  | .h => 16
  | .w => 32

/-- The register and the value that a scalar instruction writes, in integer arithmetic (R50, R52, R53, R56, R58, R59). -/
def scalarResult (i : Instr) (s : State) : Option (XReg × Word) :=
  let u (r : XReg) : Nat := (s.getX r).toNat
  let z (r : XReg) : Int := (s.getX r).toInt
  match i with
  | .add d a b => some (d, BitVec.ofNat 64 (u a + u b))
  | .sub d a b => some (d, BitVec.ofInt 64 (z a - z b))
  | .smin d a b => some (d, BitVec.ofInt 64 (min (z a) (z b)))
  | .smax d a b => some (d, BitVec.ofInt 64 (max (z a) (z b)))
  | .minu d a b => some (d, BitVec.ofNat 64 (min (u a) (u b)))
  | .maxu d a b => some (d, BitVec.ofNat 64 (max (u a) (u b)))
  | .sext n d a => some (d, BitVec.ofInt 64 (signedBits (extWidth n) (u a)))
  | .zext n d a => some (d, BitVec.ofNat 64 (u a % 2 ^ extWidth n))
  | .mov d a => some (d, BitVec.ofNat 64 (u a))
  | .addi d a imm => some (d, BitVec.ofInt 64 (z a + imm.sval))
  | .li d imm => some (d, BitVec.ofInt 64 imm.sval)
  | .lio d imm => some (d, BitVec.ofNat 64 (u d * (if imm.ext.isSome then 2 ^ 40 else 2 ^ 19) + imm.uval))
  | .sel d q neg a b => some (d, BitVec.ofNat 64 (if xor (s.getQ q) neg then u a else u b))
  | .pget d q => some (d, BitVec.ofNat 64 (s.getQ q).toNat)
  | _ => none

/-- The register and the bits that a bitwise or shift instruction writes, bit by bit (R50, R53 to R55). -/
def scalarBits (i : Instr) (s : State) : Option (XReg × (Nat → Bool)) :=
  let bit (r : XReg) (k : Nat) : Bool := (s.getX r).getLsbD k
  let u (r : XReg) : Nat := (s.getX r).toNat
  let imm (n : Int) (k : Nat) : Bool := (BitVec.ofInt 64 n).getLsbD k
  match i with
  | .band d a b => some (d, fun k => bit a k && bit b k)
  | .bor d a b => some (d, fun k => bit a k || bit b k)
  | .bxor d a b => some (d, fun k => xor (bit a k) (bit b k))
  | .andn d a b => some (d, fun k => bit a k && !bit b k)
  | .shl d a b => some (d, fun k => decide (u b ≤ k) && bit a (k - u b))
  | .shr d a b => some (d, fun k => bit a (k + u b))
  | .sar d a b => some (d, fun k => bit a (min 63 (k + u b)))
  | .rot d a b => some (d, fun k => bit a ((k + u b) % 64))
  | .andi d a n => some (d, fun k => bit a k && imm n.sval k)
  | .ori d a n => some (d, fun k => bit a k || imm n.sval k)
  | .xori d a n => some (d, fun k => xor (bit a k) (imm n.sval k))
  | .shli d a n => some (d, fun k => decide (n.val ≤ k) && bit a (k - n.val))
  | .shri d a n => some (d, fun k => bit a (k + n.val))
  | .sari d a n => some (d, fun k => bit a (min 63 (k + n.val)))
  | .roti d a n => some (d, fun k => bit a ((k + n.val) % 64))
  | .bfx d a pos len => some (d, fun k => decide (k ≤ len.val) && bit a (pos.val + k))
  | .bfi d a pos len =>
    some (d, fun k => if pos.val ≤ k ∧ k ≤ pos.val + len.val then bit a (k - pos.val) else bit d k)
  | _ => none

/-- The predicate and the value that a scalar instruction writes (R57, R59). -/
def scalarTruth (i : Instr) (s : State) : Option (Fin 8 × Bool) :=
  let u (r : XReg) : Nat := (s.getX r).toNat
  let z (r : XReg) : Int := (s.getX r).toInt
  let holds (c : Cond) (ua uy : Nat) (za zy : Int) : Bool := match c with
    | .eq => ua = uy
    | .ne => ua ≠ uy
    | .lt => za < zy
    | .ltu => ua < uy
    | .le => za ≤ zy
    | .leu => ua ≤ uy
  match i with
  | .cmp c q a b => some (q, holds c (u a) (u b) (z a) (z b))
  | .cmpi c q a n => some (q, holds c (u a) (n.sval % 2 ^ 64).toNat (z a) n.sval)
  | .pand q a b => some (q, s.getQ a && s.getQ b)
  | .por q a b => some (q, s.getQ a || s.getQ b)
  | .pxor q a b => some (q, xor (s.getQ a) (s.getQ b))
  | .pandn q a b => some (q, s.getQ a && !s.getQ b)
  | .pset q a => some (q, decide (0 < u a))
  | _ => none

/-! Vocabulary: control. -/

/-- The address that a control transfer goes to when it is taken, and whether it is marked as a return; none for one that
is not taken (R60 to R62). -/
def transferOf (i : Instr) (s : State) : Option (Option (Word × Bool)) :=
  let rel (n : Nat) (v : Nat) : Word := BitVec.ofInt 64 (s.ctx.pc.toInt + 16 * signedBits n v)
  match i with
  | .br q neg off => some (if xor (s.getQ q) neg then some (rel 21 off.val, false) else none)
  | .jmp off => some (some (rel 24 off.val, false))
  | .call off => some (some (rel 24 off.val, false))
  | .jr a => some (some (s.getX a, false))
  | .callr _ a => some (some (s.getX a, false))
  | .ret a => some (some (s.getX a, true))
  | _ => none

/-- The register that a call links the next bundle's address to (R61, R62); x0 where there is none. -/
def linkOf : Instr → XReg
  | .call _ => 63
  | .callr d _ => d
  | _ => 0

/-- The levels of a loop stack from level n on that are active end without a trace; the others stay (R70). -/
def LevelsEnded (lv : Vector LoopLevel 6) (n : Nat) (after : Vector LoopLevel 6) : Prop :=
  ∀ k : Fin 6,
    if n ≤ k.val ∧ lv[k].act then
      after[k].act = false ∧ after[k].rem = 0 ∧ after[k].iter = 0 ∧ after[k].pendRem = none ∧
        after[k].pendStart = none ∧ after[k].pendStop = none ∧
        ∀ j : Fin 4, after[k].pairs[j].valid = false ∧ after[k].pairs[j].pending = none
    else after[k] = lv[k]

/-- The bundle at pc is through with nothing decided for it but what its own slots did: no `eret`, no re-issue. -/
def Plain (s : State) : Prop := s.ctx.reissue = none ∧ s.ctx.eretPend = false

/-- `t` is `s` but for one loop level. -/
def OnlyLevel (s t : State) (n : Fin 6) : Prop :=
  t = { s with ctx := { s.ctx with lv := t.ctx.lv } } ∧ ∀ k : Fin 6, k ≠ n → t.ctx.lv[k] = s.ctx.lv[k]

/-! Vocabulary: traps. -/

/-- The slots of the bundle in issue that hold no instruction, and those above the running one that their qualifier
suppresses for certain and that have no register to zero, count as done (R379; log 56), beside those that are. -/
def DoneMask (s : State) (m : Word) : Prop :=
  ∀ k < 64, m.getLsbD k = (decide (k < 4) && (s.ctx.done.getLsbD k ||
    (s.ctx.ib.any fun ws => isNopWord ws k || (decide (s.ctx.slot < k) && !(slotQual (bundleHeader ws) k).zero &&
      suppressedAt s.ctx.q s.ctx.lv ws s.ctx.done.toNat k))))

/-- The registers of a task read in `t` as in `s`. -/
def SameRegisters (s t : State) : Prop :=
  t.ctx.x = s.ctx.x ∧ t.ctx.q = s.ctx.q ∧ t.ctx.v = s.ctx.v ∧ t.ctx.vtag = s.ctx.vtag ∧ t.ctx.m = s.ctx.m

/-- The context in focus has entered its handler (R380): tvec is the one that the slots committed before have left. -/
def InHandler (t : State) : Prop := t.ctx.inh = true ∧ t.ctx.pc = t.ctx.tvec ∧ t.ctx.status = .ready

/-- The stop of the running slot by PRIV, with nothing changed (R375). -/
def PrivStop (s : State) (o : Host.Outcome State Fault Refusal) : Prop := o = .next (s.stop causePriv 0 0)

/-! Vocabulary: memory. -/

/-- Bytes, lowest first, as a number (R2). -/
def byteSum (f : Nat → Byte) (n : Nat) : Nat := ((List.range n).map fun k => (f k).toNat * 256 ^ k).sum

/-- A number read as `n` bytes, with its sign or without (R101). -/
def loaded (n : Nat) (signed : Bool) (v : Nat) : Word :=
  if signed then BitVec.ofInt 64 (signedBits (8 * n) v) else BitVec.ofNat 64 v

/-- Bytes and sign of the sizes of `ld` and `st` (Table 4-8). -/
def loadSize : LdSize → Nat × Bool
  | .b => (1, true)
  | .bu => (1, false)
  | .h => (2, true)
  | .hu => (2, false)
  | .w => (4, true)
  | .wu => (4, false)
  | .d => (8, false)
def storeSize : StSize → Nat
  | .b => 1
  | .h => 2
  | .w => 4
  | .d => 8

/-- The address that a scalar load or store names: xa and its offset in units of its size (R101). -/
def scaledAddress {m : Nat} (s : State) (a : XReg) (off : Imm m) (n : Nat) : Word :=
  BitVec.ofInt 64 ((s.getX a).toInt + off.sval * n)

/-- `n` bytes at an address lie in the own crib, aligned (Table 4-1, R82). -/
def CribAddress (a : Word) (n align : Nat) : Prop := a.toNat + n ≤ 2097152 ∧ a.toNat % align = 0

/-- A byte of the own crib as the task in focus reads it next. -/
def cribByte (s : State) (o : Nat) : Byte := s.ownByte s.ctx.seq (cribPlace s.foc.coreId o)

/-- Nothing but alignment and place can stop an access of the task in focus: no ordering event holds it back, no watch is
set and no word is poisoned. -/
def Unhindered (s : State) : Prop :=
  s.ctx.points = [] ∧ s.ctx.owa = Vector.replicate 2 0 ∧ s.poison = []

/-- Every byte of memory reads in `t`, after an access of the task in focus, as in `s` at that point of its program
order, and at its home. -/
def SameBytesNext (s t : State) : Prop :=
  t.ctx.seq = s.ctx.seq + 1 ∧ ∀ a, t.ownByte t.ctx.seq a = s.ownByte (s.ctx.seq + 1) a ∧ t.homeByte a = s.homeByte a

/-- `t` is `s` after an access that writes xd with `v` and nothing else. -/
def LoadsX (s t : State) (xd : XReg) (v : Word) : Prop :=
  (∀ r, t.getX r = if r = xd ∧ r ≠ 0 then v else s.getX r) ∧
  t = { s with ctx := { s.ctx with x := t.ctx.x, seq := t.ctx.seq } } ∧ SameBytesNext s t

/-- `t` is `s` after an access whose bytes, at some places, are outstanding: they are to reach a register one word after
another, with zero bytes after them (R103). -/
def LoadAwaits (s t : State) (a : Word) (dest : LoadDest) (places : List Nat) (tail : Nat) : Prop :=
  (∃ l : PendingLoad, t.ctx.loads = s.ctx.loads ++ [l] ∧ l.seq = s.ctx.seq ∧ l.addr = a ∧ l.dest = dest ∧ l.tail = tail ∧
    l.words.flatMap LoadWord.places = places ∧ ∀ w ∈ l.words, w.got = none) ∧
  SameBytesNext s t ∧ SameRegisters s t ∧ t.ctx.pc = s.ctx.pc

/-- `t` is `s` but for the vector registers: vd reads `v` with a tag, the others as before. -/
def OnlyV (s t : State) (vd : VReg) (v : VWord) (tag : BitVec 4) : Prop :=
  t.getV vd = v ∧ t.getTag vd = tag ∧ ∀ r, r ≠ vd → t.getV r = s.getV r ∧ t.getTag r = s.getTag r

/-- `t` is `s` after an access that writes vd and nothing else. -/
def LoadsV (s t : State) (vd : VReg) (v : VWord) (tag : BitVec 4) : Prop :=
  OnlyV s t vd v tag ∧
  t = { s with ctx := { s.ctx with v := t.ctx.v, vtag := t.ctx.vtag, seq := t.ctx.seq } } ∧ SameBytesNext s t

/-- The bytes that a store puts at places: the last one for a place. -/
def StoresBytes (s t : State) (cells : List Host.Cell) : Prop :=
  t.ctx.seq = s.ctx.seq + 1 ∧
  (∀ p b, lastCell cells p = some b → t.ownByte t.ctx.seq p = b) ∧
  (∀ p, (∀ c ∈ cells, c.1 ≠ p) → t.ownByte t.ctx.seq p = s.ownByte (s.ctx.seq + 1) p) ∧
  (∀ p, t.homeByte p = s.homeByte p) ∧ SameRegisters s t ∧ t.ctx.cstat = s.ctx.cstat ∧ t.ctx.pc = s.ctx.pc

/-- Bytes of a vector width (Table 2-4). -/
def vecBytes : Width → Nat
  | .w256 => 32
  | .w512 => 64
  | .w1024 => 128

/-- The number that a byte string below `n` bits makes in a vector register (R2, R106). -/
def vecValue (f : Nat → Byte) (n : Nat) : VWord := BitVec.ofNat 1024 (byteSum f n)

/-! Vocabulary: vectors. -/

/-- Bits of a lane of an element type (R111, Table 2-9). -/
def laneBits : ElTy → Nat
  | .f32 | .i32 | .u32 => 32
  | .bf16 | .f16 | .i16 => 16
  | .i8 | .u8 => 8

/-- Lanes of a width (R111). -/
def laneNumber (et : ElTy) (w : Width) : Nat := vecBytes w * 8 / laneBits et

/-- Lane k of a register whose lanes are `lw` bits wide (R111). -/
def laneAt (v : VWord) (lw k : Nat) : Nat := v.toNat / 2 ^ (lw * k) % 2 ^ lw

/-- A register's first n lanes are as given, and the bits above them are 0 (R111). -/
def LanesAre (v : VWord) (lw n : Nat) (f : Nat → Nat) : Prop := v.toNat < 2 ^ (lw * n) ∧ ∀ k < n, laneAt v lw k = f k

/-- `t` is `s` but for vd, which holds `v` with a tag. -/
def WritesV (s t : State) (vd : VReg) (v : VWord) (tag : BitVec 4) : Prop :=
  OnlyV s t vd v tag ∧ t = { s with ctx := { s.ctx with v := t.ctx.v, vtag := t.ctx.vtag } } ∧ SameBytes s t

/-- A tag is not malformed (R220): its L is at most 5. -/
def Sane (t : BitVec 4) : Prop := t.toNat % 8 ≤ 5

/-- A lane operation: its type, its width, its destination, whether the tags of its operands allow it, the tag it gives
(Table 5-1), and the value of each lane. -/
structure LaneOp (α : Type) where
  et : ElTy
  w : Width
  vd : VReg
  ok : Prop
  tag : BitVec 4
  lane : Nat → α

/-- A lane's value by its type's sign (R117). -/
def laneInt (et : ElTy) (a : Nat) : Int :=
  match et with
  | .i32 => signedBits 32 a
  | .i16 => signedBits 16 a
  | .i8 => signedBits 8 a
  | _ => a

/-- The lanes of an operation on integers or on bits, as integers before they are cut to their width (R120 to R122,
R128, R130, R131). -/
def intLanes (i : Instr) (s : State) : Option (LaneOp Int) :=
  let at_ (et : ElTy) (v : VReg) (k : Nat) : Nat := laneAt (s.getV v) (laneBits et) k
  let z (et : ElTy) (v : VReg) (k : Nat) : Int := laneInt et (at_ et v k)
  let T := s.getTag
  match i with
  | .vadd et w d a b => some ⟨et, w, d, T a = T b ∧ Sane (T a), T a, fun k => z et a k + z et b k⟩
  | .vsub et w d a b => some ⟨et, w, d, T a = T b ∧ Sane (T a), T a, fun k => z et a k - z et b k⟩
  | .vmul et w d a b =>
    some ⟨et, w, d, (T a = 0 ∨ T b = 0) ∧ Sane (T a) ∧ Sane (T b), if T a = 0 then T b else T a, fun k => z et a k * z et b k⟩
  | .vfma et w d a b =>
    some ⟨et, w, d, T a = 0 ∧ T b = 0 ∧ T d = 0, 0, fun k => z et a k * z et b k + z et d k⟩
  | .vfms et w d a b =>
    some ⟨et, w, d, T a = 0 ∧ T b = 0 ∧ T d = 0, 0, fun k => z et a k * z et b k - z et d k⟩
  | .vfnma et w d a b =>
    some ⟨et, w, d, T a = 0 ∧ T b = 0 ∧ T d = 0, 0, fun k => z et d k - z et a k * z et b k⟩
  | .vmin et w d a b => some ⟨et, w, d, T a = 0 ∧ T b = 0, 0, fun k => min (z et a k) (z et b k)⟩
  | .vmax et w d a b => some ⟨et, w, d, T a = 0 ∧ T b = 0, 0, fun k => max (z et a k) (z et b k)⟩
  | .vabs et w d a => some ⟨et, w, d, T a = 0, 0, fun k => (z et a k).natAbs⟩
  | .vneg et w d a => some ⟨et, w, d, Sane (T a), T a, fun k => -(z et a k)⟩
  | .vshl et w d a b => some ⟨et, w, d, T a = 0 ∧ T b = 0, 0, fun k => at_ et a k * 2 ^ at_ et b k⟩
  | .vshr et w d a b => some ⟨et, w, d, T a = 0 ∧ T b = 0, 0, fun k => (at_ et a k / 2 ^ at_ et b k : Nat)⟩
  | .vsar et w d a b =>
    some ⟨et, w, d, T a = 0 ∧ T b = 0, 0, fun k =>
      signedBits (laneBits et) (at_ et a k) / 2 ^ min (at_ et b k) (laneBits et - 1)⟩
  | _ => none

/-- The lanes of an operation that moves or masks bits, whatever their type (R120, R121, R125, R128, R130, R131). -/
def bitLanes (i : Instr) (s : State) : Option (LaneOp Nat) :=
  let at_ (et : ElTy) (v : VReg) (k : Nat) : Nat := laneAt (s.getV v) (laneBits et) k
  let T := s.getTag
  match i with
  | .vand et w d a b => some ⟨et, w, d, T a = 0 ∧ T b = 0, 0, fun k => at_ et a k &&& at_ et b k⟩
  | .vor et w d a b => some ⟨et, w, d, T a = 0 ∧ T b = 0, 0, fun k => at_ et a k ||| at_ et b k⟩
  | .vxor et w d a b => some ⟨et, w, d, T a = 0 ∧ T b = 0, 0, fun k => at_ et a k ^^^ at_ et b k⟩
  | .vandn et w d a b =>
    some ⟨et, w, d, T a = 0 ∧ T b = 0, 0, fun k => at_ et a k ^^^ (at_ et a k &&& at_ et b k)⟩
  | .vcpy et w d a => some ⟨et, w, d, Sane (T a), T a, fun k => at_ et a k⟩
  | .vsel w d a b m =>
    some ⟨.u8, w, d, T a = T b ∧ Sane (T a), T a, fun k => if (s.getM m).getLsbD k then at_ .u8 a k else at_ .u8 b k⟩
  | .vbcast et w d x => some ⟨et, w, d, True, 0, fun _ => (s.getX x).toNat % 2 ^ laneBits et⟩
  | .vperm et w d a b =>
    some ⟨et, w, d, T a = T b ∧ Sane (T a) ∧ T d = 0, T a, fun k =>
      let n := laneNumber et w
      let i := at_ et d k
      if i < n then at_ et a i else if i < 2 * n then at_ et b (i - n) else 0⟩
  | .vshuf p et w d a =>
    let n := laneNumber et w
    let cat (k : Nat) : Nat := if k < n then at_ et d k else at_ et a (k - n)
    match p with
    | .p0 => some ⟨et, w, d, T a = T d ∧ Sane (T a), T a, fun k => if k % 2 = 0 then at_ et d (k / 2) else at_ et a (k / 2)⟩
    | .p1 => some ⟨et, w, d, T a = T d ∧ Sane (T a), T a, fun k =>
        if k % 2 = 0 then at_ et d (n / 2 + k / 2) else at_ et a (n / 2 + k / 2)⟩
    | .p2 => some ⟨et, w, d, T a = T d ∧ Sane (T a), T a, fun k => cat (2 * k)⟩
    | .p3 => some ⟨et, w, d, T a = T d ∧ Sane (T a), T a, fun k => cat (2 * k + 1)⟩
    | .p4 => some ⟨et, w, d, Sane (T a), T a, fun k => at_ et a (n - 1 - k)⟩
    | .p5 => some ⟨et, w, d, Sane (T a), T a, fun k => at_ et a (if k % 2 = 0 then k + 1 else k - 1)⟩
  | .vslide et w d a j =>
    some ⟨et, w, d, T a = T d ∧ Sane (T a), T a, fun k =>
      let n := laneNumber et w
      let i := k + j.val
      if i < n then at_ et a i else if i < 2 * n then at_ et d (i - n) else 0⟩
  | .vcomp et w d a m =>
    let live := (List.range (laneNumber et w)).filter fun k => (s.getM m).getLsbD (k * (laneBits et / 8))
    some ⟨et, w, d, Sane (T a), T a, fun k => match live[k]? with
      | some j => at_ et a j
      | none => 0⟩
  | .vpart et w d m =>
    let live (k : Nat) : Bool := (s.getM m).getLsbD (k * (laneBits et / 8))
    let n := laneNumber et w
    some ⟨et, w, d, True, 0, fun k =>
      ((List.range n).filter live ++ (List.range n).filter fun j => !live j).getD k 0⟩
  | .vgat et w d a b =>
    some ⟨et, w, d, T b = 0 ∧ Sane (T a), T a, fun k => if at_ et b k < laneNumber et w then at_ et a (at_ et b k) else 0⟩
  | .vsct et w d a b =>
    some ⟨et, w, d, T a = T d ∧ Sane (T a) ∧ T b = 0, T a, fun k =>
      match ((List.range (laneNumber et w)).reverse.find? fun j => at_ et b j = k) with
      | some j => at_ et a j
      | none => at_ et d k⟩
  | _ => none

/-- The lanes of a floating operation with the flags of each: the exact result rounded once under RM (R114, R120, R121). -/
def floatLanes (i : Instr) (s : State) : Option (LaneOp (Nat × FlagSet)) :=
  let at_ (et : ElTy) (v : VReg) (k : Nat) : Nat := laneAt (s.getV v) (laneBits et) k
  let val (et : ElTy) (v : VReg) (k : Nat) : FVal := et.fmt.decode (at_ et v k)
  let rm := s.ctx.cstat.toNat % 4
  let T := s.getTag
  match i with
  | .vadd et w d a b =>
    some ⟨et, w, d, T a = T b ∧ Sane (T a), T a, fun k => et.fmt.finish rm (exactAdd rm (val et a k) (val et b k))⟩
  | .vsub et w d a b =>
    some ⟨et, w, d, T a = T b ∧ Sane (T a), T a, fun k => et.fmt.finish rm (exactAdd rm (val et a k) (val et b k).neg)⟩
  | .vmul et w d a b =>
    some ⟨et, w, d, (T a = 0 ∨ T b = 0) ∧ Sane (T a) ∧ Sane (T b), if T a = 0 then T b else T a, fun k =>
      et.fmt.finish rm (exactMul (val et a k) (val et b k))⟩
  | .vfma et w d a b =>
    some ⟨et, w, d, T a = 0 ∧ T b = 0 ∧ T d = 0, 0, fun k =>
      et.fmt.finish rm (exactFma rm (val et a k) (val et b k) (val et d k))⟩
  | .vfms et w d a b =>
    some ⟨et, w, d, T a = 0 ∧ T b = 0 ∧ T d = 0, 0, fun k =>
      et.fmt.finish rm (exactFma rm (val et a k) (val et b k) (val et d k).neg)⟩
  | .vfnma et w d a b =>
    some ⟨et, w, d, T a = 0 ∧ T b = 0 ∧ T d = 0, 0, fun k =>
      et.fmt.finish rm (exactFma rm (val et a k).neg (val et b k) (val et d k))⟩
  | .vmin et w d a b =>
    some ⟨et, w, d, T a = 0 ∧ T b = 0, 0, fun k => et.fmt.minMax false (at_ et a k) (at_ et b k)⟩
  | .vmax et w d a b =>
    some ⟨et, w, d, T a = 0 ∧ T b = 0, 0, fun k => et.fmt.minMax true (at_ et a k) (at_ et b k)⟩
  | .vabs et w d a => some ⟨et, w, d, T a = 0, 0, fun k => (at_ et a k % 2 ^ (laneBits et - 1), FlagSet.none)⟩
  | .vneg et w d a =>
    some ⟨et, w, d, Sane (T a), T a, fun k => ((at_ et a k + 2 ^ (laneBits et - 1)) % 2 ^ laneBits et, FlagSet.none)⟩
  | .vrfn ft w d a j =>
    some ⟨ft.el, w, d, T a = 0 ∧ T d = 0, 0, fun k =>
      refine ft.fmt rm (j.val == 1) (at_ ft.el d k) (at_ ft.el a k)⟩
  | .vrcp g ft w d a => some ⟨ft.el, w, d, T a = 0, 0, fun k => specialLane ft .rcp g (at_ ft.el a k)⟩
  | .vrsq g ft w d a => some ⟨ft.el, w, d, T a = 0, 0, fun k => specialLane ft .rsq g (at_ ft.el a k)⟩
  | .vsqrt g ft w d a => some ⟨ft.el, w, d, T a = 0, 0, fun k => specialLane ft .sqrt g (at_ ft.el a k)⟩
  | .vexp2 g ft w d a => some ⟨ft.el, w, d, T a = 0, 0, fun k => specialLane ft .exp2 g (at_ ft.el a k)⟩
  | .vlog2 g ft w d a => some ⟨ft.el, w, d, T a = 0, 0, fun k => specialLane ft .log2 g (at_ ft.el a k)⟩
  | .vtanh g ft w d a => some ⟨ft.el, w, d, T a = 0, 0, fun k => specialLane ft .tanh g (at_ ft.el a k)⟩
  | .vsigm g ft w d a => some ⟨ft.el, w, d, T a = 0, 0, fun k => specialLane ft .sigm g (at_ ft.el a k)⟩
  | .vgelu g ft w d a => some ⟨ft.el, w, d, T a = 0, 0, fun k => specialLane ft .gelu g (at_ ft.el a k)⟩
  | .vsin g ft w d a => some ⟨ft.el, w, d, T a = 0, 0, fun k => specialLane ft .sin g (at_ ft.el a k)⟩
  | .vcos g ft w d a => some ⟨ft.el, w, d, T a = 0, 0, fun k => specialLane ft .cos g (at_ ft.el a k)⟩
  | _ => none

/-- cstat with the flags of some lanes set (R116, Table 2-13). -/
def withFlags (c : Word) (fs : List FlagSet) : Word :=
  let on (k : Nat) (f : FlagSet → Bool) : Word := if fs.any f then BitVec.ofNat 64 (2 ^ k) else 0
  c ||| on 8 (·.nv) ||| on 9 (·.dz) ||| on 10 (·.ov) ||| on 11 (·.uf) ||| on 12 (·.nx) ||| on 13 (·.nfs) |||
    on 14 (·.als) ||| on 15 (·.sat)

/-- A flag among those of a lane has its FPTE bit set (R116): FPTE is cstat[30:26], over NV, DZ, OF, UF, NX. -/
def Enabled (c : Word) (f : FlagSet) : Prop :=
  (f.nv ∧ c.getLsbD 26) ∨ (f.dz ∧ c.getLsbD 27) ∨ (f.ov ∧ c.getLsbD 28) ∨ (f.uf ∧ c.getLsbD 29) ∨ (f.nx ∧ c.getLsbD 30)

/-- `t` is `s` but for vd and the sticky flags of cstat. -/
def WritesVFlags (s t : State) (vd : VReg) (v : VWord) (tag : BitVec 4) (fs : List FlagSet) : Prop :=
  OnlyV s t vd v tag ∧ t.ctx.cstat = withFlags s.ctx.cstat fs ∧
  t = { s with ctx := { s.ctx with v := t.ctx.v, vtag := t.ctx.vtag, cstat := t.ctx.cstat } } ∧ SameBytes s t

/-- The DOMAIN stop, before any effect (R118). -/
def DomainStop (s : State) (o : Host.Outcome State Fault Refusal) : Prop := o = .next (s.stop causeDomain 0 0)

/-- The lanes of a floating reduction or scan with the flags of each (R129): partial results are kept in binary32, the tree of
`vred` joins halves until one is left, `vscan` adds from the left, and each result is rounded once to its type. -/
def reducedLanes (i : Instr) (s : State) : Option (LaneOp (Nat × FlagSet)) :=
  let rm := s.ctx.cstat.toNat % 4
  let wide (et : ElTy) (w : Width) (v : VReg) : List Nat :=
    (List.range (laneNumber et w)).map fun k => widen et.fmt (laneAt (s.getV v) (laneBits et) k)
  let out (et : ElTy) (r : Nat × FlagSet) : Nat × FlagSet :=
    let o := fmt32.convert et.fmt rm r.1
    (o.1, o.2.or r.2)
  let ok (op : RedOp) (v : VReg) : Prop := if op = .add then Sane (s.getTag v) else s.getTag v = 0
  match i with
  | .vred op et w d a =>
    some ⟨et, w, d, ok op a, s.getTag a, fun k =>
      if k = 0 then out et (redTree (redStep rm et op) 7 (wide et w a) FlagSet.none) else (0, FlagSet.none)⟩
  | .vscan op et w d a =>
    let f := redStep rm et op
    let upTo (k : Nat) : Nat := ((wide et w a).take (k + 1)).tail.foldl (fun p x => (f p x).1) ((wide et w a).headD 0)
    some ⟨et, w, d, ok op a, s.getTag a, fun k =>
      out et (upTo k, if k = 0 then FlagSet.none else (f (upTo (k - 1)) ((wide et w a).getD k 0)).2)⟩
  | _ => none

/-- A floating operation of lanes with no enabled flag writes each lane below W, zero above W, its tag and its flags; operands
whose tags it refuses raise DOMAIN before any effect (R114, R116, R118). -/
def FloatWrite (s : State) (o : LaneOp (Nat × FlagSet)) (r : Host.Outcome State Fault Refusal) : Prop :=
  let n := laneNumber o.et o.w
  let fs := (List.range n).map fun k => (o.lane k).2
  (¬o.ok → DomainStop s r) ∧
  (o.ok → (∀ f ∈ fs, ¬Enabled s.ctx.cstat f) →
    ∃ t v, r = .next t ∧ WritesVFlags s t o.vd v o.tag fs ∧
      LanesAre v (laneBits o.et) n fun k => (o.lane k).1 % 2 ^ laneBits o.et)

/-- Where a lane raises a flag whose FPTE bit is set, the slot stops with FP-TRAP: the flags join those of `c` in cstat, no
register is written, and the detail has the flags raised and the lowest lane that raised an enabled one (R116). -/
def EnabledStops (s : State) (c : Word) (n : Nat) (flag : Nat → FlagSet) (r : Host.Outcome State Fault Refusal) : Prop :=
  let fs := (List.range n).map flag
  ∀ j < n, Enabled s.ctx.cstat (flag j) → (∀ k < j, ¬Enabled s.ctx.cstat (flag k)) →
    ∃ t, r = .next t ∧ t.ctx.trap.cause = 0x18 ∧ t.ctx.trap.addr = 0 ∧
      t.ctx.trap.info = BitVec.ofNat 64
        ((fs.any (·.nv)).toNat + (fs.any (·.dz)).toNat * 2 + (fs.any (·.ov)).toNat * 4 + (fs.any (·.uf)).toNat * 8 +
          (fs.any (·.nx)).toNat * 16 + j * 256) ∧
      SameRegisters s t ∧ (s.ctx.defer = [] → t.ctx.cstat = withFlags c fs)

/-- An enabled flag of a floating operation of lanes stops its slot (R116). -/
def FloatTrap (s : State) (o : LaneOp (Nat × FlagSet)) (r : Host.Outcome State Fault Refusal) : Prop :=
  o.ok → EnabledStops s s.ctx.cstat (laneNumber o.et o.w) (fun k => (o.lane k).2) r

/-! Vocabulary: conversion. -/

/-- A conversion of elements: the width of its codes, how many it writes, its destination, its source and each code with its
flags (R153, R160). -/
structure CodeOp where
  bits : Nat
  n : Nat
  vd : VReg
  va : VReg
  code : Nat → Nat × FlagSet

/-- The codes that `vcvt`, `cbq` and `cbx` write: each the source element's value encoded under the rounding named (R147,
R153, R160). -/
def codesWritten (i : Instr) (s : State) : Option CodeOp :=
  let rm := s.ctx.cstat.toNat % 4
  let threshold (k : Nat) : Nat := ditherAt ((k + s.ctx.phase.toNat) % 256)
  match i with
  | .vcvt src dst rnd sat dith w d a =>
    some ⟨dst.bits, vecBytes w * 8 / max src.bits dst.bits, d, a, fun k =>
      fmtEncode dst 0 (if dith then .dither (threshold k) else .mode rnd.code) sat (src.kind == .integer)
        (fmtDecode src 0 (laneAt (s.getV a) src.bits k))⟩
  | .cbq two et w d a b =>
    let f : Fmt := if two then .cb2 else .cb4
    some ⟨f.bits, laneNumber et w, d, a, fun k =>
      fmtEncode f s.ctx.cb[b] (.mode 0) false false (et.fmt.decode (laneAt (s.getV a) (laneBits et) k))⟩
  | .cbx two et w d a b =>
    let f : Fmt := if two then .cb2 else .cb4
    some ⟨laneBits et, laneNumber et w, d, a, fun k =>
      fmtEncode (ElTy.toFmt et) 0 (.mode rm) false false (fmtDecode f s.ctx.cb[b] (laneAt (s.getV a) f.bits k))⟩
  | _ => none

/-- A register's descriptor is replaced: its low 128 bits are `q`, the bits above stay (R151, R157). -/
def DescIs (before after : VWord) (q : Nat) : Prop :=
  after.toNat % 2 ^ 128 = q % 2 ^ 128 ∧ after.toNat / 2 ^ 128 = before.toNat / 2 ^ 128

/-- No floating exception is enabled in cstat (R116). -/
def NoTraps (s : State) : Prop := s.ctx.cstat.toNat / 2 ^ 26 % 32 = 0

/-! Vocabulary: the matrix queue and rings. -/

/-- The task in focus may name a ring, and tiles (R38); none on the granger's core, which has no array (R11; log 62). -/
def RingGranted (s : State) (r : Fin 16) : Prop :=
  s.foc.core ≠ 96 ∧ ∃ t, s.ctx.task = some t ∧ t.rmask.testBit r.val = true
def TilesGranted (s : State) (first n : Nat) : Prop :=
  s.foc.core ≠ 96 ∧ ∃ t, s.ctx.task = some t ∧ ∀ k, first ≤ k → k < first + n → t.amask.testBit k = true

/-- The slot waits at issue with nothing done; its context waits for `w` (R354). But for the record of a wait that it had
before, if one is still owed (R428), nothing else changes. -/
def HeldFor (s : State) (o : Host.Outcome State Fault Refusal) (w : Wait) : Prop :=
  ∃ t, o = .next t ∧ t.ctx.slotEnd = .hold ∧ t.ctx.status = .waiting w ∧ t.core = s.core ∧ SameRegisters s t ∧
    (s.ctx.owed = none →
      t = { s with ctx := { s.ctx with
        slotEnd := .hold, status := .waiting w, waitStart := t.ctx.waitStart, setter := t.ctx.setter } } ∧ SameBytes s t)

/-- The slot is held with its context ready, by an ordering event before it, with nothing done (R283, R354). -/
def HeldBack (s : State) (o : Host.Outcome State Fault Refusal) : Prop :=
  o = .next { s with ctx := { s.ctx with slotEnd := .hold } }

/-- The slot waits with nothing else done: its context waits for `w` (R354). -/
def WaitsFor (s : State) (o : Host.Outcome State Fault Refusal) (w : Wait) : Prop :=
  ∃ t, o = .next t ∧ t.ctx.slotEnd = .wait ∧ t.ctx.status = .waiting w ∧ t.core = s.core ∧ SameRegisters s t ∧
    (s.ctx.owed = none →
      t = { s with ctx := { s.ctx with
        slotEnd := .wait, status := .waiting w, waitStart := t.ctx.waitStart, setter := t.ctx.setter } } ∧ SameBytes s t)

/-- The ACCESS stop with a reason and nothing else (R38, Table 4-3). -/
def AccessStop (s : State) (o : Host.Outcome State Fault Refusal) (reason : Nat) : Prop :=
  o = .next (s.stop causeAccess 0 (BitVec.ofNat 64 reason))

/-- An operation enters the matrix queue last, not yet begun, and takes the next issue number of its context; nothing but
the claims of rings changes besides (R194). -/
def QueuesMatrix (s t : State) (op : MqOp) : Prop :=
  (∃ e, t.core.mq = s.core.mq ++ [e] ∧ e.op = op ∧ e.who = s.foc ∧ e.bundle = s.ctx.pc ∧ e.slot = s.ctx.slot ∧
    e.opn = s.ctx.opn[5] ∧
    e.staged = none ∧ e.fetched = [] ∧ e.starts = [] ∧ e.bread = none ∧ e.aread = none ∧ e.committed = 0 ∧ e.fault = none ∧ e.cancelled = false) ∧
  t.ctx.opn = s.ctx.opn.set 5 (s.ctx.opn[5] + 1) ∧
  t = { s with ctx := { s.ctx with opn := t.ctx.opn }
               core := { s.core with mq := t.core.mq, ord := t.core.ord, rings := t.core.rings } } ∧ SameBytes s t

/-- A pair of words that `rset` installs (R213): ROLE, NSLOT, SLOTB, BASE, the reserved bits, and the ends of the slots and
of the records. -/
def RingWords (cfg side : Word) : Prop :=
  let c := cfg.toNat
  let role := c / 2 ^ 48 % 4
  let n := c / 2 ^ 40 % 128
  let slotb := c / 2 ^ 32 % 256
  let base := c % 2 ^ 21
  let recs := if role = 0 then 32 else if role = 1 then 256 else 0
  role ≠ 3 ∧ (∃ k ≤ 6, n = 2 ^ k) ∧ slotb ≠ 0 ∧ base % 4096 = 0 ∧ c / 2 ^ 21 % 2 ^ 11 = 0 ∧ c / 2 ^ 47 % 2 = 0 ∧
    c / 2 ^ 50 % 2 ^ 6 = 0 ∧ side.toNat < 2 ^ 14 ∧ base + n * slotb * 4096 ≤ 2 ^ 21 ∧ side.toNat + n * recs ≤ 16384

/-- Slots in use of a ring (R190). -/
def Occupied (r : Ring) : Nat := (r.tail + 2 ^ 32 - r.head % 2 ^ 32) % 2 ^ 32

/-- Every ring but one is in `t` as in `s`. -/
def OtherRings (s t : State) (n : Fin 16) : Prop := ∀ r, r ≠ n → t.core.rings[r] = s.core.rings[r]

/-! Vocabulary: the post-processing queue. -/

/-- An operation enters the post-processing queue last, not yet begun, and takes the next issue number of its context
(R223). -/
def QueuesStore (s t : State) (op : PpOp) : Prop :=
  (∃ e, t.core.ppq = s.core.ppq ++ [e] ∧ e.op = op ∧ e.who = s.foc ∧ e.bundle = s.ctx.pc ∧ e.slot = s.ctx.slot ∧
    e.opn = s.ctx.opn[4] ∧ e.started = false ∧ e.units = 0 ∧ e.reserved = none ∧ e.fault = none) ∧
  t.ctx.opn = s.ctx.opn.set 4 (s.ctx.opn[4] + 1) ∧
  t = { s with ctx := { s.ctx with opn := t.ctx.opn, pp := t.ctx.pp, phase := t.ctx.phase }
               core := { s.core with ppq := t.core.ppq, ord := t.core.ord } } ∧ SameBytes s t

/-! Vocabulary: the copy engine. -/

/-- The task in focus may name a copy queue (R237). -/
def QueueGranted (s : State) (q : Nat) : Prop := ∃ t, s.ctx.task = some t ∧ t.cqm.testBit q = true

/-- A copy command: its kind, its ORD and SIG, its queue, its operands, and its shape, of which `cpsig` has none
(Table 10-3). -/
def copyCommand (i : Instr) (s : State) :
    Option (CopyKind × Bool × Bool × Fin 4 × XReg × XReg × Vector Word 4) :=
  match i with
  | .cp q a b sh g => some (.cp, false, g, q, a, b, s.ctx.sh[sh])
  | .cpt q a b sh g => some (.cpt, false, g, q, a, b, s.ctx.sh[sh])
  | .cpx q a b sh g => some (.cpx, false, g, q, a, b, s.ctx.sh[sh])
  | .cpg q a b sh g => some (.cpg, false, g, q, a, b, s.ctx.sh[sh])
  | .cps o q a b sh g => some (.cps, o, g, q, a, b, s.ctx.sh[sh])
  | .cpr o q a b sh g => some (.cpr, o, g, q, a, b, s.ctx.sh[sh])
  | .cpsig q a b => some (.cpsig, false, false, q, a, b, Vector.replicate 4 0)
  | .tmv q a b sh g => some (.tmv, false, g, q, a, b, s.ctx.sh[sh])
  | _ => none

/-- An operation with these operands, not yet begun (R241). -/
def NewCopy (s : State) (c : CopyKind × Bool × Bool × Fin 4 × XReg × XReg × Vector Word 4) (e : CopyOp) : Prop :=
  e.kind = c.1 ∧ e.ord = c.2.1 ∧ e.sig = c.2.2.1 ∧ e.xa = s.getX c.2.2.2.2.1 ∧ e.xb = s.getX c.2.2.2.2.2.1 ∧
    e.shape = c.2.2.2.2.2.2 ∧ e.who = s.foc ∧ e.view = s.ctx.cview ∧ e.slot = s.ctx.slot ∧ e.seq = s.ctx.seq ∧
    e.opn = s.ctx.opn[c.2.2.2.1.val] ∧ e.state = .queued ∧ e.units = 0 ∧ e.bytes = 0 ∧ e.cause = 0 ∧ e.reserved = none ∧
    e.ahead = [] ∧ e.applied = [] ∧ e.entries = if c.1 = .cp then s.myEntries else []

/-- No operation of the context in focus in a queue has stopped with a fault. -/
def NoFaulted (s : State) (q : Fin 8) : Prop :=
  (∀ r ∈ s.records q, r.state ≠ .faulted) ∧ (q = 5 → ∀ e ∈ s.core.mq, e.who = s.foc → e.fault = none)

/-- A word of Table 10-6: STATE, CAUSE, OPN and UNITS. -/
def progressWord (r : Progress) : Word :=
  let st : Nat := match r.state with
    | .none => 0
    | .queued => 1
    | .running => 2
    | .faulted => 3
    | .done => 4
    | .cancelled => 5
  BitVec.ofNat 64 (st + r.cause % 2 ^ 8 * 2 ^ 8 + r.opn % 2 ^ 16 * 2 ^ 16 + r.units % 2 ^ 16 * 2 ^ 32)

/-! Vocabulary: Square space. -/

/-- A request to a Square: what it does, its width, its ordering, the register of its address, its alignment, whether it
may go to the other die, and the register of what it returns (Tables 12-1, 12-2, R293 to R309). -/
structure SquareForm where
  op : SqOp
  dbl : Bool
  acq : Bool
  rel : Bool
  xa : XReg
  align : Nat
  pkg : Bool
  xd : XReg

/-- The request that an instruction makes at once; none for one that makes none, and for a `barinit` whose count R306
refuses. -/
def squareForm (i : Instr) (s : State) : Option SquareForm :=
  let n (dbl : Bool) : Nat := if dbl then 8 else 4
  let low (dbl : Bool) (r : XReg) : Word := BitVec.ofNat 64 ((s.getX r).toNat % 256 ^ n dbl)
  let amo (k : Nat) (w a r : Bool) (d p b : XReg) : Option SquareForm :=
    some ⟨.int k (low w b) (low w d), w, a, r, p, n w, true, d⟩
  match i with
  | .amoadd w a r d p b => amo 0 w a r d p b
  | .amoand w a r d p b => amo 1 w a r d p b
  | .amoor w a r d p b => amo 2 w a r d p b
  | .amoxor w a r d p b => amo 3 w a r d p b
  | .amomin w a r d p b => amo 4 w a r d p b
  | .amomax w a r d p b => amo 5 w a r d p b
  | .amominu w a r d p b => amo 6 w a r d p b
  | .amomaxu w a r d p b => amo 7 w a r d p b
  | .amoswap w a r d p b => amo 8 w a r d p b
  | .amocas w a r d p b => amo 9 w a r d p b
  | .amofadd o w c d p b =>
    some ⟨if o then .ordered (low w b) else .float 0 (low w b), w, false, false, p, n w, c == .pkg, if o then 0 else d⟩
  | .amofmin w c d p b => some ⟨.float 1 (low w b), w, false, false, p, n w, c == .pkg, d⟩
  | .amofmax w c d p b => some ⟨.float 2 (low w b), w, false, false, p, n w, c == .pkg, d⟩
  | .redfadd o w c p b =>
    some ⟨if o then .ordered (low w b) else .float 0 (low w b), w, false, false, p, n w, c == .pkg, 0⟩
  | .binadd w c p b => some ⟨.binAdd (low w b), w, false, false, p, 32, c == .pkg, 0⟩
  | .binfold w c d p => some ⟨.binFold, w, false, false, p, 32, c == .pkg, d⟩
  | .bininit c p b => some ⟨.binInit (s.getX b), false, false, false, p, 32, c == .pkg, 0⟩
  | .barinit p b =>
    let v := (s.getX b).toNat
    if v % 2 ^ 20 = 0 ∨ 2 ^ 20 ≤ v then none else some ⟨.barInit (s.getX b), false, false, true, p, 16, true, 0⟩
  | .arrive d p => some ⟨.arrive false, false, false, true, p, 16, true, d⟩
  | .bexpect p b => some ⟨.expect (s.getX b), false, false, true, p, 16, true, 0⟩
  | _ => none

/-- The ordered adds among them join their task's pending set, with what they return to (R295). -/
def orderedOf (i : Instr) (s : State) : Option (XReg × Word) :=
  let low (dbl : Bool) (r : XReg) : Word := BitVec.ofNat 64 ((s.getX r).toNat % 256 ^ (if dbl then 8 else 4))
  match i with
  | .amofadd o w _ d _ b => if o then some (d, low w b) else none
  | .redfadd o w _ _ b => if o then some (0, low w b) else none
  | _ => none

/-- The address of a Square request passes the checks of R288 and names a place. -/
def SquareAddress (s : State) (a : Word) (align : Nat) (pkg : Bool) (p : Nat) : Prop :=
  a.toNat < 2 ^ 32 ∧ s.checkSquare a align pkg = .ok p

/-- A request enters the Square queue of the context in focus last, with its number and its place in program order (R287).
-/
def QueuesSquare (s t : State) (op : SqOp) (dbl acq rel : Bool) (a : Word) (p : Nat) (xd : XReg) : Prop :=
  (∃ r, t.ctx.sq = s.ctx.sq ++ [r] ∧ r.op = op ∧ r.dbl = dbl ∧ r.acq = acq ∧ r.rel = rel ∧ r.addr = a ∧ r.place = p ∧
    r.xd = (if xd = 0 then none else some xd) ∧ r.seq = s.ctx.seq ∧ r.opn = s.ctx.opn[6] ∧ r.slot = s.ctx.slot ∧
    r.bundle = s.ctx.pc ∧ r.fault = none) ∧
  t.ctx.opn = s.ctx.opn.set 6 (s.ctx.opn[6] + 1) ∧ t.ctx.seq = s.ctx.seq + 1

/-- An arrival claims the pending ordered adds that no earlier arrival has (Table 12-4). -/
def ClaimsAdds (s t : State) : Prop :=
  t.ctx.ordSet = s.ctx.ordSet.map fun a => { a with claim := some (a.claim.getD s.ctx.opn[6]) }

/-- The place of a word that a `waitw` may test or a `wake` may name: in the own crib, or in Square space (R310, R311). -/
def WordPlace (s : State) (a : Word) (n p : Nat) : Prop :=
  (CribAddress a n n ∧ p = cribPlace s.foc.coreId a.toNat) ∨ SquareAddress s a n true p

/-- A word of a crib or of Square space as the task in focus reads it (R265, R291). -/
def wordAt (s : State) (p n : Nat) : Nat :=
  byteSum (fun k => if 2 ^ 67 ≤ p ∧ p < 2 ^ 68 then s.homeByte (p + k) else s.seenByte s.foc.die (p + k)) n

/-- The ordering events before and after a request (R292, Table 11-3). -/
def squarePoints (s : State) (acq rel : Bool) (p : Nat) : List OrderPoint :=
  let sc : Scope := if (p - 2 ^ 67) / 2 ^ 26 = s.foc.die then .die else .pkg
  (if rel then [⟨.rel, sc, s.ctx.seq⟩] else []) ++ if acq then [⟨.acq, sc, s.ctx.seq + 1⟩] else []

/-- The 16 bytes of a barrier object, and its fields (Table 12-6). -/
def barrierObject (s : State) (p : Nat) : Nat := byteSum (fun k => s.homeByte (p + k)) 16

/-- The condition of a `waitw` on the low bytes of a word and of its operand (R310). -/
def wordCondition (c : WCond) (n v y : Nat) : Prop :=
  let z (x : Nat) : Int := signedBits (8 * n) x
  match c with
  | .eq => v % 256 ^ n = y % 256 ^ n
  | .ne => v % 256 ^ n ≠ y % 256 ^ n
  | .ltu => v % 256 ^ n < y % 256 ^ n
  | .geu => y % 256 ^ n ≤ v % 256 ^ n
  | .lt => z v < z y
  | .ge => z y ≤ z v

/-! Vocabulary: the collective engine. -/

/-- The ENGINE-FAULT of a fabric instruction at issue, with its reason (R326, Table 10-5). -/
def FabricStop (s : State) (o : Host.Outcome State Fault Refusal) (reason : Nat) : Prop :=
  o = .next (s.stop causeEngine 0
    (BitVec.ofNat 64 (s.ctx.opn[7] % 2 ^ 16 + reason * 2 ^ 24 + 7 * 2 ^ 47 + s.ctx.slot * 2 ^ 50)))

/-- The 64 bytes of a descriptor as the task in focus reads them. -/
def descriptorAt (s : State) (a : Word) : Nat := byteSum (fun k => cribByte s (a.toNat + k)) 64

/-- An entry joins the collective issue queue of the context in focus, after those that stay, with the next number. -/
def QueuesFabric (s t : State) (stay : List XiEntry) (op : XiOp) : Prop :=
  (∃ e, t.ctx.xiq = stay ++ [e] ∧ e.op = op ∧ e.opn = s.ctx.opn[7] ∧ e.slot = s.ctx.slot ∧ e.seq = s.ctx.seq ∧
    e.fault = none ∧ e.rootNo = none) ∧ t.ctx.opn = s.ctx.opn.set 7 (s.ctx.opn[7] + 1)

/-- A collective instruction: its kind, its ORD, its queue and its descriptor's register (R325). -/
def collectiveOf : Instr → Option (XKind × Bool × Fin 8 × XReg)
  | .xag q a => some (.allGather, false, q, a)
  | .xrs o q a => some (.reduceScatter, o, q, a)
  | .xar o q a => some (.allReduce, o, q, a)
  | .xbc q a => some (.broadcast, false, q, a)
  | _ => none

/-- A descriptor that R326 admits for a collective of `n` members that goes to memory, with ranges that lie apart. -/
def GoodDescriptor (kind : XKind) (v n : Nat) : Prop :=
  let src := v % 2 ^ 64
  let dst := v / 2 ^ 64 % 2 ^ 64
  let ctl := v / 2 ^ 128 % 2 ^ 64
  let fmt := fmtOfCode (ctl / 2 ^ 52 % 16)
  let count := ctl % 2 ^ 32
  let block := count * fmt.bits / 8
  let reduces := kind = .reduceScatter ∨ kind = .allReduce
  let srcLen := if kind = .reduceScatter then n * block else block
  let dstLen := if kind = .allGather then n * block else block
  v / 2 ^ 256 = 0 ∧ ctl / 2 ^ 60 = 0 ∧ ctl / 2 ^ 51 % 2 = 0 ∧ count ≠ 0 ∧ count * fmt.bits % 8 = 0 ∧
    (reduces → (fmt = .fp32 ∨ fmt = .bf16 ∨ fmt = .fp16) ∧ ctl / 2 ^ 56 % 4 ≠ 3) ∧
    (kind = .broadcast → ctl / 2 ^ 32 % 2 ^ 16 < n) ∧ (src + srcLen ≤ dst ∨ dst + dstLen ≤ src)

/-! Vocabulary: system registers. -/

/-- A power in mW, rounded down, as a 32-bit field (R401, Table 16-2). -/
def milliwatts (n : Nat) : Nat := n / 194560 % 2 ^ 32

/-- `gslot` (Table 16-2) and `gstat` (Table 16-4) of the die in focus as they stand. -/
def governorWords (s : State) : Word × Word :=
  let d := s.die
  let p := s.pkgAt (s.foc.die / 2)
  let grants : Nat := ((d.grants.filter fun g => g.expires.isSome).map Grant.left).sum
  (BitVec.ofNat 64 (milliwatts p.pool + milliwatts grants * 2 ^ 32),
    BitVec.ofNat 64 (d.fmiss.toNat + 2 * d.pmx.toNat + d.balt % 2 ^ 16 * 2 ^ 16 + d.thrt % 2 ^ 16 * 2 ^ 32 +
      p.viol % 2 ^ 16 * 2 ^ 48))

/-- The registers that a task may read, by number (Tables 15-1, 15-2, 16-2 to 16-4, 17-1), with a value of `cstat` and of
`ecnt`: a task reads those as its group found them (R6, R416), the controller those of a selected context as they
stand. -/
def systemRegisters (s : State) (cstat : Word) (ecnt : Nat) : List (Nat × Word) :=
  let c := s.ctx
  let k := s.core
  let d := s.die
  let p := s.pkgAt (s.foc.die / 2)
  let w (n : Nat) : Word := BitVec.ofNat 64 n
  let near (j : Nat) : Nat := (s.dieAt (2 * (s.foc.die / 2) + j)).pLast
  [(0x000, cstat), (0x001, c.cview),
    (0x002, w (c.inh.toNat + 2 * (!c.pend.isEmpty).toNat + 4 * c.fwd.toNat)), (0x003, c.tvec), (0x004, c.tscr[0]),
    (0x005, c.tscr[1]), (0x008, c.trap.cause), (0x009, c.trap.bundle), (0x00a, c.trap.slot), (0x00b, c.trap.done),
    (0x00c, c.trap.addr), (0x00d, c.trap.info), (0x00e, c.trap.next), (0x040, w ecnt),
    (0x041, w (s.eidleOf d k)), (0x042, w k.ebal), (0x043, w k.bcyc), (0x044, w (milliwatts (near 0 + near 1) + milliwatts d.pLast * 2 ^ 32)),
    (0x045, (governorWords s).1), (0x046, (governorWords s).2),
    (0x048, w d.estat), (0x049, w (p.rate + p.burst * 2 ^ 16)), (0x04a, w p.pmax), (0x04b, w d.guncore),
    (0x050, BitVec.ofInt 64 (s.cycle - k.ocycBase)), (0x051, k.obnd), (0x052, k.omrg), (0x053, k.ospl), (0x054, k.otrm),
    (0x055, k.oskr), (0x056, k.orst), (0x057, k.oqst), (0x058, k.othr), (0x059, k.otag), (0x060, k.otctl),
    (0x064, c.obk[0]), (0x065, c.obk[1]), (0x066, c.owa[0]), (0x067, c.owa[1]), (0x068, w d.owmin), (0x06a, d.otring),
    (0x06b, d.owring)]

/-- Numbers below 0x100 that name a register: those above, and the tails of the two record areas. -/
def NamedRegister (s : State) (n : Nat) : Prop :=
  n ∈ (systemRegisters s 0 0).map Prod.fst ∨ n = 0x06c ∨ n = 0x06d

/-- `t` is `s` but for xd and the place in program order and the acquire that a read of a tail makes (R424, R428). -/
def ReadsTail (s t : State) (xd : XReg) (v : Word) : Prop :=
  (∀ r, t.getX r = if r = xd ∧ r ≠ 0 then v else s.getX r) ∧ SameBytesNext s t ∧
  t.ctx.points = s.ctx.points ++ [⟨.acq, .die, s.ctx.seq + 1⟩] ∧
  t = { s with ctx := { s.ctx with x := t.ctx.x, seq := t.ctx.seq, points := t.ctx.points } }

/-- Bits of a word, kept or replaced: the bits of `v` where the mask has ones, those of `u` elsewhere. -/
def BitsAre (w : Word) (f : Nat → Bool) : Prop := ∀ k < 64, w.getLsbD k = f k

/-- Nothing is to happen at the end of the running group. -/
def NoDeferred (s : State) : Prop := s.ctx.defer = []

/-- A write that the next group is the first to see (R377): nothing changes but what waits for the end of the group. -/
def Defers (s t : State) : Prop := t = { s with ctx := { s.ctx with defer := t.ctx.defer } } ∧ SameBytes s t

/-! Vocabulary: operations of agents. -/

/-- The first element of a list with a property. -/
def FirstIn {α : Type} (l : List α) (P : α → Prop) (e : α) : Prop := ∃ a b, l = a ++ e :: b ∧ P e ∧ ∀ f ∈ a, ¬P f

/-- Memory holds in `t` what it holds in `s`, for every die. -/
def SameStore (s t : State) : Prop := t.mem = s.mem ∧ t.flight = s.flight ∧ t.poison = s.poison

/-- The contexts, cores, dies and packages, the launches and memory are in `t` as in `s`, whatever is in focus. -/
def SameMachine (s t : State) : Prop :=
  (∀ c, t.ctxAt c = s.ctxAt c) ∧ (∀ p, t.coreAt p = s.coreAt p) ∧ (∀ d, t.dieAt d = s.dieAt d) ∧ t.pkgs = s.pkgs ∧
  t.launches = s.launches ∧ t.groups = s.groups ∧ t.hist = s.hist ∧ t.cycle = s.cycle ∧ t.fresh = s.fresh ∧ SameStore s t

/-- The instruction of the slot that the context in focus stands at. -/
def AtSlot (s : State) (i : Instr) : Prop := ∃ ws, s.ctx.ib = some ws ∧ slotInstrD ws s.ctx.slot = i

/-- The context in focus makes an access that acquires, with a predicate written. -/
def acquired (s : State) (sc : Scope) : State :=
  { s with ctx := { s.ctx with seq := s.ctx.seq + 1, points := s.ctx.points ++ [⟨.acq, sc, s.ctx.seq + 1⟩] } }

/-- The scope of an ordering event on Square space (Table 11-3). -/
def squareReach (s : State) (p : Nat) : Scope := if (p - 2 ^ 67) / 2 ^ 26 = s.foc.die then .die else .pkg

/-- Every operation of an agent that names an agent the quarter does not have. -/
def absentAgent (i : Instr) : Prop :=
  let noCtx (c : CtxId) : Prop := ¬(c.die < 16 ∧ c.core ≤ 96 ∧ c.ctx < 4)
  let noCore (p : CoreId) : Prop := ¬(p.die < 16 ∧ p.core ≤ 96)
  match i with
  | .issueTurnEnd c | .stampedBundleIssue c | .asyncFaultDelivery c | .dividerFree c | .squareRequestApply c
  | .barrierWaitReturn c | .waitwReturn c | .mwaitReturn c | .rgetWaitReturn c | .lwaitReturn c | .twaitReturn c
  | .doneDrainEnd c | .stmcAcknowledged c | .ldrdReturn c | .preemptDeadline c | .pinnedTaskStart c | .contextSave c
  | .gcmdResume c | .gcmdForward c => noCtx c
  | .gcmdEnd c _ | .cviewWrite c _ | .ecntWrite c _ | .loadReturn c _ | .harvestAreaExtended c _ => noCtx c
  | .taskResume _ _ c => noCtx c
  | .stmcMemberWrite c m => noCtx c ∨ 8208 ≤ m
  | .bTileStaging p | .passStart p | .passCommit p _ | .matrixRetire p | .cancelledEntryRetire p | .acczExecute p
  | .accrdExecute p | .accwrExecute p | .ringSlotReserve p _ | .ppeEntryStart p | .ppstTileComplete p
  | .hrecTileComplete p | .htagApply p | .copyOperationStart p _ | .copyUnitDelivery p _ | .copyBarrierReport p _
  | .copyCompletion p _ | .traceSample p => noCore p
  | .orderedBatchApply d | .lockLoss d | .heartbeat d | .commandRingPoll d | .grantExpiry d | .hostNop d | .hostLaunch d
  | .hostTear d | .hostResync d | .hostFwstage d | .hostFwact d | .hostAttest d | .hostCert d | .configGage d
  | .configGdead d | .configGqdn d | .configGramp d | .configGpmax d | .configGuncore d | .configOtring d
  | .configOwring d | .configOwmin d | .hostReset d => 16 ≤ d
  | .collectiveStart d _ | .collectiveHeaderMatch d _ | .collectiveDataUnit d _ | .xsigTileDelivery d _
  | .collectiveCompletion d _ | .peerCancel d _ | .ptpSyncMessage d _ | .bootStageAdvance d _ | .otringWrite d _
  | .owringWrite d _ | .quarterDieNumberMessage d _ => 16 ≤ d
  | .launchRecordArrival d _ _ | .patrolScrub d _ _ => 16 ≤ d
  | .holdRequest _ d _ => 16 ≤ d
  | .flitRetry d port | .lanePause d port _ | .fabricPathFailed d port => 16 ≤ d ∨ 18 ≤ port
  | .governorTick p | .grampWrite p _ => 8 ≤ p
  | .writePerformed (.perform c _) => noCtx c
  | .writePerformed (.reach _ d) => 16 ≤ d
  | .faultServiced f => noCtx f.who
  | .switchGroupInstall g => ∃ m ∈ g.members, 8208 ≤ m
  | _ => False

/-- A context of a core is in focus, for the work of an entry of its queues. -/
def AtEntry (s : State) (p : CoreId) (who : CtxId) : State := (s.focusCore p).focusOn who

/-- The matrix queue with one entry replaced. -/
def replaced (l : List MqEntry) (e : MqEntry) : List MqEntry := l.map fun f => if f.ord = e.ord then e else f

/-- The records of a tile carry its position's sequence tags, and `dom` holds of each domain tag (R192, R200). -/
def RecordsFit (rs : List Nat) (pos : Nat) (dom : Nat → Prop) : Prop :=
  ∀ k r, rs[k]? = some r → recSeq r = seqTag pos k ∧ dom (recTag r)

/-- The governor admits work of a kind and a charge on the die in focus, for the context in focus: it fits in the tick,
and it is pinned or nothing stands before it (R406, R408; the kinds number the queues of an engine, log 23). -/
def Admitted (s : State) (kind cost : Nat) : Prop :=
  s.excessTwice cost = 0 ∧
    (pinOf s.ctx.cstat = true ∨ (s.die.throttled = false ∧ s.behindOthers ⟨kind, s.foc⟩ = false))

/-- `v` is `u` after a charge to the context in focus and its die, which may forget that the work waited (R406, R410,
R411). -/
def Pays (u v : State) (cost : Nat) : Prop :=
  ∃ l, v = State.chargeEnergy { u with die := { u.die with heldOld := l } } cost

/-- A tile as it stands once the words still to be read are read: those read before keep their values (R187). -/
def readOff (u : State) (p : CoreId) (sp : TileSpan) (got : List (Nat × Nat)) : FetchedTile :=
  got.foldl (fun f e => f.put sp e) (u.fetchTile p sp)

/-- A step of reading a tile: some more of its words and records are read, each with the value it has now, and fewer steps
are left (R187). -/
def ReadsOn (u : State) (p : CoreId) (sp : TileSpan) (r r' : TileRead) : Prop :=
  r'.left + 1 = r.left ∧ ∃ more, r'.got = r.got ++ more ∧
    ∀ e ∈ more, e.2 = u.unitValue p sp e.1 ∧ ∀ o ∈ r.got, o.1 ≠ e.1

/-- A fault is added to what the context in focus has to take, with a cause. -/
def Posts (s t : State) (cause : Nat) : Prop := ∃ f, t.ctx.pend = s.ctx.pend ++ [f] ∧ f.cause = cause

/-- No die keeps trace records or wait records. -/
def NoRecords (s : State) : Prop :=
  ∀ d, (s.dieAt d).otring.toNat % 2 ^ 16 = 0 ∧ (s.dieAt d).owring.toNat % 2 ^ 16 = 0

/-- A matrix-queue entry that may execute at an accumulator tile: earlier users are through with it (R197). -/
def MayExecute (s : State) (e : MqEntry) : Prop := s.tilesFree e = true

/-- The entry has left the matrix queue of a core; the other entries, the rings but those named, and every register of every
context are as before. -/
def LeavesMatrix (s t : State) (p : CoreId) (e : MqEntry) : Prop :=
  (t.coreAt p).mq = (s.coreAt p).mq.filter fun f => f.ord != e.ord

/-- An engine has been given a ring slot at a position. -/
def GivenSlot (t : State) (pos : Nat) : Prop :=
  (∃ e ∈ t.core.ppq, e.reserved = some pos) ∨ (∃ q : Fin 4, ∃ o ∈ t.core.cq[q], o.reserved = some pos) ∨
    ∃ q : Fin 8, ∃ o ∈ t.die.xq[q], o.reserved = some pos

/-- The operation at the head of a copy queue works for a context of its core, and is running. -/
def CopyRuns (s : State) (p : CoreId) (q : Fin 4) (o : CopyOp) (rest : List CopyOp) : Prop :=
  p.ok = true ∧ (s.coreAt p).cq[q] = o :: rest ∧ o.state = .running ∧ o.who.coreId = p

/-- Its operation stands in the queue with some progress. -/
def Progressed (t : State) (q : Fin 4) (o : CopyOp) (units bytes : Nat) : Prop :=
  ∃ o' ∈ t.core.cq[q], o'.who = o.who ∧ o'.opn = o.opn ∧ o'.state = .running ∧ o'.units = units ∧ o'.bytes = bytes

/-- The sticky flags of a context are those it had and some more. -/
def RaisesFlags (s t : State) (c : CtxId) (bits : Nat) : Prop := (t.ctxAt c).cstat = orCstat (s.ctxAt c).cstat bits

/-- The integer atomics of Table 12-2 on n bytes, in integer arithmetic. -/
def atomicResult (op n old v c : Nat) : Nat :=
  let z (x : Nat) : Int := signedBits (8 * n) x
  if op = 0 then (old + v) % 256 ^ n
  else if op = 1 then old &&& v
  else if op = 2 then old ||| v
  else if op = 3 then old ^^^ v
  else if op = 4 then (if z v < z old then v else old)
  else if op = 5 then (if z old < z v then v else old)
  else if op = 6 then min old v
  else if op = 7 then max old v
  else if op = 8 then v
  else if old = c then v else old

/-- The head request of the context in focus leaves its queue, done: the others stay. -/
def LeavesSquare (u t : State) (r : SqRequest) : Prop :=
  t.foc = u.foc ∧ t.ctx.sq = u.ctx.sq.filter fun e => e.opn != r.opn

/-- The registers of a context but for one x register. -/
def OnlyXAt (s t : State) (c : CtxId) (xd : Option XReg) (v : Word) : Prop :=
  (∀ r : XReg, (t.ctxAt c).x[r] = if xd = some r then v else (s.ctxAt c).x[r]) ∧ (t.ctxAt c).q = (s.ctxAt c).q ∧
    (t.ctxAt c).v = (s.ctxAt c).v ∧ (t.ctxAt c).m = (s.ctxAt c).m ∧ (t.ctxAt c).pc = (s.ctxAt c).pc

/-- The ordered adds of a list applied to a word, in order: its last value and, before each, the value it returns. -/
def addsOn (f : FpFmt) : Nat → List Nat → Nat
  | old, [] => old
  | old, v :: vs => addsOn f (f.add 0 old v).1 vs

/-- Its operation stands in the queue stopped by a fault, with some progress (R258). -/
def StoppedWith (t : State) (q : Fin 4) (o : CopyOp) (f : MemFault) (bytes : Nat) : Prop :=
  ∃ o' ∈ t.core.cq[q], o'.who = o.who ∧ o'.opn = o.opn ∧ o'.state = .faulted ∧ o'.cause = f.cause ∧
    o'.faddr = f.addr ∧ o'.reason = f.reason ∧ o'.bytes = bytes

/-- The context of an operation in focus, its queue having its turn in the round (R238), with every link open. -/
def UnitTurn (s : State) (p : CoreId) (q : Fin 4) (o : CopyOp) (u : State) : Prop :=
  let e := AtEntry s p o.who
  e.copyTurn = some q ∧ u = { e with core := { e.core with cqTurn := q.val + 1 } } ∧ u.linksClear = true

/-- The charge of a context still to be added to its counter has grown (R410). -/
def Charged (s t : State) (c : CtxId) (n : Nat) : Prop := (t.ctxAt c).echg = (s.ctxAt c).echg + n

/-! Vocabulary: the fabric at work. -/

/-- A collective stands in its queue of a die, by its switch group and number, with a property. -/
def XStands (t : State) (d : Nat) (q : Fin 8) (o : XOp) (P : XOp → Prop) : Prop :=
  ∃ e ∈ (t.dieAt d).xq[q], e.g.swg = o.g.swg ∧ e.seqNo = o.seqNo ∧ P e

/-- It stands there no longer. -/
def XGone (t : State) (d : Nat) (q : Fin 8) (o : XOp) : Prop :=
  ∀ e ∈ (t.dieAt d).xq[q], ¬(e.g.swg = o.g.swg ∧ e.seqNo = o.seqNo)

/-- The governor admits work of a charge on a die for a collective: for the context that runs its task, or, of a task that
is saved, as work that is not pinned (R406). -/
def XAdmitted (s : State) (d : Nat) (q : Fin 8) (o : XOp) (cost : Nat) : Prop :=
  (∃ c, s.taskCtx o.launch o.task = some c ∧ Admitted (s.focusOn c) (7 + q.val) cost) ∨
    (s.taskCtx o.launch o.task = none ∧
      let t := s.focusDie d
      t.excessTwice cost = 0 ∧ t.die.throttled = false ∧ t.behindOthers ⟨7 + q.val, o.who⟩ = false)

/-- The work of delivering `n` more bytes of a collective on a die, in units of the charge of class 13 (R411). -/
def xCost (s : State) (d : Nat) (o : XOp) (n : Nat) : Nat :=
  (s.dieAt d).weights[13] * ((o.bytes + n) / 1024 - o.kib)

/-- Bytes at places hold, at their home, what is paired with them. -/
def HoldsCells (t : State) (cells : List Host.Cell) : Prop := ∀ c ∈ cells, t.homeByte c.1 = c.2

/-- A link goes over a port of a die, one way or the other (R316). -/
def OverPort (d port : Nat) (k : Link) : Prop :=
  (k.src = d ∧ fabricPort d k.dst = some port) ∨ (k.dst = d ∧ fabricPort d k.src = some port)

/-- The cycles in which the receiver of a port asked for resends, those of the last millisecond (R317). -/
def recentResends (s : State) (d port : Nat) : List Nat :=
  (((s.dieAt d).resends.lookup port).getD []).filter fun c => s.cycle ≤ c + 1900000

/-- No writes are in flight and memory has its form. -/
def Settled (s : State) : Prop := s.flight = [] ∧ Mem.wf s.mem = true

/-- The operators of `ldrd` by number. -/
def redNumber : RedOp2 → Nat
  | .add => 0
  | .min => 1
  | .max => 2

/-- The entry of the multicast store is one that its members have all applied. -/
def AllApplied (e : XiEntry) : Prop := ∃ g off bs, e.op = .store g off bs []

/-- The entry is a multicast store or a reducing load. -/
def OwnAccess (e : XiEntry) : Prop :=
  (∃ g off bs l, e.op = .store g off bs l) ∨ ∃ g off r op d xd got, e.op = .reduce g off r op d xd got

/-! Vocabulary: launches. -/

/-- The record has been taken off a die's arrivals: its dispatcher has used a serial number for it (R339, R344). -/
def recordTaken (s : State) (d k : Nat) : State :=
  s.setDieAt d { s.dieAt d with serial := ((s.dieAt d).serial + 1) % 2 ^ 32, arrivals := (s.dieAt d).arrivals.eraseIdx k }

/-- The handle that a die's dispatcher gives next: its quarter die number and its serial number (R339). -/
def nextHandle (s : State) (d : Nat) : Nat := s.qdn d * 2 ^ 48 + (s.dieAt d).serial

/-- The dies before one among those of a launch hold its share, and it does not yet (R345). -/
def HoldTurn (s : State) (l : Launch) (d : Nat) : Prop :=
  (∀ e ∈ l.holds, e.1 ≠ d) ∧
    ∃ a b, s.launchDies l = a ++ d :: b ∧ d ∉ a ∧ ∀ e ∈ a, ∃ x ∈ l.holds, x.1 = e

/-- Nothing is owed by a launch on a die that another launch or a saved task has a right to before it (R343, R349). -/
def Ahead (s : State) (l : Launch) (d : Nat) : Prop := s.behind l d = true

/-- A context holds a task as it starts (R36, R346): its launch's entry, its stack pointer in x62, and every other general
register 0. -/
def StartsTask (x : Ctx) (l : Launch) (t : Task) : Prop :=
  x.status = .ready ∧ x.task = some t ∧
    x.pc = BitVec.ofNat 64 (recBale l.record + baleCodeOff l.bale +
      if recEntry l.record = 2 ^ 32 - 1 then baleEntry l.bale else recEntry l.record) ∧
    (∀ r : XReg, x.x[r] = if r = 62 then BitVec.ofNat 64 ((recCribHi l.record - recStack l.record * t.t) * 4096) else 0) ∧
    (∀ r : VReg, x.v[r] = 0) ∧ x.loads = [] ∧ x.stores = [] ∧ x.sq = [] ∧ x.ecnt = 0 ∧
    ∀ k : Fin 4, k ≠ 3 → x.pw[k] = ⟨BitVec.ofNat 64 (recWinBase l.record k.val), recWinSize l.record k.val⟩

/-! Vocabulary: time, power and the granger. -/

/-- The power of a die in a tick as it stands, in units (R401). -/
def tickPower (s : State) (d : Nat) : Nat := (s.dieAt d).etick * 361 + (s.dieAt d).basePower

/-- What a die's live grants hold. -/
def liveLeft (s : State) (d : Nat) : Nat := (((s.dieAt d).grants.filter fun g => g.expires.isSome).map Grant.left).sum

/-- What a die's rise in a tick takes from the pool: the part that its live grants do not pay (R405). -/
def unpaidRise (s : State) (d : Nat) : Nat := tickPower s d - (s.dieAt d).pLast - liveLeft s d

/-- A die's power in a tick does not fall by more than the allowance, so that it needs no ballast (R407). -/
def NoBallast (s : State) (d : Nat) : Prop :=
  2 * (s.dieAt d).pLast ≤ (s.pkgAt (d / 2)).rate * 1638400 + 2 * tickPower s d

/-- A field of `n` bits at bit `lo` of `gecc` counts one more, up to its end; the other bits stay (Table 15-1). -/
def CountsError (v w : Word) (lo n : Nat) : Prop :=
  w.toNat / 2 ^ lo % 2 ^ n = min (v.toNat / 2 ^ lo % 2 ^ n + 1) (2 ^ n - 1) ∧
    ∀ k < 64, (k < lo ∨ lo + n ≤ k) → w.getLsbD k = v.getLsbD k

/-- Every context is in `t` as in `s`, and so is memory. -/
def SameContexts (s t : State) : Prop := (∀ c, t.ctxAt c = s.ctxAt c) ∧ SameStore s t

/-- An outstanding load with one more of its words read. -/
def wordRead (l : PendingLoad) (k : Nat) (bs : List Byte) : PendingLoad :=
  { l with words := l.words.mapIdx fun i w => if i = k then { w with got := some bs } else w }

/-- The byte a load reads at a place (R264, R265, R277): its own harvest buffer's, the newest of the task's stores before
it, or the one visible on its die, or at its home in Square space. -/
def loadedByte (u : State) (l : PendingLoad) (w : LoadWord) (a : Nat) : Byte :=
  ((w.own.lookup a).orElse fun _ => (u.ctx.stores.reverse.filter fun p => p.seq < l.seq).findSome? fun p =>
    lastCell p.cells a).getD (if 2 ^ 67 ≤ a ∧ a < 2 ^ 68 then u.homeByte a else u.seenByte u.foc.die a)

/-- The context in focus is trapped and does not belong to the granger. -/
def Trapped (u : State) : Prop := u.ctx.status = .trapped ∧ u.ctx.ctrl = false

/-! Vocabulary: the host's commands and reset. -/

/-- The granger of a die has taken a command with an operation number (R394). -/
def Taken (s : State) (d : Nat) (c : List Byte) (opc : Nat) : Prop := (s.dieAt d).cmd = some c ∧ cmdOpc c = opc

/-- The command is answered: CHEAD and RTAIL have advanced and the granger is free for the next (R394). -/
def Passed (s t : State) (d : Nat) : Prop :=
  (t.dieAt d).cmd = none ∧ (t.dieAt d).chead = ((s.dieAt d).chead + 1) % 2 ^ 32 ∧
    (t.dieAt d).rtail = ((s.dieAt d).rtail + 1) % 2 ^ 32

/-- The response entry that stands next in a die's ring: the command's tag, STATUS, VAL0, VAL1, and the phase (R394). -/
def Responds (s t : State) (d : Nat) (c : List Byte) (status v0 v1 : Nat) : Prop :=
  let n := (s.dieAt d).rtail
  byteSum (fun k => t.homeByte (2 ^ 72 + d * 2 ^ 20 + 2 ^ 17 + n % 1024 * 64 + k)) 64 =
    cmdTag c + status * 2 ^ 32 + v0 * 2 ^ 64 + v1 * 2 ^ 128 + n / 1024 % 2 * 2 ^ 480

/-- The command is answered so, and no register of a context is written. -/
def Answered (s t : State) (d : Nat) (c : List Byte) (status v0 : Nat) : Prop :=
  Passed s t d ∧ (Settled s → Responds s t d c status v0 0) ∧
    ∀ k, (t.ctxAt k).x = (s.ctxAt k).x ∧ (t.ctxAt k).pc = (s.ctxAt k).pc ∧ (t.ctxAt k).task = (s.ctxAt k).task

/-- Bytes stand in host memory from a bus address on. -/
def HostHolds (t : State) (a : Nat) (bs : List Byte) : Prop :=
  HoldsCells t (bs.zipIdx.map fun e => (2 ^ 64 + a + e.2, e.1))

/-- Commands that wait in a die's ring, and responses that the host has not taken (R394). -/
def commandsWaiting (x : Die) : Nat := min ((x.ctail + 2 ^ 32 - x.chead % 2 ^ 32) % 2 ^ 32) 256
def responsesWaiting (x : Die) : Nat := (x.rtail + 2 ^ 32 - x.rhead % 2 ^ 32) % 2 ^ 32

/-- A command as Table 15-9 admits it: an operation it names, zeros where they must stand, and a selector of CONFIG. -/
def GoodCommand (c : List Byte) : Prop :=
  cmdOpc c ≤ 9 ∧ byteField c 2 2 = 0 ∧ (∀ k, 32 ≤ k → k < 128 → c.getD k 0 = 0) ∧
    (cmdOpc c = 8 → cmdArg c 0 ∈ [2, 3, 4, 16, 17, 18, 32, 33, 34])

/-- A die performs an operation in a state of its bring-up (R394, R399). -/
def Performs (boot opc : Nat) : Prop :=
  boot ≠ 0 ∧ (boot = 255 → opc = 9) ∧ (boot < 7 → opc = 0 ∨ opc = 3 ∨ opc = 8 ∨ opc = 9)

/-! Vocabulary: bundles. -/

/-- In `u` the primary context of core p opens its next bundle: the turn is the next of the agenda of `s`, nothing else is
due, and the core has not issued in this cycle, whose static charge goes to the primary (R412). -/
def Opens (s u : State) (p : CoreId) : Prop :=
  ∃ (ts : List Turn) (k : Nat), s.going = false ∧ s.due = none ∧ s.agenda = .issue p :: ts ∧
    State.primaryOf { s with agenda := ts } p = some k ∧ (s.coreAt p).issued = false ∧
    u = ((State.focusOn { s with agenda := ts } (p.ctxId k)).makePrimary k).chargeStatic ∧ u.ctx.ib = none ∧
    u.asyncDue = false

/-- The registers that the words of slots j and k both write. -/
def BothWrite (ws : Vector SlotWord 4) (j k : Nat) (r : RegId) : Prop :=
  r ∈ slotWrites (slotInstrD ws j) ∧ r ∈ slotWrites (slotInstrD ws k)

/-- Of slots j and k one writes a register that the other reads. -/
def Depends (ws : Vector SlotWord 4) (j k : Nat) (r : RegId) : Prop :=
  let reads (n : Nat) : List RegId := slotReads (slotInstrD ws n) (slotQual (bundleHeader ws) n)
  (r ∈ slotWrites (slotInstrD ws j) ∧ r ∈ reads k) ∨ (r ∈ reads j ∧ r ∈ slotWrites (slotInstrD ws k))

/-- Fields of an R form word, from the high bits down (Table 2-8). -/
def formR (major d a b func : Nat) : Nat := major * 2 ^ 25 + d * 2 ^ 19 + a * 2 ^ 13 + b * 2 ^ 7 + func

/-- Fields of a V form word (Table 2-8). -/
def formV (major d a b w et func : Nat) : Nat :=
  major * 2 ^ 25 + d * 2 ^ 20 + a * 2 ^ 15 + b * 2 ^ 10 + w * 2 ^ 8 + et * 2 ^ 5 + func

/-- R21, R48, R50, R52, R53, R56, R58, R59: each scalar instruction of `scalarResult` runs in every state, writes its register
(nothing where that is x0), and leaves everything else as it was; `nop` changes nothing. -/
def ScalarResultIsWritten : Prop :=
  (∀ s : State, Machine.exec .nop s = .next s) ∧
  ∀ (i : Instr) (s : State) (d : XReg) (v : Word), scalarResult i s = some (d, v) →
    ∃ t, Machine.exec i s = .next t ∧ WritesX s t d v

/-- R50, R53 to R55: each bitwise or shift instruction writes every bit of its register as the rule gives it. -/
def ScalarBitsAreWritten : Prop :=
  ∀ (i : Instr) (s : State) (d : XReg) (f : Nat → Bool), i.wf → scalarBits i s = some (d, f) →
    ∃ t v, Machine.exec i s = .next t ∧ WritesX s t d v ∧ ∀ k < 64, v.getLsbD k = f k

/-- R52, Table 3-4: `clz`, `ctz` and `popc` by what they count. -/
def BitCountsAreWritten : Prop :=
  ∀ (s : State) (d a : XReg),
    (∃ t n, Machine.exec (.clz d a) s = .next t ∧ WritesX s t d (BitVec.ofNat 64 n) ∧ n ≤ 64 ∧
      (∀ k, 64 - n ≤ k → (s.getX a).getLsbD k = false) ∧ (n < 64 → (s.getX a).getLsbD (63 - n) = true)) ∧
    (∃ t n, Machine.exec (.ctz d a) s = .next t ∧ WritesX s t d (BitVec.ofNat 64 n) ∧ n ≤ 64 ∧
      (∀ k < n, (s.getX a).getLsbD k = false) ∧ (n < 64 → (s.getX a).getLsbD n = true)) ∧
    ∃ t, Machine.exec (.popc d a) s = .next t ∧
      WritesX s t d (BitVec.ofNat 64 ((List.range 64).countP fun k => (s.getX a).getLsbD k))

/-- R49, R51: with a free divider, a quotient truncates toward zero and a remainder has the dividend's sign; division by
zero gives all ones, and the dividend as remainder. The divider is taken, and nothing but the register changes besides. -/
def DivisionIsWritten : Prop :=
  ∀ (s : State) (d a b : XReg), s.core.divBusy.length < 2 →
    let busy : State := { s with core := { s.core with divBusy := s.core.divBusy ++ [s.foc.ctx] } }
    let x := s.getX a
    let y := s.getX b
    ∃ q r qu ru : State, Machine.exec (.div d a b) s = .next q ∧ Machine.exec (.rem d a b) s = .next r ∧
      Machine.exec (.divu d a b) s = .next qu ∧ Machine.exec (.remu d a b) s = .next ru ∧
      (y = 0 → WritesX busy q d (BitVec.allOnes 64) ∧ WritesX busy r d x ∧ WritesX busy qu d (BitVec.allOnes 64) ∧
        WritesX busy ru d x) ∧
      (y ≠ 0 → ∃ m n : Int, x.toInt = y.toInt * m + n ∧ n.natAbs < y.toInt.natAbs ∧ (n = 0 ∨ (n < 0 ↔ x.toInt < 0)) ∧
        WritesX busy q d (BitVec.ofInt 64 m) ∧ WritesX busy r d (BitVec.ofInt 64 n)) ∧
      (y ≠ 0 → ∃ m n : Nat, x.toNat = y.toNat * m + n ∧ n < y.toNat ∧
        WritesX busy qu d (BitVec.ofNat 64 m) ∧ WritesX busy ru d (BitVec.ofNat 64 n))

/-- R49: where both dividers of the core are busy a divide waits at issue: it writes nothing and is tried again. -/
def DivisionWaitsForADivider : Prop :=
  ∀ (s : State) (d a b : XReg), 2 ≤ s.core.divBusy.length →
    ∀ i ∈ [Instr.div d a b, .divu d a b, .rem d a b, .remu d a b],
      ∃ t, Machine.exec i s = .next t ∧ t.ctx.slotEnd = .hold ∧ t.ctx.status = .waiting .divider ∧
        (∀ r, t.getX r = s.getX r) ∧ t.core = s.core ∧ SameBytes s t

/-- R57, R59, Tables 3-5 and 3-6: each comparison and predicate operation writes its predicate (nothing where that is
q0), and leaves everything else as it was. -/
def PredicateIsWritten : Prop :=
  ∀ (i : Instr) (s : State) (q : Fin 8) (v : Bool), scalarTruth i s = some (q, v) →
    ∃ t, Machine.exec i s = .next t ∧ WritesQ s t q v

/-- R51: a product is its low half, or the high half with or without signs, and nothing but the register changes; the func
values 7 to 127 are no instructions. -/
def ProductsAreWritten : Prop :=
  (∀ (s : State) (d a b : XReg),
    (∃ t, Machine.exec (.mul d a b) s = .next t ∧ WritesX s t d (BitVec.ofNat 64 ((s.getX a).toNat * (s.getX b).toNat))) ∧
    (∃ t, Machine.exec (.mulh d a b) s = .next t ∧
      WritesX s t d (BitVec.ofInt 64 ((s.getX a).toInt * (s.getX b).toInt / 2 ^ 64))) ∧
    ∃ t, Machine.exec (.mulhu d a b) s = .next t ∧
      WritesX s t d (BitVec.ofNat 64 ((s.getX a).toNat * (s.getX b).toNat / 2 ^ 64))) ∧
  ∀ (d a b : XReg) (func : Nat), 7 ≤ func → func < 128 →
    decode none (2 * 2 ^ 25 + d.val * 2 ^ 19 + a.val * 2 ^ 13 + b.val * 2 ^ 7 + func) = none

/-- R60 to R62, R25: a control transfer runs in every state. One that is taken waits, with its target, for the end of its
group; one that is not changes nothing; a call links the address after its bundle. Nothing else changes. -/
def TransferAwaitsItsGroup : Prop :=
  ∀ (i : Instr) (s : State) (g : Option (Word × Bool)), transferOf i s = some g →
    ∃ t, Machine.exec i s = .next t ∧
      t.ctx.xfer = (match g with
        | some (a, r) => some ⟨a, r, none⟩
        | none => s.ctx.xfer) ∧
      (∀ r, t.getX r = if r = linkOf i ∧ r ≠ 0 then s.ctx.pc + 16 else s.getX r) ∧
      t = { s with ctx := { s.ctx with x := t.ctx.x, xfer := t.ctx.xfer } } ∧ SameBytes s t

/-- R25, R63 (log 13): when its bundle is through, a taken transfer sets pc to its target; a target that is no multiple
of 16 raises MISALIGN at the transferring bundle, with all of its slots done, the target in taddr and no successor
decided. -/
def TransferIsTaken : Prop :=
  ∀ (s : State) (x : Transfer), Plain s → s.ctx.xfer = some x →
    (x.target.toNat % 16 = 0 → s.endBundle.ctx.pc = x.target ∧ s.endBundle.ctx.trap = s.ctx.trap) ∧
    (x.target.toNat % 16 ≠ 0 →
      let r := s.endBundle.ctx.trap
      r.cause = 5 ∧ r.bundle = s.ctx.pc ∧ r.done = 15 ∧ r.addr = x.target ∧ r.next = 0)

/-- R66, R67 (log 17): `lpset` and `lpseti` wait for the end of their group with their level, count and END, and change
nothing else. -/
def LoopStartAwaitsItsGroup : Prop :=
  ∀ (s : State) (n : Fin 6) (a : XReg) (off : Fin 8192) (count : Fin 1024) (off' : Fin 512),
    (∃ t, Machine.exec (.lpset n a off) s = .next t ∧
      t = { s with ctx := { s.ctx with loopStart := t.ctx.loopStart } } ∧ SameBytes s t ∧
      ∃ l, t.ctx.loopStart = some l ∧ l.level = n ∧ l.count = (s.getX a).toNat ∧
        l.stop.toNat = (s.ctx.pc.toNat + off.val * 16) % 2 ^ 64) ∧
    ∃ t, Machine.exec (.lpseti n count off') s = .next t ∧
      t = { s with ctx := { s.ctx with loopStart := t.ctx.loopStart } } ∧ SameBytes s t ∧
      ∃ l, t.ctx.loopStart = some l ∧ l.level = n ∧ l.count = count.val ∧
        l.stop.toNat = (s.ctx.pc.toNat + off'.val * 16) % 2 ^ 64

/-- R67 (logs 13 and 17): at the end of its bundle a loop start raises LOOP-SHAPE where a level below is inactive, its
level or one above is active, its count exceeds 2^32 - 1, or its bundle is the END of the innermost active level; else a
count of 0 leaves the level inactive without stride pairs and goes on after END, and any other count makes it active at
its first iteration. -/
def LoopStarts : Prop :=
  ∀ (s : State) (l : LoopStart), Plain s → s.ctx.xfer = none → s.ctx.loopStart = some l →
    let t := s.endBundle
    let bad := (∃ k : Fin 6, k < l.level ∧ s.ctx.lv[k].act = false) ∨
      (∃ k : Fin 6, l.level ≤ k ∧ s.ctx.lv[k].act = true) ∨ 2 ^ 32 ≤ l.count ∨
      ∃ m : Fin 6, m.val + 1 = l.level.val ∧ s.ctx.lv[m].act = true ∧ s.ctx.lv[m].stop = s.ctx.pc
    (bad → t.ctx.trap.cause = 0x0d ∧ t.ctx.trap.bundle = s.ctx.pc ∧ t.ctx.lv = s.ctx.lv) ∧
    (¬bad → l.count = 0 →
      t.ctx.lv[l.level].act = false ∧ (∀ j : Fin 4, t.ctx.lv[l.level].pairs[j].valid = false) ∧
      (l.stop.toNat % 16 = 0 → t.ctx.pc = l.stop + 16)) ∧
    (¬bad → l.count ≠ 0 →
      let v := t.ctx.lv[l.level]
      v.act = true ∧ v.rem = l.count ∧ v.iter = 0 ∧ v.start = s.ctx.pc + 16 ∧ v.stop = l.stop ∧
      v.pairs = s.ctx.lv[l.level].pairs ∧ t.ctx.pc = s.ctx.pc + 16 ∧
      ∀ k : Fin 6, k ≠ l.level → t.ctx.lv[k] = s.ctx.lv[k])

/-- R68 (log 13): `lpstr` gives the lowest free pair of its level its register and stride; a fifth pair raises
LOOP-SHAPE. -/
def StridePairIsStaged : Prop :=
  ∀ (s : State) (n : Fin 6) (r a : XReg),
    (∀ k : Fin 4, s.ctx.lv[n].pairs[k].valid = false → (∀ j < k, s.ctx.lv[n].pairs[j].valid = true) →
      ∃ t, Machine.exec (.lpstr n r a) s = .next t ∧ OnlyLevel s t n ∧ SameBytes s t ∧
        t.ctx.lv[n].pairs[k] = ⟨r, s.getX a, true, none⟩ ∧
        (∀ j : Fin 4, j ≠ k → t.ctx.lv[n].pairs[j] = s.ctx.lv[n].pairs[j]) ∧
        t.ctx.lv[n] = { s.ctx.lv[n] with pairs := t.ctx.lv[n].pairs }) ∧
    ((∀ k : Fin 4, s.ctx.lv[n].pairs[k].valid = true) →
      Machine.exec (.lpstr n r a) s = .next (s.stop causeLoopShape 0 0))

/-- R69: after a bundle at the END of the innermost active level, which is not the level's last iteration and has no pending
value, the strides are added in pair order, REM falls and ITER rises by one, and pc is START; a START above END raises
LOOP-SHAPE with the level's number instead. -/
def LoopIterates : Prop :=
  ∀ (s : State) (n : Fin 6), Plain s → s.ctx.xfer = none → s.ctx.loopStart = none →
    s.ctx.lv[n].act = true → (∀ k : Fin 6, n < k → s.ctx.lv[k].act = false) → s.ctx.lv[n].stop = s.ctx.pc →
    1 < s.ctx.lv[n].rem → s.ctx.lv[n].pendRem = none → s.ctx.lv[n].pendStart = none → s.ctx.lv[n].pendStop = none →
    (∀ j : Fin 4, s.ctx.lv[n].pairs[j].pending = none) →
    let l := s.ctx.lv[n]
    let t := s.endBundle
    (l.start.toNat ≤ l.stop.toNat → t.ctx.pc = l.start ∧ t.ctx.lv[n].rem = l.rem - 1 ∧
      t.ctx.lv[n].iter = (l.iter + 1) % 2 ^ 32 ∧ t.ctx.lv[n].act = true) ∧
    (l.stop.toNat < l.start.toNat → t.ctx.trap.cause = 0x0d ∧ t.ctx.trap.bundle = s.ctx.pc ∧ t.ctx.trap.slot = 3 ∧
      t.ctx.trap.done = 15 ∧ t.ctx.trap.info = BitVec.ofNat 64 n.val ∧ t.ctx.lv[n].act = false) ∧
    ∀ r : XReg, t.getX r = if r = 0 then 0
      else s.getX r + (((List.finRange 4).filter fun j => l.pairs[j].valid && l.pairs[j].reg == r).map
        fun j => l.pairs[j].stride).sum

/-- R69: after the bundle at the END of the innermost active level in its last iteration, with no pending value, the level
is inactive without stride pairs, and where no enclosing level ends at that bundle pc goes on after it. -/
def LoopEnds : Prop :=
  ∀ (s : State) (n : Fin 6), Plain s → s.ctx.xfer = none → s.ctx.loopStart = none →
    s.ctx.lv[n].act = true → (∀ k : Fin 6, n < k → s.ctx.lv[k].act = false) → s.ctx.lv[n].stop = s.ctx.pc →
    s.ctx.lv[n].rem = 1 → s.ctx.lv[n].pendRem = none →
    (∀ k : Fin 6, k < n → s.ctx.lv[k].stop ≠ s.ctx.pc) →
    let t := s.endBundle
    t.ctx.pc = s.ctx.pc + 16 ∧ t.ctx.lv[n].act = false ∧ t.ctx.lv[n].rem = 0 ∧ t.ctx.lv[n].iter = 0 ∧
      ∀ j : Fin 4, t.ctx.lv[n].pairs[j].valid = false

/-- R379, R382 (log 10): a slot that stops writes the record: cause, its bundle, its slot, the slots done, address,
detail, and the target of a transfer that a committed slot of the bundle took as successor. No register of the task
changes. -/
def TrapRecordIsWritten : Prop :=
  ∀ (s : State) (cause : Nat) (addr info : Word),
    let t := s.stop cause addr info
    t.ctx.trap.cause = BitVec.ofNat 64 cause ∧ t.ctx.trap.bundle = s.ctx.pc ∧
      t.ctx.trap.slot = BitVec.ofNat 64 s.ctx.slot ∧ DoneMask s t.ctx.trap.done ∧ t.ctx.trap.addr = addr ∧
      t.ctx.trap.info = info ∧
      (s.ctx.reissue = none → t.ctx.trap.next = match s.ctx.xfer with
        | some x => (x.target &&& ~~~(15 : Word)) ||| 1
        | none => 0) ∧
      SameRegisters s t

/-- R380, R381, Table 15-3: a cause of the task's goes to its handler, where the task has one and is not in it; there INH is
1, pc is tvec and the context goes on. Any other leaves the context trapped, with pc and INH as they were. -/
def TrapIsTaken : Prop :=
  ∀ (s : State) (cause : Nat) (addr info : Word), s.ctx.ctrl = false →
    let t := s.stop cause addr info
    let granger := cause ∈ [0x06, 0x11, 0x12, 0x14, 0x15]
    (¬granger → t.ctx.tvec ≠ 0 → s.ctx.inh = false → InHandler t) ∧
    ((granger ∨ t.ctx.tvec = 0 ∨ s.ctx.inh = true) →
      t.ctx.status = .trapped ∧ t.ctx.pc = s.ctx.pc ∧ t.ctx.inh = s.ctx.inh)

/-- R375 (log 48): the granger's own traps go to its handler, and one taken in it stops the die: BOOTSTATE reads FAILED. -/
def GrangerTrapIsTaken : Prop :=
  ∀ (s : State) (cause : Nat) (addr info : Word), s.ctx.ctrl = true →
    let t := s.stop cause addr info
    (s.ctx.inh = false → InHandler t ∧ t.die.boot = s.die.boot) ∧
    (s.ctx.inh = true → t.ctx.status = .trapped ∧ t.die.boot = 255)

/-- R383: `eret` raises PRIV in a task that is not in its handler; elsewhere it waits for the end of its bundle, and changes
nothing before. -/
def EretAwaitsItsBundle : Prop :=
  ∀ s : State,
    (s.ctx.ctrl = false → s.ctx.inh = false → PrivStop s (Machine.exec .eret s)) ∧
    (s.ctx.ctrl = true ∨ s.ctx.inh = true →
      Machine.exec .eret s = .next { s with ctx := { s.ctx with eretPend := true } })

/-- R383: at the end of the bundle of an `eret`, with no fault pending, INH and FWD are 0 and the context goes on: after a
full done mask at NEXT where NV is 1, else at the bundle after tbundle; otherwise tbundle is issued again with the slots
whose done bit is clear, and with NEXT decided where NV is 1. -/
def EretResumes : Prop :=
  ∀ s : State, s.ctx.reissue = none → s.ctx.eretPend = true → s.ctx.pend = [] →
    s.ctx.saved.bind SavedGroup.loopStart = none →
    let t := s.endBundle
    let r := s.ctx.trap
    let next := r.next &&& ~~~(15 : Word)
    let nv := r.next.getLsbD 0
    t.ctx.inh = false ∧ t.ctx.fwd = false ∧ t.ctx.status = .ready ∧ SameRegisters s t ∧
    (r.done.toNat % 16 = 15 → t.ctx.reissue = none ∧ t.ctx.pc = if nv then next else r.bundle + 16) ∧
    (r.done.toNat % 16 ≠ 15 → t.ctx.pc = r.bundle ∧
      t.ctx.reissue = some (BitVec.ofNat 4 r.done.toNat, if nv then some next else none))

/-- R382, R383: at the end of the bundle of an `eret` with a fault pending, the oldest is delivered: the record keeps its
bundle, its done mask and its successor, and has the fault's cause, address and detail and the lowest slot not done. -/
def EretDeliversPending : Prop :=
  ∀ (s : State) (f : AsyncFault) (rest : List AsyncFault), s.ctx.reissue = none → s.ctx.eretPend = true →
    s.ctx.pend = f :: rest →
    let t := s.endBundle
    t.ctx.pend = rest ∧ t.ctx.trap.cause = BitVec.ofNat 64 f.cause ∧ t.ctx.trap.addr = f.addr ∧ t.ctx.trap.info = f.info ∧
      t.ctx.trap.bundle = s.ctx.trap.bundle ∧ t.ctx.trap.next = s.ctx.trap.next ∧
      t.ctx.trap.done = BitVec.ofNat 64 (s.ctx.trap.done.toNat % 16) ∧
      (∀ k < 4, s.ctx.trap.done.getLsbD k = false → (∀ j < k, s.ctx.trap.done.getLsbD j = true) →
        t.ctx.trap.slot = BitVec.ofNat 64 k) ∧
      ((∀ k < 4, s.ctx.trap.done.getLsbD k = true) → t.ctx.trap.slot = 0)

/-- R375: what a task may not do raises PRIV precisely at its slot, with nothing changed: `frset`, `eset`, `tlbinv`, and a
`sysrd` or `syswr` of a register of the controller. -/
def PrivilegeIsRequired : Prop :=
  ∀ (s : State) (a b : XReg) (cls : Fin 16) (kind : TlbKind) (reach : TlbReach) (srn : Fin 1024), s.ctx.ctrl = false →
    PrivStop s (Machine.exec (.frset a b) s) ∧ PrivStop s (Machine.exec (.eset cls a) s) ∧
    PrivStop s (Machine.exec (.tlbinv kind reach a b) s) ∧
    ((0x100 ≤ srn.val ∧ srn.val ≤ 0x105) ∨ (0x200 ≤ srn.val ∧ srn.val ≤ 0x2ff) →
      PrivStop s (Machine.exec (.sysrd a srn) s) ∧ PrivStop s (Machine.exec (.syswr srn a) s))

/-- R86, R101 (log 8): an aligned load from the own crib gives xt the bytes at its address, lowest first, extended with
their sign or with zeros, and changes nothing else. -/
def CribLoadReadsBytes : Prop :=
  ∀ (s : State) (sz : LdSize) (xt xa : XReg) (off : Imm 1024),
    let n := (loadSize sz).1
    let a := scaledAddress s xa off n
    Unhindered s → CribAddress a n n →
    ∃ t, Machine.exec (.ld sz xt xa off) s = .next t ∧
      LoadsX s t xt (loaded n (loadSize sz).2 (byteSum (fun k => cribByte s (a.toNat + k)) n))

/-- R82, R101, R103, R283, R391, R426 (log 8): a load that passes its checks, that no ordering event holds back, no watch covers
and no poison stops has its value at once from the own crib and side bank; beyond them its bytes are outstanding, and it
leaves every register and byte as it was. -/
def ScalarLoadsComplete : Prop :=
  ∀ (s : State) (sz : LdSize) (xt xa : XReg) (off : Imm 1024) (r : Found),
    let n := (loadSize sz).1
    let a := scaledAddress s xa off n
    s.accessReady false = true → s.checkAccess a n n (.scalar n) false = .ok r → s.readPoison r.places = none →
    s.watched (locsOf a n) true false = none →
    ∃ t, Machine.exec (.ld sz xt xa off) s = .next t ∧ t.ctx.cstat = s.ctx.cstat ∧
      ((∀ p ∈ r.places, placeLevel p = 0) → SameBytesNext s t ∧ t.ctx.loads = s.ctx.loads ∧
        ∀ x, t.getX x = if x = xt ∧ x ≠ 0 then
          loaded n (loadSize sz).2 (byteSum (fun k => s.ownByte s.ctx.seq (r.places.getD k 0)) n) else s.getX x) ∧
      ((∃ p ∈ r.places, placeLevel p ≠ 0) → LoadAwaits s t a (.scalar xt (loadSize sz).2) r.places 0)

/-- R82, R101, Table 4-3: a load or a store whose address breaks its alignment stops with MISALIGN, the address in taddr and
reason 5, and bit 8 of the detail for a store. -/
def MisalignedAccessStops : Prop :=
  ∀ (s : State) (xt xa : XReg) (off : Imm 1024), s.ctx.points = [] →
    (∀ sz, keyOk (scaledAddress s xa off (loadSize sz).1) → (scaledAddress s xa off (loadSize sz).1).toNat % (loadSize sz).1 ≠ 0 →
      Machine.exec (.ld sz xt xa off) s = .next (s.stop 0x05 (scaledAddress s xa off (loadSize sz).1) 5)) ∧
    ∀ sz, keyOk (scaledAddress s xa off (storeSize sz)) → (scaledAddress s xa off (storeSize sz)).toNat % storeSize sz ≠ 0 →
      Machine.exec (.st sz xt xa off) s = .next (s.stop 0x05 (scaledAddress s xa off (storeSize sz)) 0x105)

/-- R86, R101, R265 (logs 6 and 7): outside a harvest mode a store that passes its checks is seen by its task's next
access, byte by byte from the lowest, at the places that the address map gives its address; no other byte changes, and
none at its home before the store is performed. -/
def StoreIsSeenByItsTask : Prop :=
  ∀ (s : State) (sz : StSize) (xt xa : XReg) (off : Imm 1024) (r : Found),
    let n := storeSize sz
    let a := scaledAddress s xa off n
    s.ctx.points = [] → s.ctx.owa = Vector.replicate 2 0 → modeOf s.ctx.cstat = 0 →
    s.checkAccess a n n (.scalar n) true = .ok r →
    ∃ t, Machine.exec (.st sz xt xa off) s = .next t ∧
      StoresBytes s t (r.places.zip ((List.range n).map fun k => BitVec.ofNat 8 ((s.getX xt).toNat / 256 ^ k)))

/-- R276 (log 24): in a harvest mode a store to HBM, the granary or the barn that the launch's area has room for is held
back: its task sees it, and no byte changes at its home. -/
def HarvestHoldsStoresBack : Prop :=
  ∀ (s : State) (sz : StSize) (xt xa : XReg) (off : Imm 1024) (r : Found),
    let n := storeSize sz
    let a := scaledAddress s xa off n
    s.ctx.points = [] → s.ctx.owa = Vector.replicate 2 0 → s.ctx.stores = [] →
    s.checkAccess a n n (.scalar n) true = .ok r → s.buffered (r.places.headD 0) = true → s.harvestRoom n = true →
    ∃ t, Machine.exec (.st sz xt xa off) s = .next t ∧ t.ctx.stores = [] ∧
      StoresBytes s t (r.places.zip ((List.range n).map fun k => BitVec.ofNat 8 ((s.getX xt).toNat / 256 ^ k)))

/-- R81, R82, R104, Tables 4-2 and 14-1 (log 8): a parameter load from an unbound window raises UNBOUND-PARAM; one whose bytes
all lie at or beyond the window's bound gives xd zero and sets POOB; one in a translated window whose checks pass has its
bytes below the bound outstanding, with zeros above them, and sets POOB where the bound cuts it; a window in the own crib
raises ACCESS with reason 4. -/
def ParameterLoads : Prop :=
  ∀ (s : State) (dbl : Bool) (xd xa : XReg) (w : Fin 4) (off : Imm 1024),
    let n := if dbl then 8 else 4
    let win := s.ctx.pw[w]
    let o := (s.getX xa).toNat + off.uval * n
    let a := BitVec.ofNat 64 (win.base.toNat + o)
    let m := min n (win.size - o)
    (win.size = 0 → Machine.exec (.ldp dbl xd w xa off) s = .next (s.stop 0x04 0 0)) ∧
    (win.size ≠ 0 → o % n = 0 → win.size ≤ o →
      ∃ t, Machine.exec (.ldp dbl xd w xa off) s = .next t ∧ t.ctx.cstat = s.ctx.cstat ||| 0x10000 ∧
        (∀ r, t.getX r = if r = xd then 0 else s.getX r) ∧ SameBytes s t ∧
        t = { s with ctx := { s.ctx with x := t.ctx.x, cstat := t.ctx.cstat } }) ∧
    (∀ r, o % n = 0 → o < win.size → 2 ^ 32 ≤ locOf a → s.accessReady false = true →
      s.checkAccess a m 1 .param false = .ok r → s.readPoison r.places = none → s.watched (locsOf a m) true false = none →
      ∃ t, Machine.exec (.ldp dbl xd w xa off) s = .next t ∧ LoadAwaits s t a (.scalar xd false) r.places (n - m) ∧
        t.ctx.cstat = if m < n then s.ctx.cstat ||| 0x10000 else s.ctx.cstat) ∧
    (win.base.toNat + o + n ≤ 2097152 → o % n = 0 → o < win.size → s.accessReady false = true →
      Machine.exec (.ldp dbl xd w xa off) s = .next (s.stop 0x07 a 4))

/-- R106, R90 (log 8): with GRAN 0 an aligned vector load from the own crib gives vt its bytes, lowest first, zero above
them and tag 0. -/
def CribVectorLoadReadsBytes : Prop :=
  ∀ (s : State) (w : Width) (vt : VReg) (xa : XReg) (off : Imm 512),
    let n := vecBytes w
    let a := scaledAddress s xa off 32
    Unhindered s → wordBits s.ctx.cview 19 17 = 0 → CribAddress a n 32 →
    ∃ t, Machine.exec (.vld w vt xa off) s = .next t ∧ LoadsV s t vt (vecValue (fun k => cribByte s (a.toNat + k)) n) 0

/-- R106, R90 (log 7): outside a harvest mode, a vector store of a register with tag 0 to the own crib under GRAN 0 is
seen by its task's next access, byte by byte, and no other byte changes. -/
def CribVectorStoreIsSeen : Prop :=
  ∀ (s : State) (w : Width) (vt : VReg) (xa : XReg) (off : Imm 512),
    let n := vecBytes w
    let a := scaledAddress s xa off 32
    Unhindered s → modeOf s.ctx.cstat = 0 → wordBits s.ctx.cview 19 17 = 0 → CribAddress a n 32 → s.getTag vt = 0 →
    ∃ t, Machine.exec (.vst w vt xa off) s = .next t ∧
      StoresBytes s t (cellsAt (cribPlace s.foc.coreId a.toNat)
        ((List.range n).map fun k => BitVec.ofNat 8 ((s.getV vt).toNat / 256 ^ k)))

/-- R107 to R109 (log 8): with GRAN 0 and a pattern in the own crib, `vldx` gives lane k the bits of its field, with or
without its sign, and `vldt` gives lane k the bytes at its pitch; `pkset` writes the pattern without its reserved bits. -/
def PatternLoadsReadFields : Prop :=
  ∀ (s : State) (w : Width) (vt : VReg) (xa : XReg) (off : Fin 128) (pk : Fin 4),
    let p := s.ctx.pk[pk]
    let lw := 8 * 2 ^ wordBits p 11 10
    let lanes := vecBytes w * 8 / lw
    let a := BitVec.ofInt 64 ((s.getX xa).toInt + signedBits 7 off.val * 32)
    let span := (wordBits p 17 13 + (lanes - 1) * wordBits p 9 4 + wordBits p 3 0 + 1 + 7) / 8
    let pitched := (lanes - 1) * wordBits p 39 20 + lw / 8
    (Unhindered s → wordBits s.ctx.cview 19 17 = 0 → CribAddress a span 1 →
      ∃ t v, Machine.exec (.vldx w vt xa off pk) s = .next t ∧ LoadsV s t vt v 0 ∧ v.toNat < 2 ^ (lanes * lw) ∧
        ∀ k < lanes,
          let bits := byteSum (fun j => cribByte s (a.toNat + j)) span / 2 ^ (wordBits p 17 13 + k * wordBits p 9 4) %
            2 ^ (wordBits p 3 0 + 1)
          ((v.toNat / 2 ^ (lw * k) % 2 ^ lw : Nat) : Int) =
            (if p.getLsbD 12 then signedBits (wordBits p 3 0 + 1) bits else (bits : Int)) % 2 ^ lw) ∧
    (Unhindered s → wordBits s.ctx.cview 19 17 = 0 → CribAddress a pitched (lw / 8) → wordBits p 39 20 % (lw / 8) = 0 →
      ∃ t v, Machine.exec (.vldt w vt xa off pk) s = .next t ∧ LoadsV s t vt v 0 ∧ v.toNat < 2 ^ (lanes * lw) ∧
        ∀ k < lanes, v.toNat / 2 ^ (lw * k) % 2 ^ lw =
          byteSum (fun j => cribByte s (a.toNat + k * wordBits p 39 20 + j)) (lw / 8)) ∧
    ∃ t, Machine.exec (.pkset pk xa) s = .next t ∧ t.ctx.pk[pk] = s.getX xa &&& 0xfffff3ffff ∧
      (∀ j : Fin 4, j ≠ pk → t.ctx.pk[j] = s.ctx.pk[j]) ∧ t = { s with ctx := { s.ctx with pk := t.ctx.pk } } ∧ SameBytes s t

/-- R111, R117, R118, R120 to R122, Tables 5-1 and 5-4: an operation of integer lanes writes each lane below W with the low
bits of its result, zero above W and the tag of Table 5-1, and sets no flag; operands whose tags it refuses raise DOMAIN
before any effect. -/
def IntegerLanesAreWritten : Prop :=
  ∀ (i : Instr) (s : State) (o : LaneOp Int), intLanes i s = some o → o.et.isFloat = false →
    (¬o.ok → DomainStop s (Machine.exec i s)) ∧
    (o.ok → ∃ t v, Machine.exec i s = .next t ∧ WritesV s t o.vd v o.tag ∧
      LanesAre v (laneBits o.et) (laneNumber o.et o.w) fun k => (o.lane k % 2 ^ laneBits o.et).toNat)

/-- R111, R118, R120, R125, R128, R130, R131, Table 5-1: an operation that moves or masks bits writes each lane below W,
zero above W and the tag of Table 5-1, and sets no flag; operands whose tags it refuses raise DOMAIN before any effect. -/
def MovedLanesAreWritten : Prop :=
  ∀ (i : Instr) (s : State) (o : LaneOp Nat), bitLanes i s = some o →
    (¬o.ok → DomainStop s (Machine.exec i s)) ∧
    (o.ok → ∃ t v, Machine.exec i s = .next t ∧ WritesV s t o.vd v o.tag ∧
      LanesAre v (laneBits o.et) (laneNumber o.et o.w) o.lane)

/-- R114, R116, R118, R120, R121, R132, R135 (logs 9 and 26): an operation of floating lanes, a special function or a
refinement with no enabled flag writes each lane below W, zero above W, the tag of Table 5-1 and the flags of its lanes;
operands whose tags it refuses raise DOMAIN before any effect. -/
def FloatLanesAreWritten : Prop :=
  ∀ (i : Instr) (s : State) (o : LaneOp (Nat × FlagSet)), floatLanes i s = some o → o.et.isFloat = true →
    FloatWrite s o (Machine.exec i s)

/-- R116 (logs 9 and 26): where a lane of a floating operation raises a flag whose FPTE bit is set, the slot stops with
FP-TRAP: the flags are set, vd is not written, and the detail has the flags raised and the lowest lane that raised an
enabled one. -/
def EnabledFlagTraps : Prop :=
  ∀ (i : Instr) (s : State) (o : LaneOp (Nat × FlagSet)), floatLanes i s = some o → o.et.isFloat = true →
    FloatTrap s o (Machine.exec i s)

/-- R124: `vcmp` writes each lane of md below W with the truth of its condition, zero above W, and of floating lanes the NV
flag; with no enabled flag it changes nothing else, and NV enabled raises FP-TRAP and leaves md. -/
def ComparisonIsWritten : Prop :=
  ∀ (c : VCond) (et : ElTy) (w : Width) (md : Fin 8) (a b : VReg) (s : State),
    let n := laneNumber et w
    let at_ (v : VReg) (k : Nat) : Nat := laneAt (s.getV v) (laneBits et) k
    let x (k : Nat) : FVal := et.fmt.decode (at_ a k)
    let y (k : Nat) : FVal := et.fmt.decode (at_ b k)
    let truth (k : Nat) : Bool :=
      if et.isFloat then
        let unordered := (x k).isNan || (y k).isNan
        match c with
        | .eq => !unordered && !(x k).lt (y k) && !(y k).lt (x k)
        | .ne => unordered || (x k).lt (y k) || (y k).lt (x k)
        | .lt => !unordered && (x k).lt (y k)
        | .le => !unordered && !(y k).lt (x k)
      else
        let p := laneInt et (at_ a k)
        let q := laneInt et (at_ b k)
        match c with
        | .eq => p = q
        | .ne => p ≠ q
        | .lt => p < q
        | .le => p ≤ q
    let nv (k : Nat) : Bool := et.isFloat &&
      (if c = .lt ∨ c = .le then (x k).isNan || (y k).isNan else (x k).isSnan || (y k).isSnan)
    let any := (List.range n).any nv
    (¬(s.getTag a = 0 ∧ s.getTag b = 0) → DomainStop s (Machine.exec (.vcmp c et w md a b) s)) ∧
    (s.getTag a = 0 → s.getTag b = 0 → (any = false ∨ s.ctx.cstat.getLsbD 26 = false) →
      ∃ t, Machine.exec (.vcmp c et w md a b) s = .next t ∧
        (∀ j < 128, (t.getM md).getLsbD j =
          if md = 0 then true else decide (j < vecBytes w) && truth (j / (laneBits et / 8))) ∧
        (∀ m, m ≠ md → t.getM m = s.getM m) ∧
        t.ctx.cstat = (if any then s.ctx.cstat ||| 0x100 else s.ctx.cstat) ∧
        t = { s with ctx := { s.ctx with m := t.ctx.m, cstat := t.ctx.cstat } } ∧ SameBytes s t) ∧
    (s.getTag a = 0 → s.getTag b = 0 → any = true → s.ctx.cstat.getLsbD 26 = true →
      ∃ t, Machine.exec (.vcmp c et w md a b) s = .next t ∧ t.ctx.trap.cause = 0x18 ∧ SameRegisters s t)

/-- R125, R126: the mask operations work on all 128 bits; `vmcnt` counts the active lanes and `vmfst` finds the lowest, or
the number of lanes. -/
def MaskOperationsAreWritten : Prop :=
  ∀ (s : State) (md ma mb mn : Fin 8) (et : ElTy) (w : Width) (xd : XReg),
    let n := laneNumber et w
    let live (k : Nat) : Bool := (s.getM mn).getLsbD (k * (laneBits et / 8))
    let only (t : State) (f : Nat → Bool) : Prop :=
      (∀ j < 128, (t.getM md).getLsbD j = if md = 0 then true else f j) ∧ (∀ m, m ≠ md → t.getM m = s.getM m) ∧
      t = { s with ctx := { s.ctx with m := t.ctx.m } } ∧ SameBytes s t
    (∃ t, Machine.exec (.vmand md ma mb) s = .next t ∧
      only t fun j => (s.getM ma).getLsbD j && (s.getM mb).getLsbD j) ∧
    (∃ t, Machine.exec (.vmor md ma mb) s = .next t ∧
      only t fun j => (s.getM ma).getLsbD j || (s.getM mb).getLsbD j) ∧
    (∃ t, Machine.exec (.vmnot md ma) s = .next t ∧ only t fun j => !(s.getM ma).getLsbD j) ∧
    (∃ t, Machine.exec (.vmcnt et w xd mn) s = .next t ∧
      WritesX s t xd (BitVec.ofNat 64 ((List.range n).countP live))) ∧
    ∃ t j, Machine.exec (.vmfst et w xd mn) s = .next t ∧ WritesX s t xd (BitVec.ofNat 64 j) ∧ j ≤ n ∧
      (∀ k < j, live k = false) ∧ (j < n → live j = true)

/-- R128: `vins` writes one lane of the whole register, or nothing where its index has none; `vext` reads one, with the sign
of its type, or 0; both take registers with tag 0 alone. -/
def LaneIsMovedToAndFromX : Prop :=
  ∀ (s : State) (et : ElTy) (v : VReg) (xa xb xd : XReg),
    let lw := laneBits et
    let i := (s.getX xb).toNat
    (s.getTag v ≠ 0 → DomainStop s (Machine.exec (.vins et v xa xb) s) ∧ DomainStop s (Machine.exec (.vext et xd v xb) s)) ∧
    (s.getTag v = 0 → i < 1024 / lw →
      (∃ t u, Machine.exec (.vins et v xa xb) s = .next t ∧ WritesV s t v u 0 ∧
        LanesAre u lw (1024 / lw) fun k => if k = i then (s.getX xa).toNat % 2 ^ lw else laneAt (s.getV v) lw k) ∧
      ∃ t, Machine.exec (.vext et xd v xb) s = .next t ∧
        WritesX s t xd (BitVec.ofInt 64 (laneInt et (laneAt (s.getV v) lw i)))) ∧
    (s.getTag v = 0 → 1024 / lw ≤ i →
      Machine.exec (.vins et v xa xb) s = .next s ∧
      ∃ t, Machine.exec (.vext et xd v xb) s = .next t ∧ WritesX s t xd 0)

/-- R129: a reduction of integer lanes is the sum, the least or the greatest of its lanes in lane 0, zero in the others; a
scan has in each lane that of the lanes up to it. -/
def ReductionsAreWritten : Prop :=
  ∀ (op : RedOp) (et : ElTy) (w : Width) (vd va : VReg) (s : State), et.isFloat = false →
    let n := laneNumber et w
    let z (k : Nat) : Int := laneInt et (laneAt (s.getV va) (laneBits et) k)
    let upTo (k : Nat) : Int := match op with
      | .add => ((List.range (k + 1)).map z).sum
      | .min => ((List.range (k + 1)).map z).foldl min (z 0)
      | .max => ((List.range (k + 1)).map z).foldl max (z 0)
    let ok := if op = .add then Sane (s.getTag va) else s.getTag va = 0
    (¬ok → DomainStop s (Machine.exec (.vred op et w vd va) s) ∧ DomainStop s (Machine.exec (.vscan op et w vd va) s)) ∧
    (ok →
      (∃ t v, Machine.exec (.vred op et w vd va) s = .next t ∧ WritesV s t vd v (s.getTag va) ∧
        LanesAre v (laneBits et) n fun k => if k = 0 then (upTo (n - 1) % 2 ^ laneBits et).toNat else 0) ∧
      ∃ t v, Machine.exec (.vscan op et w vd va) s = .next t ∧ WritesV s t vd v (s.getTag va) ∧
        LanesAre v (laneBits et) n fun k => (upTo k % 2 ^ laneBits et).toNat)

/-- R116, R118, R129: a reduction of floating lanes joins halves of partial results kept in binary32 and rounds once to its
type; a scan adds from the left. With no enabled flag both write their lanes and the flags of every step; an enabled flag
raises FP-TRAP and leaves vd; operands whose tags Table 5-1 refuses raise DOMAIN before any effect. -/
def FloatReductionsAreWritten : Prop :=
  ∀ (i : Instr) (s : State) (o : LaneOp (Nat × FlagSet)), reducedLanes i s = some o → o.et.isFloat = true →
    FloatWrite s o (Machine.exec i s) ∧ FloatTrap s o (Machine.exec i s)

/-- R152, R153, R160: `vcvt`, `cbq` and `cbx` of a register with tag 0 and no enabled flag write each code, zero above
them, tag 0 and the flags raised; an enabled flag raises FP-TRAP, and a register with another tag DOMAIN, with nothing
written. -/
def CodesAreWritten : Prop :=
  ∀ (i : Instr) (s : State) (o : CodeOp), codesWritten i s = some o → i.wf →
    let fs := (List.range o.n).map fun k => (o.code k).2
    (s.getTag o.va ≠ 0 → DomainStop s (Machine.exec i s)) ∧
    (s.getTag o.va = 0 → (∀ f ∈ fs, ¬Enabled s.ctx.cstat f) →
      ∃ t v, Machine.exec i s = .next t ∧ WritesVFlags s t o.vd v 0 fs ∧
        LanesAre v o.bits o.n fun k => (o.code k).1 % 2 ^ o.bits) ∧
    (s.getTag o.va = 0 → EnabledStops s s.ctx.cstat o.n (fun k => (o.code k).2) (Machine.exec i s))

/-- R151, R156: `vscl` raises the descriptor's TEXP to the largest exponent of va's elements under its format, and leaves
the rest of vd; NFS is set where an element is not finite. -/
def ScaleIsRaised : Prop :=
  ∀ (s : State) (et : ElTy) (w : Width) (vd va : VReg), et.isFloat = true →
    let vals := (List.range (laneNumber et w)).map fun k => et.fmt.decode (laneAt (s.getV va) (laneBits et) k)
    let q := (s.getV vd).toNat % 2 ^ 128
    let old := q / 2 ^ 112 % 256
    let emax := fmtEmax (fmtOfCode (q / 2 ^ 96 % 16)) (s.ctx.cb[(q / 2 ^ 106 % 4)]'(Nat.mod_lt _ (by decide)))
      (q / 2 ^ 100 % 4 != 0)
    let texp := match largestLog vals with
      | none => old
      | some l => max old (clampInt 0 254 (l - emax + 127))
    (¬(s.getTag va = 0 ∧ s.getTag vd = 0) → DomainStop s (Machine.exec (.vscl et w vd va) s)) ∧
    (s.getTag va = 0 → s.getTag vd = 0 → ∃ t v, Machine.exec (.vscl et w vd va) s = .next t ∧ OnlyV s t vd v 0 ∧
      DescIs (s.getV vd) v (q - old * 2 ^ 112 + texp * 2 ^ 112) ∧
      t.ctx.cstat = (if vals.any FVal.odd then s.ctx.cstat ||| 0x2000 else s.ctx.cstat) ∧
      t = { s with ctx := { s.ctx with v := t.ctx.v, vtag := t.ctx.vtag, cstat := t.ctx.cstat } } ∧ SameBytes s t)

/-- R149, R152, R157 (log 29): `vqnt` of registers with tag 0 and with no enabled flag writes the codes of its sub-block, and in
the descriptor the scale of sub-block J, the record's flags and J + 1; after the eighth sub-block PHASE advances by STEP.
Where vd is the descriptor's register its low 128 bits are the descriptor. An enabled flag raises FP-TRAP, another tag
DOMAIN, with nothing written. -/
def SubBlockIsQuantised : Prop :=
  ∀ (s : State) (et : ElTy) (w : Width) (vd va vb : VReg), subBlockOk et w →
    let r := Machine.exec (.vqnt et w vd va vb) s
    let q := descOf (s.getV vb)
    let f := descFmt q
    let cb := s.getCb (descCb q)
    let vals := (List.range 32).map fun k => et.fmt.decode (laneAt (s.getV va) (laneBits et) k)
    let sc := subScale q (fmtEmax f cb (descScl q != 0)) vals
    let code (k : Nat) : Nat × FlagSet := fmtEncode f cb
      (if descDith q then .dither (ditherAt ((32 * descJ q + k + s.ctx.phase.toNat) % 256)) else .mode (descRnd q))
      (descSat q) false ((vals.getD k (.num false 0 0)).scale (mxShift f (descScl q) - sc.s))
    let desc := quantDesc q sc ((List.range 32).all fun k => codeZero f cb (code k).1) (vals.any FVal.odd)
    let odd := if vals.any FVal.odd then s.ctx.cstat ||| 0x2000 else s.ctx.cstat
    let codes (v : VWord) : Prop := LanesAre v f.bits 32 fun k => (code k).1 % 2 ^ f.bits
    (¬(s.getTag va = 0 ∧ s.getTag vb = 0) → DomainStop s r) ∧
    (s.getTag va = 0 → s.getTag vb = 0 →
      EnabledStops s odd 32 (fun k => (code k).2) r ∧
      ((∀ k < 32, ¬Enabled s.ctx.cstat (code k).2) →
        ∃ t v u, r = .next t ∧ codes v ∧ t.getV vb = u ∧ t.getTag vb = 0 ∧
          (vd ≠ vb → t.getV vd = v ∧ t.getTag vd = 0 ∧ DescIs (s.getV vb) u desc) ∧ (vd = vb → DescIs v u desc) ∧
          (∀ r, r ≠ vd → r ≠ vb → t.getV r = s.getV r ∧ t.getTag r = s.getTag r) ∧
          u.toNat / 2 ^ 108 % 8 = (descJ q + 1) % 8 ∧
          t.ctx.cstat = withFlags odd ((List.range 32).map fun k => (code k).2) ∧
          t.ctx.phase = (if descJ q = 7 then s.ctx.phase + s.ctx.dstep else s.ctx.phase) ∧
          t = { s with ctx := { s.ctx with
            v := t.ctx.v, vtag := t.ctx.vtag, cstat := t.ctx.cstat, phase := t.ctx.phase } } ∧ SameBytes s t))

/-- R152, R158 (log 29): `vdqnt` of registers with tag 0 and with no enabled flag writes each element of sub-block J scaled and
rounded once, zeros where the sub-block is marked, NaN with NV and NFS where its scale code is 255, and J + 1 in the
descriptor, whose low 128 bits stand in vd where that is its register. An enabled flag raises FP-TRAP, another tag DOMAIN, with
nothing written. -/
def SubBlockIsDequantised : Prop :=
  ∀ (s : State) (et : ElTy) (w : Width) (vd va vb : VReg), subBlockOk et w →
    let r := Machine.exec (.vdqnt et w vd va vb) s
    let q := descOf (s.getV vb)
    let f := descFmt q
    let o := ElTy.toFmt et
    let lane (k : Nat) : Nat × FlagSet := match dequantScale q with
      | none => (0, FlagSet.none)
      | some (c, e) =>
        if c = 255 then (o.nan, { FlagSet.none with nv := true, nfs := true })
        else fmtEncode o 0 (.mode (s.ctx.cstat.toNat % 4)) false false
          ((fmtDecode f (s.getCb (descCb q)) (laneAt (s.getV va) f.bits k)).scale (e - mxShift f (descScl q)))
    let desc := q - descJ q * 2 ^ 108 + (descJ q + 1) % 8 * 2 ^ 108
    (¬(s.getTag va = 0 ∧ s.getTag vb = 0) → DomainStop s r) ∧
    (s.getTag va = 0 → s.getTag vb = 0 →
      EnabledStops s s.ctx.cstat 32 (fun k => (lane k).2) r ∧
      ((∀ k < 32, ¬Enabled s.ctx.cstat (lane k).2) →
        ∃ t v u, r = .next t ∧ LanesAre v (laneBits et) 32 (fun k => (lane k).1 % 2 ^ laneBits et) ∧ t.getV vb = u ∧
          t.getTag vb = 0 ∧ (vd ≠ vb → t.getV vd = v ∧ t.getTag vd = 0 ∧ DescIs (s.getV vb) u desc) ∧
          (vd = vb → DescIs v u desc) ∧ (∀ r, r ≠ vd → r ≠ vb → t.getV r = s.getV r ∧ t.getTag r = s.getTag r) ∧
          t.ctx.cstat = withFlags s.ctx.cstat ((List.range 32).map fun k => (lane k).2) ∧
          t = { s with ctx := { s.ctx with v := t.ctx.v, vtag := t.ctx.vtag, cstat := t.ctx.cstat } } ∧ SameBytes s t))

/-- R149, R159, R161 (log 29): `cbld` and a writing `dthset` change nothing that their own group sees; after the group
the codebook has the low 256 bits of va, and the dither state the low 16 bits of xa. `dthset` reads the state before its
group. -/
def NextGroupSeesCodebookAndDither : Prop :=
  ∀ (s : State) (n : Fin 4) (va : VReg) (xd xa : XReg) (wr : Bool),
    (s.getTag va ≠ 0 → DomainStop s (Machine.exec (.cbld n va) s)) ∧
    (s.getTag va = 0 → ∃ t, Machine.exec (.cbld n va) s = .next t ∧ t.ctx.cb = s.ctx.cb ∧ SameRegisters s t ∧
      SameBytes s t ∧ t.endGroup.ctx.cb[n] = BitVec.ofNat 256 (s.getV va).toNat) ∧
    ∃ t, Machine.exec (.dthset xd xa wr) s = .next t ∧ t.ctx.phase = s.ctx.phase ∧ t.ctx.dstep = s.ctx.dstep ∧
      (∀ r, t.getX r = if r = xd ∧ r ≠ 0 then BitVec.ofNat 64 (s.ctx.found.phase.toNat + 256 * s.ctx.found.dstep.toNat)
        else s.getX r) ∧ SameBytes s t ∧
      t = { s with ctx := { s.ctx with x := t.ctx.x, defer := t.ctx.defer } } ∧
      (wr = false → t.ctx.defer = s.ctx.defer) ∧
      (wr = true → t.endGroup.ctx.phase = BitVec.ofNat 8 (s.getX xa).toNat ∧
        t.endGroup.ctx.dstep = BitVec.ofNat 8 ((s.getX xa).toNat / 256))

/-- R162: `vpk` turns elements of b bits into planes, the highest first, and `vupk` planes into elements: bit k of element e
stands in byte e ÷ 8 of its plane, at bit e mod 8. Bits beyond the elements are 0, and the tag is 0. -/
def PlanesAreTransposed : Prop :=
  ∀ (s : State) (c : Fin 32) (w : Width) (vd va : VReg),
    let b := c.val + 1
    let bytes := vecBytes w / b
    let elem (e k : Nat) : Nat := e * b + k
    let plane (e k : Nat) : Nat := ((b - 1 - k) * bytes + e / 8) * 8 + e % 8
    (s.getTag va ≠ 0 → DomainStop s (Machine.exec (.vpk c w vd va) s) ∧ DomainStop s (Machine.exec (.vupk c w vd va) s)) ∧
    (s.getTag va = 0 →
      (∃ t v, Machine.exec (.vpk c w vd va) s = .next t ∧ WritesV s t vd v 0 ∧ v.toNat < 2 ^ (8 * bytes * b) ∧
        ∀ e < 8 * bytes, ∀ k < b, v.getLsbD (plane e k) = (s.getV va).getLsbD (elem e k)) ∧
      ∃ t v, Machine.exec (.vupk c w vd va) s = .next t ∧ WritesV s t vd v 0 ∧ v.toNat < 2 ^ (8 * bytes * b) ∧
        ∀ e < 8 * bytes, ∀ k < b, v.getLsbD (elem e k) = (s.getV va).getLsbD (plane e k))

/-- R194, R199, R206, R207, R283 (log 13): `mma` and `mmz` wait for room in the matrix queue, then for the ordering events
before them; without the right to a ring or a
tile they raise ACCESS, on rings that do not fit RING-CONFIG, and for a pair of tiles that is not one PCW-INVALID; else
they claim np tiles of ringA, and one of ringB unless KEEP, latch what they read, and enter the queue. -/
def MatrixProductsAreQueued : Prop :=
  ∀ (s : State) (zero : Bool) (acc cnt ra rb : Fin 16) (wp : Fin 8) (keep : Bool),
    let o := Machine.exec (if zero then .mmz acc cnt ra rb wp keep else .mma acc cnt ra rb wp keep) s
    let w := s.getW wp
    let pair := w.toNat / 2 ^ 12 % 4 = 1
    let n := cnt.val + 1
    let np := if pair then n / 2 else n
    let a := s.core.rings[ra]
    let b := s.core.rings[rb]
    let granted := RingGranted s ra ∧ RingGranted s rb ∧ TilesGranted s acc.val n
    let fits := a.nslot ≠ 0 ∧ b.nslot ≠ 0 ∧ a.role = 0 ∧ b.role = 1 ∧ np ≤ a.nslot ∧
      1024 * (pcwAFmt w).bits ≤ a.slotSize ∧ 8192 * (pcwBFmt w).bits ≤ b.slotSize
    let open_ := s.core.mq.length < 8 ∧ s.accessReady true = true
    (8 ≤ s.core.mq.length → HeldFor s o (.queueFull 5)) ∧
    (s.core.mq.length < 8 → s.accessReady true = false → HeldBack s o) ∧
    (open_ → ¬granted → AccessStop s o 0) ∧
    (open_ → granted → ¬fits → o = .next (s.stop causeRingConfig 0 0)) ∧
    (open_ → granted → fits → pair → acc.val % 2 = 1 ∨ n % 2 = 1 →
      o = .next (s.stop causePcwInvalid 0 0)) ∧
    (open_ → granted → fits → (pair → acc.val % 2 = 0 ∧ n % 2 = 0) →
      ∃ t, o = .next t ∧
        QueuesMatrix s t (.mul ⟨zero, acc.val, np, ra, rb, a.claim, b.claim, keep, w,
          s.ctx.cb.getD (w.toNat / 2 ^ 32 % 4) 0, s.ctx.cb.getD (w.toNat / 2 ^ 34 % 4) 0, a.tscale, b.tscale⟩) ∧
        t.core.rings[ra] = { a with claim := (a.claim + np) % 2 ^ 32 } ∧
        t.core.rings[rb] = (if keep then b else { b with claim := (b.claim + 1) % 2 ^ 32 }) ∧
        ∀ r, r ≠ ra → r ≠ rb → t.core.rings[r] = s.core.rings[r])

/-- R194, R209 to R211, R283 (log 13): `accz`, `accrd` and `accwr` wait for room in the matrix queue, then for the ordering
events before them; a tile that is not the
task's, and a block number above 255, raise ACCESS; else they enter the queue with their operands. -/
def TileAccessesAreQueued : Prop :=
  ∀ (s : State) (acc cnt tag tile : Fin 16) (v : VReg) (xa : XReg) (imm : Fin 128),
    let z := Machine.exec (.accz acc cnt tag) s
    let r := Machine.exec (.accrd v tile xa imm) s
    let w := Machine.exec (.accwr tile v xa imm) s
    let j := (s.getX xa).toNat + imm.val
    (8 ≤ s.core.mq.length → HeldFor s z (.queueFull 5) ∧ HeldFor s r (.queueFull 5) ∧ HeldFor s w (.queueFull 5)) ∧
    (s.core.mq.length < 8 → s.accessReady true = false → HeldBack s z ∧ HeldBack s r ∧ HeldBack s w) ∧
    (s.core.mq.length < 8 → s.accessReady true = true →
      (¬TilesGranted s acc.val (cnt.val + 1) → AccessStop s z 0) ∧
      (TilesGranted s acc.val (cnt.val + 1) → ∃ t, z = .next t ∧ t.core.rings = s.core.rings ∧
        QueuesMatrix s t (.zero acc.val (cnt.val + 1) (BitVec.ofNat 3 tag.val))) ∧
      (¬TilesGranted s tile.val 1 ∨ 255 < j → AccessStop s r 0 ∧ AccessStop s w 0) ∧
      (TilesGranted s tile.val 1 → j ≤ 255 →
        (∃ t, r = .next t ∧ t.core.rings = s.core.rings ∧ QueuesMatrix s t (.read v tile j)) ∧
        ∃ t, w = .next t ∧ t.core.rings = s.core.rings ∧
          QueuesMatrix s t (.write tile (s.getV v) (s.getTag v) j)))

/-- R39, R170, R208: `pcw` and `pcwr` raise PCW-INVALID for a word that is not valid; a valid one changes no register that
the running bundle or the next two see, and is the word that a matrix operation reads from the third on. -/
def PrecisionWordIsSeenThreeBundlesLater : Prop :=
  ∀ (s : State) (wd ws : Fin 8) (xa : XReg) (fld : Fin 16), fld.val < 15 →
    let f := pcwField fld.val
    let field (u v : Word) : Word := BitVec.ofNat 64
      (u.toNat - u.toNat / 2 ^ f.1 % 2 ^ f.2 * 2 ^ f.1 + v.toNat % 2 ^ f.2 * 2 ^ f.1)
    ∀ p ∈ [(Instr.pcw wd xa, s.getX xa), (Instr.pcwr wd ws xa fld, field (s.getW ws) (s.getX xa))],
      (pcwValid p.2 = false → Machine.exec p.1 s = .next (s.stop causePcwInvalid 0 0)) ∧
      (pcwValid p.2 = true → ∃ t, Machine.exec p.1 s = .next t ∧
        t = { s with ctx := { s.ctx with wpend := t.ctx.wpend } } ∧ SameBytes s t ∧
        ∀ k, let u := { t with ctx := { t.ctx with bundles := s.ctx.bundles + k } }
          (3 ≤ k → u.getW wd = p.2) ∧
          (k < 3 → u.getW wd = { s with ctx := { s.ctx with bundles := s.ctx.bundles + k } }.getW wd) ∧
          ∀ n, n ≠ wd → u.getW n = { s with ctx := { s.ctx with bundles := s.ctx.bundles + k } }.getW n)

/-- R38, R212: a tile of the mask that is not the task's makes `mwait` raise ACCESS. It goes on at once where no entry of its
context names a tile of its mask, or any tile under mask 0; else its context waits and nothing else changes. -/
def MatrixWaitReturnsOrWaits : Prop :=
  ∀ (s : State) (mask : Fin 65536),
    let covered := ∃ e ∈ s.core.mq, e.who = s.foc ∧ (mask.val = 0 ∨ ∃ k ∈ e.op.tiles, mask.val.testBit k = true)
    let granted := mask.val = 0 ∨ (s.foc.core ≠ 96 ∧ ∃ t, s.ctx.task = some t ∧
      ∀ k < 16, mask.val.testBit k = true → t.amask.testBit k = true)
    let o := Machine.exec (.mwait mask) s
    (¬granted → AccessStop s o 0) ∧ (granted → ¬covered → o = .next s) ∧
    (granted → covered → WaitsFor s o (.matrix mask.val))

/-- R38, R213, R214, R39 (log 13): without the right to its ring a ring instruction raises ACCESS. `rset` raises
RING-CONFIG for words that R213 refuses and for a busy ring; else the ring stays as it was in its group and then has its
words and counters of 0. `rget` reads a word or a counter, 0 of a ring without configuration, or the crib offset of the
slot at HEAD or TAIL once there is a tile or a free slot. -/
def RingIsConfiguredAndRead : Prop :=
  ∀ (s : State) (n : Fin 16) (xa xb xd : XReg) (sel k : Imm 128), sel.uval < 8 →
    let r := s.core.rings[n]
    let free := r.nslot - Occupied r - r.resv
    let set_ := Machine.exec (.rset n xa xb) s
    let get := Machine.exec (.rget sel xd n) s
    (¬RingGranted s n → AccessStop s set_ 0 ∧ AccessStop s get 0 ∧ AccessStop s (Machine.exec (.rpush n k) s) 0 ∧
      AccessStop s (Machine.exec (.rpop n k) s) 0) ∧
    (RingGranted s n →
      (¬RingWords (s.getX xa) (s.getX xb) ∨ s.core.ringBusy n = true → set_ = .next (s.stop causeRingConfig 0 0)) ∧
      (RingWords (s.getX xa) (s.getX xb) → s.core.ringBusy n = false → ∃ t, set_ = .next t ∧
        t = { s with ctx := { s.ctx with defer := t.ctx.defer } } ∧ SameBytes s t ∧
        let q := t.endGroup.core.rings[n]
        q.cfg = s.getX xa ∧ q.side = s.getX xb ∧ q.head = 0 ∧ q.tail = 0 ∧ q.claim = 0 ∧ q.resv = 0) ∧
      (sel.uval < 6 → ∃ t, get = .next t ∧ WritesX s t xd
        (if r.nslot = 0 then 0 else if sel.uval = 0 then r.cfg else if sel.uval = 1 then r.side
          else if sel.uval = 2 then BitVec.ofNat 64 r.head else if sel.uval = 3 then BitVec.ofNat 64 r.tail
          else if sel.uval = 4 then BitVec.ofNat 64 r.resv else BitVec.ofNat 64 r.claim)) ∧
      (6 ≤ sel.uval → r.nslot = 0 → get = .next (s.stop causeRingConfig 0 0)) ∧
      (sel.uval = 6 → r.nslot ≠ 0 → Occupied r ≠ 0 → ∃ t, get = .next t ∧
        WritesX s t xd (BitVec.ofNat 64 (r.base + r.head % r.nslot * r.slotSize))) ∧
      (sel.uval = 7 → r.nslot ≠ 0 → free ≠ 0 → ∃ t, get = .next t ∧
        WritesX s t xd (BitVec.ofNat 64 (r.base + r.tail % r.nslot * r.slotSize))) ∧
      (sel.uval = 6 → r.nslot ≠ 0 → Occupied r = 0 → WaitsFor s get (.ringHead n)) ∧
      (sel.uval = 7 → r.nslot ≠ 0 → free = 0 → WaitsFor s get (.ringTail n)))

/-- R215: with every earlier store of the task performed and every earlier load returned, `rpush` raises RING-CONFIG where a
slot is reserved or the ring has no room for its k tiles, and else adds k to TAIL; `rpop` raises it where the ring holds
fewer or is busy, and else adds k to HEAD. Nothing else of a ring or a register changes, and no byte of memory where the die
keeps no wait records. -/
def RingIsPushedAndPopped : Prop :=
  ∀ (s : State) (n : Fin 16) (k : Imm 128), RingGranted s n → s.ctx.stores = [] → s.ctx.loads = [] →
    let r := s.core.rings[n]
    let push := Machine.exec (.rpush n k) s
    let pop := Machine.exec (.rpop n k) s
    (r.resv ≠ 0 ∨ r.nslot < Occupied r + k.uval → push = .next (s.stop causeRingConfig 0 0)) ∧
    (r.resv = 0 → Occupied r + k.uval ≤ r.nslot → ∃ t, push = .next t ∧
      t.core.rings[n] = { r with tail := (r.tail + k.uval) % 2 ^ 32 } ∧ OtherRings s t n ∧ SameRegisters s t ∧
      t.core = { s.core with rings := t.core.rings } ∧ (s.die.owring.toNat % 2 ^ 16 = 0 → SameBytes s t)) ∧
    (Occupied r < k.uval ∨ s.core.ringBusy n = true → pop = .next (s.stop causeRingConfig 0 0)) ∧
    (k.uval ≤ Occupied r → s.core.ringBusy n = false → ∃ t q, pop = .next t ∧ t.core.rings[n] = q ∧
      q.head = (r.head + k.uval) % 2 ^ 32 ∧
      q = { r with head := q.head, popper := q.popper, opened := q.opened } ∧ OtherRings s t n ∧
      SameRegisters s t ∧ t.core = { s.core with rings := t.core.rings } ∧ SameBytes s t)

/-- R11, R223, R226, R232, R233, R283 (logs 13 and 62): `ppst`, `hrec` and `htag` wait for room in the post-processing queue,
then for the ordering events before them; they raise
ACCESS for a tile or ring that is not the task's and for places beyond the crib or the side bank, `ppst` RING-CONFIG for
a ring that does not take its tiles; else they enter the queue with what they latch. An accepted `ppst` advances its
set's serial number and the dither phase by its output tiles. -/
def PostProcessingIsQueued : Prop :=
  ∀ (s : State) (acc cnt ring tag : Fin 16) (xa xb : XReg) (toRing : Bool) (set : Fin 4) (cnt' : Fin 256),
    let st := Machine.exec (.ppst acc cnt xa ring toRing set) s
    let rb := Machine.exec (.hrec xa xb cnt) s
    let tg := Machine.exec (.htag xa cnt' tag) s
    let a := (s.getX xa).toNat
    let b := (s.getX xb).toNat
    let n := cnt.val + 1
    let words := s.ctx.pp[set]
    let c := words[0].toNat
    let bits := (fmtOfCode (c % 16)).bits
    let two := c / 2 ^ 13 % 4 = 1
    let outs := n / (if two then 2 else 1)
    let ser := words[2].toNat % 2 ^ 32
    let r := s.core.rings[ring]
    let granted := TilesGranted s acc.val n ∧ (toRing = true → RingGranted s ring)
    let placed := toRing = false → a % (32 * bits) = 0 ∧ a < 2 ^ 21 ∧ a + 1024 * bits * outs ≤ 2 ^ 21
    let fits := toRing = true → r.nslot ≠ 0 ∧ r.role ≠ 1 ∧ ¬(r.role = 0 ∧ c / 2 ^ 12 % 2 = 1) ∧ 1024 * bits ≤ r.slotSize
    let array := s.foc.core ≠ 96
    let tile (x : Nat) := x % 32768 = 0 ∧ x + 32768 * n ≤ 2 ^ 21
    (8 ≤ s.core.ppq.length → HeldFor s st (.queueFull 4) ∧ HeldFor s rb (.queueFull 4) ∧ HeldFor s tg (.queueFull 4)) ∧
    (s.core.ppq.length < 8 → s.accessReady true = false → HeldBack s st ∧ HeldBack s rb ∧ HeldBack s tg) ∧
    (s.core.ppq.length < 8 → s.accessReady true = true →
      (¬(granted ∧ placed) → AccessStop s st 0) ∧
      (granted → placed → ¬fits → st = .next (s.stop causeRingConfig 0 0)) ∧
      (granted → placed → fits → two → acc.val % 2 = 1 ∨ n % 2 = 1 → st = .next (s.stop causePcwInvalid 0 0)) ∧
      (granted → placed → fits → (two → acc.val % 2 = 0 ∧ n % 2 = 0) → ∃ t, st = .next t ∧
        QueuesStore s t (.store ⟨acc.val, n, if toRing then some ring else none, a, words, s.ctx.ht,
          s.ctx.cb.getD (c / 2 ^ 10 % 4) 0, s.ctx.phase, s.ctx.dstep, ser⟩) ∧
        (t.ctx.phase.toNat = (s.ctx.phase.toNat + outs * s.ctx.dstep.toNat) % 256) ∧
        (t.ctx.pp[set][2].toNat = words[2].toNat - ser + (ser + outs) % 2 ^ 32) ∧
        t.ctx.pp[set][0] = words[0] ∧ t.ctx.pp[set][1] = words[1] ∧
        ∀ k : Fin 4, k ≠ set → t.ctx.pp[k] = s.ctx.pp[k]) ∧
      (¬(array ∧ tile a ∧ tile b) → AccessStop s rb 0) ∧
      (array → tile a → tile b → ∃ t, rb = .next t ∧ QueuesStore s t (.rebuild a b n) ∧ t.ctx.pp = s.ctx.pp ∧
        t.ctx.phase = s.ctx.phase) ∧
      (¬array ∨ 16384 < a + (cnt'.val + 1) → AccessStop s tg 0) ∧
      (array → a + (cnt'.val + 1) ≤ 16384 → ∃ t, tg = .next t ∧
        QueuesStore s t (.retag a (cnt'.val + 1) (BitVec.ofNat 4 tag.val)) ∧ t.ctx.pp = s.ctx.pp ∧
        t.ctx.phase = s.ctx.phase))

/-- R224, R225: `ppcfg` writes a word of a set that the rules allow, and raises PCW-INVALID with detail 1 for another; or
writes a threshold with the low 32 bits of xa. Nothing else changes. -/
def PostProcessingIsConfigured : Prop :=
  ∀ (s : State) (set : Fin 4) (wd : Fin 3) (ht : Fin 8) (xa : XReg),
    let v := s.getX xa
    let b (hi lo : Nat) : Nat := v.toNat / 2 ^ lo % 2 ^ (hi + 1 - lo)
    let vec (o : Nat) : Prop := o % 32 = 0 ∧ o + 1024 ≤ 2 ^ 21
    let ok := match wd.val with
      | 0 => b 63 31 = 0 ∧ b 14 13 ≠ 3 ∧ b 17 15 ≤ 5 ∧ ¬(b 8 8 = 1 ∧ b 7 6 ≠ 0)
      | 1 => b 63 53 = 0 ∧ b 31 21 = 0 ∧ vec (b 20 0) ∧ vec (b 52 32)
      | _ => b 63 53 = 0 ∧ b 52 32 % 8 = 0
    (¬ok → Machine.exec (.ppcfgWord set (wd.castSucc) xa) s = .next (s.stop causePcwInvalid 0 1)) ∧
    (ok → ∃ t, Machine.exec (.ppcfgWord set (wd.castSucc) xa) s = .next t ∧ t.ctx.pp[set][wd] = v ∧
      (∀ j : Fin 3, j ≠ wd → t.ctx.pp[set][j] = s.ctx.pp[set][j]) ∧ (∀ k : Fin 4, k ≠ set → t.ctx.pp[k] = s.ctx.pp[k]) ∧
      t = { s with ctx := { s.ctx with pp := t.ctx.pp } } ∧ SameBytes s t) ∧
    ∃ t, Machine.exec (.ppcfgThreshold ht xa) s = .next t ∧ t.ctx.ht[ht] = BitVec.ofNat 32 v.toNat ∧
      (∀ j : Fin 8, j ≠ ht → t.ctx.ht[j] = s.ctx.ht[j]) ∧ t = { s with ctx := { s.ctx with ht := t.ctx.ht } } ∧ SameBytes s t

/-- R217, R222, R234, R235: `hthr` of a register whose L is 1 to 5 gives +0 for each lane whose magnitude lies below the
threshold and the lane itself for another, and sets the tag's top bit; `hfwd` and `hinv` of registers with equal tags give
half sums and half differences, or sums and differences, each rounded once, with L one level up or down; an enabled flag
raises FP-TRAP and leaves both registers. Other tags raise DOMAIN before any effect. -/
def HaarLanesAreWritten : Prop :=
  ∀ (s : State) (w : Width) (vd va vb : VReg) (ht : Fin 8),
    let n := vecBytes w / 4
    let a (k : Nat) : Nat := laneAt (s.getV va) 32 k
    let b (k : Nat) : Nat := laneAt (s.getV vb) 32 k
    let T := s.getTag va
    let L := T.toNat % 8
    let small (y : Nat) : Prop :=
      match (fmt32.decode y).abs, fmt32.decode (s.ctx.ht[ht]).toNat with
      | .num _ m e, .num false p g => p ≠ 0 ∧ dyLe p g m e = false
      | .num _ _ _, .inf neg => neg = false
      | _, _ => False
    let half (inverse minus : Bool) (k : Nat) : Nat × FlagSet := haarSum (a k) (b k) minus !inverse
    let both (inverse : Bool) (k : Nat) : FlagSet := (half inverse false k).2.or (half inverse true k).2
    (¬(1 ≤ L ∧ L ≤ 5) → DomainStop s (Machine.exec (.hthr w vd va ht) s)) ∧
    (1 ≤ L → L ≤ 5 → ∃ t v, Machine.exec (.hthr w vd va ht) s = .next t ∧ WritesV s t vd v (T ||| 8) ∧ v.toNat < 2 ^ (32 * n) ∧
      ∀ k < n, (small (a k) → laneAt v 32 k = 0) ∧ (¬small (a k) → laneAt v 32 k = a k)) ∧
    ∀ p ∈ [(Instr.hfwd w vd va vb, false, decide (L ≤ 4), T + 1),
        (Instr.hinv w vd va vb, true, decide (1 ≤ L ∧ L ≤ 5), if L = 1 then 0 else T - 1)],
      (¬(T = s.getTag vb ∧ p.2.2.1 = true) → DomainStop s (Machine.exec p.1 s)) ∧
      (T = s.getTag vb → p.2.2.1 = true → EnabledStops s s.ctx.cstat n (both p.2.1) (Machine.exec p.1 s)) ∧
      (T = s.getTag vb → p.2.2.1 = true → (∀ k < n, ¬Enabled s.ctx.cstat (both p.2.1 k)) → ∃ t v u, Machine.exec p.1 s = .next t ∧
        t.getV vd = v ∧ t.getTag vd = p.2.2.2 ∧ t.getV (vd + 1) = u ∧ t.getTag (vd + 1) = p.2.2.2 ∧
        LanesAre v 32 n (fun k => (half p.2.1 false k).1 % 2 ^ 32) ∧ LanesAre u 32 n (fun k => (half p.2.1 true k).1 % 2 ^ 32) ∧
        (∀ r, r ≠ vd → r ≠ vd + 1 → t.getV r = s.getV r ∧ t.getTag r = s.getTag r) ∧
        t.ctx.cstat = withFlags s.ctx.cstat
          ((List.range n).flatMap fun k => [(half p.2.1 false k).2, (half p.2.1 true k).2]) ∧
        t = { s with ctx := { s.ctx with v := t.ctx.v, vtag := t.ctx.vtag, cstat := t.ctx.cstat } } ∧ SameBytes s t)

/-- R237, R238, R241, R243, R249, R320, Table 10-5 (logs 13, 28 and 35): with no ordering event holding it back, a copy command
without the right to its queue raises ACCESS, one that finds it full waits, one that names a ring without the right to it
raises ACCESS, one that Table 10-4 refuses ENGINE-FAULT with its slot, queue, reason and number, and one whose ring does
not suit it RING-CONFIG; else it enters its queue last with its operands, its shape, its view and a `cp`'s group entries
latched, and takes the queue's next number. -/
def CopiesAreQueued : Prop :=
  ∀ (i : Instr) (s : State) (c : CopyKind × Bool × Bool × Fin 4 × XReg × XReg × Vector Word 4),
    copyCommand i s = some c → s.ctx.points = [] →
    let q := c.2.2.2.1
    let n : Nat := s.ctx.opn[q.val]
    let o := Machine.exec i s
    (¬QueueGranted s q.val → AccessStop s o 0) ∧
    (QueueGranted s q.val → 16 ≤ s.core.cq[q].length → HeldFor s o (.queueFull q.val)) ∧
    (QueueGranted s q.val → s.core.cq[q].length < 16 → ∀ e, NewCopy s c e →
      let mine := e.kind.fills = true → e.dring = true → RingGranted s e.ring
      (¬mine → AccessStop s o 0) ∧
      (∀ r, mine → e.issueReason = some r →
        o = .next (s.stop causeEngine 0 (BitVec.ofNat 64 (n % 2 ^ 16 + r * 2 ^ 24 + q.val * 2 ^ 47 + s.ctx.slot * 2 ^ 50)))) ∧
      (mine → e.issueReason = none → e.toRing = true → e.ringSuits s.core.rings[e.ring] = false →
        o = .next (s.stop causeRingConfig 0 0)) ∧
      (mine → e.issueReason = none → (e.toRing = true → e.ringSuits s.core.rings[e.ring] = true) →
        ∃ t e', o = .next t ∧ NewCopy s c e' ∧ t.core.cq[q] = s.core.cq[q] ++ [e'] ∧
          (∀ p : Fin 4, p ≠ q → t.core.cq[p] = s.core.cq[p]) ∧ t.ctx.opn = s.ctx.opn.set q.val (n + 1) ∧
          t = { s with ctx := { s.ctx with opn := t.ctx.opn }, core := { s.core with cq := t.core.cq } } ∧ SameBytes s t))

/-- R240: `shape` writes one word of a shape register, the last one without its reserved bits, and nothing else. -/
def ShapeWordIsWritten : Prop :=
  ∀ (s : State) (sh : Fin 16) (k : Fin 4) (xa : XReg),
    ∃ t, Machine.exec (.shape sh k xa) s = .next t ∧
      t.ctx.sh[sh][k] = BitVec.ofNat 64 ((s.getX xa).toNat % (if k = 3 then 2 ^ 59 else 2 ^ 64)) ∧
      (∀ j : Fin 4, j ≠ k → t.ctx.sh[sh][j] = s.ctx.sh[sh][j]) ∧ (∀ n : Fin 16, n ≠ sh → t.ctx.sh[n] = s.ctx.sh[n]) ∧
      t = { s with ctx := { s.ctx with sh := t.ctx.sh } } ∧ SameBytes s t

/-- R76 to R78, R259, Table 3-10: `qtst` writes the truth of its condition on a queue, as the first `qtst` of its bundle on
that queue finds it, and `qstat` the word, the bytes or
the address of its progress record, that of the oldest open operation or else of the last one; both leave the rest as it
was, but for the ordering event of a true `done` or `empty` and of a completed operation. -/
def QueueIsRead : Prop :=
  ∀ (s : State) (cond : QCond) (sel : QSel) (qd q : Fin 8) (xd : XReg),
    let test := Machine.exec (.qtst cond qd q) s
    let stat := Machine.exec (.qstat sel xd q) s
    let rs := s.records q
    let live (r : Progress) : Prop := r.state = .queued ∨ r.state = .running ∨ r.state = .faulted
    (q.val < 4 → ¬QueueGranted s q.val → AccessStop s test 0 ∧ AccessStop s stat 0) ∧
    ((q.val < 4 → QueueGranted s q.val) → (∀ l, s.ctx.qsam.lookup q.val = some l → l.length = 4) →
      (∃ (t : State) (e p f d v : Bool), test = .next t ∧ t.ctx.qsam.lookup q.val = some [e, p, f, d] ∧
        (s.ctx.qsam.lookup q.val = none →
          (e = true ↔ ∀ r ∈ rs, ¬live r) ∧ p = s.hasRoom q ∧ f = s.awaits q ∧
          (d = true ↔ ∀ r ∈ rs, live r → r.opn + 1 ≠ s.ctx.opn[q.val])) ∧
        (s.ctx.qsam.lookup q.val ≠ none → t.ctx.qsam.lookup q.val = s.ctx.qsam.lookup q.val) ∧
        v = (match cond with
          | .empty => e
          | .space => p
          | .fault => f
          | .done => d) ∧
        (∀ r, t.getQ r = if r = qd ∧ r ≠ 0 then v else s.getQ r) ∧
        t.ctx.points = (if v = true ∧ (cond = .empty ∨ cond = .done) then s.ctx.points ++ [⟨.acq, .core, s.ctx.seq⟩]
          else s.ctx.points) ∧
        t = { s with ctx := { s.ctx with q := t.ctx.q, points := t.ctx.points, qsam := t.ctx.qsam } } ∧ SameBytes s t) ∧
      ∃ t r, stat = .next t ∧ (∀ x, t.getX x = if x = xd ∧ x ≠ 0 then (match sel with
          | .word => progressWord r
          | .bytes => BitVec.ofNat 64 r.bytes
          | .faddr => r.faddr) else s.getX x) ∧
        ((∃ p ∈ rs, live p) → ∃ a b, rs = a ++ r :: b ∧ live r ∧ ∀ p ∈ a, ¬live p) ∧
        ((∀ p ∈ rs, ¬live p) → (∀ p ∈ rs, p.opn + 1 ≠ s.ctx.opn[q.val]) → r = s.ctx.lastOp[q.val]) ∧
        t.ctx.points = (if r.state = .done then s.ctx.points ++ [⟨.acq, .core, s.ctx.seq⟩] else s.ctx.points) ∧
        t = { s with ctx := { s.ctx with x := t.ctx.x, points := t.ctx.points } } ∧ SameBytes s t)

/-- R203, R230, R260, R288, R332 (log 42): `qcan` and `qrty` need the right to a copy queue. On the matrix queue `qcan`
takes the oldest faulted entry of its context out of its fault and marks it cancelled, and `qrty` takes it out of its
fault to go on from the first pass it has not committed; on a copy queue `qrty` sets the faulted operation running
again. Where nothing of the context has faulted `qrty` does nothing, and on the matrix and the post-processing queue
`qcan` neither. -/
def FaultedOperationIsResolved : Prop :=
  ∀ (s : State) (q : Fin 8),
    let can := Machine.exec (.qcan q) s
    let again := Machine.exec (.qrty q) s
    (q.val < 4 → ¬QueueGranted s q.val → AccessStop s can 0 ∧ AccessStop s again 0) ∧
    (∀ (e : MqEntry) (a b : List MqEntry), q = 5 → s.core.mq = a ++ e :: b → e.who = s.foc → e.fault.isSome →
      (∀ p ∈ a, p.who = s.foc → p.fault = none) → (∀ p ∈ a ++ b, p.ord ≠ e.ord) →
      (∃ t, can = .next t ∧ t = { s with core := { s.core with mq := t.core.mq } } ∧
        t.core.mq = a ++ { e with fault := none, cancelled := true } :: b ∧ SameBytes s t) ∧
      ∃ t e', again = .next t ∧ t = { s with core := { s.core with mq := t.core.mq, staged := t.core.staged } } ∧
        t.core.mq = a ++ e' :: b ∧ e'.fault = none ∧ e'.op = e.op ∧ e'.committed = e.committed ∧
        e'.fetched = e.fetched.take e.committed ∧ e'.staged = none ∧ e'.cancelled = e.cancelled ∧ SameBytes s t) ∧
    (∀ (c : Fin 4) (o : CopyOp) (a b : List CopyOp), q.val = c.val → QueueGranted s c.val → s.core.cq[c] = a ++ o :: b →
      o.who = s.foc → o.state = .faulted → (∀ p ∈ a, p.who = s.foc → p.state ≠ .faulted) →
      (∀ p ∈ a ++ b, ¬(p.who = o.who ∧ p.opn = o.opn)) →
      ∃ t o', again = .next t ∧ t = { s with core := { s.core with cq := t.core.cq } } ∧ t.core.cq[c] = a ++ o' :: b ∧
        (∀ d : Fin 4, d ≠ c → t.core.cq[d] = s.core.cq[d]) ∧ o'.state = .running ∧ o'.cause = 0 ∧ o'.units = o.units ∧
        o'.bytes = o.bytes ∧ SameBytes s t) ∧
    ((q.val < 4 → QueueGranted s q.val) → q.val < 6 → NoFaulted s q →
      again = .next s ∧ (q = 4 ∨ q = 5 → can = .next s)) ∧
    (q = 6 → (∀ r ∈ s.ctx.sq, r.fault = none) → s.stoppedBatch = none → again = .next s ∧ can = .next s) ∧
    (q = 7 → s.ctx.xiq = [] → again = .next s ∧ can = .next s)

/-- R287, R288, R290, R292, R294, R295, R300 to R302, R306, R307, R309 (log 28): with room in its queue, no ordering
event holding it back and no watch set, a Square instruction on an address that passes its checks enters the queue with
its operands as they are, a release before it and an acquire after it where it asks for them; an ordered add joins its
task's pending set as well, and an arrival claims that set. No byte changes before the Square applies it. A full queue
holds the slot; a bad address, and a `barinit` count that is 0 or above 20 bits, stop it. -/
def SquareRequestsAreQueued : Prop :=
  (∀ (s : State) (xa xb : XReg) (p : Nat), s.ctx.points = [] → s.ctx.sq.length < 16 →
    s.checkSquare (s.getX xa) 16 true = .ok p → ((s.getX xb).toNat % 2 ^ 20 = 0 ∨ 2 ^ 20 ≤ (s.getX xb).toNat) →
    Machine.exec (.barinit xa xb) s = .next (s.stop causeAccess (s.getX xa) 14)) ∧
  ∀ (i : Instr) (s : State) (f : SquareForm), squareForm i s = some f → s.ctx.points = [] →
    s.ctx.owa = Vector.replicate 2 0 →
    let a := s.getX f.xa
    (16 ≤ s.ctx.sq.length → HeldFor s (Machine.exec i s) (.queueFull 6)) ∧
    (s.ctx.sq.length < 16 → ∀ e, s.checkSquare a f.align f.pkg = .error e →
      Machine.exec i s = .next (s.stop e.cause e.addr (BitVec.ofNat 64 e.reason))) ∧
    (s.ctx.sq.length < 16 → ∀ p, s.checkSquare a f.align f.pkg = .ok p →
      ∃ t, Machine.exec i s = .next t ∧ QueuesSquare s t f.op f.dbl f.acq f.rel a p f.xd ∧ SameBytesNext s t ∧
        t.ctx.points = squarePoints s f.acq f.rel p ∧
        (orderedOf i s = none → t.ctx.ordSeq = s.ctx.ordSeq) ∧
        (f.op = .arrive false → ClaimsAdds s t) ∧
        (orderedOf i s = none → f.op ≠ .arrive false → t.ctx.ordSet = s.ctx.ordSet) ∧
        (∀ d v, orderedOf i s = some (d, v) → t.ctx.ordSeq = s.ctx.ordSeq + 1 ∧ ∃ o, t.ctx.ordSet = s.ctx.ordSet ++ [o] ∧
          o.v = v ∧ o.place = p ∧ o.seq = s.ctx.ordSeq ∧ o.prog = s.ctx.seq ∧ o.opn = s.ctx.opn[6] ∧ o.claim = none ∧
          o.dbl = f.dbl ∧ o.xd = if d = 0 then none else some d) ∧
        t = { s with ctx := { s.ctx with
          sq := t.ctx.sq, opn := t.ctx.opn, seq := t.ctx.seq, points := t.ctx.points, ordSet := t.ctx.ordSet
          ordSeq := t.ctx.ordSeq } })

/-- R278, R281, R308 (log 38): `arrwt` and `harvest` in a slot that has made no arrival yet enter their arrival in the
Square queue, under a release, and wait for its phase; `harvest` in a harvest mode contributes its buffer. A slot issued
again after a trap waits for the arrival that it has made and makes no second one. -/
def ArrivalIsMadeAndAwaited : Prop :=
  ∀ (s : State) (qd : Fin 8) (xa : XReg),
    ∀ f ∈ [(Instr.arrwt qd xa, 3, false), (Instr.harvest xa, 4, decide (modeOf s.ctx.cstat ≠ 0))],
      (∀ p, s.ctx.points = [] → s.ctx.reissue = none → s.ctx.sq.length < 16 → SquareAddress s (s.getX xa) 16 true p →
        ∃ t, Machine.exec f.1 s = .next t ∧ QueuesSquare s t (.arrive f.2.2) false false true (s.getX xa) p 0 ∧
          ClaimsAdds s t ∧ t.ctx.points = squarePoints s false true p ∧ t.ctx.slotEnd = .wait ∧
          t.ctx.status = .waiting (.barrier f.2.1 (s.getX xa)) ∧
          (∃ r ∈ t.ctx.arrived, r.place = p ∧ r.opn = s.ctx.opn[6] ∧ r.bundle = s.ctx.pc ∧ r.slot = s.ctx.slot ∧
            r.phase = none ∧ r.conflict = none) ∧
          SameRegisters s t ∧ t.core = s.core ∧ (s.ctx.owed = none → t.die = s.die ∧ SameBytesNext s t)) ∧
      (s.ctx.reissue ≠ none → (∃ r ∈ s.ctx.arrived, r.bundle = s.ctx.pc ∧ r.slot = s.ctx.slot) →
        WaitsFor s (Machine.exec f.1 s) (.barrier f.2.1 (s.getX xa)))

/-- R286, R288, R308 (log 38): `bwait` on a well-formed object whose PHASE differs from the low half of xb returns at once
with LERR in qd, as an acquire at the scope of Table 11-3; on one whose PHASE is the same it waits, and in a block that is
not backed it waits for the granger. -/
def BarrierWaitReturnsOrWaits : Prop :=
  ∀ (s : State) (qd : Fin 8) (xa xb : XReg) (p : Nat), s.ctx.points = [] → s.poison = [] →
    SquareAddress s (s.getX xa) 16 true p →
    let b := barrierObject s p
    let sound : Prop := s.squareBacked p = true ∧ b % 2 ^ 20 ≠ 0 ∧ b / 2 ^ 122 = 0
    let same := b / 2 ^ 40 % 2 ^ 32 = (s.getX xb).toNat % 2 ^ 32
    let waits (fault : Option (Nat × Nat × Bool)) : Prop :=
      ∃ t, Machine.exec (.bwait qd xa xb) s = .next t ∧ t.ctx.slotEnd = .wait ∧
        t.ctx.status = .waiting (.barrier 2 (s.getX xa)) ∧ SameRegisters s t ∧ t.core = s.core ∧
        (∃ w, t.ctx.wordWait = some w ∧ w.place = p ∧ w.qd = qd ∧ w.y.toNat = (s.getX xb).toNat % 2 ^ 32 ∧
          w.fault = fault) ∧
        (s.ctx.owed = none → t.die = s.die ∧ SameBytes s t)
    (sound → ¬same → ∃ t, Machine.exec (.bwait qd xa xb) s = .next t ∧
      (∀ r, t.getQ r = if r = qd ∧ r ≠ 0 then decide (b / 2 ^ 121 % 2 = 1) else s.getQ r) ∧ SameBytesNext s t ∧
      t = { s with ctx := { s.ctx with q := t.ctx.q, seq := t.ctx.seq, points := t.ctx.points } } ∧
      t.ctx.points = squarePoints s true false p) ∧
    (sound → same → waits none) ∧
    (s.squareBacked p = false → waits (some (causePageFault, 6, false)))

/-- R286, R288, R310, R311: `waitw` on a word of the own crib or of Square space returns at once with qd set, as an
acquire, where its condition holds of the word's low bytes and xb's, and else waits on it; on a Square word in a block that
is not backed it waits for the granger. `wake` on an address of the crib or of Square space changes no register and no
byte; a context that waits on that granule, where the word can be read, returns with the truth of its condition. -/
def WordWaitReturnsOrWaits : Prop :=
  (∀ (s : State) (c : WCond) (dbl : Bool) (qd : Fin 8) (xa xb : XReg) (p : Nat),
    let n := if dbl then 8 else 4
    let a := s.getX xa
    let holds := wordCondition c n (wordAt s p n) (s.getX xb).toNat
    let square := 2 ^ 67 ≤ p ∧ p < 2 ^ 68
    let waits (fault : Option (Nat × Nat × Bool)) : Prop :=
      ∃ t, Machine.exec (.waitw c dbl qd xa xb) s = .next t ∧ t.ctx.slotEnd = .wait ∧
        t.ctx.status = .waiting (.word a) ∧ SameRegisters s t ∧ t.core = s.core ∧
        (∃ w, t.ctx.wordWait = some w ∧ w.cond = c ∧ w.qd = qd ∧ w.place = p ∧ w.y = s.getX xb ∧ w.hit = none ∧
          w.fault = fault) ∧
        (s.ctx.owed = none → t.die = s.die ∧ SameBytes s t)
    Unhindered s → WordPlace s a n p → s.ctx.stores = [] → s.ctx.loads = [] → s.ctx.sq = [] →
      ((square → s.squareBacked p = true) → holds → ∃ t, Machine.exec (.waitw c dbl qd xa xb) s = .next t ∧
        (∀ r, t.getQ r = if r = qd ∧ r ≠ 0 then true else s.getQ r) ∧ SameBytesNext s t ∧
        t = { s with ctx := { s.ctx with q := t.ctx.q, seq := t.ctx.seq, points := t.ctx.points } } ∧
        t.ctx.points = if square then squarePoints s true false p else [⟨.acq, .die, s.ctx.seq + 1⟩]) ∧
      ((square → s.squareBacked p = true) → ¬holds → waits none) ∧
      (square → s.squareBacked p = false → waits (some (causePageFault, 6, false)))) ∧
  ∀ (s : State) (xa : XReg) (p : Nat), WordPlace s (s.getX xa) 1 p →
    ∃ t, Machine.exec (.wake xa) s = .next t ∧ SameBytes s t ∧ t.core = s.core ∧ t.die = s.die ∧
      t.mem = s.mem ∧ t.flight = s.flight ∧ SameRegisters s t ∧
      ∀ k ∈ s.knownCtxs, ∀ w b, (s.ctxAt k).status = .waiting (.word b) → (s.ctxAt k).wordWait = some w → w.hit = none →
        w.fault = none → w.place / 8 * 8 ∉ s.poison → w.place / 8 = p / 8 →
        ∃ w', (t.ctxAt k).wordWait = some w' ∧ w'.hit = some (s.testWait k.die w) ∧ (t.ctxAt k).setter = s.self

/-- R270, R283, R284, R295: `fence` adds its ordering event after what orders the task already, and from die scope on closes
the task's pending ordered adds, but for those that an arrival has claimed, into a batch of the task alone; `qfence` makes every later operation of a queue it names wait for all that is
outstanding in the queues it names, and needs the right to each copy queue. Neither changes a register or a byte. -/
def FencesOrderWhatFollows : Prop :=
  ∀ (s : State) (kind : FenceKind) (scope : Scope) (mask : Fin 256),
    let named (q : Nat) : Prop := q < 8 ∧ mask.val.testBit q = true
    (∃ t, Machine.exec (.fence kind scope) s = .next t ∧
      (∃ l, t.ctx.points = l ++ [⟨kind, scope, s.ctx.seq⟩] ∧ (∀ p ∈ l, p ∈ s.ctx.points) ∧
        ∀ p ∈ s.ctx.points, p ∈ l ∨ (s.readsDone p = true ∧ s.writesDone p = true)) ∧
      (scope = .core ∨ scope = .clus → t.ctx.ordSet = s.ctx.ordSet ∧ t.die = s.die) ∧
      (scope = .die ∨ scope = .pkg ∨ scope = .qtr →
        let free := s.ctx.ordSet.filter fun a => a.claim.isNone
        t.ctx.ordSet = s.ctx.ordSet.filter (fun a => a.claim.isSome) ∧
        t.die.batches = s.die.batches ++ if free = [] then [] else [⟨free, none, true, none⟩]) ∧
      t = { s with ctx := { s.ctx with points := t.ctx.points, ordSet := t.ctx.ordSet }
                   die := { s.die with batches := t.die.batches } } ∧ SameBytes s t) ∧
    ((∃ q < 4, named q ∧ ¬QueueGranted s q) → AccessStop s (Machine.exec (.qfence mask) s) 0) ∧
    ((∀ q < 4, named q → QueueGranted s q) → ∃ t, Machine.exec (.qfence mask) s = .next t ∧
      t = { s with ctx := { s.ctx with joins := t.ctx.joins } } ∧ SameBytes s t ∧
      (∀ q r n, named q → named r → n ∈ s.outstanding r → (r, n) ∈ t.joinsOf q) ∧
      (∀ q, named q → ∀ p ∈ t.joinsOf q, p ∈ s.joinsOf q ∨ (named p.1 ∧ p.2 ∈ s.outstanding p.1)) ∧
      (∀ q, named q → ∀ p ∈ s.joinsOf q, p ∈ t.joinsOf q) ∧ ∀ q, ¬named q → t.joinsOf q = s.joinsOf q)

/-- R322, R325 to R327 (log 39): a collective without the right to its queue raises ACCESS, and one whose descriptor
names a group entry that is not filled ENGINE-FAULT with reason 46; one with no binding and a descriptor that R326
admits joins the end of its queue with the descriptor's fields and the next number of its switch group, and takes an
issue number. -/
def CollectivesAreQueued : Prop :=
  ∀ (i : Instr) (s : State) (kind : XKind) (ord : Bool) (q : Fin 8) (xa : XReg) (u : Task),
    collectiveOf i = some (kind, ord, q, xa) → s.ctx.points = [] → s.poison = [] → s.ctx.xiUsed < 8 → s.ctx.task = some u →
    let a := s.getX xa
    let v := descriptorAt s a
    let ctl := v / 2 ^ 128 % 2 ^ 64
    let entry := s.myLaunch.bind fun l => l.entry s.foc.die (ctl / 2 ^ 48 % 8)
    (u.xqm.testBit q.val = false → AccessStop s (Machine.exec i s) 0) ∧
    (u.xqm.testBit q.val = true → s.pendingBind q = none → a.toNat < 2097152 → a.toNat % 64 = 0 →
      (entry = none → FabricStop s (Machine.exec i s) 46) ∧
      ∀ g w, entry = some g → s.viewOf s.foc.die g.swg = some w → GoodDescriptor kind v w.n →
        ∃ t o, Machine.exec i s = .next t ∧ t.die.xq[q] = s.die.xq[q] ++ [o] ∧
          (∀ p : Fin 8, p ≠ q → t.die.xq[p] = s.die.xq[p]) ∧ o.who = s.foc ∧ o.kind = kind ∧ o.ord = ord ∧ o.g = g ∧
          o.src = v % 2 ^ 64 ∧ o.dst = v / 2 ^ 64 % 2 ^ 64 ∧ o.ctl = ctl ∧ o.bsw = v / 2 ^ 192 % 2 ^ 64 ∧
          o.state = .queued ∧ o.units = 0 ∧ o.bytes = 0 ∧ o.opn = s.ctx.opn[7] ∧ o.bind = none ∧
          o.seqNo = (s.die.swSeq.lookup g.swg).getD 0 ∧ t.die.swSeq.lookup g.swg = some (o.seqNo + 1) ∧
          QueuesFabric s t s.ctx.xiq (.passed q) ∧
          t = { s with ctx := { s.ctx with xiq := t.ctx.xiq, opn := t.ctx.opn }
                       die := { s.die with xq := t.die.xq, swSeq := t.die.swSeq } } ∧ SameBytes s t)

/-- R319, R323, R324 (logs 35 and 39): `xgrp` on an aligned descriptor of the crib fills the group entry of its launch
on its die with the descriptor's four fields and writes the die's rank to xd, held until the task's stores to the
descriptor are performed; it raises ENGINE-FAULT with reason 32 for
a descriptor that R324 refuses, and with reason 44 where the die is no member. -/
def GroupEntryIsFilled : Prop :=
  ∀ (s : State) (xd xa : XReg) (g : Fin 8), s.ctx.points = [] → s.poison = [] →
    let a := s.getX xa
    let v := descriptorAt s a
    let e : GroupEntry := ⟨v % 2 ^ 16, v / 2 ^ 64 % 2 ^ 64, v / 2 ^ 128 % 2 ^ 64, v / 2 ^ 192 % 2 ^ 64⟩
    let good := v / 2 ^ 16 % 2 ^ 48 = 0 ∧ v / 2 ^ 256 = 0 ∧ e.abase % 65536 = 0 ∧ e.asize % 65536 = 0 ∧
      e.rbase % 65536 = 0 ∧ (e.asize = 0 ∨ 2 ^ 32 ≤ e.abase)
    let o := Machine.exec (.xgrp xd g xa) s
    let free := ∀ p ∈ s.ctx.stores, ∀ b ∈ p.places, within (cribPlace s.foc.coreId a.toNat) 64 b = false
    a.toNat < 2097152 →
    (a.toNat % 64 ≠ 0 → o = .next (s.stop causeMisalign a 5)) ∧
    (a.toNat % 64 = 0 → ¬free → HeldBack s o) ∧ (free →
    (a.toNat % 64 = 0 → ¬good → FabricStop s o 32) ∧
    (a.toNat % 64 = 0 → good → s.viewOf s.foc.die e.swg = none → FabricStop s o 44) ∧
    (a.toNat % 64 = 0 → good → ∀ w, s.viewOf s.foc.die e.swg = some w → ∃ t, o = .next t ∧
      (∀ r, t.getX r = if r = xd ∧ r ≠ 0 then BitVec.ofNat 64 w.rank else s.getX r) ∧
      t = { s with ctx := { s.ctx with x := t.ctx.x }, launches := t.launches } ∧ SameBytes s t ∧
      ∀ l, s.myLaunch = some l → ∃ l', t.myLaunch = some l' ∧ l'.entry s.foc.die g.val = some e ∧
        ∀ d k, ¬(d = s.foc.die ∧ k = g.val) → l'.entry d k = l.entry d k))

/-- R322, R331, R334, R335 (logs 39 and 40): with room in the collective issue queue, `xsig` enters its binding in place
of an earlier one of its queue, or raises ENGINE-FAULT with reason 32 for a reserved bit; `stmc` and `ldrd` in an
aperture enter an aligned access with the offset, and the bytes and the members or the form; outside every aperture they
raise ENGINE-FAULT with reason 46, and unaligned MISALIGN. -/
def FabricAccessesAreQueued : Prop :=
  ∀ (s : State) (q : Fin 8) (xa xb xd : XReg) (dbl ord : Bool) (op : RedOp2), s.ctx.points = [] → s.ctx.xiUsed < 8 →
    let a := s.getX xa
    let n := if dbl then 8 else 4
    let sig := Machine.exec (.xsig q xa) s
    let st := Machine.exec (.stmc dbl xa xb) s
    let ld := Machine.exec (.ldrd ord op dbl xd xa) s
    let reserved := a.toNat / 2 ^ 13 ≠ 0 ∨ a.toNat / 2 ^ 7 % 2 = 1
    (reserved → FabricStop s sig 32) ∧
    (¬reserved → s.pendingBind q = none → ∃ t, sig = .next t ∧ QueuesFabric s t s.ctx.xiq (.bind q a) ∧
      t = { s with ctx := { s.ctx with xiq := t.ctx.xiq, opn := t.ctx.opn } } ∧ SameBytes s t) ∧
    (¬reserved → ∀ b, s.pendingBind q = some b → ∃ t, sig = .next t ∧
      QueuesFabric s t (s.ctx.xiq.filter fun e => e.opn != b.1.opn) (.bind q a)) ∧
    (s.aperture a = none → FabricStop s st 46 ∧ FabricStop s ld 46) ∧
    ∀ g, s.aperture a = some g →
      (a.toNat % n ≠ 0 → st = .next (s.stop causeMisalign a 0x105) ∧ ld = .next (s.stop causeMisalign a 5)) ∧
      (a.toNat % n = 0 →
        (∃ t bs, st = .next t ∧ QueuesFabric s t s.ctx.xiq (.store g (a.toNat - g.abase) bs (s.membersOf g.swg)) ∧
          bs.length = n ∧ byteSum (fun k => bs.getD k 0) n = (s.getX xb).toNat % 256 ^ n ∧
          t = { s with ctx := { s.ctx with xiq := t.ctx.xiq, opn := t.ctx.opn } } ∧ SameBytes s t) ∧
        ∃ t, ld = .next t ∧ QueuesFabric s t s.ctx.xiq (.reduce g (a.toNat - g.abase) ord op dbl xd []) ∧
          t = { s with ctx := { s.ctx with xiq := t.ctx.xiq, opn := t.ctx.opn } } ∧ SameBytes s t)

/-- R369, R372, R416, R433, Tables 14-7, 16-2, 17-1: `getc`, `tget`, `eget` and `wlrd` read the task's coordinates, the times
of the die and of the frame, the energy registers and the wait log into xd and leave the rest as it was; `eget` reads the
task's counter as its group found it and the governor's registers as the cycle found them. On the granger's core, which
no value of `getc` names, the core's number is free (log 62). -/
def TaskTimeAndEnergyAreRead : Prop :=
  ∀ (s : State) (xd xa : XReg) (u : Task), s.ctx.task = some u →
    let a := (s.getX xa).toNat
    let w (n : Nat) : Word := BitVec.ofNat 64 n
    let who (core : Nat) : Word := w (s.foc.ctx + 4 * core + 512 * ((s.dieAt s.foc.die).gqdn.toNat % 16))
    let near (j : Nat) : Nat := (s.dieAt (2 * (s.foc.die / 2) + j)).pLast
    let cycle := s.die.gov0.getD ((governorWords s).1, (governorWords s).2, s.die.estat)
    (∀ p ∈ [(Instr.getc 0 xd, w u.t), (.getc 1 xd, w u.c), (.getc 2 xd, w u.k), (.getc 3 xd, w u.d), (.getc 4 xd, w u.stage),
        (.getc 5 xd, w u.index), (.getc 6 xd, w u.shape), (.tget .dtime xd, s.dtime),
        (.tget .frcnt xd, w s.frcnt), (.tget .frnum xd, w (s.sinceEpoch / s.ctx.frlen)), (.tget .frlen xd, w s.ctx.frlen),
        (.tget .sync xd, w (min s.die.offMag 65535 + 2 ^ 16 * s.die.lock.toNat + 2 ^ 17 * s.die.grand.toNat)),
        (.eget .ecnt xd xa, w s.ctx.found.ecnt), (.eget .eidle xd xa, w (s.eidleOf s.die s.core)),
        (.eget .ebal xd xa, w s.core.ebal), (.eget .bcyc xd xa, w s.core.bcyc),
        (.eget .gest xd xa, w (milliwatts (near 0 + near 1) + milliwatts s.die.pLast * 2 ^ 32)),
        (.eget .gslot xd xa, cycle.1), (.eget .gstat xd xa, cycle.2.1), (.eget .estat xd xa, w cycle.2.2),
        (.eget .wgt xd xa, w (s.die.weights[a % 16]'(Nat.mod_lt _ (by decide)))), (.wlrd .ring xd xa, s.die.owring),
        (.wlrd .min xd xa, w s.die.owmin), (.wlrd .last xd xa, s.ctx.lastWait[a % 4]'(Nat.mod_lt _ (by decide)))],
      ∃ t, Machine.exec p.1 s = .next t ∧ WritesX s t xd p.2) ∧
    (s.foc.core ≠ 96 → ∃ t, Machine.exec (.getc 7 xd) s = .next t ∧ WritesX s t xd (who s.foc.core)) ∧
    (s.foc.core = 96 → ∃ t k, Machine.exec (.getc 7 xd) s = .next t ∧ k < 96 ∧
      WritesX { s with fresh := t.fresh } t xd (who k)) ∧
    ∃ t, Machine.exec (.wlrd .tail xd xa) s = .next t ∧ ReadsTail s t xd (w s.die.owtail)

/-- R6, R375 to R377, R387, R414, R420 (log 47): `sysrd` writes the register that its number names to xd, `cstat` and `ecnt`
as the group found them; a read of a tail
of a record area is an acquire; a number below 0x100 that names none raises ACCESS with reason 4; the controller reads
its own registers, and those of the context that `gsel` selects. -/
def SystemRegisterIsRead : Prop :=
  ∀ (s : State) (xd : XReg) (n : Fin 1024),
    (∀ p ∈ systemRegisters s s.ctx.found.cstat s.ctx.found.ecnt, n.val = p.1 → ∃ t, Machine.exec (.sysrd xd n) s = .next t ∧ WritesX s t xd p.2) ∧
    (n = 0x06c → ∃ t, Machine.exec (.sysrd xd n) s = .next t ∧ ReadsTail s t xd (BitVec.ofNat 64 s.die.ottail)) ∧
    (n = 0x06d → ∃ t, Machine.exec (.sysrd xd n) s = .next t ∧ ReadsTail s t xd (BitVec.ofNat 64 s.die.owtail)) ∧
    (n.val < 0x100 → ¬NamedRegister s n.val → AccessStop s (Machine.exec (.sysrd xd n) s) 4) ∧
    (s.ctx.ctrl = true → ∀ p ∈ [((0x100 : Fin 1024), s.die.gsel), (0x101, 0), (0x102, BitVec.ofNat 64 s.die.gage),
        (0x103, BitVec.ofNat 64 s.die.gdead), (0x104, s.die.gqdn), (0x105, s.die.gecc)],
      ∃ t, Machine.exec (.sysrd xd p.1) s = .next t ∧ WritesX s t xd p.2) ∧
    (s.ctx.ctrl = true → ∀ c : CtxId, c.ok = true → c.die = s.foc.die → s.die.gsel.toNat / 4 % 128 = c.core →
      s.die.gsel.toNat % 4 = c.ctx → ∀ k : Fin 1024,
      let u := s.focusOn c
      ∀ p ∈ systemRegisters u u.ctx.cstat u.ctx.ecnt, k.val = 0x200 + p.1 →
      ∃ t, Machine.exec (.sysrd xd k) s = .next t ∧ WritesX s t xd p.2)

/-- R37, R87, R375, R377, R387, Tables 15-1, 15-2 (log 47): a task's `syswr` reaches its register at the end of the
group, but that ones clear the sticky flags of cstat at once: of cstat RM and FPTE take the value, of cview its defined
bits, of the trap record the fields of Table 15-2, which need INH. GRAN above 4 and a number that names no register
raise ACCESS; a register that the task may only read ignores the write. -/
def SystemRegisterIsWritten : Prop :=
  ∀ (s : State) (xa : XReg) (n : Fin 1024), s.ctx.ctrl = false → NoDeferred s →
    let v := s.getX xa
    let o := Machine.exec (.syswr n xa) s
    let r (t : State) : TrapRecord := t.endGroup.ctx.trap
    (n = 0x000 → ∃ t, o = .next t ∧ t = { s with ctx := { s.ctx with cstat := t.ctx.cstat, defer := t.ctx.defer } } ∧
      SameBytes s t ∧
      BitsAre t.ctx.cstat (fun k => s.ctx.cstat.getLsbD k && !(decide (8 ≤ k ∧ k ≤ 17) && v.getLsbD k)) ∧
      BitsAre t.endGroup.ctx.cstat (fun k =>
        if k ≤ 1 ∨ (26 ≤ k ∧ k ≤ 30) then v.getLsbD k else t.ctx.cstat.getLsbD k)) ∧
    (n = 0x001 → v.toNat / 2 ^ 17 % 8 ≤ 4 → ∃ t, o = .next t ∧ Defers s t ∧
      t.endGroup.ctx.cview = BitVec.ofNat 64 (v.toNat % 2 ^ 20)) ∧
    (n = 0x001 → 4 < v.toNat / 2 ^ 17 % 8 → AccessStop s o 0) ∧
    (∀ k : Fin 2, n.val = 4 + k.val → ∃ t, o = .next t ∧ Defers s t ∧ t.endGroup.ctx.tscr = s.ctx.tscr.set k.val v) ∧
    (8 ≤ n.val → n.val ≤ 14 → s.ctx.inh = false → PrivStop s o) ∧
    (8 ≤ n.val → n.val ≤ 14 → s.ctx.inh = true → ∃ t, o = .next t ∧ Defers s t ∧
      r t = { s.ctx.trap with
        cause := if n.val = 8 then BitVec.ofNat 64 (v.toNat % 256) else s.ctx.trap.cause
        bundle := if n.val = 9 then BitVec.ofNat 64 (v.toNat / 16 * 16) else s.ctx.trap.bundle
        slot := if n.val = 10 then BitVec.ofNat 64 (v.toNat % 4) else s.ctx.trap.slot
        done := if n.val = 11 then BitVec.ofNat 64 (v.toNat % 16) else s.ctx.trap.done
        addr := if n.val = 12 then v else s.ctx.trap.addr
        info := if n.val = 13 then v else s.ctx.trap.info
        next := if n.val = 14 then BitVec.ofNat 64 (v.toNat / 16 * 16 + v.toNat % 2) else s.ctx.trap.next }) ∧
    (n.val < 0x100 → ¬NamedRegister s n.val → AccessStop s o 4) ∧
    (NamedRegister s n.val → n.val = 2 ∨ n.val = 3 ∨ 0x040 ≤ n.val → o = .next s)

/-- R364 to R368, R371, R358, R370 (log 46): `launch` of an aligned record of the crib, with nothing before it
outstanding, hands its 128 bytes to the die's dispatcher and waits; `lwait` on a child gives its completion word, as an
acquire at quarter scope, once it has retired, and else waits; `lwait` and a task's `ltear` on a handle that is no
child's raise ACCESS with reason 4, and `ltear`, of a child or in the controller of any launch, retires it with status
2; `yield` ends the turn of a task that is not pinned; `done` takes a fault that is found, and with nothing outstanding
frees the context and counts its task as done, and else waits; `twait` goes on once die time has reached its value;
`ckpt` without a request, or kept from pre-empting, goes on, and with one is left behind and its task is being saved. -/
def LaunchesAndWaits : Prop :=
  ∀ (s : State) (xd xa : XReg),
    let a := s.getX xa
    let child := s.childOf a
    let bytes : Record := (List.range 128).map fun k => cribByte s (a.toNat + k)
    let tears (l : Launch) : Prop :=
      (l.state = .retired → Machine.exec (.ltear xa) s = .next s) ∧
      (l.state ≠ .retired → ∃ t l', Machine.exec (.ltear xa) s = .next t ∧ t.foc = s.foc ∧
        t.launchOf l.handle = some l' ∧ l'.state = .retired ∧ l'.status = 2 ∧ l'.cause = 0)
    (Unhindered s → s.ctx.stores = [] → s.ctx.loads = [] → s.ctx.sq = [] → s.flight = [] → s.closedAdds s.foc = [] →
      a.toNat + 128 ≤ 2097152 → a.toNat % 64 = 0 → (∀ e ∈ s.die.arrivals, e.issuer.map Prod.fst ≠ some s.foc) →
      s.queueRoom s.foc.die (recLq bytes % 32) = true →
      ∃ t e, Machine.exec (.launch xd xa) s = .next t ∧ t.die.arrivals = s.die.arrivals ++ [e] ∧
        e.issuer = some (s.foc, a) ∧ e.queue = recLq bytes % 32 ∧
        e.record = withParent bytes ((s.ctx.task.map Task.launch).getD 0) ∧ t.ctx.slotEnd = .wait ∧
        t.ctx.status = .waiting (.launch a) ∧ SameRegisters s t ∧ t.core = s.core ∧ t.ctx.seq = s.ctx.seq + 1 ∧
        ((∀ o, s.ctx.owed = some o → o.wait = .launch a) →
          t.die = { s.die with arrivals := t.die.arrivals } ∧ SameBytesNext s t)) ∧
    (child = none → AccessStop s (Machine.exec (.lwait xd xa) s) 4 ∧
      (s.ctx.ctrl = false → AccessStop s (Machine.exec (.ltear xa) s) 4)) ∧
    (∀ l, child = some l →
      (l.state = .retired → ∃ t, Machine.exec (.lwait xd xa) s = .next t ∧
        (∀ r, t.getX r = if r = xd ∧ r ≠ 0 then BitVec.ofNat 64 (l.status + l.cause * 2 ^ 32) else s.getX r) ∧
        t = { s with ctx := { s.ctx with x := t.ctx.x, seq := t.ctx.seq, points := t.ctx.points } } ∧ SameBytesNext s t ∧
        t.ctx.points = s.ctx.points ++ [⟨.acq, .qtr, s.ctx.seq + 1⟩]) ∧
      (l.state ≠ .retired → WaitsFor s (Machine.exec (.lwait xd xa) s) (.child a)) ∧
      (s.ctx.ctrl = false → tears l)) ∧
    (∀ l, s.ctx.ctrl = true → s.launchOf a.toNat = some l → tears l) ∧
    (∃ t, Machine.exec .yield s = .next t ∧ (s.ctx.cstat.getLsbD 21 = true → t = s) ∧
      (s.ctx.cstat.getLsbD 21 = false → t = { s with core := { s.core with turn := 64 } })) ∧
    (∀ f rest, s.ctx.pend = f :: rest → Machine.exec .done s =
      .next (State.stop { s with ctx := { s.ctx with pend := rest } } f.cause f.addr f.info)) ∧
    (∀ f, s.ctx.pend = [] → s.entryFault = some f → Machine.exec .done s = .next (s.stop f.cause f.addr f.info)) ∧
    (s.ctx.pend = [] → s.entryFault = none → s.drained = false → WaitsFor s (Machine.exec .done s) .doneDrain) ∧
    (s.ctx.pend = [] → s.drained = true → s.entryFault = none → ∃ t, Machine.exec .done s = .next t ∧ t.ctx.status = .free ∧
      t.ctx.task = none ∧ t.ctx.slotEnd = .gone ∧ t.foc = s.foc ∧
      ∀ u l, s.ctx.task = some u → s.launchOf u.launch = some l → u.index ∈ l.tasks.map Prod.fst →
        ∃ l', t.launchOf u.launch = some l' ∧ (u.index, TaskPlace.done) ∈ l'.tasks) ∧
    ((s.dtime - a).toNat < 2 ^ 63 → Machine.exec (.twait xa) s = .next s) ∧
    (2 ^ 63 ≤ (s.dtime - a).toNat → WaitsFor s (Machine.exec (.twait xa) s) (.time a)) ∧
    ∀ n : Fin 65536, (s.entryAt n.val = none → AccessStop s (Machine.exec (.ckpt n) s) 4) ∧
      ((s.entryAt n.val).isSome → (s.ctx.preq = none ∨ s.keptOn = true) → Machine.exec (.ckpt n) s = .next s) ∧
      ((s.entryAt n.val).isSome → s.ctx.preq ≠ none → s.keptOn = false → s.ctx.ib ≠ none → Plain s → s.ctx.xfer = none →
        s.ctx.loopStart = none → (∀ k : Fin 6, s.ctx.lv[k].act = false) → ∃ t, Machine.exec (.ckpt n) s = .next t ∧
        t.foc = s.foc ∧ t.ctx.status = .saving n.val ∧ t.ctx.slotEnd = .gone ∧ t.ctx.task = s.ctx.task ∧
        t.ctx.preq = s.ctx.preq ∧ (t.ctx.pc = s.ctx.pc ∨ t.ctx.pc = s.ctx.pc + 16))

/-- R373, R388, R403, R417, R418, R430 (logs 19, 47 and 50): in the controller `frset` sets its frame from the next
group, `eset` a weight from the next cycle, and `tlbinv` drops the entries of the translation buffers it names and no
other; `gvhint.rsv` takes as much of the request as the pool holds and says so in xd, `gvhint.rel` returns it; `trc`
writes a record of 32 bytes where its traces are on, and else does nothing. -/
def ControllerActs : Prop :=
  ∀ (s : State) (xd xa xb : XReg) (cls : Fin 16) (kind : TlbKind),
    let a := s.getX xa
    let b := s.getX xb
    let pool := (s.pkgAt (s.foc.die / 2)).pool
    let got := min (a.toNat * 194560) pool
    (s.ctx.ctrl = true → ∃ t, Machine.exec (.frset xa xb) s = .next t ∧ Defers s t ∧
      t.endGroup.ctx.frlen = a.toNat % 2 ^ 23 ∧ t.endGroup.ctx.epoch = b) ∧
    (s.ctx.ctrl = true → ∃ t, Machine.exec (.eset cls xa) s = .next t ∧ SameBytes s t ∧
      t = { s with die := { s.die with reweigh := s.die.reweigh ++ [(cls, a.toNat % 2 ^ 24)] } }) ∧
    (s.ctx.ctrl = true → s.ctx.points = [] → ∃ t, Machine.exec (.tlbinv kind .die xa xb) s = .next t ∧ SameBytes s t ∧
      t = { s with die := { s.die with tlb := t.die.tlb } } ∧
      ∀ e, e ∈ t.die.tlb ↔ e ∈ s.die.tlb ∧ ¬(match kind with
        | .page => e.asn = b.toNat % 256 ∧ e.base ≤ a.toNat ∧ a.toNat < e.base + e.size
        | .as_ => e.asn = b.toNat % 256
        | .all => True)) ∧
    (∃ t, Machine.exec (.gvhintRsv xd xa) s = .next t ∧
      (∀ r, t.getX r = if r = xd ∧ r ≠ 0 then BitVec.ofNat 64 (got / 194560) else s.getX r) ∧ SameBytes s t ∧
      (t.pkgAt (s.foc.die / 2)).pool = pool - got ∧ (got = 0 → t.die.grants = s.die.grants) ∧
      (got ≠ 0 → ∃ g, t.die.grants = s.die.grants ++ [g] ∧ g.owner = some s.foc ∧ g.left = got)) ∧
    (∃ t, Machine.exec .gvhintRel s = .next t ∧ SameRegisters s t ∧ SameBytes s t ∧
      ∀ g, g ∈ t.die.grants ↔ g ∈ s.die.grants ∧ g.owner ≠ some s.foc) ∧
    (s.core.otctl.getLsbD 2 = false ∨ s.die.otring.toNat % 2 ^ 16 = 0 → Machine.exec (.trc xa xb) s = .next s) ∧
    (s.core.otctl.getLsbD 2 = true → s.die.otring.toNat % 2 ^ 16 ≠ 0 → ∃ t, Machine.exec (.trc xa xb) s = .next t ∧
      SameRegisters s t ∧ t.die.ottail = s.die.ottail + 1)

/-- R82, R100, R431, R432 (log 50): `tagset` on granules of a mapped, tagged page that the task may write gives each of
them the address's key as the task sees it at once, leaves every other tag, and puts the change at the head of the page's history; a key of the
wrong form raises ACCESS with reason 3, an unaligned address MISALIGN, and a scratchpad address ACCESS with reason 4.
`tagget` of a page that the task may read gives the granule's tag, 0 in a page without tags, or a word of the history. -/
def TagsAreSetAndRead : Prop :=
  ∀ (s : State) (xd xa xb : XReg), s.ctx.points = [] → s.ctx.owa = Vector.replicate 2 0 →
    let a := s.getX xa
    let n := (s.getX xb).toNat
    let set_ := Machine.exec (.tagset xa xb) s
    let tag := Machine.exec (.taggetTag xd xa) s
    let hist := Machine.exec (.taggetHist xd xa xb) s
    (¬keyOk a → set_ = .next (s.stop causeAccess a 0x103) ∧ tag = .next (s.stop causeAccess a 3)) ∧
    (keyOk a → a.toNat % 32 ≠ 0 → set_ = .next (s.stop causeMisalign a 0x105)) ∧
    (keyOk a → a.toNat % 32 = 0 → a.toNat % 2 ^ 48 < 2 ^ 32 → set_ = .next (s.stop causeAccess a 0x104)) ∧
    (n ≠ 0 → ∀ p es, s.tagPage a n = .ok (p, es) →
      let here := (s.pagePlace p (locOf a)).getD 0
      let after : State := { s with ctx := { s.ctx with seq := s.ctx.seq + 1 } }
      here % 32 = 0 → ∃ t, set_ = .next t ∧ SameRegisters s t ∧ t.mem = s.mem ∧ t.ctx.seq = s.ctx.seq + 1 ∧
        (∀ k < n, t.ownTag (here + 32 * k) = BitVec.ofNat 4 (keyOf a)) ∧
        (∀ q, (∀ k < n, q / 32 ≠ (here + 32 * k) / 32) → t.ownTag q = after.ownTag q) ∧
        (∀ q, (∀ k < n, q ≠ tagPlace (here + 32 * k)) → t.ownByte t.ctx.seq q = s.ownByte (s.ctx.seq + 1) q) ∧
        (∀ q, t.homeByte q = s.homeByte q) ∧
        ∃ w, (t.hist.lookup ((s.pagePlace p p.base).getD 0)) =
          some (((s.dtime, w) :: (s.hist.lookup ((s.pagePlace p p.base).getD 0)).getD []).take 16)) ∧
    (∀ p es, s.readPage a = .ok (p, es) →
      (∃ t, tag = .next t ∧ SameBytesNext s t ∧ (∀ r, t.getX r = if r = xd ∧ r ≠ 0 then
        (if p.pte / 16 % 2 = 0 then 0 else BitVec.ofNat 64 (s.ownTag ((s.pagePlace p (locOf a)).getD 0)).toNat)
        else s.getX r)) ∧
      ∃ t, hist = .next t ∧ SameBytesNext s t ∧ (∀ r, t.getX r = if r = xd ∧ r ≠ 0 then
        (let e := ((s.hist.lookup ((s.pagePlace p p.base).getD 0)).getD []).getD (n % 16) (0, 0)
          if n / 16 % 2 = 1 then e.2 else e.1) else s.getX r))

/-- R354, R355, R367 (log 5): where the primary's turn is over or it is not ready, its group held under the interlocks or
its context not ready, the next ready context of its core in the rotation starts a turn, and nothing else changes. -/
def TurnEnds : Prop :=
  ∀ (s : State) (c : CtxId) (n : Nat), c.ok = true → n < 4 →
    let x := s.coreAt c.coreId
    let after (m : Nat) : Nat := (c.ctx + m + 1) % 4
    x.primary = c.ctx → (64 ≤ x.turn ∨ 8 ≤ x.dry ∨ s.isReady c.coreId c.ctx = false) →
    s.isReady c.coreId (after n) = true → (∀ m < n, s.isReady c.coreId (after m) = false) →
    Machine.exec (.issueTurnEnd c) s = .next (s.setCoreAt c.coreId { x with primary := after n, turn := 0, dry := 0 })

/-- R31, R362 (log 51): a context that waits for a stamp is ready at the cycle of the stamp or after it, and its core
issues before anything else happens. -/
def StampEndsItsWait : Prop :=
  ∀ (s : State) (c : CtxId) (n : Nat), c.ok = true →
    let u := s.focusOn c
    u.ctx.status = .waiting (.stamp n) → (u.ctx.frlen ≤ n ∨ (u.beforeEpoch = false ∧ n ≤ u.frcnt)) →
    ∃ t, Machine.exec (.stampedBundleIssue c) s = .next t ∧ t.foc = c ∧ t.ctx.status = .ready ∧
      t.agenda = .issue c.coreId :: s.agenda ∧ t.core = u.core ∧ SameRegisters u t ∧ t.ctx.pc = u.ctx.pc ∧
      t.ctx.ib = u.ctx.ib ∧
      (u.ctx.owed = none → areaCap u.die.owring = 0 →
        t = { u with ctx := { u.ctx with status := .ready, setter := t.ctx.setter, lastWait := t.ctx.lastWait }
                     agenda := t.agenda })

/-- R202, R382 (log 10): a context that is ready or waits, and is not in its handler, takes the oldest fault found for
it: the record has its cause, address and detail, the bundle at pc, and the first slot between bundles or the slot that
waits. -/
def AsyncFaultIsDelivered : Prop :=
  ∀ (s : State) (c : CtxId) (f : AsyncFault) (rest : List AsyncFault), c.ok = true →
    let u := s.focusOn c
    u.ctx.pend = f :: rest → u.ctx.inh = false → (u.ctx.ib = none ∨ u.ctx.slot < 4) → (u.ctx.status = .ready ∨ ∃ w, u.ctx.status = .waiting w) →
    ∃ t, Machine.exec (.asyncFaultDelivery c) s = .next t ∧ t.foc = c ∧ t.ctx.pend = rest ∧
      t.ctx.trap.cause = BitVec.ofNat 64 f.cause ∧ t.ctx.trap.addr = f.addr ∧ t.ctx.trap.info = f.info ∧
      t.ctx.trap.bundle = u.ctx.pc ∧ SameRegisters u t ∧
      (u.ctx.ib = none → u.ctx.reissue = none →
        t.ctx.trap.slot = 0 ∧ t.ctx.trap.done = 0 ∧ t.ctx.trap.next = 0) ∧
      (u.ctx.ib ≠ none → (∃ w, u.ctx.status = .waiting w) →
        t.ctx.trap.slot = BitVec.ofNat 64 u.ctx.slot ∧ DoneMask u t.ctx.trap.done)

/-- R49: a divide gives its divider back, and every divide of the core that waits for one is tried again. -/
def DividerIsGivenBack : Prop :=
  ∀ (s : State) (c : CtxId), c.ok = true → c.ctx ∈ (s.coreAt c.coreId).divBusy →
    ∃ t, Machine.exec (.dividerFree c) s = .next t ∧
      t.coreAt c.coreId = { s.coreAt c.coreId with divBusy := (s.coreAt c.coreId).divBusy.erase c.ctx } ∧
      (∀ o, o.coreId = c.coreId → (s.ctxAt o).status = .waiting .divider → (t.ctxAt o).status = .ready) ∧
      (∀ o, (t.ctxAt o).x = (s.ctxAt o).x ∧ (t.ctxAt o).pc = (s.ctxAt o).pc) ∧ SameStore s t

/-- R212, R214 (log 5): a wait of `mwait` ends once no entry that it covers is left, one of `rget` once its ring has a
tile or a free slot, whose crib offset it returns; the slot commits. -/
def MatrixWaitsEnd : Prop :=
  ∀ (s : State) (c : CtxId), c.ok = true →
    let u := s.focusOn c
    (∀ mask, u.ctx.status = .waiting (.matrix mask) →
      (∀ e ∈ u.core.mq, e.who = c → mask ≠ 0 ∧ ∀ k ∈ e.op.tiles, mask.testBit k = false) →
      Machine.exec (.mwaitReturn c) s = .next u.commitSlot) ∧
    (∀ n sel xd k, AtSlot u (.rget sel xd k) → u.ctx.status = .waiting (.ringHead n) → Occupied u.core.rings[n] ≠ 0 →
      let r := u.core.rings[n]
      Machine.exec (.rgetWaitReturn c) s =
        .next (u.setX xd (BitVec.ofNat 64 (r.base + r.head % r.nslot * r.slotSize))).commitSlot) ∧
    (∀ n sel xd k, AtSlot u (.rget sel xd k) → u.ctx.status = .waiting (.ringTail n) →
      Occupied u.core.rings[n] + u.core.rings[n].resv < u.core.rings[n].nslot →
      let r := u.core.rings[n]
      Machine.exec (.rgetWaitReturn c) s =
        .next (u.setX xd (BitVec.ofNat 64 (r.base + r.tail % r.nslot * r.slotSize))).commitSlot)

/-- R365, R371, R368 (log 46): `lwait` returns the status and the cause of a launch that has retired, as an acquire at
quarter scope; `twait` returns once die time has reached its value; `done` frees its context once its entries have
completed and its stores are performed, and its task is done. -/
def LaunchTimeAndDrainWaitsEnd : Prop :=
  ∀ (s : State) (c : CtxId), c.ok = true →
    let u := s.focusOn c
    (∀ h xd xa l, AtSlot u (.lwait xd xa) → u.ctx.status = .waiting (.child h) → s.launchOf h.toNat = some l →
      l.state = .retired → Machine.exec (.lwaitReturn c) s =
        .next (acquired (u.setX xd (BitVec.ofNat 64 (l.status + l.cause * 2 ^ 32))) .qtr).commitSlot) ∧
    (∀ v, u.ctx.status = .waiting (.time v) → (u.dtime - v).toNat < 2 ^ 63 → ∃ who,
      Machine.exec (.twaitReturn c) s = .next (State.commitSlot { u with ctx := { u.ctx with setter := who } })) ∧
    (u.ctx.status = .waiting .doneDrain → u.drained = true → u.ctx.pend = [] →
      ∃ t, Machine.exec (.doneDrainEnd c) s = .next t ∧ t.foc = c ∧ t.ctx.status = .free ∧ t.ctx.task = none ∧
        ∀ k l, u.ctx.task = some k → s.launchOf k.launch = some l →
          ∃ l', t.launchOf k.launch = some l' ∧ ∀ e ∈ l'.tasks, e.1 = k.index → e.2 = .done)

/-- R308, R312, R279 (log 38): a wait on a barrier returns once its phase has passed, with LERR in its predicate and as
an acquire, or goes on to the conflict of its merge; a wait on a word returns, with qd set and as an acquire, once its
condition held at a write or at a `wake`, and with qd clear once a `wake` found it false. -/
def SquareWaitsEnd : Prop :=
  ∀ (s : State) (c : CtxId), c.ok = true →
    let u := s.focusOn c
    let lerr (p : Nat) : Bool := decide (barrierObject u p / 2 ^ 121 % 2 = 1)
    let phase (p : Nat) : Nat := barrierObject u p / 2 ^ 40 % 2 ^ 32
    (∀ a qd xa xb w, AtSlot u (.bwait qd xa xb) → u.ctx.status = .waiting (.barrier 2 a) → u.ctx.wordWait = some w →
      w.fault = none → u.squareFault w.place 16 = none → phase w.place ≠ w.y.toNat → Machine.exec (.barrierWaitReturn c) s = .next (acquired
        (State.setQ { u with ctx := { u.ctx with wordWait := none } } qd (lerr w.place)) (squareReach u w.place)).commitSlot) ∧
    (∀ k a qd xa e n, (AtSlot u (.arrwt qd xa) ∨ AtSlot u (.harvest xa)) → u.ctx.status = .waiting (.barrier k a) →
      FirstIn u.ctx.arrived (fun e => e.bundle = u.ctx.pc ∧ e.slot = u.ctx.slot) e → e.phase = some n →
      u.squareFault e.place 16 = none → n ≠ phase e.place →
      let v : State := { u with ctx := { u.ctx with
        arrived := u.ctx.arrived.filter fun f => !(f.bundle == e.bundle && f.slot == e.slot) } }
      let back (v : State) : State := acquired v (squareReach u e.place)
      (e.conflict = none → AtSlot u (.harvest xa) → Machine.exec (.barrierWaitReturn c) s = .next (back v).commitSlot) ∧
      (e.conflict = none → AtSlot u (.arrwt qd xa) →
        Machine.exec (.barrierWaitReturn c) s = .next (back (v.setQ qd (lerr e.place))).commitSlot) ∧
      ∀ at_ m, e.conflict = some (at_, m) → u.strideBusy = false → AtSlot u (.harvest xa) →
        Machine.exec (.barrierWaitReturn c) s =
          .next ((back v).commitStop causeHarvest at_ (BitVec.ofNat 64 (min m (2 ^ 32 - 1))))) ∧
    (∀ a w ok, u.ctx.status = .waiting (.word a) → u.ctx.wordWait = some w → w.hit = some ok →
      let v : State := State.setQ { u with ctx := { u.ctx with wordWait := none } } w.qd ok
      Machine.exec (.waitwReturn c) s = .next (if ok then ((acquired v (if w.other then .pkg else .die)).endWait 0).commitSlot
        else (v.endWait 1).commitSlot))

/-- R187, R195, R200, R207 (log 31): the B operand port begins with the oldest B tile that is present and neither staged nor
kept, where its buffer has room and the task's earlier stores to it are performed; it reads the tile's words and records
in steps, each once; with the last of them the tile stands in the buffer, unless a record with another sequence tag stops
the entry with SCALE-SKEW, or one with a domain tag with DOMAIN-MISMATCH. -/
def BTileIsStaged : Prop :=
  ∀ (s : State) (p : CoreId) (e : MqEntry) (m : MulArgs), p.ok = true →
    (s.focusCore p).nextStage = some (e, m) → e.who.coreId = p →
    let u := AtEntry s p e.who
    let sp := u.core.rings[m.rb].span m.pb (pcwBFmt m.pcw).bits
    let step := Machine.exec (.bTileStaging p) s
    let with_ (staged : List StagedTile) (f : MqEntry) : State := { u with
      fresh := u.fresh + 1, core := { u.core with staged := staged, mq := replaced u.core.mq f } }
    (∀ buf, e.bread = none → u.core.stageRoom = some buf → u.ctx.clearBefore e.seq (sp.has p) (fun _ => false) = true →
      ∃ left, step = .next (with_ buf { e with bread := some ⟨[], left⟩ })) ∧
    (e.bread = none → u.core.stageRoom = none → step = .next u) ∧
    ∀ r, e.bread = some r → u.tilePoison p sp = none →
      (r.left ≠ 0 → ∃ r', ReadsOn u p sp r r' ∧ step = .next (with_ u.core.staged { e with bread := some r' })) ∧
      (r.left = 0 →
        let tile := readOff u p sp r.got
        (RecordsFit tile.records m.pb (· = 0) → step = .next (with_ (u.core.staged ++ [⟨m.rb, m.pb, tile⟩])
          { e with staged := some tile, bread := none, since := s.cycle })) ∧
        ∀ k q, tile.records[k]? = some q → (recSeq q ≠ seqTag m.pb k ∨ recTag q ≠ 0) →
          (∀ j q, j < k → tile.records[j]? = some q → recSeq q = seqTag m.pb j ∧ recTag q = 0) →
          ∃ t, step = .next t ∧ Posts u t (if recSeq q ≠ seqTag m.pb k then causeScaleSkew else causeDomain))

/-- R187, R195, R200, R406 (logs 23 and 31): the array begins to fill with the A tile of the oldest entry whose next pass
may start, once the task's earlier stores to it are performed; it reads the tile in steps, and with the last of them the
pass starts, with the B tile, once the governor admits its charge, which its context and its die pay. A kept B tile that
a narrower operation staged has free bytes beyond its own (log 63). -/
def PassStarts : Prop :=
  ∀ (s : State) (p : CoreId) (e : MqEntry) (m : MulArgs) (b : FetchedTile), p.ok = true →
    (s.focusCore p).nextPass = some (e, m, b) → e.who.coreId = p →
    let u := AtEntry s p e.who
    let j := e.fetched.length
    let pos := (m.pa + j) % 2 ^ 32
    let sp := u.core.rings[m.ra].span pos (pcwAFmt m.pcw).bits
    let step := Machine.exec (.passStart p) s
    let with_ (f : MqEntry) : State := { u with fresh := u.fresh + 1, core := { u.core with mq := replaced u.core.mq f } }
    (e.aread = none → u.ctx.clearBefore e.seq (sp.has p) (fun _ => false) = true →
      ∃ left, step = .next (with_ { e with aread := some ⟨[], left⟩ })) ∧
    (∀ r, e.aread = some r → u.tilePoison p sp = none → r.left ≠ 0 →
      ∃ r', ReadsOn u p sp r r' ∧ step = .next (with_ { e with aread := some r' })) ∧
    ∀ r, e.aread = some r → u.tilePoison p sp = none → r.left = 0 →
      let a := readOff u p sp r.got
      let l := recTag (a.records.headD 0) % 8
      let wide := b.widen (8192 * (pcwBFmt m.pcw).bits) u.fresh
      let pass := m.pass a wide
      let cost := u.die.weights[8] * pass.cycles pass.pset
      RecordsFit a.records pos (fun d => d % 8 = l ∧ l ≤ 5) →
      (m.zero = true ∨ ∀ k ∈ passTiles m.acc m.pcw j, u.core.levelLeft e.ord k = l) → Admitted u 1 cost →
      (pcwAlt m.pcw = true → pass.loses pass.pset = false) →
      (8192 * (pcwBFmt m.pcw).bits ≤ b.bytes.length → wide = b) ∧
      ∃ t, step = .next t ∧
        t.core.mq = replaced u.core.mq { e with aread := none, fetched := e.fetched ++ [a]
                                                starts := e.starts ++ [u.core.passNo], staged := some wide, since := s.cycle } ∧
        t.core.arrNow = u.core.arrNow + cost ∧ t.core.passNo = u.core.passNo + 1 ∧
        t.die.etick = (if p.core < 96 then u.die.etick + cost else u.die.etick) ∧ t.ctx.echg = u.ctx.echg + cost ∧
        t = { u with fresh := u.fresh + 1, ctx := { u.ctx with echg := t.ctx.echg }
                     core := { u.core with mq := t.core.mq, arrNow := t.core.arrNow, passNo := t.core.passNo }
                     die := { u.die with etick := t.die.etick, heldOld := t.die.heldOld } }

/-- R172 to R175, R182, R186, R201 (logs 30 and 32): the next pass of the oldest entry that may commits: its accumulator
tile, or the pair, has each element updated by the planes of the pass; the context has its flags, the core its skip
counts with the end of the cycle. A first mismatch of the residue check recomputes the pass, a second stops the entry with ARRAY-CHECK and leaves
the tile as it was. -/
def PassCommits : Prop :=
  ∀ (s : State) (p : CoreId) (e : MqEntry) (m : MulArgs) (a b : FetchedTile) (miss : Fin 3), p.ok = true →
    (s.focusCore p).nextCommit = some (e, m) → e.who.coreId = p → e.fetched[e.committed]? = some a → e.staged = some b →
    let u := AtEntry s p e.who
    let ts := passTiles m.acc m.pcw e.committed
    let pass := m.pass a b
    let n := if pcwAccf m.pcw = 1 then 8 else 4
    let place := accPlace p (32768 * ts.headD 0)
    let codes : List (List Nat) := (List.range 32).map fun i => (List.range 256).map fun k =>
      if m.zero then 0 else leNat (((Mem.slice u.mem place (8192 * n)).drop (n * (256 * i + k))).take n)
    let out := pass.apply pass.pset codes
    let skip := pass.skipped pass.pset
    (m.zero = false → ∀ j, j = e.committed ∨ (e.committed = 0 ∧ j < m.np) → ∀ k ∈ passTiles m.acc m.pcw j,
      u.poisonIn (accPlace p (32768 * k)) 32768 = none) →
    (miss ≠ 2 → ∃ t, Machine.exec (.passCommit p miss) s = .next t ∧
      t.mem = Mem.splice u.mem place (out.1.flatten.flatMap (leBytes n)) ∧
      t.core.mq = replaced u.core.mq { e with committed := e.committed + 1 } ∧
      t.core.tally.ospl = u.core.tally.ospl + skip.1 ∧ t.core.tally.otrm = u.core.tally.otrm + skip.2.1 ∧
      t.core.tally.oskr = u.core.tally.oskr + skip.2.2 ∧ t.core.rings = u.core.rings ∧ SameRegisters u t ∧
      (∀ k : Fin 16, t.core.tileL[k] =
        if m.zero ∧ k.val ∈ ts then BitVec.ofNat 3 (recTag (a.records.headD 0)) else u.core.tileL[k]) ∧
      (miss = 0 → t.ctx.cstat = orCstat u.ctx.cstat out.2.bits ∧ t.die = u.die)) ∧
    (miss = 2 → ∃ t, Machine.exec (.passCommit p miss) s = .next t ∧ Posts u t causeArrayCheck ∧ t.mem = u.mem ∧
      t.core.rings = u.core.rings ∧ t.core.tileL = u.core.tileL)

/-- R196, R203 (log 31): the oldest operation whose passes have all committed, and the oldest cancelled entry whose
claimed tiles are present, pop their tiles of their rings, the B tile unless it is kept, and leave the queue. -/
def OperationsRetire : Prop :=
  ∀ (s : State) (p : CoreId) (e : MqEntry) (m : MulArgs), p.ok = true → e.who.coreId = p → e.op = .mul m → m.ra ≠ m.rb →
    let c := s.coreAt p
    let first (f : MqEntry) : Prop := ∀ g ∈ c.mq, f.ord ≤ g.ord ∨ ∀ r ∈ g.op.rings, r ∉ f.op.rings
    let pops (t : State) : Prop :=
      (t.coreAt p).mq = (c.mq.filter fun f => f.ord != e.ord) ∧
      (t.coreAt p).rings[m.ra].head = (c.rings[m.ra].head + m.np) % 2 ^ 32 ∧
      (t.coreAt p).rings[m.rb].head = (if m.keep then c.rings[m.rb].head else (c.rings[m.rb].head + 1) % 2 ^ 32) ∧
      (∀ r, (t.coreAt p).rings[r].tail = c.rings[r].tail ∧ (t.coreAt p).rings[r].claim = c.rings[r].claim ∧
        (r ≠ m.ra → r ≠ m.rb → (t.coreAt p).rings[r] = c.rings[r])) ∧
      (∀ o, (t.ctxAt o).x = (s.ctxAt o).x ∧ (t.ctxAt o).pc = (s.ctxAt o).pc) ∧ (NoRecords s → SameStore s t)
    (FirstIn c.mq (fun f => (∃ n, f.op = .mul n ∧ f.committed = n.np) ∧ f.fault = none ∧ f.cancelled = false ∧ first f) e →
      ∃ t, Machine.exec (.matrixRetire p) s = .next t ∧ pops t) ∧
    (FirstIn c.mq (fun f => f.cancelled = true ∧ first f ∧ c.claimsPresent f = true) e →
      ∃ t, Machine.exec (.cancelledEntryRetire p) s = .next t ∧ pops t)

/-- R193, R209: the oldest `accz` whose tiles earlier entries are through with zeroes them and gives them its tag. -/
def TilesAreZeroed : Prop :=
  ∀ (s : State) (p : CoreId) (e : MqEntry) (acc n : Nat) (tag : BitVec 3), p.ok = true → e.who.coreId = p →
    e.op = .zero acc n tag → NoRecords s →
    let u := s.focusCore p
    FirstIn u.core.mq (fun f => (∃ a k t, f.op = .zero a k t) ∧ MayExecute u f) e →
    ∃ t, Machine.exec (.acczExecute p) s = .next t ∧ LeavesMatrix s t p e ∧
      t.mem = Mem.splice s.mem (accPlace p (32768 * acc)) (List.replicate (32768 * n) 0) ∧
      (∀ k : Fin 16, (t.coreAt p).tileL[k] = if acc ≤ k.val ∧ k.val < acc + n then tag else (s.coreAt p).tileL[k]) ∧
      (t.coreAt p).rings = (s.coreAt p).rings ∧
      ∀ o, (t.ctxAt o).x = (s.ctxAt o).x ∧ (t.ctxAt o).v = (s.ctxAt o).v ∧ (t.ctxAt o).pc = (s.ctxAt o).pc

/-- R210: the oldest `accrd` whose tile earlier entries are through with writes its vector register with the block's bytes
and the tile's domain; a domain of more than 5 levels stops it with DOMAIN-MISMATCH (R220). -/
def TileBlockIsRead : Prop :=
  ∀ (s : State) (p : CoreId) (e : MqEntry) (vd : VReg) (k : Fin 16) (j : Nat), p.ok = true → e.who.coreId = p →
    e.op = .read vd k j → NoRecords s →
    let u := s.focusCore p
    let at_ := accPlace p (32768 * k.val) + 128 * j
    FirstIn u.core.mq (fun f => (∃ a b c, f.op = .read a b c) ∧ MayExecute u f) e → u.poisonIn at_ 128 = none →
    (5 < (s.coreAt p).tileL[k].toNat → ∃ t, Machine.exec (.accrdExecute p) s = .next t ∧
      Posts (AtEntry s p e.who) t causeDomain ∧ SameStore s t) ∧
    ((s.coreAt p).tileL[k].toNat ≤ 5 → ∃ t, Machine.exec (.accrdExecute p) s = .next t ∧ LeavesMatrix s t p e ∧ SameStore s t ∧
      (t.ctxAt e.who).v[vd] = BitVec.ofNat 1024 (leNat (Mem.slice s.mem at_ 128)) ∧
      (t.ctxAt e.who).vtag[vd] = ((s.coreAt p).tileL[k]).zeroExtend 4 ∧
      (∀ r, r ≠ vd → (t.ctxAt e.who).v[r] = (s.ctxAt e.who).v[r] ∧ (t.ctxAt e.who).vtag[r] = (s.ctxAt e.who).vtag[r]) ∧
      (∀ o, (t.ctxAt o).x = (s.ctxAt o).x ∧ (o ≠ e.who → (t.ctxAt o).v = (s.ctxAt o).v)) ∧
      (t.coreAt p).tileL = (s.coreAt p).tileL ∧ (t.coreAt p).rings = (s.coreAt p).rings)

/-- R211: the oldest `accwr` whose tile earlier entries are through with writes its block where its tag is the tile's; any
other tag, and one of more than 5 levels, stops it with DOMAIN-MISMATCH and writes nothing. -/
def TileBlockIsWritten : Prop :=
  ∀ (s : State) (p : CoreId) (e : MqEntry) (k : Fin 16) (v : VWord) (tag : BitVec 4) (j : Nat), p.ok = true →
    e.who.coreId = p → e.op = .write k v tag j → NoRecords s →
    let u := s.focusCore p
    FirstIn u.core.mq (fun f => (∃ a b c d, f.op = .write a b c d) ∧ MayExecute u f) e →
    (((s.coreAt p).tileL[k]).zeroExtend 4 = tag → tag.toNat % 8 ≤ 5 → ∃ t, Machine.exec (.accwrExecute p) s = .next t ∧ LeavesMatrix s t p e ∧
      t.mem = Mem.splice s.mem (accPlace p (32768 * k.val) + 128 * j) (leBytes 128 v.toNat) ∧
      (t.coreAt p).tileL = (s.coreAt p).tileL ∧ (t.coreAt p).rings = (s.coreAt p).rings ∧
      ∀ o, (t.ctxAt o).x = (s.ctxAt o).x ∧ (t.ctxAt o).v = (s.ctxAt o).v) ∧
    (((s.coreAt p).tileL[k]).zeroExtend 4 ≠ tag ∨ 5 < tag.toNat % 8 → ∃ t, Machine.exec (.accwrExecute p) s = .next t ∧
      Posts (AtEntry s p e.who) t causeDomain ∧ SameStore s t)

/-- R190, R191 (log 25): where an engine waits for a slot of a ring that has a free one, the slot after those in use and
reserved is reserved and given to such an engine. -/
def RingSlotIsReserved : Prop :=
  ∀ (s : State) (p : CoreId) (n : Fin 16), p.ok = true →
    let u := s.focusCore p
    let r := u.core.rings[n]
    u.producersFor n ≠ [] → Occupied r + r.resv < r.nslot →
    ∃ t, Machine.exec (.ringSlotReserve p n) s = .next t ∧ t.foc = u.foc ∧
      t.core.rings[n] = { r with resv := r.resv + 1 } ∧ OtherRings u t n ∧ GivenSlot t ((r.tail + r.resv) % 2 ^ 32) ∧
      t.core.mq = u.core.mq ∧ SameRegisters u t ∧ (NoRecords s → SameStore s t)

/-- R223 (log 31): the entry at the head of the post-processing queue starts once what it joins is over and earlier work
on its source tiles is done. -/
def PostProcessingStarts : Prop :=
  ∀ (s : State) (p : CoreId) (e : PpEntry) (rest : List PpEntry), p.ok = true →
    let u := s.focusCore p
    u.core.ppq = e :: rest → e.started = false → e.fault = none → u.joined e.who e.after = true →
    u.core.sourcesReady e = true →
    ∃ t, Machine.exec (.ppeEntryStart p) s = .next t ∧ t = { u with core := { u.core with ppq := t.core.ppq } } ∧
      t.core.ppq.head? = some { e with started := true, since := s.cycle } ∧ t.core.ppq.length = u.core.ppq.length

/-- R227 to R229, R231, R232, R233 (log 33): the entry at work makes its next output tile, of a store or of a
reconstruction, or rewrites the domain of its records, once its sources are ready, the task's earlier accesses are
performed and the governor admits its charge: the entry counts the tile and has no slot for the next, and leaves with
its last. -/
def PostProcessingWorks : Prop :=
  ∀ (s : State) (p : CoreId) (e : PpEntry) (rest : List PpEntry), p.ok = true → e.who.coreId = p →
    let u := AtEntry s p e.who
    let paid (v : State) (n : Nat) : Prop := Pays u v (u.die.weights[9] * n)
    let counted (t : State) (n : Nat) : Prop :=
      (e.units + 1 ≠ n → t.core.ppq.head? = some { e with units := e.units + 1, reserved := none, since := s.cycle }) ∧
      (e.units + 1 = n → ∀ f ∈ (t.coreAt p).ppq, f.ord ≠ e.ord)
    (s.focusCore p).core.ppq = e :: rest → e.started = true → e.fault = none → u.core.sourcesReady e = true →
    (∀ a d, e.op = .store a → u.storeDest e a = some d →
      u.ctx.clearBefore e.seq (storeReads p a) (storeWrites p a d) = true → u.storePoison e a = none →
      (u.core.tileL.getD ((e.sources a).headD 0) 0).toNat ≤ 5 → Admitted u 2 (u.die.weights[9] * (128 * a.perTile)) →
      ∃ t v, Machine.exec (.ppstTileComplete p) s = .next t ∧ paid v (128 * a.perTile) ∧ t = v.storeNext e a d ∧
        counted t a.outs) ∧
    (∀ dst src n, e.op = .rebuild dst src n → e.reserved = none →
      let sp := rebuildSpan src e.units
      u.ctx.clearBefore e.seq (sp.has p) ((rebuildSpan dst e.units).has p) = true → u.tilePoison p sp = none →
      (∃ l ≤ 5, ∃ d, d % 8 = l ∧ ∀ r ∈ (u.fetchTile p sp).records, recTag r = d) →
      Admitted u 2 (u.die.weights[9] * 128) →
      ∃ t v, Machine.exec (.hrecTileComplete p) s = .next t ∧ paid v 128 ∧ t = v.rebuildNext e dst src n ∧ counted t n) ∧
    ∀ first n tag, e.op = .retag first n tag → NoRecords s → s.poison = [] → Mem.wf s.mem = true →
      let at_ := sidePlace p (16 * first)
      u.ctx.clearBefore e.seq (within at_ (16 * n)) (within at_ (16 * n)) = true →
      Admitted u 2 (u.die.weights[9] * ((n + 15) / 16)) → n ≤ 16384 → first + n ≤ 16384 →
      ∃ t, Machine.exec (.htagApply p) s = .next t ∧ (∀ f ∈ (t.coreAt p).ppq, f.ord ≠ e.ord) ∧
        (∀ k < n, Mem.get t.mem (at_ + 16 * k + 11) = retagByte (Mem.get s.mem (at_ + 16 * k + 11)) tag) ∧
        ∀ a, (∀ k < n, a ≠ at_ + 16 * k + 11) → Mem.get t.mem a = Mem.get s.mem a

/-- R238, R284: the operation at the head of a copy queue starts once what it joins is over. -/
def CopyStarts : Prop :=
  ∀ (s : State) (p : CoreId) (q : Fin 4) (o : CopyOp) (rest : List CopyOp), p.ok = true →
    let u := s.focusCore p
    u.core.cq[q] = o :: rest → o.state = .queued → u.joined o.who o.after = true →
    ∃ t, Machine.exec (.copyOperationStart p q) s = .next t ∧
      t = { u with core := { u.core with cq := t.core.cq }, fresh := u.fresh + o.draws } ∧
      t.core.cq[q].head? = some { o with state := .running, since := s.cycle, free := s.fresh } ∧
      ∀ k, k ≠ q → t.core.cq[k] = u.core.cq[k]

/-- R238, R245, R246, R256 (log 36): in its queue's turn a unit of a stream of bytes, as far as its bytes can be read and
written, and a sheaf, all of whose bytes can, count in BYTES and UNITS of their operation once the task's earlier accesses
are performed and the governor admits the charge; the byte that cannot stops the operation after those before it. The word
of a `cpsig` is written whole. -/
def CopyDelivers : Prop :=
  ∀ (s : State) (p : CoreId) (q : Fin 4) (o : CopyOp) (rest : List CopyOp) (u : State), CopyRuns s p q o rest →
    UnitTurn s p q o u →
    let cost (after : Nat) : Nat := u.die.weights.getD o.class_ 0 * (after / 1024 - o.kib)
    (∀ n, u.streamBytes o = some n →
      let m := u.nextMoves o n
      let r := u.tryMoves m.op m.moves
      let after := o.bytes + r.1.length
      u.rootHolds o (m.moves.map ByteMove.dst) = false →
      u.unitClear o (m.places ++ r.1.map fun e => e.2.1) (r.1.map fun e => e.2.2) = true →
      Admitted (u.holdTlb u.foc.die (m.held ++ r.2.1)) (3 + q.val) (cost after) →
      (r.1 ≠ [] → r.2.2 = none → m.fault = none →
        ∃ t, Machine.exec (.copyUnitDelivery p q) s = .next t ∧ Progressed t q o (after / u.streamUnit o) after) ∧
      ∀ f, r.2.2.or m.fault = some f →
        ∃ t, Machine.exec (.copyUnitDelivery p q) s = .next t ∧ StoppedWith t q o f after) ∧
    (o.bySheaf = true →
      (∀ f, u.nextSheaf o = some (.error f) →
        ∃ t, Machine.exec (.copyUnitDelivery p q) s = .next t ∧ StoppedWith t q o f o.bytes) ∧
      (∀ r f, u.nextSheaf o = some (.ok r) → u.writeAddrs o.view o.entries r.move.dst = .error f →
        ∃ t, Machine.exec (.copyUnitDelivery p q) s = .next t ∧ StoppedWith t q o f o.bytes) ∧
      ∀ r ts held, u.nextSheaf o = some (.ok r) → u.writeAddrs o.view o.entries r.move.dst = .ok (ts, held) →
        u.rootHolds o r.move.dst = false → u.unitClear o r.places ts = true →
        Admitted (u.holdTlb u.foc.die (r.held ++ held)) (3 + q.val) (cost (o.bytes + r.move.taken)) →
        ∃ t, Machine.exec (.copyUnitDelivery p q) s = .next t ∧ Progressed t q o (o.units + 1) (o.bytes + r.move.taken)) ∧
    (o.kind = .cpsig → o.xa.toNat + 8 ≤ 2097152 → Mem.wf s.mem = true → s.flight = [] →
      let at_ := cribPlace p o.xa.toNat
      u.ctx.clearBefore o.seq (fun _ => false) (within at_ 8) = true → Admitted u (3 + q.val) 0 →
      ∃ t, Machine.exec (.copyUnitDelivery p q) s = .next t ∧ Progressed t q o 1 8 ∧
        byteSum (fun k => t.homeByte (at_ + k)) 8 = o.xb.toNat ∧
        ∀ a, (a < at_ ∨ at_ + 8 ≤ a) → t.homeByte a = s.homeByte a)

/-- R248, R275 (log 36): a bound operation reports to its barrier the bytes it has not reported, after what it has written
on other dies is visible on its own; PEND falls by them, in 48 bits. A barrier that cannot take the report stops it. -/
def CopyReports : Prop :=
  ∀ (s : State) (p : CoreId) (q : Fin 4) (o : CopyOp) (rest : List CopyOp), CopyRuns s p q o rest →
    let u := AtEntry s p o.who
    let bar := boundBarrier p o.bidx
    u.delivered o = false → o.binds = true → o.kind ≠ .cpsig → o.reported < o.counted →
    (u.barrierFault bar = none →
      Machine.exec (.copyBarrierReport p q) s = .next (State.setCopy ((u.uncast p.die o.cast).moveBarrier bar
        (u.whoIs 1 o.who) p.die (o.reported - o.counted : Int) false) q { o with reported := o.counted, cast := [] })) ∧
    ∀ f, u.barrierFault bar = some f →
      ∃ t, Machine.exec (.copyBarrierReport p q) s = .next t ∧ StoppedWith t q o ⟨f.1, boundAddr o.bidx, f.2⟩ o.bytes

/-- R247, R255, R259 (log 35): an operation whose every unit is delivered and whose tiles TAIL has passed writes its
signal, raises its flags in its context, charges a partial KiB as a whole one (R411), and leaves its queue; its record
reads done. -/
def CopyCompletes : Prop :=
  ∀ (s : State) (p : CoreId) (q : Fin 4) (o : CopyOp) (rest : List CopyOp), CopyRuns s p q o rest →
    let u := AtEntry s p o.who
    let at_ := cribPlace p (8 * o.sigidx)
    u.delivered o = true → u.tailPassed o = true → o.binds = false → NoRecords s →
    Mem.wf s.mem = true → s.flight = [] →
    u.ctx.clearBefore o.seq (fun _ => false) (within at_ 8) = true →
    ∃ t, Machine.exec (.copyCompletion p q) s = .next t ∧
      (∀ e ∈ (t.coreAt p).cq[q], ¬(e.who = o.who ∧ e.opn = o.opn)) ∧
      RaisesFlags s t o.who o.flags ∧
      Charged s t o.who (u.die.weights.getD o.class_ 0 * ((o.bytes + 1023) / 1024 - o.kib)) ∧
      (o.opn + 1 = (s.ctxAt o.who).opn[q.val] → (t.ctxAt o.who).lastOp[q.val] =
        ⟨o.units, o.opn, 0, .done, o.bytes, 0⟩) ∧
      (o.sig = true → o.signalled = false → byteSum (fun k => t.homeByte (at_ + k)) 8 = o.sigval) ∧
      (∀ a, (o.sig = false ∨ o.signalled = true ∨ a < at_ ∨ at_ + 8 ≤ a) → t.homeByte a = s.homeByte a) ∧
      ∀ c, (t.ctxAt c).x = (s.ctxAt c).x ∧ (t.ctxAt c).pc = (s.ctxAt c).pc

/-- R289 to R292, R294, R300 to R302 (log 6): a request that may be applied, on backed bytes without poison, reads them
at their home, leaves what its operation makes of them, returns the old value or the fold's, and leaves its queue; no
other byte changes. -/
def SquareApplies : Prop :=
  ∀ (s : State) (c : CtxId) (r : SqRequest) (rest : List SqRequest), c.ok = true → NoRecords s → s.flight = [] →
    Mem.wf s.mem = true → s.poison = [] →
    let u := s.focusOn c
    let w := if r.dbl then 8 else 4
    let f := if r.dbl then fmt64 else fmt32
    let old := byteSum (fun k => s.homeByte (r.place + k))
    let becomes (t : State) (n v : Nat) : Prop :=
      byteSum (fun k => t.homeByte (r.place + k)) n = v % 256 ^ n ∧
        ∀ a, (a < r.place ∨ r.place + n ≤ a) → t.homeByte a = s.homeByte a
    u.ctx.sq = r :: rest → u.sqReady r = true → u.squareBacked r.place = true → 2 ^ 67 ≤ r.place →
    r.place + 32 ≤ 2 ^ 68 →
    ∃ t, Machine.exec (.squareRequestApply c) s = .next t ∧
      ((∀ harvest v, r.op ≠ .arrive harvest ∧ r.op ≠ .expect v) → LeavesSquare u t r) ∧
      (∀ k v m, r.op = .int k v m → becomes t w (atomicResult k w (old w) v.toNat m.toNat) ∧
        OnlyXAt s t c r.xd (BitVec.ofNat 64 (old w))) ∧
      (∀ v, r.op = .float 0 v → becomes t w (f.add 0 (old w) v.toNat).1 ∧
        RaisesFlags s t c (f.add 0 (old w) v.toNat).2.bits ∧ OnlyXAt s t c r.xd (BitVec.ofNat 64 (old w))) ∧
      (∀ k v, k ≠ 0 → r.op = .float k v → becomes t w (f.minMax (k == 2) (old w) v.toNat).1 ∧
        RaisesFlags s t c (f.minMax (k == 2) (old w) v.toNat).2.bits ∧ OnlyXAt s t c r.xd (BitVec.ofNat 64 (old w))) ∧
      (∀ v, r.op = .ordered v → SameStore s t ∧ OnlyXAt s t c none 0) ∧
      (∀ v, r.op = .binAdd v → becomes t 32 (binAddTo (old 32) (f.decode v.toNat)).1 ∧
        RaisesFlags s t c (binAddTo (old 32) (f.decode v.toNat)).2.bits) ∧
      (r.op = .binFold → becomes t 32 (binCarried (old 32)) ∧
        OnlyXAt s t c r.xd (BitVec.ofNat 64 (binValue (old 32) f).1) ∧ RaisesFlags s t c (binValue (old 32) f).2.bits) ∧
      (∀ v, r.op = .binInit v → becomes t 32 (v.toNat % 4096)) ∧
      (∀ v, r.op = .barInit v → becomes t 16 (v.toNat % 2 ^ 20 + old 16 / 2 ^ 40 % 2 ^ 32 * 2 ^ 40))

/-- R305, R307, R309 (log 38): an arrival at a phase that takes it and does not complete it counts one in ARR, and
returns PHASE; an expectation raises PEND of a phase it does not complete, in 48 bits with ERR where it leaves them. No
other field changes. -/
def BarrierCounts : Prop :=
  ∀ (s : State) (c : CtxId) (r : SqRequest) (rest : List SqRequest), c.ok = true → NoRecords s → s.flight = [] →
    Mem.wf s.mem = true → s.poison = [] →
    let u := s.focusOn c
    let b := barrierObject s r.place
    let b' (t : State) : Nat := barrierObject t r.place
    let exp := b % 2 ^ 20
    let arr := b / 2 ^ 20 % 2 ^ 20
    let pend := signedBits 48 (b / 2 ^ 72)
    u.ctx.sq = r :: rest → u.sqReady r = true → u.squareBacked r.place = true → 2 ^ 67 ≤ r.place →
    r.place + 16 ≤ 2 ^ 68 → exp ≠ 0 → b / 2 ^ 122 = 0 →
    (r.op = .arrive false → arr + 1 < exp → u.ctx.ordSet = [] → c = s.foc → s.ctx.task ≠ none →
      (∀ h ∈ (s.dieAt ((r.place - 2 ^ 67) / 2 ^ 26)).heldArr, h.place ≠ r.place) →
      ∃ t, Machine.exec (.squareRequestApply c) s = .next t ∧ LeavesSquare u t r ∧ b' t = b + 2 ^ 20 ∧
        OnlyXAt s t c r.xd (BitVec.ofNat 64 (b / 2 ^ 40 % 2 ^ 32)) ∧
        ∀ a, (a < r.place ∨ r.place + 16 ≤ a) → t.homeByte a = s.homeByte a) ∧
    (∀ v : Word, r.op = .expect v → arr < exp →
      (∀ h ∈ (s.dieAt ((r.place - 2 ^ 67) / 2 ^ 26)).heldArr, h.place ≠ r.place) →
      ∃ t, Machine.exec (.squareRequestApply c) s = .next t ∧ LeavesSquare u t r ∧
        b' t % 2 ^ 72 = b % 2 ^ 72 ∧ b' t / 2 ^ 121 = b / 2 ^ 121 ∧
        b' t / 2 ^ 72 % 2 ^ 48 = ((pend + v.toNat) % 2 ^ 48).toNat ∧
        (b' t / 2 ^ 120 % 2 = 1 ↔ b / 2 ^ 120 % 2 = 1 ∨ 2 ^ 47 ≤ pend + v.toNat) ∧ OnlyXAt s t c none 0 ∧
        ∀ a, (a < r.place ∨ r.place + 16 ≤ a) → t.homeByte a = s.homeByte a)

/-- R295, R296 (logs 6 and 37): a closed batch without a barrier is applied in the order of place, task index and
sequence number: a word that its adds name holds their sum in that order; other bytes stay, and the batch is gone. -/
def OrderedBatchIsApplied : Prop :=
  ∀ (s : State) (d k : Nat) (b : Batch), d < 16 → s.flight = [] → Mem.wf s.mem = true → s.poison = [] →
    (s.dieAt d).batches.findIdx? s.batchReady = some k → (s.dieAt d).batches[k]? = some b → b.barrier = none →
    (∀ a ∈ b.adds, s.squareBacked a.place = true ∧ 2 ^ 67 ≤ a.place ∧ a.place + 8 ≤ 2 ^ 68 ∧
      a.place % (if a.dbl then 8 else 4) = 0) →
    (∀ a ∈ b.adds, ∀ e ∈ b.adds, a.place / 8 = e.place / 8 → a.dbl = e.dbl) →
    ∃ t, Machine.exec (.orderedBatchApply d) s = .next t ∧ (t.dieAt d).batches = (s.dieAt d).batches.eraseIdx k ∧
      (∀ a ∈ b.adds,
        let n := if a.dbl then 8 else 4
        byteSum (fun j => t.homeByte (a.place + j)) n =
          addsOn (if a.dbl then fmt64 else fmt32) (byteSum (fun j => s.homeByte (a.place + j)) n)
            (((sortBy OrderedAdd.le b.adds).filter fun e => e.place == a.place).map fun e => e.v.toNat)) ∧
      ∀ p, (∀ a ∈ b.adds, p < a.place ∨ a.place + (if a.dbl then 8 else 4) ≤ p) → t.homeByte p = s.homeByte p

/-- R322, R328 (log 39): the collective at the head of a queue starts once what it joins is over: it runs when its die's
own side passes, and stops with what the check of its SRC or of its DST finds. -/
def CollectiveStarts : Prop :=
  ∀ (s : State) (d : Nat) (q : Fin 8) (o : XOp), d < 16 → s.xHead d q = some o → o.state = .queued →
    s.isDead d o = false → s.xJoined o = true →
    let src : Option MemFault := if s.readsSrc d o then s.checkRange d o o.src (o.srcLen (s.xSize o)) false else none
    let dst : Option MemFault := if o.bind.isNone then s.checkRange d o o.dst o.dlen true else none
    let e := Machine.exec (.collectiveStart d q) s
    (src = none → dst = none → ∃ t, e = .next t ∧
      XStands t d q o (fun p => p = { o with state := .running, checked := true, since := s.cycle }) ∧
      (∀ p : Fin 8, p ≠ q → (t.dieAt d).xq[p] = (s.dieAt d).xq[p]) ∧ (∀ c, t.ctxAt c = s.ctxAt c) ∧ SameStore s t) ∧
    (∀ f, src = some f → e = .next (s.stopX d q o f)) ∧ ∀ f, src = none → dst = some f → e = .next (s.stopX d q o f)

/-- R327 (log 39): once every member has issued a collective and none has stopped or been cancelled, equal headers match
it on every member, and headers that differ stop it on every member with reason 42. -/
def HeadersAreMatched : Prop :=
  ∀ (s : State) (d : Nat) (q : Fin 8) (o : XOp) (all : List (Nat × Fin 8 × XOp)), d < 16 → s.xHead d q = some o →
    o.state = .running → o.matched = false → s.xAll o = some all →
    (∀ e ∈ all, e.2.2.state ≠ .faulted ∧ s.isDead e.1 e.2.2 = false) → s.linksClear = true → NoRecords s →
    let r := Machine.exec (.collectiveHeaderMatch d q) s
    let same : Prop := ∀ e ∈ all, e.2.2.kind = o.kind ∧ e.2.2.ord = o.ord ∧ e.2.2.fmt = o.fmt ∧ e.2.2.opCode = o.opCode ∧
      e.2.2.count = o.count ∧ e.2.2.rootRank = o.rootRank
    (same → ∃ t, r = .next t ∧ (∀ e ∈ all, XStands t e.1 e.2.1 e.2.2 fun p => p.matched = true ∧ p.state = e.2.2.state) ∧
      SameStore s t) ∧
    (¬same → ∃ t, r = .next t ∧ SameStore s t ∧
      ∀ e ∈ all, XStands t e.1 e.2.1 e.2.2 fun p => p.state = .faulted ∧ p.cause = 0 ∧ p.reason = 42)

/-- R325, R331 (log 39): a matched collective whose sources are read and whose charge is admitted writes what its kind
makes of them: the next unit of at most 4 KiB to DST, or the next tile of its consumer ring into its reserved slot, and
counts it. -/
def CollectiveDelivers : Prop :=
  ∀ (s : State) (d : Nat) (q : Fin 8) (o : XOp), d < 16 → s.xDelivering d q = some o →
    let out (u : State) (bs : List (List Byte)) := o.combine u.fresh bs
    let counted (t : State) (u : State) (bs : List (List Byte)) (n : Nat) : Prop := XStands t d q o fun p =>
      p.state = o.state ∧ p.units = o.units + 1 ∧ p.bytes = o.bytes + n ∧ p.reserved = none ∧
        p.flags = o.flags ||| (out u bs).2.bits
    (∀ r bs u, let n := min 4096 (o.dlen - o.bytes)
      o.bind = none → o.reserved = none → n ≠ 0 → s.checkX d o (word (o.dst + o.bytes)) n true = .ok r →
      (s.holdTlb d r.held).readRuns o (o.runs (s.xSize o) (s.xRank o d) o.bytes n) = .bytes bs u →
      u.xClear o (fun _ => false) r.places.contains = true → s.linksClear = true → XAdmitted u d q o (xCost u d o n) →
      ∃ t, Machine.exec (.collectiveDataUnit d q) s = .next t ∧ counted t u bs n ∧
        (Settled u → r.places.Nodup → HoldsCells t (r.places.zip (out u bs).1))) ∧
    (∀ r, let n := min 4096 (o.dlen - o.bytes)
      o.bind = none → n ≠ 0 → s.checkX d o (word (o.dst + o.bytes)) n true = .error r →
      Machine.exec (.collectiveDataUnit d q) s = .next (s.stopX d q o r)) ∧
    (∀ (b : RingBinding) (pos : Nat) bs u, let r := (s.coreAt b.core).rings[b.ring]
      let n := if r.role = 0 then 1024 * o.fmt.bits else r.slotSize
      let places := (List.range n).map fun k => cribPlace b.core (r.slotOff pos + k)
      o.bind = some b → o.reserved = some pos → o.bytes + n ≤ o.dlen →
      s.readRuns o (o.runs (s.xSize o) (s.xRank o d) o.bytes n) = .bytes bs u →
      u.xClear o (fun _ => false) places.contains = true → s.linksClear = true → XAdmitted u d q o (xCost u d o n) →
      ∃ t, Machine.exec (.xsigTileDelivery d q) s = .next t ∧ counted t u bs n ∧
        (pos = r.tail → r.filled = [] → r.resv ≠ 0 →
          (t.coreAt b.core).rings[b.ring].tail = (r.tail + 1) % 2 ^ 32 ∧ (t.coreAt b.core).rings[b.ring].resv = r.resv - 1))

/-- R330, R332 (log 39): a collective whose output is whole and whose source every member has read completes: it writes
its signal once TAIL has passed its last tile, raises its flags in its task, charges a partial KiB as a whole one, and leaves
its queue; one that another member has cancelled ends, and its task takes an ENGINE-FAULT with reason 45. -/
def CollectiveEnds : Prop :=
  ∀ (s : State) (d : Nat) (q : Fin 8) (o : XOp) (c : CtxId), d < 16 → s.taskCtx o.launch o.task = some c →
    NoRecords s → Settled s → o.binds = false →
    let at_ := cribPlace o.who.coreId (8 * o.sigidx)
    (s.xDelivering d q = some o → o.bytes = o.dlen → s.srcRead d o = true → s.xTailPassed o = true →
      s.xClear o (fun _ => false) (within at_ 8) = true →
      ∃ t, Machine.exec (.collectiveCompletion d q) s = .next t ∧ XGone t d q o ∧
        RaisesFlags s t c o.flags ∧ Charged s t c ((s.dieAt d).weights[13] * ((o.bytes + 1023) / 1024 - o.kib)) ∧
        (t.ctxAt c).xiq = (s.ctxAt c).xiq.filter (fun e => e.opn != o.opn) ∧
        (o.sig = true → o.signalled = false → byteSum (fun k => t.homeByte (at_ + k)) 8 = o.sigval) ∧
        ∀ a, (o.sig = false ∨ o.signalled = true ∨ a < at_ ∨ at_ + 8 ≤ a) → t.homeByte a = s.homeByte a) ∧
    (FirstIn (s.dieAt d).xq[q] (fun e => s.isDead d e = true) o → o.bind = none → s.linksClear = true →
      ∃ t f, Machine.exec (.peerCancel d q) s = .next t ∧ XGone t d q o ∧ SameStore s t ∧
        (t.ctxAt c).pend = (s.ctxAt c).pend ++ [f] ∧ f.cause = causeEngine ∧ f.addr = 0 ∧
        f.info.toNat = o.opn % 2 ^ 16 + 45 * 2 ^ 24 + 7 * 2 ^ 47 + o.slot % 2 ^ 14 * 2 ^ 50)

/-- R334 (log 40): a member whose receive area takes a multicast write writes its bytes, and leaves the members still to
apply it; one that does not refuses it with reason 43, of which the task learns once. A write that all have applied,
and which is visible on the task's die (R275), leaves its queue. -/
def MulticastStoreIsApplied : Prop :=
  ∀ (s : State) (c : CtxId) (m : Nat) (e : XiEntry) (g : GroupEntry) (off : Nat) (bs : List Byte) (left : List Nat),
    c.ok = true → m < 16 → s.linksClear = true →
    let u := s.focusOn c
    (u.storeFor m = some (e, g, off, bs, left) →
      (∀ r, u.checkMember m g.swg off bs.length true = .ok r →
        u.ctx.clearBefore e.seq (fun _ => false) r.places.contains = true →
        ∃ t, Machine.exec (.stmcMemberWrite c m) s = .next t ∧
          (∃ f ∈ t.ctx.xiq, f.opn = e.opn ∧ f.op = .store g off bs (left.filter (· != m)) ∧ f.rootNo.isSome = true) ∧
          (Settled s → r.places.Nodup → r.places.length = bs.length → HoldsCells t (r.places.zip bs)) ∧
          t.ctx.pend = u.ctx.pend ∧ t.ctx.x = u.ctx.x) ∧
      (∀ r, u.checkMember m g.swg off bs.length true = .error r →
        ∃ t, Machine.exec (.stmcMemberWrite c m) s = .next t ∧ SameStore s t ∧
          (∃ f ∈ t.ctx.xiq, f.opn = e.opn ∧ f.op = e.op ∧ f.refused = e.refused ++ [m] ∧
            f.fault = some (0, 43, BitVec.ofNat 64 off)) ∧
          (e.fault = none → Posts u t causeEngine) ∧ (e.fault ≠ none → t.ctx.pend = u.ctx.pend))) ∧
    (NoRecords s → FirstIn u.ctx.xiq AllApplied e → ∃ t, Machine.exec (.stmcAcknowledged c) s = .next t ∧ t.foc = c ∧
      t.ctx.xiq = u.ctx.xiq.filter (fun f => f.opn != e.opn) ∧ (s.flight = [] → SameStore s t) ∧ t.ctx.x = u.ctx.x ∧
      ∀ w ∈ t.flight, (∃ p ∈ w.cells, p.1 ∈ e.cast) → c.die ∈ w.seen)

/-- R335 (log 40): the oldest reducing load of a context, once what it joins is over, reads one more member, or stops
with what its check finds; with every member read it writes the reduction of what they read, in the order it has, to xd. -/
def ReducingLoadReturns : Prop :=
  ∀ (s : State) (c : CtxId) (e : XiEntry) (g : GroupEntry) (off : Nat) (ord : Bool) (op : RedOp2) (dbl : Bool) (xd : XReg)
    (got : List (Nat × Nat)), c.ok = true →
    let u := s.focusOn c
    let left := (u.membersOf g.swg).filter fun m => (got.lookup m).isNone
    let n := if dbl then 8 else 4
    let f := if dbl then fmt64 else fmt32
    FirstIn u.ctx.xiq OwnAccess e → e.op = .reduce g off ord op dbl xd got → e.fault = none → u.joined c e.after = true →
    (left = [] → NoRecords s →
      ∃ t, Machine.exec (.ldrdReturn c) s = .next t ∧ t.foc = c ∧ SameStore s t ∧
        let r := reduceCodes f f (redNumber op) ord u.fresh (got.map Prod.snd)
        (∀ k, t.getX k = if k = xd ∧ k ≠ 0 then BitVec.ofNat 64 r.1 else u.getX k) ∧
        t.ctx.cstat = orCstat u.ctx.cstat r.2.bits ∧ t.ctx.xiq = u.ctx.xiq.filter (fun x => x.opn != e.opn)) ∧
    (left ≠ [] → s.poison = [] → s.linksClear = true → s.flight = [] →
      (∀ m ∈ left, m < 16) →
      (∀ m ∈ left, ∃ r, u.checkMember m g.swg off n false = .ok r ∧ u.ctx.clearBefore e.seq r.places.contains (fun _ => false) = true) →
      ∃ t m r, Machine.exec (.ldrdReturn c) s = .next t ∧ m ∈ left ∧ u.checkMember m g.swg off n false = .ok r ∧
        (∃ x ∈ t.ctx.xiq, x.opn = e.opn ∧
          x.op = .reduce g off ord op dbl xd (got ++ [(m, byteSum (fun k => (r.places.map (u.seenByte m)).getD k 0) r.places.length)])) ∧
        SameStore s t ∧ t.ctx.x = u.ctx.x)

/-- R317, R318 (log 41): a discarded flit counts one resend of its port, a lane pauses or goes on, and nothing else
changes; a path fails after 64 resends within 1 ms, stays failed, and a copy operation at work that needs it stops with
reason 41. -/
def LinksRetryPauseAndFail : Prop :=
  ∀ (s : State) (d port : Nat) (lane : Fin 4), d < 16 → port < 18 →
    let x := s.dieAt d
    let n (t : State) : List Nat := ((t.dieAt d).resends.lookup port).getD []
    let paused (t : State) (k : Nat × Nat) : Prop := k ∈ (t.dieAt d).paused
    (∃ t, Machine.exec (.flitRetry d port) s = .next t ∧ t = s.setDieAt d { x with resends := (t.dieAt d).resends } ∧
      n t = s.cycle :: (n s).take 63 ∧ ∀ p, p ≠ port → (t.dieAt d).resends.lookup p = x.resends.lookup p) ∧
    (∃ t, Machine.exec (.lanePause d port lane) s = .next t ∧ t = s.setDieAt d { x with paused := (t.dieAt d).paused } ∧
      (paused t (port, lane.val) ↔ ¬paused s (port, lane.val)) ∧
      ∀ k, k ≠ (port, lane.val) → (paused t k ↔ paused s k)) ∧
    ((recentResends s d port).length < 64 → Machine.exec (.fabricPathFailed d port) s = .next s) ∧
    (64 ≤ (recentResends s d port).length → NoRecords s →
      ∃ t, Machine.exec (.fabricPathFailed d port) s = .next t ∧ n t = [] ∧ SameStore s t ∧
      (∀ p, p ∈ (t.dieAt d).lost ↔ p = port ∨ p ∈ x.lost) ∧
      ∀ (q : Fin 4) (o : CopyOp) (rest : List CopyOp),
        s.cores = [] → s.foc.die = d → s.core.cq[q] = o :: rest →
        (∀ k : Fin 4, k ≠ q → s.core.cq[k] = []) → o.state = .running → o.who = s.foc →
        (∃ k ∈ s.copyLinks o, OverPort d port k) →
        ∃ o' ∈ (t.coreAt s.foc.coreId).cq[q], o'.opn = o.opn ∧ o'.state = .faulted ∧ o'.reason = 41)

/-- R319 (log 64): a switch group of two or more members, all different, some of them beyond the quarter, is installed in
place of one of its number: each member's collective engine has its view, with its rank, and no other die one. -/
def SwitchGroupIsInstalled : Prop :=
  ∀ (s : State) (g : SwitchGroup), (∀ m ∈ g.members, m < 8208) → s.npkg ≤ 8 → g.swg < 4096 → 2 ≤ g.members.length →
    g.members.length ≤ 8192 → g.members.Nodup →
    ∃ t, Machine.exec (.switchGroupInstall g) s = .next t ∧ t.membersOf g.swg = g.members ∧
      (∀ k, k ≠ g.swg → t.membersOf k = s.membersOf k) ∧
      (∀ r, ∀ h : r < g.members.length, g.members[r] < 2 * s.npkg →
        t.viewOf (g.members[r]) g.swg = some ⟨g.swg, g.members.length, r, g.root⟩) ∧
      (∀ d, d < 2 * s.npkg → d ∉ g.members → t.viewOf d g.swg = none) ∧
      (∀ d k, k ≠ g.swg → t.viewOf d k = s.viewOf d k) ∧
      (∀ c, t.ctxAt c = s.ctxAt c) ∧ (∀ p, t.coreAt p = s.coreAt p) ∧ SameStore s t

/-- R317, R318: a unit of a copy operation that needs a path that has failed stops its operation with reason 41; one whose
lane a receiver has paused waits. -/
def UnitsNeedTheirLinks : Prop :=
  ∀ (s : State) (p : CoreId) (q : Fin 4) (o : CopyOp) (rest : List CopyOp), CopyRuns s p q o rest →
    let e := AtEntry s p o.who
    let u := { e with core := { e.core with cqTurn := q.val + 1 } }
    e.copyTurn = some q → e.linksClear = false →
    ((∃ k ∈ u.copyLinks o, u.linkFailed k = true) →
      ∃ t, Machine.exec (.copyUnitDelivery p q) s = .next t ∧ StoppedWith t q o ⟨0, 0, 41⟩ o.bytes) ∧
    ((∀ k ∈ u.copyLinks o, u.linkFailed k = false) → (∃ k ∈ u.copyLinks o, u.linkOpen k = false) →
      Machine.exec (.copyUnitDelivery p q) s = .next u)

/-- R339, R341, R342, R344 (log 43): the dispatcher takes the next record and gives its launch a handle. One that passes
CHECK is queued with its arrival stamp, and its handle goes to xd or the host; one that does not raises LAUNCH-ERROR
with its reason at the slot of its `launch`, or retires with status 1. -/
def LaunchRecordIsChecked : Prop :=
  ∀ (s : State) (d asn root k : Nat) (a : Arrival), d < 16 → asn < 256 → s.nextArrival d = some (k, a) →
    let u := recordTaken s d k
    let b := u.baleImage d asn root (recBale a.record)
    let parent := a.issuer.bind fun i => (s.ctxAt i.1).task.bind fun t => s.launchOf t.launch
    let depth : Nat := match parent with
      | some p => p.depth + 1
      | none => 0
    let refusal := u.refusalOf a.record b a.issuer.isNone depth
    let e := Machine.exec (.launchRecordArrival d asn root) s
    (refusal = none → a.issuer = none → ∃ t l, e = .next t ∧ t.launches = s.launches ++ [l] ∧
      l.handle = nextHandle s d ∧ l.home = d ∧ l.record = a.record ∧ l.state = .queued ∧ l.prio = recPrio a.record ∧
      l.arrival = (s.dtimeOf (s.dieAt d)).toNat ∧ l.holds = [] ∧ l.tasks = [] ∧ l.fromHost = true ∧
      (∀ h : a.queue < 32, (t.dieAt d).lq[a.queue] = (s.dieAt d).lq[a.queue] ++ [nextHandle s d]) ∧
      (t.dieAt d).serial = ((s.dieAt d).serial + 1) % 2 ^ 32) ∧
    (∀ c w xd xa, refusal = none → a.issuer = some (c, w) → AtSlot (s.focusOn c) (.launch xd xa) →
      ∃ t l, t.launches = s.launches ++ [l] ∧ l.handle = nextHandle s d ∧ l.record = a.record ∧ l.state = .queued ∧
        l.parent = parent.map Launch.handle ∧ (∀ p, parent = some p → l.prio = min (recPrio a.record) p.prio) ∧
        SameRegisters (s.focusOn c) t ∧ t.foc = c ∧
        e = .next (t.setX xd (BitVec.ofNat 64 (nextHandle s d))).commitSlot) ∧
    (∀ c w r, refusal = some r → a.issuer = some (c, w) →
      e = .next ((u.focusOn c).stop causeLaunch 0 (BitVec.ofNat 64 r))) ∧
    (∀ r, refusal = some r → a.issuer = none → s.launchOf (nextHandle s d) = none → ∃ t l, e = .next t ∧
      t.launchOf (nextHandle s d) = some l ∧ l.state = .retired ∧ l.status = 1 ∧ l.cause = r)

/-- R343: a queued launch below priority 7 that has waited one more aging interval rises by one; nothing else changes. -/
def PriorityAges : Prop :=
  ∀ (s : State) (h : Nat) (l : Launch), s.launchOf h = some l → l.state = .queued → l.prio < 7 →
    let x := s.dieAt l.home
    let waited : Int := (((s.dtimeOf x).toNat : Int) - l.arrival) % 2 ^ 64
    let enough : Nat := (l.aged + 1) * x.gage * 65536000
    ((enough : Int) ≤ waited →
      ∃ t, Machine.exec (.agingInterval h) s = .next t ∧ t.launchOf h = some { l with prio := l.prio + 1, aged := l.aged + 1 } ∧
        t = { s with launches := t.launches } ∧ ∀ k, k ≠ h → t.launchOf k = s.launchOf k) ∧
    (waited < (enough : Int) → Machine.exec (.agingInterval h) s = .next s)

/-- R345, R347, R404 (logs 44 and 58): in its turn a die on which nothing goes before a launch, which it fits and whose
STEP the pool covers, holds the contexts chosen for it, and the pool gives STEP, for a pinned launch not yet; a die that
refuses makes the launch give up its holds. -/
def DiesHoldOrRefuse : Prop :=
  ∀ (s : State) (h d : Nat) (spots : List CtxId) (l : Launch), d < 16 → s.launchOf h = some l → l.state = .queued →
    HoldTurn s l d →
    let e := Machine.exec (.holdRequest h d spots) s
    (¬Ahead s l d → s.fits [] l d = true → s.coversStep l d = true → s.spotsOk l d spots = true →
      ∃ t, e = .next t ∧ t.launchOf h = some { l with holds := l.holds ++ [(d, spots)] } ∧
        (t.pkgOf d).pool = (s.pkgOf d).pool - (if recPin l.record then 0 else mwUnits l.step) ∧
        (∀ c, t.ctxAt c = s.ctxAt c) ∧ (∀ p, t.coreAt p = s.coreAt p) ∧ SameStore s t ∧
        ∀ k, k ≠ h → t.launchOf k = s.launchOf k) ∧
    ((Ahead s l d ∨ s.fits [] l d = false ∨ s.coversStep l d = false) →
      ∃ t l', e = .next t ∧ t.launchOf h = some l' ∧ l'.holds = [] ∧ l'.state = .queued ∧ SameStore s t ∧
        ∀ c, (t.ctxAt c).x = (s.ctxAt c).x ∧ (t.ctxAt c).status = (s.ctxAt c).status)

/-- R346, R36, R338, R404 (logs 44 and 58): a queued launch with holds on each of its dies and nothing ahead of it is
running: its tasks start in the contexts held, in the order stage, cluster, core, context, and its holds and its place in
the queue are gone. A pinned one waits while a pool does not cover its STEP. -/
def LaunchIsPlaced : Prop :=
  ∀ (s : State) (h : Nat) (p : Placement) (l : Launch), s.launchOf h = some l → l.state = .queued →
    (∀ d ∈ s.launchDies l, ∃ e ∈ l.holds, e.1 = d) → (∀ d ∈ s.launchDies l, ¬Ahead s l d) →
    (∀ e ∈ l.holds, recPin l.record = true → s.coversStep l e.1 = false → Machine.exec (.launchPlacement h p) s = .next s) ∧
    (recPin l.record = false → (l.holds.flatMap Prod.snd).Nodup →
    ∃ t l', Machine.exec (.launchPlacement h p) s = .next t ∧ t.launchOf h = some l' ∧ l'.state = .running ∧ l'.holds = [] ∧
      l'.harea = p.harea ∧ l'.hcap = p.hcap ∧
      (∀ q : Fin 32, h ∉ (t.dieAt l.home).lq[q]) ∧
      ∀ di i e c, l.holds[di]? = some e → e.2[i]? = some c →
        let k := (t.ctxAt c).task
        (∃ u, k = some u ∧ StartsTask (t.ctxAt c) l u ∧ u.launch = h ∧ u.d = di ∧ u.harea = p.harea ∧
          (i : Nat) = ((u.stage * recK l.record + u.k) * recC l.record + u.c) * recT l.record + u.t ∧
          u.t < recT l.record ∧ u.c < recC l.record ∧ u.k < recK l.record ∧
          u.index = (((u.stage * recD l.record + di) * recK l.record + u.k) * recC l.record + u.c) * recT l.record + u.t ∧
          (u.index, .on c) ∈ l'.tasks))

/-- R347 (log 45): a pre-emption request that is not met at its deadline is withdrawn, and its launch spares the task;
one of which the task is being saved, or whose deadline is to come, stands. -/
def RequestLapses : Prop :=
  ∀ (s : State) (c : CtxId) (h deadline : Nat) (k : Task), c.ok = true →
    let x := s.ctxAt c
    let e := Machine.exec (.preemptDeadline c) s
    x.preq = some (h, deadline) → x.task = some k →
    (deadline ≤ s.cycle → (∀ n, x.status ≠ .saving n) → ∃ t, e = .next t ∧ t.ctxAt c = { x with preq := none } ∧
      (∀ b, b ≠ c → t.ctxAt b = s.ctxAt b) ∧ SameStore s t ∧
      ∀ l, s.launchOf h = some l → t.launchOf h = some { l with spared := l.spared ++ [(k.launch, k.index)] }) ∧
    (s.cycle < deadline → e = .next s) ∧ (∀ n, x.status = .saving n → e = .next s)

/-- R348, R349, R75 (log 45): a drained pre-empted task is saved with the registers that its live-range entry names, its
pc and its cstat, and its context is free; a faulted entry keeps it on its core. A saved task is restored in a
context that may take it with what was saved, and then is ready there (R354). -/
def TaskIsSavedAndResumed : Prop :=
  (∀ (s : State) (c : CtxId) (n : Nat) (l : Launch) (k : Task) (e : LiveEntry), c.ok = true →
    let u := s.focusOn c
    u.ctx.status = .saving n → u.myLaunch = some l → u.ctx.task = some k → u.entryAt n = some e →
    (u.heldByFault = true →
      Machine.exec (.contextSave c) s = .next { u with ctx := { u.ctx with status := .ready } }) ∧
    (u.heldByFault = false → u.quiet = true → NoRecords s → ∃ t v, Machine.exec (.contextSave c) s = .next t ∧
      t.launchOf l.handle = some { l with
        saved := l.saved ++ [v], preempt := l.preempt + 1
        tasks := l.tasks.map fun f => if f.1 = k.index then (f.1, .saved) else f } ∧
      v.index = k.index ∧ v.die = c.die ∧ v.ctx.pc = u.ctx.pc ∧ v.ctx.cstat = u.ctx.cstat ∧ v.ctx.task = some k ∧
      (∀ r : XReg, v.ctx.x[r] = if e.x.testBit r.val then u.ctx.x[r] else 0) ∧
      (∀ r : VReg, v.ctx.v[r] = if e.v.testBit r.val then u.ctx.v[r] else 0) ∧
      (t.ctxAt c).status = .free ∧ (t.ctxAt c).task = none ∧ SameStore s t)) ∧
  ∀ (s : State) (h i : Nat) (c : CtxId) (l : Launch) (v : SavedTask), c.ok = true → s.launchOf h = some l →
    FirstIn l.saved (fun v => v.index = i) v → s.mayResume l v c = true →
    (∃ t, Machine.exec (.taskResume h i c) s = .next t ∧
      t.launchOf h = some { l with
        saved := l.saved.filter fun f => f.index != i
        tasks := l.tasks.map fun f => if f.1 = i then (f.1, .on c) else f } ∧
      (t.ctxAt c).status = .restoring ∧ (t.ctxAt c).task = v.ctx.task ∧ (t.ctxAt c).pc = v.ctx.pc ∧
      (t.ctxAt c).x = v.ctx.x ∧ (t.ctxAt c).v = v.ctx.v ∧ (t.ctxAt c).sq = v.ctx.sq ∧
      ∀ b, (t.ctxAt c).cstat.getLsbD b =
        if b = 18 ∨ b = 19 then (c.ctx % 4).testBit (b - 18) else v.ctx.cstat.getLsbD b) ∧
    ∀ u : State, (u.ctxAt c).status = .restoring → (u.ctxAt c).isTask h i = true →
      Machine.exec (.taskResume h i c) u = .next (u.setCtxAt c { u.ctxAt c with status := .ready })

/-- R351, R340 (log 46): a launch whose every task is done retires with status 0, and its completion record goes to the
address that its record names where its home die may write there; it drains while a child that is not detached has not
retired. -/
def LaunchRetires : Prop :=
  ∀ (s : State) (h : Nat) (l : Launch), s.launchOf h = some l →
    ((l.state = .running ∧ ∀ e ∈ l.tasks, e.2 = .done) ∨ l.state = .draining) →
    let a := BitVec.ofNat 64 (recCrec l.record)
    (s.owesChild h = true → ∃ t, Machine.exec (.launchRetire h) s = .next t ∧ t = { s with launches := t.launches } ∧
      t.launchOf h = some { l with state := .draining }) ∧
    (s.owesChild h = false → ∃ t l', Machine.exec (.launchRetire h) s = .next t ∧ t.launchOf h = some l' ∧
      l'.state = .retired ∧ l'.status = 0 ∧ l'.cause = 0 ∧ l'.holds = [] ∧ l'.saved = [] ∧
      l'.tend = (s.dtimeOf (s.dieAt l.home)).toNat ∧
      (Settled s → NoRecords s → recSiga l.record = 0 →
        (recCrec l.record = 0 → SameStore s t) ∧
        ∀ r, recCrec l.record ≠ 0 → keyOk a = true → winOf (locOf a) = some .mapped →
          s.checkMapped l.home dispatcherOwner l.asn l.root ⟨true, false, false, false⟩ a 64 = .ok r → r.places.Nodup →
          HoldsCells t (r.places.zip l'.completion)))

/-- R361: a pinned task that waits for EPOCH is ready from EPOCH on, and the reserves of its launch are grants. -/
def PinnedTaskStarts : Prop :=
  ∀ (s : State) (c : CtxId) (k : Task), c.ok = true →
    let u := s.focusOn c
    u.ctx.status = .waiting .epoch → u.ctx.task = some k → NoRecords s →
    (u.beforeEpoch = true → Machine.exec (.pinnedTaskStart c) s = .next s) ∧
    (u.beforeEpoch = false → ∃ t, Machine.exec (.pinnedTaskStart c) s = .next t ∧ t.foc = c ∧ t.ctx.status = .ready ∧
      SameRegisters u t ∧ t.ctx.pc = u.ctx.pc ∧ SameStore s t ∧
      ∀ g ∈ t.die.grants, g.launch = some k.launch → g.expires ≠ none)

/-- R359, R360 (log 12): a message of the time protocol sets a die's rate, within 200 ppm, and whether it is the
grandmaster, and its time goes on from where it stands; the die learns its offset, and LOCK is set where that is within
12 ns. An offset beyond 12 ns clears LOCK and nothing of its time. The granger counts a millisecond while it runs (R393). -/
def TimeIsKept : Prop :=
  ∀ (s : State) (d : Nat) (m : PtpMsg), d < 16 →
    let x := s.dieAt d
    let off : Nat := (x.timeOff + x.slew * ((s.cycle - x.timeMark : Nat) * 655360 / 19 : Nat) / 1000000).natAbs
    (s.linksClear = true → ∃ t, Machine.exec (.ptpSyncMessage d m) s = .next t ∧ t = s.setDieAt d (t.dieAt d) ∧
      t.dtimeOf (t.dieAt d) = s.dtimeOf x ∧ -200 ≤ (t.dieAt d).slew ∧ (t.dieAt d).slew ≤ 200 ∧
      (-200 ≤ m.rate → m.rate ≤ 200 → (t.dieAt d).slew = m.rate) ∧ (t.dieAt d).offMag = (off + 65535) / 65536 ∧
      (t.dieAt d).grand = m.grand ∧ ((t.dieAt d).lock = true ↔ off ≤ 12 * 65536)) ∧
    (∃ t, Machine.exec (.lockLoss d) s = .next t ∧ t = s.setDieAt d { x with lock := false, offMag := (t.dieAt d).offMag } ∧
      12 < (t.dieAt d).offMag ∧ x.offMag ≤ (t.dieAt d).offMag) ∧
    (x.boot ≠ 0 → x.boot ≠ 255 → Machine.exec (.heartbeat d) s =
      .next (s.setDieAt d { x with heartbeat := (x.heartbeat + 1) % 2 ^ 64 })) ∧
    (x.boot = 0 ∨ x.boot = 255 → Machine.exec (.heartbeat d) s = .next s)

/-- R401 to R403, R405, R406 (log 23): a tick of 64 cycles that has ended gives each die's estimate from its charges and
its static and uncore power, takes from the pool what the rises above the live grants need after the fall allowance is
added, within its capacity, and lets work go on; grants 256 ticks old give back what they have left. -/
def TickEnds : Prop :=
  ∀ (s : State) (p d : Nat), p < 8 → d < 16 →
    let k := s.pkgAt p
    let cap := k.rate * k.burst * 250 * 194560
    (s.cycle < 64 * (k.tick + 1) → Machine.exec (.governorTick p) s = .next s) ∧
    (64 * (k.tick + 1) ≤ s.cycle → NoBallast s (2 * p) → NoBallast s (2 * p + 1) →
      ∃ t, Machine.exec (.governorTick p) s = .next t ∧ (t.pkgAt p).tick = k.tick + 1 ∧
        (t.pkgAt p).pool = min cap (k.pool + k.rate * 1638400 - (unpaidRise s (2 * p) + unpaidRise s (2 * p + 1))) ∧
        (∀ e, e = 2 * p ∨ e = 2 * p + 1 → (t.dieAt e).etick = 0 ∧ (t.dieAt e).pLast = tickPower s e ∧
          (t.dieAt e).throttled = false ∧ (t.dieAt e).balt = (s.dieAt e).balt ∧ (t.dieAt e).fmiss = (s.dieAt e).fmiss ∧
          (t.dieAt e).thrt = if (s.dieAt e).throttled then ((s.dieAt e).thrt + 1) % 65536 else (s.dieAt e).thrt) ∧
        (∀ e, e / 2 ≠ p → (t.dieAt e).pLast = (s.dieAt e).pLast) ∧
        ∀ c : CtxId, c.die / 2 = p → (t.ctxAt c).status ≠ .waiting .tick) ∧
    let k := s.pkgAt (d / 2)
    let old (g : Grant) : Bool := g.expires.any fun e => decide (e ≤ s.cycle)
    let gone := (s.dieAt d).grants.filter old
    (gone = [] → Machine.exec (.grantExpiry d) s = .next s) ∧
    (gone ≠ [] → ∃ t, Machine.exec (.grantExpiry d) s = .next t ∧
      (t.dieAt d).grants = (s.dieAt d).grants.filter (fun g => !old g) ∧
      (t.pkgAt (d / 2)).pool = min (k.rate * k.burst * 250 * 194560) (k.pool + (gone.map Grant.left).sum) ∧
      SameContexts s t)

/-- R423 (logs 48 and 50): in the last cycle of a core's sample interval a sample of its primary goes to the trace area
of its die, once; in another cycle nothing happens. R389, R390: the scrub counts a corrected word, and one that it
cannot correct, which it poisons. -/
def SamplesAndScrubs : Prop :=
  ∀ (s : State) (p : CoreId) (d place : Nat), p.ok = true → d < 16 →
    (s.sampleDue p = false → Machine.exec (.traceSample p) s = .next s) ∧
    (s.sampleDue p = true → ∃ t, Machine.exec (.traceSample p) s = .next t ∧ t.foc = s.foc ∧
      (t.coreAt p).sampleAt = s.cycle + 1 ∧ t.sampleDue p = false ∧
      (∀ c, (t.ctxAt c).x = (s.ctxAt c).x ∧ (t.ctxAt c).pc = (s.ctxAt c).pc) ∧
      (t.dieAt p.die).ottail = (s.dieAt p.die).ottail + if (s.dieAt p.die).otring.toNat % 2 ^ 16 = 0 then 0 else 1) ∧
    (placeDie place = some d →
      let word := place / 8 * 8
      (word ∉ s.poison → ∃ t, Machine.exec (.patrolScrub d place false) s = .next t ∧ t = s.setDieAt d (t.dieAt d) ∧
        CountsError (s.dieAt d).gecc (t.dieAt d).gecc 0 32 ∧ SameContexts s t) ∧
      ∀ dbl, dbl = true ∨ word ∈ s.poison → ∃ t, Machine.exec (.patrolScrub d place dbl) s = .next t ∧ word ∈ t.poison ∧
        (∀ w, w ≠ word → (w ∈ t.poison ↔ w ∈ s.poison)) ∧ CountsError (s.dieAt d).gecc (t.dieAt d).gecc 32 16 ∧
        t.mem = s.mem)

/-- R376, R380, R381, R383 (log 48): the granger resumes a trapped context at its record, delivers its trap to its
task's handler, or ends its launch with a cause; a context that is not trapped takes no command. -/
def GrangerCommandsContexts : Prop :=
  ∀ (s : State) (c : CtxId) (cause : Nat), c.ok = true →
    let u := s.focusOn c
    let r := u.ctx.trap
    let home (t : State) : State := t.focusOn s.foc
    (Trapped u → u.ctx.pend = [] → r.done.toNat % 16 ≠ 15 → ∃ t, Machine.exec (.gcmdResume c) s = .next (home t) ∧
      t.foc = c ∧ t.ctx.status = .ready ∧ t.ctx.inh = false ∧ t.ctx.pc = r.bundle ∧ t.ctx.ib = none ∧ SameRegisters u t ∧
      t.ctx.reissue = some (BitVec.ofNat 4 (r.done.toNat % 16),
        if r.next.getLsbD 0 then some (BitVec.ofNat 64 (r.next.toNat / 16 * 16)) else none)) ∧
    (Trapped u → u.ctx.tvec ≠ 0 → u.ctx.inh = false → ∃ t, Machine.exec (.gcmdForward c) s = .next (home t) ∧
      t.foc = c ∧ InHandler t ∧ t.ctx.fwd = true ∧ t.ctx.trap = r ∧ SameRegisters u t ∧ t.ctx.tvec = u.ctx.tvec) ∧
    (∀ l, Trapped u → u.myLaunch = some l → l.state ≠ .retired →
      ∃ t l', Machine.exec (.gcmdEnd c cause) s = .next t ∧ t.foc = s.foc ∧ t.launchOf l.handle = some l' ∧
        l'.state = .retired ∧ l'.status = 3 ∧ l'.cause = cause % 256) ∧
    (¬Trapped u → ∀ i ∈ [Instr.gcmdResume c, .gcmdForward c, .gcmdEnd c cause], ∃ t, Machine.exec i s = .next t ∧
      SameMachine s t)

/-- R87, R410, R414, R421 (log 47): an agent's write of `cview` takes the defined bits or, with GRAN above 4, raises
ACCESS in a bundle that runs; one of `ecnt` takes its low 48 bits at the end of the cycle, before the cycle's charges; one of `gramp` with RATE and BURST in their ranges
those of the package, whose pool stays within the new capacity; one of `otring` or `owring` its low 48 bits, with the
tail 0. -/
def RegistersAreWritten : Prop :=
  ∀ (s : State) (c : CtxId) (d p : Nat) (v : Word), c.ok = true → d < 16 → p < 8 →
    let u := s.focusOn c
    let n := v.toNat
    let rate := n % 2 ^ 9
    let burst := n / 2 ^ 16 % 2 ^ 10
    let k := s.pkgAt p
    let off (o : Nat → Prop) (t : State) : Prop := SameStore s t ∧ ∀ e, o e → t.dieAt e = s.dieAt e
    (n / 2 ^ 17 % 8 ≤ 4 → ∃ t, Machine.exec (.cviewWrite c v) s = .next t ∧
      t = { u with ctx := { u.ctx with cview := BitVec.ofNat 64 (n % 2 ^ 20) } }) ∧
    (4 < n / 2 ^ 17 % 8 → u.ctx.ib = none → Machine.exec (.cviewWrite c v) s = .next s) ∧
    (4 < n / 2 ^ 17 % 8 → u.ctx.ib ≠ none → Machine.exec (.cviewWrite c v) s = .next (u.stop causeAccess 0 0)) ∧
    (∃ t, Machine.exec (.ecntWrite c v) s = .next t ∧ t.ctxAt c = { s.ctxAt c with eput := some (n % 2 ^ 48) } ∧
      (t.ctxAt c).charged.ecnt = min (n % 2 ^ 48 + (s.ctxAt c).echg) (2 ^ 48 - 1) ∧
      (∀ b, b ≠ c → t.ctxAt b = s.ctxAt b) ∧ SameStore s t) ∧
    (16 ≤ rate → rate ≤ 480 → burst ≠ 0 → ∃ t, Machine.exec (.grampWrite p v) s = .next t ∧
      t.pkgAt p = { k with rate := rate, burst := burst, pool := min k.pool (rate * burst * 250 * 194560) } ∧
      (∀ q, q ≠ p → t.pkgAt q = s.pkgAt q) ∧ SameContexts s t) ∧
    (rate < 16 ∨ 480 < rate ∨ burst = 0 → ∃ t, Machine.exec (.grampWrite p v) s = .next t ∧ SameMachine s t) ∧
    (∃ t, Machine.exec (.otringWrite d v) s = .next t ∧
      t.dieAt d = { s.dieAt d with otring := BitVec.ofNat 64 (n % 2 ^ 48), ottail := 0 } ∧ off (fun e => e ≠ d) t) ∧
    ∃ t, Machine.exec (.owringWrite d v) s = .next t ∧
      t.dieAt d = { s.dieAt d with owring := BitVec.ofNat 64 (n % 2 ^ 48), owtail := 0 } ∧ off (fun e => e ≠ d) t

/-- R103, R264, R265, R277 (log 8): the next unread word of an outstanding load reads its bytes, those of the task's own
earlier stores before those of memory; with the last word the value reaches its register: a scalar one by its width and
sign, a vector with tag 0. A word poisoned since the load's checks is no data: the load ends, and its task takes
ECC-UNCORRECTABLE (R390, R391; log 18). -/
def LoadsReturn : Prop :=
  ∀ (s : State) (c : CtxId) (k j : Nat) (l : PendingLoad) (w : LoadWord), c.ok = true →
    let u := s.focusOn c
    let bs := w.places.map (loadedByte u l w)
    let done := (wordRead l j bs).words
    let all := done.flatMap (fun w => w.got.getD []) ++ List.replicate l.tail 0
    let value := byteSum (fun i => all.getD i 0) all.length
    (s.ctxAt c).unreadWords[k]? = some (l, j) → l.words[j]? = some w → (s.ctxAt c).mayRead l w.places = true → all ≠ [] →
    s.linksClear = true → (u.latePoison l w = true → ∃ t, Machine.exec (.loadReturn c k) s = .next t ∧ t.foc = c ∧
      t.ctx.loads = u.ctx.loads.filter (fun o => o.seq != l.seq) ∧ Posts u t causeEcc ∧ SameRegisters u t ∧
      SameStore s t) ∧
    (u.latePoison l w = false → ((∃ e ∈ done, e.got = none) → ∃ t, Machine.exec (.loadReturn c k) s = .next t ∧
      t = { u with ctx := { u.ctx with loads := u.ctx.loads.map fun o => if o.seq = l.seq then wordRead { o with words := l.words } j bs else o } }) ∧
    ((∀ e ∈ done, e.got ≠ none) → ∃ t, Machine.exec (.loadReturn c k) s = .next t ∧ t.foc = c ∧ SameStore s t ∧
      t.ctx.loads = u.ctx.loads.filter (fun o => o.seq != l.seq) ∧
      (∀ xd signed, l.dest = .scalar xd signed → t.ctx.v = u.ctx.v ∧
        ∀ r, t.getX r = if r = xd ∧ r ≠ 0 then loaded all.length signed value else u.getX r) ∧
      ∀ vt, l.dest = .vector vt → OnlyV u t vt (BitVec.ofNat 1024 value) 0 ∧ t.ctx.x = u.ctx.x))

/-- R265 to R268, R434 (logs 6 and 7): a store that nothing older of its task holds back is performed on its task's die:
its bytes are what memory holds at their home and what the die sees, and no other byte changes at its home; a write
becomes visible on a die where all that precedes it is, and nothing changes at home. -/
def WritesArePerformed : Prop :=
  ∀ (s : State) (c : CtxId) (k : Nat) (p : PendingStore) (id d : Nat) (f : Flight), c.ok = true → d < 16 →
    Mem.wf s.mem = true → s.linksClear = true →
    let x := s.ctxAt c
    (x.stores[k]? = some p → x.mayPerform p k = true → (∀ e ∈ p.cells, ∀ b ∈ p.cells, isHbm e.1 = isHbm b.1) →
      (p.cells.all (fun e => isHbm e.1) = true ∨ s.flight = []) →
      ∃ t, Machine.exec (.writePerformed (.perform c k)) s = .next t ∧ t.foc = s.foc ∧
        (t.ctxAt c).stores = x.stores.eraseIdx k ∧ (t.ctxAt c).x = x.x ∧ (t.ctxAt c).loads = x.loads ∧
        (∀ a b, lastCell p.cells a = some b → t.homeByte a = b ∧ t.seenByte c.die a = b) ∧
        ∀ a, lastCell p.cells a = none → t.homeByte a = s.homeByte a) ∧
    (FirstIn s.flight (fun e => e.id = id) f → s.mayReach f d = true →
      ∃ t, Machine.exec (.writePerformed (.reach id d)) s = .next t ∧ (∀ a, t.homeByte a = s.homeByte a) ∧
        (∀ a b pre post, s.flight = pre ++ f :: post → (∀ e ∈ post, e.id ≠ id ∧ (d ∈ e.seen → lastCell e.cells a = none)) →
          lastCell f.cells a = some b → t.seenByte d a = b) ∧ ∀ o, t.ctxAt o = s.ctxAt o)

/-- R258, R288, R298, R381 (log 42): once the granger has finished with a PAGE-FAULT, a copy operation's task takes its
ENGINE-FAULT, which says whether it was serviced; a serviced request of the Square may go on, and the task of one that
was not takes its fault; a context that a PAGE-FAULT has trapped resumes at the slots not done. -/
def ServicedFaultsGoOn : Prop :=
  ∀ (s : State) (f : Service), f.who.ok = true → f.stores = [] →
    let u := s.focusOn f.who
    (∀ (q : Fin 4) o, f.queue = q.val → FirstIn (u.myCopies q) (fun o => o.state = .faulted ∧ o.told = false) o →
      o.opn < 2 ^ 16 → o.reason < 2 ^ 8 → o.cause < 2 ^ 8 → o.slot < 4 →
      ∃ t g, Machine.exec (.faultServiced f) s = .next t ∧ t.foc = f.who ∧ t.ctx.pend = u.ctx.pend ++ [g] ∧
        g.cause = causeEngine ∧ g.addr = o.faddr ∧
        g.info.toNat = o.opn + o.reason * 2 ^ 24 + o.cause * 2 ^ 32 + f.serviced.toNat * 2 ^ 40 + q.val * 2 ^ 47 +
          o.slot * 2 ^ 50 ∧
        (∃ e ∈ t.core.cq[q], e.who = o.who ∧ e.opn = o.opn ∧ e.told = true ∧ e.state = .faulted) ∧ SameRegisters u t) ∧
    (∀ r a b, f.queue = 6 → FirstIn u.ctx.sq (fun r => ∃ a b, r.fault = some (a, b, false)) r → r.fault = some (a, b, false) →
      ∃ t, Machine.exec (.faultServiced f) s = .next t ∧ t.foc = f.who ∧ SameRegisters u t ∧
        (f.serviced = true → t.ctx.pend = u.ctx.pend ∧ ∀ e ∈ t.ctx.sq, e.opn = r.opn → e.fault = none) ∧
        (f.serviced = false → Posts u t causeEngine ∧ ∀ e ∈ t.ctx.sq, e.opn = r.opn → e.fault = some (a, b, true))) ∧
    (f.queue = 9 → Trapped u → u.ctx.trap.cause = BitVec.ofNat 64 causePageFault → u.ctx.pend = [] →
      u.ctx.trap.done.toNat % 16 ≠ 15 → f.serviced = true →
      ∃ t, Machine.exec (.faultServiced f) s = .next t ∧ t.foc = f.who ∧ t.ctx.status = .ready ∧ t.ctx.inh = false ∧
        t.ctx.pc = u.ctx.trap.bundle ∧ SameRegisters u t ∧ ∃ n, t.ctx.reissue = some (BitVec.ofNat 4 u.ctx.trap.done.toNat, n))

/-- R280 (log 24): a context that waits for its launch's harvest area goes on, with every other of the launch, once the
granger has made room for more held bytes; where it cannot, the launch ends as a LAUNCH-ERROR. -/
def HarvestAreaGrows : Prop :=
  ∀ (s : State) (c : CtxId) (n : Nat) (l : Launch), c.ok = true →
    let u := s.focusOn c
    u.ctx.status = .waiting .harvestArea → u.myLaunch = some l →
    (n ≠ 0 → ∃ t l', Machine.exec (.harvestAreaExtended c n) s = .next t ∧ t.launchOf l.handle = some l' ∧
      l'.hcap = l.hcap + n ∧ (t.ctxAt c).status = .ready ∧ (t.ctxAt c).x = u.ctx.x) ∧
    (n = 0 → l.state ≠ .retired → ∃ t l', Machine.exec (.harvestAreaExtended c n) s = .next t ∧
      t.launchOf l.handle = some l' ∧ l'.state = .retired ∧ l'.status = 3 ∧ l'.cause = causeLaunch)

/-- R394 (log 49): where the granger has no command and the response ring has room, it takes the command that CHEAD
points to, when the die performs it in its state of bring-up; one that Table 15-9 does not admit it answers at once with
STATUS 1. A `NOP` is answered with STATUS 0. A `LAUNCH` enters the queue that it names where there is room, and waits
otherwise. -/
def CommandsAreTaken : Prop :=
  ∀ (s : State) (d : Nat), d < 16 →
    let x := s.dieAt d
    let c : List Byte := (List.range 256).map fun k => s.seenByte d (2 ^ 72 + d * 2 ^ 20 + 2 ^ 16 + x.chead % 256 * 256 + k)
    let poll := Machine.exec (.commandRingPoll d) s
    (x.cmd = none → commandsWaiting x ≠ 0 → responsesWaiting x < 1024 →
      (Performs x.boot (cmdOpc c) → GoodCommand c → poll = .next (s.setDieAt d { x with cmd := some c })) ∧
      (Performs x.boot (cmdOpc c) → ¬GoodCommand c → ∃ t, poll = .next t ∧ Answered s t d c 1 0) ∧
      (¬Performs x.boot (cmdOpc c) → poll = .next s)) ∧
    (x.cmd ≠ none ∨ commandsWaiting x = 0 ∨ 1024 ≤ responsesWaiting x → poll = .next s) ∧
    ∀ c,
      (Taken s d c 0 → ∃ t, Machine.exec (.hostNop d) s = .next t ∧ Answered s t d c 0 0 ∧ t.launches = s.launches) ∧
      (Taken s d c 1 → (∀ a ∈ x.arrivals, a.issuer ≠ none) → s.queueRoom d (cmdArg c 0 % 32) = true →
        Machine.exec (.hostLaunch d) s = .next (s.setDieAt d { x with
          arrivals := x.arrivals ++ [⟨(c.drop 128).take 128, cmdArg c 0 % 32, none⟩] })) ∧
      (Taken s d c 1 → s.queueRoom d (cmdArg c 0 % 32) = false → Machine.exec (.hostLaunch d) s = .next s)

/-- R352, R395 (logs 22 and 49): `TEAR` of a valid handle of a host's launch retires it with status 2 and is answered
with STATUS 0, of any other handle with STATUS 2. `RESYNC`, with the other die's ring clear, writes the summary to host
memory and ends every handle of its package's launches; it answers with the summary's length, with STATUS 5 where it
does not fit and with 4 where it runs past the address space. -/
def HostTearsAndResynchronises : Prop :=
  ∀ (s : State) (d : Nat) (c : List Byte), d < 16 →
    let valid (l : Launch) : Prop := l.fromHost = true ∧ l.hostValid = true
    let bs := s.summary d
    let a := cmdArg c 0
    let e := Machine.exec (.hostResync d) s
    (∀ l, Taken s d c 2 → s.launchOf a = some l → valid l → l.state ≠ .retired →
      ∃ t l', Machine.exec (.hostTear d) s = .next t ∧ Passed s t d ∧ t.launchOf a = some l' ∧ l'.state = .retired ∧
        l'.status = 2 ∧ l'.cause = 0) ∧
    (Taken s d c 2 → (∀ l, s.launchOf a = some l → ¬valid l) → ∃ t, Machine.exec (.hostTear d) s = .next t ∧
      Answered s t d c 2 0 ∧ t.launches = s.launches) ∧
    (Taken s d c 3 → s.ringClear (if d % 2 = 0 then d + 1 else d - 1) = true → ∃ t, e = .next t ∧
      (bs.length ≤ cmdArg c 1 → a + bs.length ≤ 2 ^ 64 → Answered s t d c 0 bs.length ∧ (Settled s → HostHolds t a bs) ∧
        ∀ h l, s.launchOf h = some l → t.launchOf h =
          some (if l.home / 2 = d / 2 then { l with hostValid := false } else l)) ∧
      (cmdArg c 1 < bs.length → bs.length < 2 ^ 64 → Answered s t d c 5 bs.length) ∧
      (bs.length ≤ cmdArg c 1 → 2 ^ 64 < a + bs.length → Answered s t d c 4 0))

/-- R397 (logs 21 and 49): `FWSTAGE` puts an image that the package's ROM accepts into the bank that the die does not
run from, or leaves that bank invalid and answers with STATUS 3; `FWACT` makes that bank the active one and, when asked,
raises the least security version to that of the running firmware, or answers with STATUS 2 where the bank is not valid. -/
def FirmwareIsStagedAndActivated : Prop :=
  ∀ (s : State) (d : Nat) (c : List Byte), d < 16 →
    let p := s.pkgAt (d / 2)
    let x := s.dieAt d
    let k : Fin 2 := if x.bank = 0 then 1 else 0
    let a := cmdArg c 0
    let n := cmdArg c 1
    let f : List Byte := (List.range n).map fun k => s.seenByte d (2 ^ 64 + a + k)
    let st := Machine.exec (.hostFwstage d) s
    let act := Machine.exec (.hostFwact d) s
    (Taken s d c 4 → a + n ≤ 2 ^ 64 → ∃ t, st = .next t ∧ Answered s t d c (if p.accepts f then 0 else 3) 0 ∧
      t.pkgAt (d / 2) = { p with banks := p.banks.set k (if p.accepts f then
        ⟨f.take (512 + byteField f 12 4), true⟩ else { p.banks[k] with valid := false }) }) ∧
    (Taken s d c 4 → 2 ^ 64 < a + n → ∃ t, st = .next t ∧ Answered s t d c 4 0 ∧ t.pkgAt (d / 2) = p) ∧
    (Taken s d c 5 → p.banks[k].valid = true → ∃ t, act = .next t ∧ Answered s t d c 0 0 ∧
      t.pkgAt (d / 2) = { p with active := k.val, minSvn := if a % 2 = 1 then max p.minSvn x.svn else p.minSvn }) ∧
    (Taken s d c 5 → p.banks[k].valid = false → ∃ t, act = .next t ∧ Answered s t d c 2 0 ∧ t.pkgAt (d / 2) = p)

/-- R398 and Table 15-9 (log 21): `ATTEST` writes the report for the host's nonce, signed, and `CERT` the package's
certificate to host memory; they answer with the length, with STATUS 5 where it does not fit and with 4 past the address
space. -/
def DeviceAttests : Prop :=
  ∀ (s : State) (d : Nat) (c : List Byte), d < 16 →
    let a := cmdArg c 0
    let b := cmdArg c 1
    let report := s.report d ((List.range 48).map fun k => s.seenByte d (2 ^ 64 + a + k))
    let cert := Config.certificate (d / 2)
    let e := Machine.exec (.hostAttest d) s
    let f := Machine.exec (.hostCert d) s
    (Taken s d c 6 → cmdArg c 2 < 416 → ∃ t, e = .next t ∧ Answered s t d c 5 0) ∧
    (Taken s d c 6 → 416 ≤ cmdArg c 2 → (2 ^ 64 < a + 48 ∨ 2 ^ 64 < b + 416) → ∃ t, e = .next t ∧ Answered s t d c 4 0) ∧
    (Taken s d c 6 → 416 ≤ cmdArg c 2 → a + 48 ≤ 2 ^ 64 → b + 416 ≤ 2 ^ 64 → ∃ t, e = .next t ∧ Answered s t d c 0 416 ∧
      report.length = 320 ∧ (Settled s → HostHolds t b report)) ∧
    (Taken s d c 7 → ∃ t, f = .next t ∧
      (cmdArg c 1 < cert.length → cert.length < 2 ^ 64 → Answered s t d c 5 cert.length) ∧
      (cert.length ≤ cmdArg c 1 → a + cert.length ≤ 2 ^ 64 →
        Answered s t d c 0 cert.length ∧ (Settled s → HostHolds t a cert)) ∧
      (cert.length ≤ cmdArg c 1 → 2 ^ 64 < a + cert.length → Answered s t d c 4 0))

/-- R343, R347, R394, R399, R401, R414, R420, R421 (log 49): CONFIG sets the setting that its selector names to its value,
in the width of its register, and answers with STATUS 0; the cycles of the tick before keep the former uncore power; a RATE, BURST or PMAX out of its range is answered with STATUS 2.
Die 1 of a package leaves the package's bounds as they are. -/
def SettingsAreConfigured : Prop :=
  ∀ (s : State) (d : Nat) (c : List Byte), d < 16 → Taken s d c 8 →
    let n := cmdArg c 1
    let x := s.dieAt d
    let p := s.pkgAt (d / 2)
    let w (n : Nat) : Word := BitVec.ofNat 64 n
    let rate := n % 2 ^ 9
    let burst := n / 2 ^ 16 % 2 ^ 10
    let after (t : State) : Die := { t.dieAt d with chead := x.chead, rtail := x.rtail, cmd := x.cmd }
    (∀ e ∈ [(Instr.configGage d, 2, { x with gage := n }), (.configGdead d, 3, { x with gdead := n }),
        (.configGqdn d, 4, { x with gqdn := w (n % 2 ^ 5) }), (.configGuncore d, 18, { x with
          guncore := n % 2 ^ 20, uncAdj := x.uncAdj + (s.cycle - 64 * p.tick : Nat) * ((x.guncore : Int) - (n % 2 ^ 20 : Nat)) }),
        (.configOtring d, 32, { x with otring := w (n % 2 ^ 48), ottail := 0 }),
        (.configOwring d, 33, { x with owring := w (n % 2 ^ 48), owtail := 0 }),
        (.configOwmin d, 34, { x with owmin := n % 2 ^ 32 })],
      cmdArg c 0 = e.2.1 → ∃ t, Machine.exec e.1 s = .next t ∧ Answered s t d c 0 0 ∧ after t = e.2.2 ∧ t.pkgs = s.pkgs) ∧
    (∀ e ∈ [(Instr.configGramp d, 16, decide (16 ≤ rate ∧ rate ≤ 480 ∧ burst ≠ 0),
          { p with rate := rate, burst := burst, pool := min p.pool (rate * burst * 250 * 194560) }),
        (.configGpmax d, 17, decide (100 ≤ n % 2 ^ 12), { p with pmax := n % 2 ^ 12 })],
      cmdArg c 0 = e.2.1 → ∃ t, Machine.exec e.1 s = .next t ∧ after t = x ∧
        (d % 2 = 1 → Answered s t d c 0 0 ∧ t.pkgAt (d / 2) = p) ∧
        (d % 2 = 0 → e.2.2.1 = true → Answered s t d c 0 0 ∧ t.pkgAt (d / 2) = e.2.2.2) ∧
        (d % 2 = 0 → e.2.2.1 = false → Answered s t d c 2 0 ∧ t.pkgAt (d / 2) = p))

/-- R400 (log 49): a warm reset frees every context of its package, empties its engines, its dispatchers and its rings,
and drops the launches homed there; the settings, the time, the energy counters' weights, the fuses and the flash stay.
R399: power-on resets every register of the quarter; the fuses, the flash and memory outside the packages stay. -/
def ResetsLeave : Prop :=
  (∀ (s : State) (d : Nat) (c : List Byte), d < 16 → Taken s d c 9 →
    ∃ t, Machine.exec (.hostReset d) s = .next t ∧ t.cycle = s.cycle ∧
      (∀ k : CtxId, k.die / 2 = d / 2 → (t.ctxAt k).status = .free ∧ (t.ctxAt k).task = none ∧ (t.ctxAt k).loads = [] ∧
        (t.ctxAt k).stores = [] ∧ (t.ctxAt k).sq = [] ∧ (∀ r : XReg, (t.ctxAt k).x[r] = 0)) ∧
      (∀ p : CoreId, p.die / 2 = d / 2 → (t.coreAt p).mq = [] ∧ (t.coreAt p).ppq = [] ∧ ∀ q : Fin 4, (t.coreAt p).cq[q] = []) ∧
      (∀ e, e / 2 = d / 2 →
        (t.dieAt e).boot = 0 ∧ (t.dieAt e).cmd = none ∧ (t.dieAt e).chead = 0 ∧ (t.dieAt e).rtail = 0 ∧
        (t.dieAt e).arrivals = [] ∧ (∀ q : Fin 32, (t.dieAt e).lq[q] = []) ∧ (∀ q : Fin 8, (t.dieAt e).xq[q] = []) ∧
        (t.dieAt e).gage = (s.dieAt e).gage ∧ (t.dieAt e).gqdn = (s.dieAt e).gqdn ∧
        (t.dieAt e).timeOff = (s.dieAt e).timeOff ∧ (t.dieAt e).weights = (s.dieAt e).weights) ∧
      (∀ l ∈ t.launches, l.home / 2 ≠ d / 2) ∧
      (t.pkgAt (d / 2)).keys = (s.pkgAt (d / 2)).keys ∧ (t.pkgAt (d / 2)).banks = (s.pkgAt (d / 2)).banks) ∧
  ∀ s : State, ∃ t, Machine.exec .powerOnReset s = .next t ∧ t.cycle = 0 ∧ t.launches = [] ∧ t.flight = [] ∧
    (∀ k : CtxId, t.ctxAt k = freshCtx k) ∧ (∀ p, t.coreAt p = Core.init) ∧ (∀ d, t.dieAt d = Die.init) ∧
    (∀ p, t.pkgAt p = { Package.init with
      keys := (s.pkgAt p).keys, revoked := (s.pkgAt p).revoked, minSvn := (s.pkgAt p).minSvn
      banks := (s.pkgAt p).banks, active := (s.pkgAt p).active }) ∧ t.npkg = s.npkg ∧
    (Mem.wf s.mem = true → ∀ a, t.homeByte a = if 2 ^ 53 ≤ a ∧ a < 2 ^ 66 then Mem.get s.mem a else 0)

/-- R399 (log 49): a die's first stage verifies the firmware that its ROM boots and the rest follow one by one, the
sixth once it has its quarter die number and time is locked; a stage that fails leaves FAILED with its number. A die
takes its quarter die number during bring-up alone. -/
def DiesComeUp : Prop :=
  ∀ (s : State) (d : Nat) (ok : Bool) (n : Fin 16), d < 16 →
    let x := s.dieAt d
    let p := s.pkgAt (d / 2)
    let e := Machine.exec (.bootStageAdvance d ok) s
    let failed (k : Nat) : Prop := e = .next (s.setDieAt d { x with boot := 255, failcode := k })
    let good (k : Fin 2) : Prop := p.banks[k].valid = true ∧ p.accepts p.banks[k].image = true
    let other (k : Fin 2) : Fin 2 := if k = 0 then 1 else 0
    (∀ k : Fin 2, x.boot = 0 → ok = true → k.val = p.active →
      (¬good k ∧ ¬good (other k) ∧ failed 1) ∨
      ∃ t b, e = .next t ∧ good b ∧ (good k → b = k) ∧ t = s.setDieAt d { x with
        boot := 1, bank := b.val, version := byteField p.banks[b].image 4 4, svn := byteField p.banks[b].image 8 4
        digest := (t.dieAt d).digest }) ∧
    (x.boot = 0 → ok = false → failed 1) ∧
    (0 < x.boot → x.boot < 7 → ok = false → failed (x.boot + 1)) ∧
    (0 < x.boot → x.boot < 7 → ok = true → (x.boot = 5 → x.gqdn.getLsbD 4 = true ∧ x.lock = true) →
      e = .next (s.setDieAt d { x with boot := x.boot + 1 })) ∧
    (x.boot = 5 → ok = true → ¬(x.gqdn.getLsbD 4 = true ∧ x.lock = true) → e = .next s) ∧ (7 ≤ x.boot → e = .next s) ∧
    (x.boot < 7 → Machine.exec (.quarterDieNumberMessage d n) s =
      .next (s.setDieAt d { x with gqdn := BitVec.ofNat 64 (16 + n.val) })) ∧
    (7 ≤ x.boot → Machine.exec (.quarterDieNumberMessage d n) s = .next s)

/-- R21, R63, R355 (logs 11 and 15): the primary of a core opens the bundle whose sixteen bytes stand at pc, each word
in little-endian order: where the fetch is allowed, the bundle is legal and independent and the governor admits it, the
step is one of the state with these words in issue, the slots before its first one to run passed over. -/
def BundleAtPcIsOpened : Prop :=
  ∀ (s u : State) (p : CoreId) (r : Found) (ws : Vector SlotWord 4), Opens s u p → u.ctx.reissue = none →
    u.inCode = true → keyOk u.ctx.pc = true →
    u.checkMapped u.foc.die u.foc.core u.space.1 u.space.2 ⟨false, true, true, u.ctx.ctrl⟩ u.ctx.pc 16 = .ok r →
    (∀ a ∈ r.places, ¬ wordOf a ∈ u.poison) →
    (∀ k : Fin 4, ∀ j < 4, ws[k].toNat / 256 ^ j % 256 =
      (r.places[4 * k.val + j]?).elim 0 fun a => (u.seenByte u.foc.die a).toNat) →
    u.wholeFault ws 0 = none → u.stampOf ws = none → Admitted u 0 (u.bundleCost ws 0) →
    ∃ t : State, Machine.step s = Machine.step { t with going := true } ∧ t.foc = u.foc ∧ t.ctx.ib = some ws ∧
      t.ctx.pc = u.ctx.pc ∧ t.ctx.slot ≤ 4 ∧ (∀ j < 4, t.ctx.done.getLsbD j = decide (j < t.ctx.slot)) ∧
      (∀ j < t.ctx.slot, slotInstrD ws j = .nop ∨ slotQual (bundleHeader ws) j ≠ Qual.none) ∧
      (t.ctx.slot < 4 → slotInstrD ws t.ctx.slot ≠ .nop) ∧
      ((∀ j < 4, (slotQual (bundleHeader ws) j).zero = false) → SameRegisters u t)

/-- R22, R25, R69 (log 10): a slot that commits is done, and the bundle goes on behind it at its next slot to run; with
none left it is through, unless its boundary adds to a register whose result is on its way, and where no transfer, loop or
`eret` decides otherwise pc is the next bundle's. A slot that does not commit ends the turn. -/
def SlotsCommitInOrder : Prop :=
  ∀ (s : State) (ws : Vector SlotWord 4), s.going = true → s.ctx.ib = some ws → s.ctx.slot < 4 →
    let t := s.after
    (s.ctx.slotEnd ≠ .commit → t = { s with going := false }) ∧
    (s.ctx.slotEnd = .commit →
      (t.ctx.ib = some ws ∧ t.going = true ∧ t.ctx.pc = s.ctx.pc ∧ s.ctx.slot < t.ctx.slot ∧
        (t.ctx.slot < 4 ∨ (t.ctx.slot = 4 ∧ t.strideBusy = true)) ∧
        ∀ j, s.ctx.slot ≤ j → j < t.ctx.slot → t.ctx.done.getLsbD j = true) ∨
      (t.ctx.ib = none ∧ t.going = false ∧
        (∀ j, s.ctx.slot < j → j < 4 →
          slotInstrD ws j = .nop ∨ s.ctx.done.getLsbD j = true ∨ slotQual (bundleHeader ws) j ≠ Qual.none) ∧
        (Plain s → s.ctx.xfer = none → s.ctx.loopStart = none → (∀ k : Fin 6, s.ctx.lv[k].act = false) →
          t.ctx.pc = s.ctx.pc + 16)))

/-- R24, R27 (log 53): a fetched bundle with an undefined word, or two slots that write one register, raises
ILLEGAL-BUNDLE with those slots in its mask; a legal one in which a group writes a register that another slot of the
group reads raises GROUP-DEPENDENCE at its lowest conflicting slot. No slot of it commits, and no register changes. -/
def BundlesAreRefusedWhole : Prop :=
  ∀ (s : State) (ws : Vector SlotWord 4) (held : List TlbEntry), s.asyncDue = false → s.fetch = .ok (ws, held) →
    s.ctx.reissue = none →
    let refused (cause : Word) (more : State → Prop) : Prop := ∃ t, s.openBundle = .shut t ∧ t.ctx.trap.cause = cause ∧
      t.ctx.trap.bundle = s.ctx.pc ∧ t.ctx.trap.done = 0 ∧ t.ctx.trap.addr = 0 ∧ SameRegisters s t ∧ more t
    (∀ k < 4, slotInstr ws k = none → refused 1 fun t => t.ctx.trap.info.getLsbD k = true) ∧
    (∀ j k r, j < k → k < 4 → BothWrite ws j k r →
      refused 1 fun t => t.ctx.trap.info.getLsbD j = true ∧ t.ctx.trap.info.getLsbD k = true) ∧
    (∀ j k r, j < k → k < 4 → illegalSlots ws 0 s.stamps = [] → Depends ws j k r →
      (∀ n, j ≤ n → n < k → wordStop (slotWord ws n) = false) →
      refused 2 fun t => t.ctx.trap.slot.toNat ≤ j ∧ t.ctx.trap.info = 0)

end Sys2Proof.Claims

open Sys2Proof Sys2Proof.Machine Sys2Proof.Claims

/-- Every scalar instruction writes its register or predicate as its rule says, and nothing else. -/
def Obligations.ScalarInstructionsWriteTheirResults : Prop :=
  Claims.ScalarResultIsWritten ∧
  Claims.ScalarBitsAreWritten ∧
  Claims.BitCountsAreWritten ∧
  Claims.PredicateIsWritten

/-- Multiplication and division give the results of R51, division with a free divider; func values 7 to 127 are
undefined. -/
def Obligations.ProductsAndQuotientsAreWritten : Prop :=
  Claims.ProductsAreWritten ∧ Claims.DivisionIsWritten

/-- Branches, jumps and calls run in every state, link, and go to their target at the end of their bundle; a target
off the grid raises MISALIGN. -/
def Obligations.TransfersAreTakenAfterTheirGroup : Prop :=
  Claims.TransferAwaitsItsGroup ∧ Claims.TransferIsTaken

/-- lpset and lpseti start a loop level after their bundle's group or raise LOOP-SHAPE; lpstr adds the lowest free
stride pair. -/
def Obligations.LoopsStart : Prop :=
  Claims.LoopStartAwaitsItsGroup ∧ Claims.LoopStarts ∧ Claims.StridePairIsStaged

/-- An iteration boundary adds the strides, counts, and goes back to START, or ends the level. -/
def Obligations.LoopsIterateAndEnd : Prop :=
  Claims.LoopIterates ∧ Claims.LoopEnds

/-- R70: on an active level `lpbrk` with a true predicate waits to go on after END at the end of its group,
where its level and every active level above it end, with no stride added; with a false one it does nothing; on an
inactive level it raises LOOP-SHAPE. -/
def Obligations.LoopBreaks : Prop :=
  ∀ (s : State) (n : Fin 6) (q : Fin 8) (neg : Bool),
    (s.ctx.lv[n].act = false → Machine.exec (.lpbrk n q neg) s = .next (s.stop causeLoopShape 0 0)) ∧
    (s.ctx.lv[n].act = true → ∃ t, Machine.exec (.lpbrk n q neg) s = .next t ∧
      (xor (s.getQ q) neg = false → t = s) ∧
      (xor (s.getQ q) neg = true →
        t = { s with ctx := { s.ctx with xfer := some ⟨s.ctx.lv[n].stop + 16, false, some n⟩ } } ∧
        (s.ctx.reissue.bind Prod.snd = none → s.ctx.eretPend = false → LevelsEnded s.ctx.lv n.val t.endBundle.ctx.lv ∧ (∀ r, t.endBundle.getX r = s.getX r) ∧
          ((s.ctx.lv[n].stop + 16).toNat % 16 = 0 → t.endBundle.ctx.pc = s.ctx.lv[n].stop + 16))))

/-- R71: `lprd` writes the current value of the field that sel selects; an inactive level, and a pair that does not exist,
read 0. -/
def Obligations.LoopFieldIsRead : Prop :=
  ∀ (s : State) (d : XReg) (n : Fin 6) (sel : Fin 8),
    let l := s.ctx.lv[n]
    let v : Word := if l.act = false then 0
      else if sel = 0 then BitVec.ofNat 64 l.rem else if sel = 1 then BitVec.ofNat 64 l.iter
      else if sel = 2 then l.start else if sel = 3 then l.stop
      else
        let p := l.pairs[sel.val % 4]'(Nat.mod_lt _ (by decide))
        if p.valid then p.stride else 0
    ∃ t, Machine.exec (.lprd d n sel) s = .next t ∧ WritesX s t d v

/-- R72 (log 13): `lpwr` on an active level makes its value pending and changes nothing else; a count above 2^32 - 1, a
pair that does not exist and an inactive level raise LOOP-SHAPE, an address that is no multiple of 16 MISALIGN. -/
def Obligations.LoopFieldIsPending : Prop :=
  ∀ (s : State) (n : Fin 6) (sel : Fin 8) (a : XReg), sel ≠ 1 →
    let l := s.ctx.lv[n]
    let v := s.getX a
    let j : Fin 4 := ⟨sel.val % 4, Nat.mod_lt _ (by decide)⟩
    let shape := l.act = false ∨ (sel = 0 ∧ 2 ^ 32 ≤ v.toNat) ∨ (4 ≤ sel ∧ l.pairs[j].valid = false)
    let align := (sel = 2 ∨ sel = 3) ∧ v.toNat % 16 ≠ 0
    (shape → Machine.exec (.lpwr n sel a) s = .next (s.stop causeLoopShape 0 0)) ∧
    (¬shape → align → Machine.exec (.lpwr n sel a) s = .next (s.stop causeMisalign 0 0)) ∧
    (¬shape → ¬align → ∃ t, Machine.exec (.lpwr n sel a) s = .next t ∧ OnlyLevel s t n ∧ SameBytes s t ∧
      t.ctx.lv[n].act = l.act ∧ t.ctx.lv[n].rem = l.rem ∧ t.ctx.lv[n].iter = l.iter ∧ t.ctx.lv[n].start = l.start ∧
      t.ctx.lv[n].stop = l.stop ∧
      t.ctx.lv[n].pendRem = (if sel = 0 then some v.toNat else l.pendRem) ∧
      t.ctx.lv[n].pendStart = (if sel = 2 then some v else l.pendStart) ∧
      t.ctx.lv[n].pendStop = (if sel = 3 then some v else l.pendStop) ∧
      ∀ k : Fin 4, t.ctx.lv[n].pairs[k] =
        if 4 ≤ sel ∧ k = j then { l.pairs[k] with pending := some v } else l.pairs[k])

/-- A slot that stops writes the trap record, and its cause goes to the task's handler, to the granger, or stops the
die. -/
def Obligations.TrapsAreRecordedAndTaken : Prop :=
  Claims.TrapRecordIsWritten ∧ Claims.TrapIsTaken ∧ Claims.GrangerTrapIsTaken

/-- R379 to R382, R386, Table 15-3: `trap` and `brk` stop at their own slot after committing it: its done bit is set, the detail
is the code and the address 0. Where they end their bundle its successor is decided first and written to tnext, and a trap of
the loop boundary is taken before theirs, which waits. A `brk` leaves the context trapped, a `trap` goes to the handler
where there is one. -/
def Obligations.SoftwareTrapIsTaken : Prop :=
  ∀ (s : State) (ws : Vector SlotWord 4) (code : Fin 1024), s.ctx.ib = some ws → s.ctx.slot < 4 → s.ctx.ctrl = false →
    let v := (s.endWait 0).doneSlot ws
    let through := 4 ≤ v.ctx.slot
    let u := if through then v.endBundle else v
    ∀ p ∈ [(Instr.trap code, 0x13), (Instr.brk code, 0x14)],
      (¬(through ∧ u.ctx.slotEnd = .trapped) →
        ∃ t, Machine.exec p.1 s = .next t ∧ t.ctx.trap.cause = BitVec.ofNat 64 p.2 ∧ t.ctx.trap.bundle = s.ctx.pc ∧
          t.ctx.trap.slot = BitVec.ofNat 64 s.ctx.slot ∧ t.ctx.trap.done.getLsbD s.ctx.slot = true ∧
          t.ctx.trap.info = BitVec.ofNat 64 code.val ∧ t.ctx.trap.addr = 0 ∧ SameRegisters u t ∧
          (through → t.ctx.trap.done = 15 ∧ t.ctx.trap.next = (u.ctx.pc &&& ~~~(15 : Word)) ||| 1) ∧
          (p.2 = 0x14 → t.ctx.status = .trapped) ∧
          (p.2 = 0x13 → t.ctx.tvec ≠ 0 → u.ctx.inh = false → InHandler t)) ∧
      (through → u.ctx.slotEnd = .trapped →
        Machine.exec p.1 s = .next (u.postFault s.foc ⟨p.2, 0, BitVec.ofNat 64 code.val⟩))

/-- eret resumes its context from the trap record or delivers a pending fault; what a task may not do raises PRIV. -/
def Obligations.EretResumesFromTheRecord : Prop :=
  Claims.EretAwaitsItsBundle ∧
  Claims.EretResumes ∧
  Claims.EretDeliversPending ∧
  Claims.PrivilegeIsRequired

/-- Scalar and parameter loads from the crib read their bytes; a broken alignment raises MISALIGN. -/
def Obligations.ScalarLoadsReadMemory : Prop :=
  Claims.CribLoadReadsBytes ∧
  Claims.ScalarLoadsComplete ∧
  Claims.MisalignedAccessStops ∧
  Claims.ParameterLoads

/-- A store is seen by its task's next access at its own bytes and no others, and in a harvest mode stays held back. -/
def Obligations.StoresAreSeen : Prop :=
  Claims.StoreIsSeenByItsTask ∧ Claims.HarvestHoldsStoresBack

/-- Vector loads and stores move their bytes, pattern loads the fields of their pattern. -/
def Obligations.VectorAccessesReadAndWriteMemory : Prop :=
  Claims.CribVectorLoadReadsBytes ∧ Claims.CribVectorStoreIsSeen ∧ Claims.PatternLoadsReadFields

/-- Vector operations on integers and on bits write each lane, zero above them, and the tag of Table 5-1. -/
def Obligations.IntegerAndMovedLanesAreWritten : Prop :=
  Claims.IntegerLanesAreWritten ∧ Claims.MovedLanesAreWritten

/-- Floating vector operations write each lane and the flags; an enabled flag traps and leaves the destination. -/
def Obligations.FloatLanesAreWrittenOrTrap : Prop :=
  Claims.FloatLanesAreWritten ∧ Claims.EnabledFlagTraps

/-- Comparisons, mask operations and moves of a single lane give the results of their rules. -/
def Obligations.MasksAndSingleLanesAreWritten : Prop :=
  Claims.ComparisonIsWritten ∧ Claims.MaskOperationsAreWritten ∧ Claims.LaneIsMovedToAndFromX

/-- Reductions and scans of integer and floating lanes give the results of R129. -/
def Obligations.ReductionsAndScansAreWritten : Prop :=
  Claims.ReductionsAreWritten ∧ Claims.FloatReductionsAreWritten

/-- Conversions and block quantisation write codes, scales and descriptors as their rules say. -/
def Obligations.ConversionsAreWritten : Prop :=
  Claims.CodesAreWritten ∧
  Claims.ScaleIsRaised ∧
  Claims.SubBlockIsQuantised ∧
  Claims.SubBlockIsDequantised

/-- Codebooks and the dither state change for the next group; vpk and vupk transpose bit planes. -/
def Obligations.CodebooksDitherAndPlanesAreWritten : Prop :=
  Claims.NextGroupSeesCodebookAndDither ∧ Claims.PlanesAreTransposed

/-- Matrix operations pass their checks and enter the matrix queue, wait for room, or stop. -/
def Obligations.MatrixOperationsAreQueued : Prop :=
  Claims.MatrixProductsAreQueued ∧ Claims.TileAccessesAreQueued

/-- A precision control word is seen by matrix operations from the third bundle on; mwait waits for its tiles. -/
def Obligations.PrecisionWordsAndMatrixWaits : Prop :=
  Claims.PrecisionWordIsSeenThreeBundlesLater ∧ Claims.MatrixWaitReturnsOrWaits

/-- rset, rget, rpush and rpop act on the core's rings as their rules say. -/
def Obligations.RingsAreConfiguredPushedAndPopped : Prop :=
  Claims.RingIsConfiguredAndRead ∧ Claims.RingIsPushedAndPopped

/-- Post-processing operations are checked and queued, its words configured, and Haar lanes written. -/
def Obligations.PostProcessingIsQueuedAndHaarLanesAreWritten : Prop :=
  Claims.PostProcessingIsQueued ∧ Claims.PostProcessingIsConfigured ∧ Claims.HaarLanesAreWritten

/-- A copy command is refused at issue or enters its queue with its operands and shape latched. -/
def Obligations.CopiesAreQueued : Prop :=
  Claims.CopiesAreQueued ∧ Claims.ShapeWordIsWritten

/-- qtst and qstat read a queue's progress; qcan and qrty resolve a faulted operation. -/
def Obligations.QueuesAreReadAndResolved : Prop :=
  Claims.QueueIsRead ∧ Claims.FaultedOperationIsResolved

/-- Square requests enter their queue between the ordering events they ask for; fences order what follows. -/
def Obligations.SquareRequestsAndFencesOrder : Prop :=
  Claims.SquareRequestsAreQueued ∧ Claims.FencesOrderWhatFollows

/-- Arrivals are made and awaited; waits on barriers and words return at once, or wait and return when what they wait
for has come. -/
def Obligations.SquareWaitsReturnOrWait : Prop :=
  Claims.ArrivalIsMadeAndAwaited ∧
  Claims.BarrierWaitReturnsOrWaits ∧
  Claims.WordWaitReturnsOrWaits ∧
  Claims.SquareWaitsEnd

/-- Collectives and fabric accesses pass their checks and are queued, or raise ENGINE-FAULT. -/
def Obligations.CollectivesAreQueued : Prop :=
  Claims.CollectivesAreQueued ∧ Claims.GroupEntryIsFilled ∧ Claims.FabricAccessesAreQueued

/-- Reads of coordinates, times, energy, the wait log and tags give their values; tagset sets the tags of its
granules. -/
def Obligations.TaskTimeEnergyAndTagsAreRead : Prop :=
  Claims.TaskTimeAndEnergyAreRead ∧ Claims.TagsAreSetAndRead

/-- sysrd and syswr read and write the special registers by number, at their privilege. -/
def Obligations.SystemRegistersAreReadAndWritten : Prop :=
  Claims.SystemRegisterIsRead ∧ Claims.SystemRegisterIsWritten

/-- Launch and time instructions act, or wait and return when what they wait for has come; the controller sets frames
and weights and drops translations. -/
def Obligations.LaunchesWaitsAndControllerActs : Prop :=
  Claims.LaunchesAndWaits ∧
  Claims.LaunchRecordIsChecked ∧
  Claims.LaunchTimeAndDrainWaitsEnd ∧
  Claims.ControllerActs

/-- The model's choice (log 3): which context, core and die are in focus says nothing about the machine. -/
def Obligations.FocusSaysNothing : Prop := ∀ (s : State) (c : CtxId), (s.focusOn c).foc = c ∧ SameMachine s (s.focusOn c)

/-- R12 (log 3): an operation of an agent that the quarter does not have stops the machine. -/
def Obligations.AbsentAgentsStop : Prop :=
  ∀ (i : Instr) (s : State), absentAgent i → Machine.exec i s = .fault .noSuchAgent

/-- A primary's turn passes on, a stamp ends its wait, and an asynchronous fault is delivered. -/
def Obligations.TurnsEndAndFaultsAreDelivered : Prop :=
  Claims.TurnEnds ∧ Claims.StampEndsItsWait ∧ Claims.AsyncFaultIsDelivered

/-- A divide waits for a divider; each wait ends when what it waits for has come. -/
def Obligations.WaitsEnd : Prop :=
  Claims.DivisionWaitsForADivider ∧
  Claims.DividerIsGivenBack ∧
  Claims.MatrixWaitsEnd ∧
  Claims.LaunchTimeAndDrainWaitsEnd ∧
  Claims.SquareWaitsEnd

/-- B tiles are staged, passes start and commit, and operations retire and pop their tiles. -/
def Obligations.MatrixOperationsRun : Prop :=
  Claims.BTileIsStaged ∧ Claims.PassStarts ∧ Claims.PassCommits ∧ Claims.OperationsRetire

/-- accz, accrd and accwr execute; a ring slot is reserved for an engine that waits for one. -/
def Obligations.TilesAndRingSlotsChange : Prop :=
  Claims.TilesAreZeroed ∧
  Claims.TileBlockIsRead ∧
  Claims.TileBlockIsWritten ∧
  Claims.RingSlotIsReserved

/-- Post-processing entries start, make their tiles, and leave their queue. -/
def Obligations.PostProcessingRuns : Prop :=
  Claims.PostProcessingStarts ∧ Claims.PostProcessingWorks

/-- Copy operations start, deliver their units, report to their barriers and complete. -/
def Obligations.CopyOperationsRun : Prop :=
  Claims.CopyStarts ∧ Claims.CopyDelivers ∧ Claims.CopyReports ∧ Claims.CopyCompletes

/-- The Square applies atomics, bins, arrivals, expectations and ordered batches to its words. -/
def Obligations.SquareApplies : Prop :=
  Claims.SquareApplies ∧ Claims.BarrierCounts ∧ Claims.OrderedBatchIsApplied

/-- A collective starts once its side passes its checks, and matches or stops on its headers. -/
def Obligations.CollectivesStartAndMatch : Prop :=
  Claims.CollectiveStarts ∧ Claims.HeadersAreMatched

/-- A matched collective delivers its units and completes, or ends with another member's cancellation. -/
def Obligations.CollectivesDeliverAndEnd : Prop :=
  Claims.CollectiveDelivers ∧ Claims.CollectiveEnds

/-- Multicast stores and reducing loads act on their members; links retry, pause and fail; switch groups are
installed. -/
def Obligations.FabricAccessesAndLinksAct : Prop :=
  Claims.MulticastStoreIsApplied ∧
  Claims.ReducingLoadReturns ∧
  Claims.LinksRetryPauseAndFail ∧
  Claims.UnitsNeedTheirLinks ∧
  Claims.SwitchGroupIsInstalled

/-- Launch records are checked and queued, priorities age, and dies hold or refuse their share. -/
def Obligations.LaunchRecordsAreCheckedAndHeld : Prop :=
  Claims.LaunchRecordIsChecked ∧ Claims.PriorityAges ∧ Claims.DiesHoldOrRefuse

/-- A held launch starts its tasks, a pinned task starts at EPOCH, and a launch with no task left retires. -/
def Obligations.LaunchesArePlacedAndRetire : Prop :=
  Claims.LaunchIsPlaced ∧ Claims.PinnedTaskStarts ∧ Claims.LaunchRetires

/-- A pre-emption request lapses at its deadline; a drained task is saved and resumed with its registers. -/
def Obligations.TasksArePreemptedAndResumed : Prop :=
  Claims.RequestLapses ∧ Claims.TaskIsSavedAndResumed

/-- Time follows the protocol's messages, the governor's ticks end, grants expire, samples and scrubs are recorded. -/
def Obligations.TimeAndPowerAreKept : Prop :=
  Claims.TimeIsKept ∧ Claims.TickEnds ∧ Claims.SamplesAndScrubs

/-- The granger resumes, forwards or ends a trapped context; agents write registers of contexts, dies and packages. -/
def Obligations.AgentsCommandContextsAndRegisters : Prop :=
  Claims.GrangerCommandsContexts ∧ Claims.RegistersAreWritten

/-- Outstanding loads return, stores are performed and become visible, serviced faults go on, harvest areas grow. -/
def Obligations.MemoryOperationsArePerformed : Prop :=
  Claims.LoadsReturn ∧ Claims.WritesArePerformed ∧ Claims.ServicedFaultsGoOn ∧ Claims.HarvestAreaGrows

/-- Host commands are taken, performed and answered with their STATUS. -/
def Obligations.HostCommandsAreAnswered : Prop :=
  Claims.CommandsAreTaken ∧
  Claims.HostTearsAndResynchronises ∧
  Claims.FirmwareIsStagedAndActivated ∧
  Claims.DeviceAttests

/-- CONFIG sets what its selector names; resets leave what the rules keep; dies come up stage by stage. -/
def Obligations.SettingsResetsAndBringUp : Prop :=
  Claims.SettingsAreConfigured ∧ Claims.ResetsLeave ∧ Claims.DiesComeUp

/-- R15, R36, Table 2-12, R399, Tables 15-1, 16-1, 16-2, 16-3, 17-1: the values that the spec gives for reset. -/
def Obligations.ResetValuesAreTheSpecs : Prop :=
  let s := State.reset
  s.cycle = 0 ∧ s.launches = [] ∧ s.die.tlb = [] ∧ s.die.serial = 0 ∧ (∀ c, s.dtimeOf (s.dieAt c) = 0) ∧
  (∀ c : CtxId,
    let x := s.ctxAt c
    (∀ n : Fin 64, x.x[n] = 0) ∧ (∀ n : Fin 8, x.q[n] = decide (n = 0)) ∧ (∀ n : Fin 32, x.v[n] = 0 ∧ x.vtag[n] = 0) ∧
    (∀ n : Fin 8, x.m[n] = if n = 0 then BitVec.allOnes 128 else 0) ∧ (∀ n : Fin 8, x.w[n] = 0) ∧ (∀ n : Fin 4, x.cb[n] = 0) ∧
    (∀ n : Fin 4, x.pk[n] = 0) ∧ (∀ n : Fin 8, x.ht[n] = 0) ∧ (∀ n : Fin 6, x.lv[n].act = false) ∧ x.tvec = 0 ∧ x.ecnt = 0) ∧
  ∀ d : Nat,
    let y := s.dieAt d
    y.gage = 10000 ∧ y.gdead = 2000 ∧ y.estat = 8000 ∧ y.guncore = 150000 ∧ y.owmin = 0 ∧ y.thrt = 0 ∧ y.balt = 0 ∧
    y.weights.toList = [16, 48, 16, 40, 96, 64, 128, 32, 64000, 6400, 4096, 131072, 256, 196608, 32, 32] ∧
    (s.pkgOf d).rate = 120 ∧ (s.pkgOf d).burst = 20 ∧ (s.pkgOf d).pmax = 2400

/-- The memory after reset has its canonical form (the model's: places rise, no 0 is listed; log 1). -/
def Obligations.ResetMemoryIsCanonical : Prop := State.reset.memOk = true

/-- Every step keeps the canonical form of the memory (the model's own; log 1), from every state that has it. -/
def Obligations.StepKeepsMemoryCanonical : Prop :=
  ∀ s t : State, s.memOk = true → Machine.step s = .next t → t.memOk = true

/-- R32, R33, R35, Tables 2-8 to 2-11: every well-formed instruction that has a word decodes from it with each of its
operands, extended by an H.imm where it carries an extension. -/
def Obligations.DecodeUndoesEncode : Prop :=
  ∀ (i : Instr) (w : Nat), i.wf → encode i = some w → w < 2 ^ 31 ∧ decode i.ext w = some i

/-- Tables 2-8 and 2-10: words made from the fields of their forms decode to their mnemonics; Example 2-1's words among
them; words beyond the map decode to nothing (R34). -/
def Obligations.WordsDecodeAsTheTablesSay : Prop :=
  decode none (formR 1 5 6 7 0) = some (.add 5 6 7) ∧ decode none 0x0228c380 = some (.add 5 6 7) ∧
  decode none 0x28409803 = some (.ld .d 8 4 ⟨3, none⟩) ∧ decode none 0x0c492001 = some (.addi 9 9 ⟨1, none⟩) ∧
  decode (some 9) (6 * 2 ^ 25 + 3 * 2 ^ 19 + 0x345) = some (.addi 3 0 ⟨0x345, some 9⟩) ∧
  decode none (formR 2 1 2 3 6) = some (.remu 1 2 3) ∧ decode none (formV 0x18 1 2 3 2 0 0) = some (.vadd .f32 .w1024 1 2 3) ∧
  decode none 0 = some .nop ∧ decode none 1 = none ∧ decode none (formR 1 5 6 7 15) = none ∧
  (∀ m ∈ [0x23, 0x30, 0x37, 0x3e], decode none (m * 2 ^ 25) = none)

/-- R36, R50, R58: x0 reads 0, q0 true and m0 all ones, in every state; a write of them is discarded, and a write of
another register is read back. -/
def Obligations.HardwiredRegistersKeepTheirValues : Prop :=
  ∀ s : State, s.getX 0 = 0 ∧ s.getQ 0 = true ∧ s.getM 0 = BitVec.allOnes 128 ∧
    (∀ v, s.setX 0 v = s) ∧ (∀ v, s.setQ 0 v = s) ∧ (∀ v, s.setM 0 v = s) ∧
    (∀ r v, r ≠ 0 → (s.setX r v).getX r = v) ∧ (∀ r v, r ≠ 0 → (s.setQ r v).getQ r = v) ∧
    (∀ r v, r ≠ 0 → (s.setM r v).getM r = v)

/-- The bundle at pc is read and opened, its slots commit in order, or it is refused whole. -/
def Obligations.BundlesIssueInOrder : Prop :=
  Claims.BundleAtPcIsOpened ∧ Claims.SlotsCommitInOrder ∧ Claims.BundlesAreRefusedWhole

/-- R21, R355 (log 15): a step at an open bundle runs the instruction that the word of its slot decodes to, through
`exec`, where the slot is not done or suppressed, no breakpoint stops it and no slot of its group is held at issue. Around
`exec` stand a pending ordered set that the group closes (Table 12-4), the record of the slot's wait at issue (R428), what
its group finds as it begins (R23), the unit that the slot takes in this cycle, and after a next state what `State.after`
does. -/
def Obligations.StepRunsTheDecodedInstruction : Prop :=
  ∀ (s : State) (ws : Vector SlotWord 4) (i : Instr), s.going = true → s.ctx.ib = some ws → s.ctx.slot < 4 →
    slotInstr ws s.ctx.slot = some i → s.idleSlot ws s.ctx.slot = false → s.breakAt s.ctx.slot = none →
    let last := groupEnd ws s.ctx.slot
    let u := s.closeForUse ws s.ctx.slot last
    trial Machine.exec ws last 4 u = .fits → ¬(last = 3 ∧ u.ctx.gstart = none ∧ u.strideBusy = true) →
    let v := u.slotWaited.startGroup
    Machine.step s =
      match Machine.exec i { v with
        ctx := { v.ctx with slotEnd := .commit }
        core := { v.core with used := v.core.used ++ [(s.ctx.slot, i, (slotInfo i).lanes)], out := true } } with
      | .next t => .next t.after
      | .fault f => .fault f
      | .refused r => .refused r
end

