-- ==== Sys2Proof/Laws/Guards.lean ====
section
/-! SUPPORT. When work goes on: over links that are clear, past the guards of an access, and past the governor. -/

namespace Sys2Proof.Machine

/-- Work goes on where no path has failed, no lane is paused and no flit is sent again (R317, R318). -/
theorem State.overLinks_clear {s : State} (h : s.linksClear = true) (links : Unit → List Link) (fail : Unit → State)
    (go : State → State) : s.overLinks links fail go = go s := by simp [State.overLinks, h]

/-- Work over links stops, waits, or goes on with every flit count of its links set anew. -/
theorem State.overLinks_cases (s : State) (links : Unit → List Link) (fail : Unit → State) (go : State → State) :
    s.overLinks links fail go = fail () ∨ s.overLinks links fail go = s ∨ s.overLinks links fail go = go s ∨
      s.overLinks links fail go = go ((links ()).foldl State.flitsThrough s) := by
  unfold State.overLinks
  split
  · exact .inr (.inr (.inl rfl))
  · simp only []
    split
    · exact .inl rfl
    · split
      · exact .inr (.inl rfl)
      · exact .inr (.inr (.inr rfl))

/-- An access that no ordering event holds back, whose checks find its places, and that neither its form nor a watch
stops, goes on (R82, R283, R426). -/
theorem guarded_goes {s : State} {a : Word} {chk : Except MemFault Found} {locs : List Nat} {wr : Bool}
    {fault : Found → Option State} {go : State → Found → Out} {r : Found} (h : s.accessReady wr = true) (hc : chk = .ok r)
    (hf : fault r = none) (hw : s.watched locs (!wr) wr = none) :
    guarded s a chk locs wr fault go = go ((s.holdTlb s.foc.die r.held).trimPoints) r := by
  subst hc; simp [guarded, h, hf, hw]

/-- An access that fails a check of R82 traps with what the check found. -/
theorem guarded_traps {s : State} {a : Word} {locs : List Nat} {wr : Bool} {fault : Found → Option State}
    {go : State → Found → Out} {e : MemFault} (h : s.accessReady wr = true) :
    guarded s a (.error e) locs wr fault go = .next (s.memTrap e wr) := by simp [guarded, h]

/-- Work that is not pinned is admitted in a tick with room for it, when nothing waits before it (R406). -/
theorem State.admitFree_goes {s : State} {w : WorkId} {cost : Nat} (h : s.die.throttled = false)
    (hb : s.behindOthers w = false) (hc : s.excessTwice cost = 0) : s.admitFree w cost = .go (s.admitted w) := by
  simp [State.admitFree, h, hb, hc]

/-- Pinned work goes on under the ceiling and is a violation above it (R408). -/
theorem State.admitWork_pinned {s : State} (h : pinOf s.ctx.cstat = true) (kind cost : Nat) :
    s.admitWork kind cost = if s.excessTwice cost = 0 then .go s else .ramp s.countViolation := by
  simp [State.admitWork, h]

end Sys2Proof.Machine
end

