-- ==== Sys2Proof/Laws/Memory.lean ====
section
/-! SUPPORT. What the operations on a memory do: a write is read back, another byte stays, and the canonical form is kept by
every one of them. -/

namespace Sys2Proof.Machine

/-- The bound below a memory may fall. -/
theorem Mem.wfFrom_mono {lo lo' : Option Nat} {m : List Host.Cell} (h : Mem.wfFrom lo m = true)
    (hb : ∀ q, (∀ p, lo = some p → p < q) → ∀ p, lo' = some p → p < q) : Mem.wfFrom lo' m = true := by
  cases m with
  | nil => rfl
  | cons c m =>
    obtain ⟨p, b⟩ := c
    simp only [Mem.wfFrom, Bool.and_eq_true, Option.all_eq_true, decide_eq_true_eq] at h ⊢
    exact ⟨⟨fun q hq => hb p (fun r hr => h.1.1 r hr) q hq, h.1.2⟩, h.2⟩

/-- A memory with a bound has its canonical form. -/
theorem Mem.wfFrom_none {lo : Option Nat} {m : List Host.Cell} (h : Mem.wfFrom lo m = true) : Mem.wf m = true :=
  Mem.wfFrom_mono h (by simp)

/-- Below the bound of a memory every byte reads 0. -/
theorem Mem.get_below {p a : Nat} {m : List Host.Cell} (h : Mem.wfFrom (some p) m = true) (ha : a ≤ p) : Mem.get m a = 0 := by
  cases m with
  | nil => rfl
  | cons c m =>
    obtain ⟨q, b⟩ := c
    simp only [Mem.wfFrom, Bool.and_eq_true, Option.all_eq_true, decide_eq_true_eq] at h
    have : p < q := h.1.1 p rfl
    simp [Mem.get, show a ≠ q by omega, show a < q by omega]

/-- A byte that was put is read back. -/
theorem Mem.get_set_same {lo : Option Nat} {m : List Host.Cell} (h : Mem.wfFrom lo m = true) (a : Nat) (v : Byte) :
    Mem.get (Mem.set m a v) a = v := by
  induction m generalizing lo with
  | nil => by_cases hv : v = 0#8 <;> simp [Mem.set, Mem.get, hv]
  | cons c m ih =>
    obtain ⟨p, b⟩ := c
    have h' := h
    simp only [Mem.wfFrom, Bool.and_eq_true] at h'
    by_cases e : a = p
    · subst e
      by_cases hv : v = 0#8
      · simp [Mem.set, hv, Mem.get_below h'.2 (Nat.le_refl a)]
      · simp [Mem.set, hv, Mem.get]
    · by_cases l : a < p
      · by_cases hv : v = 0#8 <;> simp [Mem.set, Mem.get, e, l, hv]
      · simp [Mem.set, Mem.get, e, l, ih h'.2]

/-- Another byte stays. -/
theorem Mem.get_set_other {lo : Option Nat} {m : List Host.Cell} (h : Mem.wfFrom lo m = true) {a e : Nat} (ne : e ≠ a)
    (v : Byte) : Mem.get (Mem.set m a v) e = Mem.get m e := by
  induction m generalizing lo with
  | nil => by_cases hv : v = 0#8 <;> simp [Mem.set, Mem.get, hv, ne]
  | cons c m ih =>
    obtain ⟨p, b⟩ := c
    have h' := h
    simp only [Mem.wfFrom, Bool.and_eq_true] at h'
    by_cases ep : a = p
    · subst ep
      by_cases hv : v = 0#8
      · simp only [Mem.set, BitVec.ofNat_eq_ofNat, hv, if_true, Mem.get, ne, if_false]
        by_cases l : e < a
        · simp [l, Mem.get_below h'.2 (Nat.le_of_lt l)]
        · simp [l]
      · simp [Mem.set, hv, Mem.get, ne]
    · by_cases l : a < p
      · by_cases hv : v = 0#8
        · simp [Mem.set, ep, l, hv]
        · by_cases l' : e < a
          · simp [Mem.set, Mem.get, ep, l, hv, ne, l', show e ≠ p by omega, show e < p by omega]
          · simp [Mem.set, Mem.get, ep, l, hv, ne, l']
      · simp [Mem.set, Mem.get, ep, l, ih h'.2]

/-- Putting a byte keeps the canonical form. -/
theorem Mem.set_wfFrom {lo : Option Nat} {m : List Host.Cell} (h : Mem.wfFrom lo m = true) {a : Nat} {v : Byte}
    (hl : ∀ p, lo = some p → p < a) : Mem.wfFrom lo (Mem.set m a v) = true := by
  induction m generalizing lo with
  | nil =>
    by_cases hv : v = 0#8
    · simp [Mem.set, hv, Mem.wfFrom]
    · simp only [Mem.set, BitVec.ofNat_eq_ofNat, hv, if_false, Mem.wfFrom, Bool.and_true, Bool.and_eq_true, Option.all_eq_true, decide_eq_true_eq]
      exact ⟨hl, by simpa using hv⟩
  | cons c m ih =>
    obtain ⟨p, b⟩ := c
    have h' := h
    simp only [Mem.wfFrom, Bool.and_eq_true, Option.all_eq_true, decide_eq_true_eq] at h'
    by_cases e : a = p
    · subst e
      by_cases hv : v = 0#8
      · simp only [Mem.set, BitVec.ofNat_eq_ofNat, hv, if_true]
        exact Mem.wfFrom_mono h'.2 (fun q hq r hr => Nat.lt_trans (hl r hr) (hq a rfl))
      · simp only [Mem.set, BitVec.ofNat_eq_ofNat, hv, if_true, if_false, Mem.wfFrom, Bool.and_eq_true, Option.all_eq_true, decide_eq_true_eq]
        exact ⟨⟨hl, by simpa using hv⟩, h'.2⟩
    · by_cases l : a < p
      · by_cases hv : v = 0#8
        · simpa [Mem.set, e, l, hv] using h
        · simp only [Mem.set, BitVec.ofNat_eq_ofNat, e, l, hv, if_true, if_false, Mem.wfFrom, Bool.and_eq_true, Option.all_eq_true,
            decide_eq_true_eq]
          exact ⟨⟨hl, by simpa using hv⟩, ⟨by intro q hq; cases hq; exact l, h'.1.2⟩, h'.2⟩
      · simp only [Mem.set, BitVec.ofNat_eq_ofNat, e, l, if_false, Mem.wfFrom, Bool.and_eq_true, Option.all_eq_true, decide_eq_true_eq]
        exact ⟨h'.1, ih h'.2 (by intro q hq; cases hq; omega)⟩

/-- Putting a byte keeps the canonical form. -/
theorem Mem.set_wf {m : List Host.Cell} (h : Mem.wf m = true) (a : Nat) (v : Byte) : Mem.wf (Mem.set m a v) = true :=
  Mem.set_wfFrom h (by simp)

/-- Putting bytes keeps the canonical form. -/
theorem Mem.setAll_wf {m : List Host.Cell} (h : Mem.wf m = true) (cs : List Host.Cell) : Mem.wf (Mem.setAll m cs) = true := by
  induction cs generalizing m with
  | nil => exact h
  | cons c cs ih => exact ih (Mem.set_wf h c.1 c.2)

/-- A byte that no cell names stays. -/
theorem Mem.get_setAll_other {m : List Host.Cell} (h : Mem.wf m = true) (cs : List Host.Cell) {e : Nat}
    (hc : ∀ c ∈ cs, c.1 ≠ e) : Mem.get (Mem.setAll m cs) e = Mem.get m e := by
  induction cs generalizing m with
  | nil => rfl
  | cons c cs ih =>
    have hn : e ≠ c.1 := (hc c (by simp)).symm
    exact (ih (Mem.set_wf h c.1 c.2) fun d hd => hc d (by simp [hd])).trans (Mem.get_set_other h hn c.2)

/-- What the cells put at a place is the last of them for it. -/
theorem Mem.get_setAll {m : List Host.Cell} (h : Mem.wf m = true) (cs : List Host.Cell) (e : Nat) :
    Mem.get (Mem.setAll m cs) e = (lastCell cs e).getD (Mem.get m e) := by
  induction cs generalizing m with
  | nil => rfl
  | cons c cs ih =>
    have hs := ih (Mem.set_wf h c.1 c.2)
    have hl : lastCell (c :: cs) e = (lastCell cs e).or (if c.1 = e then some c.2 else none) := by
      simp only [lastCell, List.reverse_cons, List.find?_append]
      cases hf : List.find? (fun c => c.1 == e) cs.reverse with
      | some d => simp
      | none => by_cases he : c.1 = e <;> simp [he]
    rw [show Mem.setAll m (c :: cs) = Mem.setAll (Mem.set m c.1 c.2) cs from rfl, hs, hl]
    cases lastCell cs e with
    | some b => rfl
    | none =>
      by_cases he : c.1 = e
      · subst he; simp [Mem.get_set_same (lo := none) h]
      · simp [he, Mem.get_set_other (lo := none) h (Ne.symm he)]

/-- The canonical form, as it is said: the places rise and no byte is 0. -/
theorem Mem.wf_iff (m : List Host.Cell) : Mem.wf m = true ↔ (m.map Prod.fst).Pairwise (· < ·) ∧ ∀ c ∈ m, c.2 ≠ 0 := by
  suffices h : ∀ lo, Mem.wfFrom lo m = true ↔
      (∀ p, lo = some p → ∀ c ∈ m, p < c.1) ∧ (m.map Prod.fst).Pairwise (· < ·) ∧ ∀ c ∈ m, c.2 ≠ 0 by
    simpa [Mem.wf] using h none
  induction m with
  | nil => simp [Mem.wfFrom]
  | cons c m ih =>
    obtain ⟨p, b⟩ := c
    intro lo
    simp only [Mem.wfFrom, Bool.and_eq_true, Option.all_eq_true, decide_eq_true_eq, bne_iff_ne, ih (some p), List.map_cons,
      List.pairwise_cons, List.mem_cons, List.mem_map, forall_eq_or_imp, Option.some.injEq]
    constructor
    · rintro ⟨⟨h1, h2⟩, h3, h4, h5⟩
      exact ⟨fun q hq => ⟨h1 q hq, fun d hd => Nat.lt_trans (h1 q hq) (h3 p rfl d hd)⟩,
        ⟨by rintro _ ⟨d, hd, rfl⟩; exact h3 p rfl d hd, h4⟩, h2, h5⟩
    · rintro ⟨h1, ⟨h2, h3⟩, h4, h5⟩
      exact ⟨⟨fun q hq => (h1 q hq).1, h4⟩, by rintro q rfl d hd; exact h2 d.1 ⟨d, hd, rfl⟩, h3, h5⟩

/-- Leaving cells out keeps the canonical form. -/
theorem Mem.filter_wf {m : List Host.Cell} (h : Mem.wf m = true) (f : Host.Cell → Bool) : Mem.wf (m.filter f) = true := by
  rw [Mem.wf_iff] at h ⊢
  exact ⟨h.1.sublist ((List.filter_sublist (p := f)).map _), fun c hc => h.2 c (List.mem_filter.mp hc).1⟩

/-- Putting consecutive bytes keeps the canonical form. -/
theorem Mem.splice_wf {m : List Host.Cell} (h : Mem.wf m = true) (a : Nat) (bs : List Byte) :
    Mem.wf (Mem.splice m a bs) = true := by
  rw [Mem.wf_iff] at h ⊢
  have hcs : ∀ c ∈ ((List.range bs.length).zip bs).map (fun p => ((a + p.1, p.2) : Host.Cell)), a ≤ c.1 ∧ c.1 < a + bs.length := by
    intro c hc
    simp only [List.mem_map] at hc
    obtain ⟨p, hp, rfl⟩ := hc
    have := List.mem_range.mp (List.of_mem_zip hp).1
    exact ⟨by simp, by simpa using this⟩
  have hpw : ((((List.range bs.length).zip bs).map (fun p => ((a + p.1, p.2) : Host.Cell))).map Prod.fst).Pairwise (· < ·) := by
    have : (((List.range bs.length).zip bs).map (fun p => ((a + p.1, p.2) : Host.Cell))).map Prod.fst =
        (List.range bs.length).map (a + ·) := by
      rw [List.map_map]
      have : ((Prod.fst : Host.Cell → Nat) ∘ fun p : Nat × Byte => (a + p.1, p.2)) = (a + ·) ∘ Prod.fst := rfl
      rw [this, ← List.map_map, List.map_fst_zip (by simp)]
    rw [this, List.pairwise_map]
    exact List.pairwise_lt_range.imp (by intro x y hxy; omega)
  simp only [Mem.splice, List.map_append, List.pairwise_append, List.mem_append, List.mem_map, List.mem_filter]
  refine ⟨⟨⟨h.1.sublist ((List.filter_sublist).map _), hpw.sublist ((List.filter_sublist).map _), ?_⟩,
    h.1.sublist ((List.filter_sublist).map _), ?_⟩, ?_⟩
  · rintro _ ⟨c, ⟨_, hc⟩, rfl⟩ _ ⟨d, ⟨hd, _⟩, rfl⟩
    exact Nat.lt_of_lt_of_le (by simpa using hc) (hcs d (by simpa using hd)).1
  · rintro _ (⟨c, ⟨_, hc⟩, rfl⟩ | ⟨c, ⟨hc, _⟩, rfl⟩) _ ⟨d, ⟨_, hd⟩, rfl⟩
    · simp at hc hd; omega
    · have := (hcs c (by simpa using hc)).2
      simp at hd; omega
  · rintro c ((⟨hc, _⟩ | ⟨_, hc⟩) | ⟨hc, _⟩)
    · exact h.2 c hc
    · simpa using hc
    · exact h.2 c hc

end Sys2Proof.Machine
end

