-- ==== Sys2Proof/Laws/State.lean ====
section
/-! SUPPORT. What each update of the state leaves as it was, field by field, and what it is read back as. -/

namespace Sys2Proof.Machine

/-! The write of an x register. -/

@[simp] theorem State.setX_going (s : State) (n : XReg) (v : Word) : (s.setX n v).going = s.going := by unfold State.setX; split <;> rfl
@[simp] theorem State.setX_foc (s : State) (n : XReg) (v : Word) : (s.setX n v).foc = s.foc := by unfold State.setX; split <;> rfl
@[simp] theorem State.setX_core (s : State) (n : XReg) (v : Word) : (s.setX n v).core = s.core := by unfold State.setX; split <;> rfl
@[simp] theorem State.setX_die (s : State) (n : XReg) (v : Word) : (s.setX n v).die = s.die := by unfold State.setX; split <;> rfl
@[simp] theorem State.setX_ctxs (s : State) (n : XReg) (v : Word) : (s.setX n v).ctxs = s.ctxs := by unfold State.setX; split <;> rfl
@[simp] theorem State.setX_cores (s : State) (n : XReg) (v : Word) : (s.setX n v).cores = s.cores := by unfold State.setX; split <;> rfl
@[simp] theorem State.setX_dies (s : State) (n : XReg) (v : Word) : (s.setX n v).dies = s.dies := by unfold State.setX; split <;> rfl
@[simp] theorem State.setX_pkgs (s : State) (n : XReg) (v : Word) : (s.setX n v).pkgs = s.pkgs := by unfold State.setX; split <;> rfl
@[simp] theorem State.setX_npkg (s : State) (n : XReg) (v : Word) : (s.setX n v).npkg = s.npkg := by unfold State.setX; split <;> rfl
@[simp] theorem State.setX_launches (s : State) (n : XReg) (v : Word) : (s.setX n v).launches = s.launches := by unfold State.setX; split <;> rfl
@[simp] theorem State.setX_groups (s : State) (n : XReg) (v : Word) : (s.setX n v).groups = s.groups := by unfold State.setX; split <;> rfl
@[simp] theorem State.setX_mem (s : State) (n : XReg) (v : Word) : (s.setX n v).mem = s.mem := by unfold State.setX; split <;> rfl
@[simp] theorem State.setX_poison (s : State) (n : XReg) (v : Word) : (s.setX n v).poison = s.poison := by unfold State.setX; split <;> rfl
@[simp] theorem State.setX_hist (s : State) (n : XReg) (v : Word) : (s.setX n v).hist = s.hist := by unfold State.setX; split <;> rfl
@[simp] theorem State.setX_flight (s : State) (n : XReg) (v : Word) : (s.setX n v).flight = s.flight := by unfold State.setX; split <;> rfl
@[simp] theorem State.setX_cycle (s : State) (n : XReg) (v : Word) : (s.setX n v).cycle = s.cycle := by unfold State.setX; split <;> rfl
@[simp] theorem State.setX_fresh (s : State) (n : XReg) (v : Word) : (s.setX n v).fresh = s.fresh := by unfold State.setX; split <;> rfl
@[simp] theorem State.setX_agenda (s : State) (n : XReg) (v : Word) : (s.setX n v).agenda = s.agenda := by unfold State.setX; split <;> rfl
@[simp] theorem State.setX_ctx_q (s : State) (n : XReg) (v : Word) :
    (s.setX n v).ctx.q = s.ctx.q := by unfold State.setX; split <;> rfl
@[simp] theorem State.setX_ctx_v (s : State) (n : XReg) (v : Word) :
    (s.setX n v).ctx.v = s.ctx.v := by unfold State.setX; split <;> rfl
@[simp] theorem State.setX_ctx_vtag (s : State) (n : XReg) (v : Word) :
    (s.setX n v).ctx.vtag = s.ctx.vtag := by unfold State.setX; split <;> rfl
@[simp] theorem State.setX_ctx_m (s : State) (n : XReg) (v : Word) :
    (s.setX n v).ctx.m = s.ctx.m := by unfold State.setX; split <;> rfl
@[simp] theorem State.setX_ctx_w (s : State) (n : XReg) (v : Word) :
    (s.setX n v).ctx.w = s.ctx.w := by unfold State.setX; split <;> rfl
@[simp] theorem State.setX_ctx_cb (s : State) (n : XReg) (v : Word) :
    (s.setX n v).ctx.cb = s.ctx.cb := by unfold State.setX; split <;> rfl
@[simp] theorem State.setX_ctx_pk (s : State) (n : XReg) (v : Word) :
    (s.setX n v).ctx.pk = s.ctx.pk := by unfold State.setX; split <;> rfl
@[simp] theorem State.setX_ctx_sh (s : State) (n : XReg) (v : Word) :
    (s.setX n v).ctx.sh = s.ctx.sh := by unfold State.setX; split <;> rfl
@[simp] theorem State.setX_ctx_ht (s : State) (n : XReg) (v : Word) :
    (s.setX n v).ctx.ht = s.ctx.ht := by unfold State.setX; split <;> rfl
@[simp] theorem State.setX_ctx_pw (s : State) (n : XReg) (v : Word) :
    (s.setX n v).ctx.pw = s.ctx.pw := by unfold State.setX; split <;> rfl
@[simp] theorem State.setX_ctx_lv (s : State) (n : XReg) (v : Word) :
    (s.setX n v).ctx.lv = s.ctx.lv := by unfold State.setX; split <;> rfl
@[simp] theorem State.setX_ctx_cstat (s : State) (n : XReg) (v : Word) :
    (s.setX n v).ctx.cstat = s.ctx.cstat := by unfold State.setX; split <;> rfl
@[simp] theorem State.setX_ctx_cview (s : State) (n : XReg) (v : Word) :
    (s.setX n v).ctx.cview = s.ctx.cview := by unfold State.setX; split <;> rfl
@[simp] theorem State.setX_ctx_pp (s : State) (n : XReg) (v : Word) :
    (s.setX n v).ctx.pp = s.ctx.pp := by unfold State.setX; split <;> rfl
@[simp] theorem State.setX_ctx_phase (s : State) (n : XReg) (v : Word) :
    (s.setX n v).ctx.phase = s.ctx.phase := by unfold State.setX; split <;> rfl
@[simp] theorem State.setX_ctx_dstep (s : State) (n : XReg) (v : Word) :
    (s.setX n v).ctx.dstep = s.ctx.dstep := by unfold State.setX; split <;> rfl
@[simp] theorem State.setX_ctx_gstart (s : State) (n : XReg) (v : Word) :
    (s.setX n v).ctx.gstart = s.ctx.gstart := by unfold State.setX; split <;> rfl
@[simp] theorem State.setX_ctx_pc (s : State) (n : XReg) (v : Word) :
    (s.setX n v).ctx.pc = s.ctx.pc := by unfold State.setX; split <;> rfl
@[simp] theorem State.setX_ctx_tvec (s : State) (n : XReg) (v : Word) :
    (s.setX n v).ctx.tvec = s.ctx.tvec := by unfold State.setX; split <;> rfl
@[simp] theorem State.setX_ctx_tscr (s : State) (n : XReg) (v : Word) :
    (s.setX n v).ctx.tscr = s.ctx.tscr := by unfold State.setX; split <;> rfl
@[simp] theorem State.setX_ctx_trap (s : State) (n : XReg) (v : Word) :
    (s.setX n v).ctx.trap = s.ctx.trap := by unfold State.setX; split <;> rfl
@[simp] theorem State.setX_ctx_inh (s : State) (n : XReg) (v : Word) :
    (s.setX n v).ctx.inh = s.ctx.inh := by unfold State.setX; split <;> rfl
@[simp] theorem State.setX_ctx_fwd (s : State) (n : XReg) (v : Word) :
    (s.setX n v).ctx.fwd = s.ctx.fwd := by unfold State.setX; split <;> rfl
@[simp] theorem State.setX_ctx_pend (s : State) (n : XReg) (v : Word) :
    (s.setX n v).ctx.pend = s.ctx.pend := by unfold State.setX; split <;> rfl
@[simp] theorem State.setX_ctx_ib (s : State) (n : XReg) (v : Word) :
    (s.setX n v).ctx.ib = s.ctx.ib := by unfold State.setX; split <;> rfl
@[simp] theorem State.setX_ctx_done (s : State) (n : XReg) (v : Word) :
    (s.setX n v).ctx.done = s.ctx.done := by unfold State.setX; split <;> rfl
@[simp] theorem State.setX_ctx_slot (s : State) (n : XReg) (v : Word) :
    (s.setX n v).ctx.slot = s.ctx.slot := by unfold State.setX; split <;> rfl
@[simp] theorem State.setX_ctx_slotEnd (s : State) (n : XReg) (v : Word) :
    (s.setX n v).ctx.slotEnd = s.ctx.slotEnd := by unfold State.setX; split <;> rfl
@[simp] theorem State.setX_ctx_xfer (s : State) (n : XReg) (v : Word) :
    (s.setX n v).ctx.xfer = s.ctx.xfer := by unfold State.setX; split <;> rfl
@[simp] theorem State.setX_ctx_loopStart (s : State) (n : XReg) (v : Word) :
    (s.setX n v).ctx.loopStart = s.ctx.loopStart := by unfold State.setX; split <;> rfl
@[simp] theorem State.setX_ctx_eretPend (s : State) (n : XReg) (v : Word) :
    (s.setX n v).ctx.eretPend = s.ctx.eretPend := by unfold State.setX; split <;> rfl
@[simp] theorem State.setX_ctx_reissue (s : State) (n : XReg) (v : Word) :
    (s.setX n v).ctx.reissue = s.ctx.reissue := by unfold State.setX; split <;> rfl
@[simp] theorem State.setX_ctx_exempt (s : State) (n : XReg) (v : Word) :
    (s.setX n v).ctx.exempt = s.ctx.exempt := by unfold State.setX; split <;> rfl
@[simp] theorem State.setX_ctx_grpR (s : State) (n : XReg) (v : Word) :
    (s.setX n v).ctx.grpR = s.ctx.grpR := by unfold State.setX; split <;> rfl
@[simp] theorem State.setX_ctx_grpW (s : State) (n : XReg) (v : Word) :
    (s.setX n v).ctx.grpW = s.ctx.grpW := by unfold State.setX; split <;> rfl
@[simp] theorem State.setX_ctx_saved (s : State) (n : XReg) (v : Word) :
    (s.setX n v).ctx.saved = s.ctx.saved := by unfold State.setX; split <;> rfl
@[simp] theorem State.setX_ctx_defer (s : State) (n : XReg) (v : Word) :
    (s.setX n v).ctx.defer = s.ctx.defer := by unfold State.setX; split <;> rfl
@[simp] theorem State.setX_ctx_bundles (s : State) (n : XReg) (v : Word) :
    (s.setX n v).ctx.bundles = s.ctx.bundles := by unfold State.setX; split <;> rfl
@[simp] theorem State.setX_ctx_ecnt (s : State) (n : XReg) (v : Word) :
    (s.setX n v).ctx.ecnt = s.ctx.ecnt := by unfold State.setX; split <;> rfl
@[simp] theorem State.setX_ctx_status (s : State) (n : XReg) (v : Word) :
    (s.setX n v).ctx.status = s.ctx.status := by unfold State.setX; split <;> rfl
@[simp] theorem State.setX_ctx_ctrl (s : State) (n : XReg) (v : Word) :
    (s.setX n v).ctx.ctrl = s.ctx.ctrl := by unfold State.setX; split <;> rfl
@[simp] theorem State.setX_ctx_task (s : State) (n : XReg) (v : Word) :
    (s.setX n v).ctx.task = s.ctx.task := by unfold State.setX; split <;> rfl
@[simp] theorem State.setX_ctx_seq (s : State) (n : XReg) (v : Word) :
    (s.setX n v).ctx.seq = s.ctx.seq := by unfold State.setX; split <;> rfl
@[simp] theorem State.setX_ctx_loads (s : State) (n : XReg) (v : Word) :
    (s.setX n v).ctx.loads = s.ctx.loads := by unfold State.setX; split <;> rfl
@[simp] theorem State.setX_ctx_stores (s : State) (n : XReg) (v : Word) :
    (s.setX n v).ctx.stores = s.ctx.stores := by unfold State.setX; split <;> rfl
@[simp] theorem State.setX_ctx_points (s : State) (n : XReg) (v : Word) :
    (s.setX n v).ctx.points = s.ctx.points := by unfold State.setX; split <;> rfl
@[simp] theorem State.setX_ctx_sq (s : State) (n : XReg) (v : Word) :
    (s.setX n v).ctx.sq = s.ctx.sq := by unfold State.setX; split <;> rfl
@[simp] theorem State.setX_ctx_ordSet (s : State) (n : XReg) (v : Word) :
    (s.setX n v).ctx.ordSet = s.ctx.ordSet := by unfold State.setX; split <;> rfl
@[simp] theorem State.setX_ctx_xiq (s : State) (n : XReg) (v : Word) :
    (s.setX n v).ctx.xiq = s.ctx.xiq := by unfold State.setX; split <;> rfl
@[simp] theorem State.setX_ctx_opn (s : State) (n : XReg) (v : Word) :
    (s.setX n v).ctx.opn = s.ctx.opn := by unfold State.setX; split <;> rfl
@[simp] theorem State.setX_ctx_joins (s : State) (n : XReg) (v : Word) :
    (s.setX n v).ctx.joins = s.ctx.joins := by unfold State.setX; split <;> rfl
@[simp] theorem State.setX_ctx_wpend (s : State) (n : XReg) (v : Word) :
    (s.setX n v).ctx.wpend = s.ctx.wpend := by unfold State.setX; split <;> rfl
@[simp] theorem State.setX_ctx_from_ (s : State) (n : XReg) (v : Word) :
    (s.setX n v).ctx.from_ = s.ctx.from_ := by unfold State.setX; split <;> rfl
@[simp] theorem State.setX_ctx_echg (s : State) (n : XReg) (v : Word) :
    (s.setX n v).ctx.echg = s.ctx.echg := by unfold State.setX; split <;> rfl
@[simp] theorem State.setX_ctx_eput (s : State) (n : XReg) (v : Word) :
    (s.setX n v).ctx.eput = s.ctx.eput := by unfold State.setX; split <;> rfl
@[simp] theorem State.setX_ctx_obk (s : State) (n : XReg) (v : Word) :
    (s.setX n v).ctx.obk = s.ctx.obk := by unfold State.setX; split <;> rfl
@[simp] theorem State.setX_ctx_owa (s : State) (n : XReg) (v : Word) :
    (s.setX n v).ctx.owa = s.ctx.owa := by unfold State.setX; split <;> rfl
@[simp] theorem State.setX_ctx_frlen (s : State) (n : XReg) (v : Word) :
    (s.setX n v).ctx.frlen = s.ctx.frlen := by unfold State.setX; split <;> rfl
@[simp] theorem State.setX_ctx_epoch (s : State) (n : XReg) (v : Word) :
    (s.setX n v).ctx.epoch = s.ctx.epoch := by unfold State.setX; split <;> rfl
@[simp] theorem State.setX_ctx_ordSeq (s : State) (n : XReg) (v : Word) :
    (s.setX n v).ctx.ordSeq = s.ctx.ordSeq := by unfold State.setX; split <;> rfl
@[simp] theorem State.setX_ctx_lastOp (s : State) (n : XReg) (v : Word) :
    (s.setX n v).ctx.lastOp = s.ctx.lastOp := by unfold State.setX; split <;> rfl
@[simp] theorem State.setX_ctx_qsam (s : State) (n : XReg) (v : Word) :
    (s.setX n v).ctx.qsam = s.ctx.qsam := by unfold State.setX; split <;> rfl
@[simp] theorem State.setX_ctx_wordWait (s : State) (n : XReg) (v : Word) :
    (s.setX n v).ctx.wordWait = s.ctx.wordWait := by unfold State.setX; split <;> rfl
@[simp] theorem State.setX_ctx_arrived (s : State) (n : XReg) (v : Word) :
    (s.setX n v).ctx.arrived = s.ctx.arrived := by unfold State.setX; split <;> rfl
@[simp] theorem State.setX_ctx_hbuf (s : State) (n : XReg) (v : Word) :
    (s.setX n v).ctx.hbuf = s.ctx.hbuf := by unfold State.setX; split <;> rfl
@[simp] theorem State.setX_ctx_haddr (s : State) (n : XReg) (v : Word) :
    (s.setX n v).ctx.haddr = s.ctx.haddr := by unfold State.setX; split <;> rfl
@[simp] theorem State.setX_ctx_waitStart (s : State) (n : XReg) (v : Word) :
    (s.setX n v).ctx.waitStart = s.ctx.waitStart := by unfold State.setX; split <;> rfl
@[simp] theorem State.setX_ctx_lastWait (s : State) (n : XReg) (v : Word) :
    (s.setX n v).ctx.lastWait = s.ctx.lastWait := by unfold State.setX; split <;> rfl
@[simp] theorem State.setX_ctx_owed (s : State) (n : XReg) (v : Word) :
    (s.setX n v).ctx.owed = s.ctx.owed := by unfold State.setX; split <;> rfl
@[simp] theorem State.setX_ctx_setter (s : State) (n : XReg) (v : Word) :
    (s.setX n v).ctx.setter = s.ctx.setter := by unfold State.setX; split <;> rfl
@[simp] theorem State.setX_ctx_preq (s : State) (n : XReg) (v : Word) :
    (s.setX n v).ctx.preq = s.ctx.preq := by unfold State.setX; split <;> rfl

/-! The write of a predicate. -/

@[simp] theorem State.setQ_going (s : State) (n : Fin 8) (v : Bool) : (s.setQ n v).going = s.going := by unfold State.setQ; split <;> rfl
@[simp] theorem State.setQ_foc (s : State) (n : Fin 8) (v : Bool) : (s.setQ n v).foc = s.foc := by unfold State.setQ; split <;> rfl
@[simp] theorem State.setQ_core (s : State) (n : Fin 8) (v : Bool) : (s.setQ n v).core = s.core := by unfold State.setQ; split <;> rfl
@[simp] theorem State.setQ_die (s : State) (n : Fin 8) (v : Bool) : (s.setQ n v).die = s.die := by unfold State.setQ; split <;> rfl
@[simp] theorem State.setQ_ctxs (s : State) (n : Fin 8) (v : Bool) : (s.setQ n v).ctxs = s.ctxs := by unfold State.setQ; split <;> rfl
@[simp] theorem State.setQ_cores (s : State) (n : Fin 8) (v : Bool) : (s.setQ n v).cores = s.cores := by unfold State.setQ; split <;> rfl
@[simp] theorem State.setQ_dies (s : State) (n : Fin 8) (v : Bool) : (s.setQ n v).dies = s.dies := by unfold State.setQ; split <;> rfl
@[simp] theorem State.setQ_pkgs (s : State) (n : Fin 8) (v : Bool) : (s.setQ n v).pkgs = s.pkgs := by unfold State.setQ; split <;> rfl
@[simp] theorem State.setQ_npkg (s : State) (n : Fin 8) (v : Bool) : (s.setQ n v).npkg = s.npkg := by unfold State.setQ; split <;> rfl
@[simp] theorem State.setQ_launches (s : State) (n : Fin 8) (v : Bool) : (s.setQ n v).launches = s.launches := by unfold State.setQ; split <;> rfl
@[simp] theorem State.setQ_groups (s : State) (n : Fin 8) (v : Bool) : (s.setQ n v).groups = s.groups := by unfold State.setQ; split <;> rfl
@[simp] theorem State.setQ_mem (s : State) (n : Fin 8) (v : Bool) : (s.setQ n v).mem = s.mem := by unfold State.setQ; split <;> rfl
@[simp] theorem State.setQ_poison (s : State) (n : Fin 8) (v : Bool) : (s.setQ n v).poison = s.poison := by unfold State.setQ; split <;> rfl
@[simp] theorem State.setQ_hist (s : State) (n : Fin 8) (v : Bool) : (s.setQ n v).hist = s.hist := by unfold State.setQ; split <;> rfl
@[simp] theorem State.setQ_flight (s : State) (n : Fin 8) (v : Bool) : (s.setQ n v).flight = s.flight := by unfold State.setQ; split <;> rfl
@[simp] theorem State.setQ_cycle (s : State) (n : Fin 8) (v : Bool) : (s.setQ n v).cycle = s.cycle := by unfold State.setQ; split <;> rfl
@[simp] theorem State.setQ_fresh (s : State) (n : Fin 8) (v : Bool) : (s.setQ n v).fresh = s.fresh := by unfold State.setQ; split <;> rfl
@[simp] theorem State.setQ_agenda (s : State) (n : Fin 8) (v : Bool) : (s.setQ n v).agenda = s.agenda := by unfold State.setQ; split <;> rfl
@[simp] theorem State.setQ_ctx_x (s : State) (n : Fin 8) (v : Bool) :
    (s.setQ n v).ctx.x = s.ctx.x := by unfold State.setQ; split <;> rfl
@[simp] theorem State.setQ_ctx_v (s : State) (n : Fin 8) (v : Bool) :
    (s.setQ n v).ctx.v = s.ctx.v := by unfold State.setQ; split <;> rfl
@[simp] theorem State.setQ_ctx_vtag (s : State) (n : Fin 8) (v : Bool) :
    (s.setQ n v).ctx.vtag = s.ctx.vtag := by unfold State.setQ; split <;> rfl
@[simp] theorem State.setQ_ctx_m (s : State) (n : Fin 8) (v : Bool) :
    (s.setQ n v).ctx.m = s.ctx.m := by unfold State.setQ; split <;> rfl
@[simp] theorem State.setQ_ctx_w (s : State) (n : Fin 8) (v : Bool) :
    (s.setQ n v).ctx.w = s.ctx.w := by unfold State.setQ; split <;> rfl
@[simp] theorem State.setQ_ctx_cb (s : State) (n : Fin 8) (v : Bool) :
    (s.setQ n v).ctx.cb = s.ctx.cb := by unfold State.setQ; split <;> rfl
@[simp] theorem State.setQ_ctx_pk (s : State) (n : Fin 8) (v : Bool) :
    (s.setQ n v).ctx.pk = s.ctx.pk := by unfold State.setQ; split <;> rfl
@[simp] theorem State.setQ_ctx_sh (s : State) (n : Fin 8) (v : Bool) :
    (s.setQ n v).ctx.sh = s.ctx.sh := by unfold State.setQ; split <;> rfl
@[simp] theorem State.setQ_ctx_ht (s : State) (n : Fin 8) (v : Bool) :
    (s.setQ n v).ctx.ht = s.ctx.ht := by unfold State.setQ; split <;> rfl
@[simp] theorem State.setQ_ctx_pw (s : State) (n : Fin 8) (v : Bool) :
    (s.setQ n v).ctx.pw = s.ctx.pw := by unfold State.setQ; split <;> rfl
@[simp] theorem State.setQ_ctx_lv (s : State) (n : Fin 8) (v : Bool) :
    (s.setQ n v).ctx.lv = s.ctx.lv := by unfold State.setQ; split <;> rfl
@[simp] theorem State.setQ_ctx_cstat (s : State) (n : Fin 8) (v : Bool) :
    (s.setQ n v).ctx.cstat = s.ctx.cstat := by unfold State.setQ; split <;> rfl
@[simp] theorem State.setQ_ctx_cview (s : State) (n : Fin 8) (v : Bool) :
    (s.setQ n v).ctx.cview = s.ctx.cview := by unfold State.setQ; split <;> rfl
@[simp] theorem State.setQ_ctx_pp (s : State) (n : Fin 8) (v : Bool) :
    (s.setQ n v).ctx.pp = s.ctx.pp := by unfold State.setQ; split <;> rfl
@[simp] theorem State.setQ_ctx_phase (s : State) (n : Fin 8) (v : Bool) :
    (s.setQ n v).ctx.phase = s.ctx.phase := by unfold State.setQ; split <;> rfl
@[simp] theorem State.setQ_ctx_dstep (s : State) (n : Fin 8) (v : Bool) :
    (s.setQ n v).ctx.dstep = s.ctx.dstep := by unfold State.setQ; split <;> rfl
@[simp] theorem State.setQ_ctx_gstart (s : State) (n : Fin 8) (v : Bool) :
    (s.setQ n v).ctx.gstart = s.ctx.gstart := by unfold State.setQ; split <;> rfl
@[simp] theorem State.setQ_ctx_pc (s : State) (n : Fin 8) (v : Bool) :
    (s.setQ n v).ctx.pc = s.ctx.pc := by unfold State.setQ; split <;> rfl
@[simp] theorem State.setQ_ctx_tvec (s : State) (n : Fin 8) (v : Bool) :
    (s.setQ n v).ctx.tvec = s.ctx.tvec := by unfold State.setQ; split <;> rfl
@[simp] theorem State.setQ_ctx_tscr (s : State) (n : Fin 8) (v : Bool) :
    (s.setQ n v).ctx.tscr = s.ctx.tscr := by unfold State.setQ; split <;> rfl
@[simp] theorem State.setQ_ctx_trap (s : State) (n : Fin 8) (v : Bool) :
    (s.setQ n v).ctx.trap = s.ctx.trap := by unfold State.setQ; split <;> rfl
@[simp] theorem State.setQ_ctx_inh (s : State) (n : Fin 8) (v : Bool) :
    (s.setQ n v).ctx.inh = s.ctx.inh := by unfold State.setQ; split <;> rfl
@[simp] theorem State.setQ_ctx_fwd (s : State) (n : Fin 8) (v : Bool) :
    (s.setQ n v).ctx.fwd = s.ctx.fwd := by unfold State.setQ; split <;> rfl
@[simp] theorem State.setQ_ctx_pend (s : State) (n : Fin 8) (v : Bool) :
    (s.setQ n v).ctx.pend = s.ctx.pend := by unfold State.setQ; split <;> rfl
@[simp] theorem State.setQ_ctx_ib (s : State) (n : Fin 8) (v : Bool) :
    (s.setQ n v).ctx.ib = s.ctx.ib := by unfold State.setQ; split <;> rfl
@[simp] theorem State.setQ_ctx_done (s : State) (n : Fin 8) (v : Bool) :
    (s.setQ n v).ctx.done = s.ctx.done := by unfold State.setQ; split <;> rfl
@[simp] theorem State.setQ_ctx_slot (s : State) (n : Fin 8) (v : Bool) :
    (s.setQ n v).ctx.slot = s.ctx.slot := by unfold State.setQ; split <;> rfl
@[simp] theorem State.setQ_ctx_slotEnd (s : State) (n : Fin 8) (v : Bool) :
    (s.setQ n v).ctx.slotEnd = s.ctx.slotEnd := by unfold State.setQ; split <;> rfl
@[simp] theorem State.setQ_ctx_xfer (s : State) (n : Fin 8) (v : Bool) :
    (s.setQ n v).ctx.xfer = s.ctx.xfer := by unfold State.setQ; split <;> rfl
@[simp] theorem State.setQ_ctx_loopStart (s : State) (n : Fin 8) (v : Bool) :
    (s.setQ n v).ctx.loopStart = s.ctx.loopStart := by unfold State.setQ; split <;> rfl
@[simp] theorem State.setQ_ctx_eretPend (s : State) (n : Fin 8) (v : Bool) :
    (s.setQ n v).ctx.eretPend = s.ctx.eretPend := by unfold State.setQ; split <;> rfl
@[simp] theorem State.setQ_ctx_reissue (s : State) (n : Fin 8) (v : Bool) :
    (s.setQ n v).ctx.reissue = s.ctx.reissue := by unfold State.setQ; split <;> rfl
@[simp] theorem State.setQ_ctx_exempt (s : State) (n : Fin 8) (v : Bool) :
    (s.setQ n v).ctx.exempt = s.ctx.exempt := by unfold State.setQ; split <;> rfl
@[simp] theorem State.setQ_ctx_grpR (s : State) (n : Fin 8) (v : Bool) :
    (s.setQ n v).ctx.grpR = s.ctx.grpR := by unfold State.setQ; split <;> rfl
@[simp] theorem State.setQ_ctx_grpW (s : State) (n : Fin 8) (v : Bool) :
    (s.setQ n v).ctx.grpW = s.ctx.grpW := by unfold State.setQ; split <;> rfl
@[simp] theorem State.setQ_ctx_saved (s : State) (n : Fin 8) (v : Bool) :
    (s.setQ n v).ctx.saved = s.ctx.saved := by unfold State.setQ; split <;> rfl
@[simp] theorem State.setQ_ctx_defer (s : State) (n : Fin 8) (v : Bool) :
    (s.setQ n v).ctx.defer = s.ctx.defer := by unfold State.setQ; split <;> rfl
@[simp] theorem State.setQ_ctx_bundles (s : State) (n : Fin 8) (v : Bool) :
    (s.setQ n v).ctx.bundles = s.ctx.bundles := by unfold State.setQ; split <;> rfl
@[simp] theorem State.setQ_ctx_ecnt (s : State) (n : Fin 8) (v : Bool) :
    (s.setQ n v).ctx.ecnt = s.ctx.ecnt := by unfold State.setQ; split <;> rfl
@[simp] theorem State.setQ_ctx_status (s : State) (n : Fin 8) (v : Bool) :
    (s.setQ n v).ctx.status = s.ctx.status := by unfold State.setQ; split <;> rfl
@[simp] theorem State.setQ_ctx_ctrl (s : State) (n : Fin 8) (v : Bool) :
    (s.setQ n v).ctx.ctrl = s.ctx.ctrl := by unfold State.setQ; split <;> rfl
@[simp] theorem State.setQ_ctx_task (s : State) (n : Fin 8) (v : Bool) :
    (s.setQ n v).ctx.task = s.ctx.task := by unfold State.setQ; split <;> rfl
@[simp] theorem State.setQ_ctx_seq (s : State) (n : Fin 8) (v : Bool) :
    (s.setQ n v).ctx.seq = s.ctx.seq := by unfold State.setQ; split <;> rfl
@[simp] theorem State.setQ_ctx_loads (s : State) (n : Fin 8) (v : Bool) :
    (s.setQ n v).ctx.loads = s.ctx.loads := by unfold State.setQ; split <;> rfl
@[simp] theorem State.setQ_ctx_stores (s : State) (n : Fin 8) (v : Bool) :
    (s.setQ n v).ctx.stores = s.ctx.stores := by unfold State.setQ; split <;> rfl
@[simp] theorem State.setQ_ctx_points (s : State) (n : Fin 8) (v : Bool) :
    (s.setQ n v).ctx.points = s.ctx.points := by unfold State.setQ; split <;> rfl
@[simp] theorem State.setQ_ctx_sq (s : State) (n : Fin 8) (v : Bool) :
    (s.setQ n v).ctx.sq = s.ctx.sq := by unfold State.setQ; split <;> rfl
@[simp] theorem State.setQ_ctx_ordSet (s : State) (n : Fin 8) (v : Bool) :
    (s.setQ n v).ctx.ordSet = s.ctx.ordSet := by unfold State.setQ; split <;> rfl
@[simp] theorem State.setQ_ctx_xiq (s : State) (n : Fin 8) (v : Bool) :
    (s.setQ n v).ctx.xiq = s.ctx.xiq := by unfold State.setQ; split <;> rfl
@[simp] theorem State.setQ_ctx_opn (s : State) (n : Fin 8) (v : Bool) :
    (s.setQ n v).ctx.opn = s.ctx.opn := by unfold State.setQ; split <;> rfl
@[simp] theorem State.setQ_ctx_joins (s : State) (n : Fin 8) (v : Bool) :
    (s.setQ n v).ctx.joins = s.ctx.joins := by unfold State.setQ; split <;> rfl
@[simp] theorem State.setQ_ctx_wpend (s : State) (n : Fin 8) (v : Bool) :
    (s.setQ n v).ctx.wpend = s.ctx.wpend := by unfold State.setQ; split <;> rfl
@[simp] theorem State.setQ_ctx_from_ (s : State) (n : Fin 8) (v : Bool) :
    (s.setQ n v).ctx.from_ = s.ctx.from_ := by unfold State.setQ; split <;> rfl
@[simp] theorem State.setQ_ctx_echg (s : State) (n : Fin 8) (v : Bool) :
    (s.setQ n v).ctx.echg = s.ctx.echg := by unfold State.setQ; split <;> rfl
@[simp] theorem State.setQ_ctx_eput (s : State) (n : Fin 8) (v : Bool) :
    (s.setQ n v).ctx.eput = s.ctx.eput := by unfold State.setQ; split <;> rfl
@[simp] theorem State.setQ_ctx_obk (s : State) (n : Fin 8) (v : Bool) :
    (s.setQ n v).ctx.obk = s.ctx.obk := by unfold State.setQ; split <;> rfl
@[simp] theorem State.setQ_ctx_owa (s : State) (n : Fin 8) (v : Bool) :
    (s.setQ n v).ctx.owa = s.ctx.owa := by unfold State.setQ; split <;> rfl
@[simp] theorem State.setQ_ctx_frlen (s : State) (n : Fin 8) (v : Bool) :
    (s.setQ n v).ctx.frlen = s.ctx.frlen := by unfold State.setQ; split <;> rfl
@[simp] theorem State.setQ_ctx_epoch (s : State) (n : Fin 8) (v : Bool) :
    (s.setQ n v).ctx.epoch = s.ctx.epoch := by unfold State.setQ; split <;> rfl
@[simp] theorem State.setQ_ctx_ordSeq (s : State) (n : Fin 8) (v : Bool) :
    (s.setQ n v).ctx.ordSeq = s.ctx.ordSeq := by unfold State.setQ; split <;> rfl
@[simp] theorem State.setQ_ctx_lastOp (s : State) (n : Fin 8) (v : Bool) :
    (s.setQ n v).ctx.lastOp = s.ctx.lastOp := by unfold State.setQ; split <;> rfl
@[simp] theorem State.setQ_ctx_qsam (s : State) (n : Fin 8) (v : Bool) :
    (s.setQ n v).ctx.qsam = s.ctx.qsam := by unfold State.setQ; split <;> rfl
@[simp] theorem State.setQ_ctx_wordWait (s : State) (n : Fin 8) (v : Bool) :
    (s.setQ n v).ctx.wordWait = s.ctx.wordWait := by unfold State.setQ; split <;> rfl
@[simp] theorem State.setQ_ctx_arrived (s : State) (n : Fin 8) (v : Bool) :
    (s.setQ n v).ctx.arrived = s.ctx.arrived := by unfold State.setQ; split <;> rfl
@[simp] theorem State.setQ_ctx_hbuf (s : State) (n : Fin 8) (v : Bool) :
    (s.setQ n v).ctx.hbuf = s.ctx.hbuf := by unfold State.setQ; split <;> rfl
@[simp] theorem State.setQ_ctx_haddr (s : State) (n : Fin 8) (v : Bool) :
    (s.setQ n v).ctx.haddr = s.ctx.haddr := by unfold State.setQ; split <;> rfl
@[simp] theorem State.setQ_ctx_waitStart (s : State) (n : Fin 8) (v : Bool) :
    (s.setQ n v).ctx.waitStart = s.ctx.waitStart := by unfold State.setQ; split <;> rfl
@[simp] theorem State.setQ_ctx_lastWait (s : State) (n : Fin 8) (v : Bool) :
    (s.setQ n v).ctx.lastWait = s.ctx.lastWait := by unfold State.setQ; split <;> rfl
@[simp] theorem State.setQ_ctx_owed (s : State) (n : Fin 8) (v : Bool) :
    (s.setQ n v).ctx.owed = s.ctx.owed := by unfold State.setQ; split <;> rfl
@[simp] theorem State.setQ_ctx_setter (s : State) (n : Fin 8) (v : Bool) :
    (s.setQ n v).ctx.setter = s.ctx.setter := by unfold State.setQ; split <;> rfl
@[simp] theorem State.setQ_ctx_preq (s : State) (n : Fin 8) (v : Bool) :
    (s.setQ n v).ctx.preq = s.ctx.preq := by unfold State.setQ; split <;> rfl

/-! The write of a mask. -/

@[simp] theorem State.setM_going (s : State) (n : Fin 8) (v : MWord) : (s.setM n v).going = s.going := by unfold State.setM; split <;> rfl
@[simp] theorem State.setM_foc (s : State) (n : Fin 8) (v : MWord) : (s.setM n v).foc = s.foc := by unfold State.setM; split <;> rfl
@[simp] theorem State.setM_core (s : State) (n : Fin 8) (v : MWord) : (s.setM n v).core = s.core := by unfold State.setM; split <;> rfl
@[simp] theorem State.setM_die (s : State) (n : Fin 8) (v : MWord) : (s.setM n v).die = s.die := by unfold State.setM; split <;> rfl
@[simp] theorem State.setM_ctxs (s : State) (n : Fin 8) (v : MWord) : (s.setM n v).ctxs = s.ctxs := by unfold State.setM; split <;> rfl
@[simp] theorem State.setM_cores (s : State) (n : Fin 8) (v : MWord) : (s.setM n v).cores = s.cores := by unfold State.setM; split <;> rfl
@[simp] theorem State.setM_dies (s : State) (n : Fin 8) (v : MWord) : (s.setM n v).dies = s.dies := by unfold State.setM; split <;> rfl
@[simp] theorem State.setM_pkgs (s : State) (n : Fin 8) (v : MWord) : (s.setM n v).pkgs = s.pkgs := by unfold State.setM; split <;> rfl
@[simp] theorem State.setM_npkg (s : State) (n : Fin 8) (v : MWord) : (s.setM n v).npkg = s.npkg := by unfold State.setM; split <;> rfl
@[simp] theorem State.setM_launches (s : State) (n : Fin 8) (v : MWord) : (s.setM n v).launches = s.launches := by unfold State.setM; split <;> rfl
@[simp] theorem State.setM_groups (s : State) (n : Fin 8) (v : MWord) : (s.setM n v).groups = s.groups := by unfold State.setM; split <;> rfl
@[simp] theorem State.setM_mem (s : State) (n : Fin 8) (v : MWord) : (s.setM n v).mem = s.mem := by unfold State.setM; split <;> rfl
@[simp] theorem State.setM_poison (s : State) (n : Fin 8) (v : MWord) : (s.setM n v).poison = s.poison := by unfold State.setM; split <;> rfl
@[simp] theorem State.setM_hist (s : State) (n : Fin 8) (v : MWord) : (s.setM n v).hist = s.hist := by unfold State.setM; split <;> rfl
@[simp] theorem State.setM_flight (s : State) (n : Fin 8) (v : MWord) : (s.setM n v).flight = s.flight := by unfold State.setM; split <;> rfl
@[simp] theorem State.setM_cycle (s : State) (n : Fin 8) (v : MWord) : (s.setM n v).cycle = s.cycle := by unfold State.setM; split <;> rfl
@[simp] theorem State.setM_fresh (s : State) (n : Fin 8) (v : MWord) : (s.setM n v).fresh = s.fresh := by unfold State.setM; split <;> rfl
@[simp] theorem State.setM_agenda (s : State) (n : Fin 8) (v : MWord) : (s.setM n v).agenda = s.agenda := by unfold State.setM; split <;> rfl
@[simp] theorem State.setM_ctx_x (s : State) (n : Fin 8) (v : MWord) :
    (s.setM n v).ctx.x = s.ctx.x := by unfold State.setM; split <;> rfl
@[simp] theorem State.setM_ctx_q (s : State) (n : Fin 8) (v : MWord) :
    (s.setM n v).ctx.q = s.ctx.q := by unfold State.setM; split <;> rfl
@[simp] theorem State.setM_ctx_v (s : State) (n : Fin 8) (v : MWord) :
    (s.setM n v).ctx.v = s.ctx.v := by unfold State.setM; split <;> rfl
@[simp] theorem State.setM_ctx_vtag (s : State) (n : Fin 8) (v : MWord) :
    (s.setM n v).ctx.vtag = s.ctx.vtag := by unfold State.setM; split <;> rfl
@[simp] theorem State.setM_ctx_w (s : State) (n : Fin 8) (v : MWord) :
    (s.setM n v).ctx.w = s.ctx.w := by unfold State.setM; split <;> rfl
@[simp] theorem State.setM_ctx_cb (s : State) (n : Fin 8) (v : MWord) :
    (s.setM n v).ctx.cb = s.ctx.cb := by unfold State.setM; split <;> rfl
@[simp] theorem State.setM_ctx_pk (s : State) (n : Fin 8) (v : MWord) :
    (s.setM n v).ctx.pk = s.ctx.pk := by unfold State.setM; split <;> rfl
@[simp] theorem State.setM_ctx_sh (s : State) (n : Fin 8) (v : MWord) :
    (s.setM n v).ctx.sh = s.ctx.sh := by unfold State.setM; split <;> rfl
@[simp] theorem State.setM_ctx_ht (s : State) (n : Fin 8) (v : MWord) :
    (s.setM n v).ctx.ht = s.ctx.ht := by unfold State.setM; split <;> rfl
@[simp] theorem State.setM_ctx_pw (s : State) (n : Fin 8) (v : MWord) :
    (s.setM n v).ctx.pw = s.ctx.pw := by unfold State.setM; split <;> rfl
@[simp] theorem State.setM_ctx_lv (s : State) (n : Fin 8) (v : MWord) :
    (s.setM n v).ctx.lv = s.ctx.lv := by unfold State.setM; split <;> rfl
@[simp] theorem State.setM_ctx_cstat (s : State) (n : Fin 8) (v : MWord) :
    (s.setM n v).ctx.cstat = s.ctx.cstat := by unfold State.setM; split <;> rfl
@[simp] theorem State.setM_ctx_cview (s : State) (n : Fin 8) (v : MWord) :
    (s.setM n v).ctx.cview = s.ctx.cview := by unfold State.setM; split <;> rfl
@[simp] theorem State.setM_ctx_pp (s : State) (n : Fin 8) (v : MWord) :
    (s.setM n v).ctx.pp = s.ctx.pp := by unfold State.setM; split <;> rfl
@[simp] theorem State.setM_ctx_phase (s : State) (n : Fin 8) (v : MWord) :
    (s.setM n v).ctx.phase = s.ctx.phase := by unfold State.setM; split <;> rfl
@[simp] theorem State.setM_ctx_dstep (s : State) (n : Fin 8) (v : MWord) :
    (s.setM n v).ctx.dstep = s.ctx.dstep := by unfold State.setM; split <;> rfl
@[simp] theorem State.setM_ctx_gstart (s : State) (n : Fin 8) (v : MWord) :
    (s.setM n v).ctx.gstart = s.ctx.gstart := by unfold State.setM; split <;> rfl
@[simp] theorem State.setM_ctx_pc (s : State) (n : Fin 8) (v : MWord) :
    (s.setM n v).ctx.pc = s.ctx.pc := by unfold State.setM; split <;> rfl
@[simp] theorem State.setM_ctx_tvec (s : State) (n : Fin 8) (v : MWord) :
    (s.setM n v).ctx.tvec = s.ctx.tvec := by unfold State.setM; split <;> rfl
@[simp] theorem State.setM_ctx_tscr (s : State) (n : Fin 8) (v : MWord) :
    (s.setM n v).ctx.tscr = s.ctx.tscr := by unfold State.setM; split <;> rfl
@[simp] theorem State.setM_ctx_trap (s : State) (n : Fin 8) (v : MWord) :
    (s.setM n v).ctx.trap = s.ctx.trap := by unfold State.setM; split <;> rfl
@[simp] theorem State.setM_ctx_inh (s : State) (n : Fin 8) (v : MWord) :
    (s.setM n v).ctx.inh = s.ctx.inh := by unfold State.setM; split <;> rfl
@[simp] theorem State.setM_ctx_fwd (s : State) (n : Fin 8) (v : MWord) :
    (s.setM n v).ctx.fwd = s.ctx.fwd := by unfold State.setM; split <;> rfl
@[simp] theorem State.setM_ctx_pend (s : State) (n : Fin 8) (v : MWord) :
    (s.setM n v).ctx.pend = s.ctx.pend := by unfold State.setM; split <;> rfl
@[simp] theorem State.setM_ctx_ib (s : State) (n : Fin 8) (v : MWord) :
    (s.setM n v).ctx.ib = s.ctx.ib := by unfold State.setM; split <;> rfl
@[simp] theorem State.setM_ctx_done (s : State) (n : Fin 8) (v : MWord) :
    (s.setM n v).ctx.done = s.ctx.done := by unfold State.setM; split <;> rfl
@[simp] theorem State.setM_ctx_slot (s : State) (n : Fin 8) (v : MWord) :
    (s.setM n v).ctx.slot = s.ctx.slot := by unfold State.setM; split <;> rfl
@[simp] theorem State.setM_ctx_slotEnd (s : State) (n : Fin 8) (v : MWord) :
    (s.setM n v).ctx.slotEnd = s.ctx.slotEnd := by unfold State.setM; split <;> rfl
@[simp] theorem State.setM_ctx_xfer (s : State) (n : Fin 8) (v : MWord) :
    (s.setM n v).ctx.xfer = s.ctx.xfer := by unfold State.setM; split <;> rfl
@[simp] theorem State.setM_ctx_loopStart (s : State) (n : Fin 8) (v : MWord) :
    (s.setM n v).ctx.loopStart = s.ctx.loopStart := by unfold State.setM; split <;> rfl
@[simp] theorem State.setM_ctx_eretPend (s : State) (n : Fin 8) (v : MWord) :
    (s.setM n v).ctx.eretPend = s.ctx.eretPend := by unfold State.setM; split <;> rfl
@[simp] theorem State.setM_ctx_reissue (s : State) (n : Fin 8) (v : MWord) :
    (s.setM n v).ctx.reissue = s.ctx.reissue := by unfold State.setM; split <;> rfl
@[simp] theorem State.setM_ctx_exempt (s : State) (n : Fin 8) (v : MWord) :
    (s.setM n v).ctx.exempt = s.ctx.exempt := by unfold State.setM; split <;> rfl
@[simp] theorem State.setM_ctx_grpR (s : State) (n : Fin 8) (v : MWord) :
    (s.setM n v).ctx.grpR = s.ctx.grpR := by unfold State.setM; split <;> rfl
@[simp] theorem State.setM_ctx_grpW (s : State) (n : Fin 8) (v : MWord) :
    (s.setM n v).ctx.grpW = s.ctx.grpW := by unfold State.setM; split <;> rfl
@[simp] theorem State.setM_ctx_saved (s : State) (n : Fin 8) (v : MWord) :
    (s.setM n v).ctx.saved = s.ctx.saved := by unfold State.setM; split <;> rfl
@[simp] theorem State.setM_ctx_defer (s : State) (n : Fin 8) (v : MWord) :
    (s.setM n v).ctx.defer = s.ctx.defer := by unfold State.setM; split <;> rfl
@[simp] theorem State.setM_ctx_bundles (s : State) (n : Fin 8) (v : MWord) :
    (s.setM n v).ctx.bundles = s.ctx.bundles := by unfold State.setM; split <;> rfl
@[simp] theorem State.setM_ctx_ecnt (s : State) (n : Fin 8) (v : MWord) :
    (s.setM n v).ctx.ecnt = s.ctx.ecnt := by unfold State.setM; split <;> rfl
@[simp] theorem State.setM_ctx_status (s : State) (n : Fin 8) (v : MWord) :
    (s.setM n v).ctx.status = s.ctx.status := by unfold State.setM; split <;> rfl
@[simp] theorem State.setM_ctx_ctrl (s : State) (n : Fin 8) (v : MWord) :
    (s.setM n v).ctx.ctrl = s.ctx.ctrl := by unfold State.setM; split <;> rfl
@[simp] theorem State.setM_ctx_task (s : State) (n : Fin 8) (v : MWord) :
    (s.setM n v).ctx.task = s.ctx.task := by unfold State.setM; split <;> rfl
@[simp] theorem State.setM_ctx_seq (s : State) (n : Fin 8) (v : MWord) :
    (s.setM n v).ctx.seq = s.ctx.seq := by unfold State.setM; split <;> rfl
@[simp] theorem State.setM_ctx_loads (s : State) (n : Fin 8) (v : MWord) :
    (s.setM n v).ctx.loads = s.ctx.loads := by unfold State.setM; split <;> rfl
@[simp] theorem State.setM_ctx_stores (s : State) (n : Fin 8) (v : MWord) :
    (s.setM n v).ctx.stores = s.ctx.stores := by unfold State.setM; split <;> rfl
@[simp] theorem State.setM_ctx_points (s : State) (n : Fin 8) (v : MWord) :
    (s.setM n v).ctx.points = s.ctx.points := by unfold State.setM; split <;> rfl
@[simp] theorem State.setM_ctx_sq (s : State) (n : Fin 8) (v : MWord) :
    (s.setM n v).ctx.sq = s.ctx.sq := by unfold State.setM; split <;> rfl
@[simp] theorem State.setM_ctx_ordSet (s : State) (n : Fin 8) (v : MWord) :
    (s.setM n v).ctx.ordSet = s.ctx.ordSet := by unfold State.setM; split <;> rfl
@[simp] theorem State.setM_ctx_xiq (s : State) (n : Fin 8) (v : MWord) :
    (s.setM n v).ctx.xiq = s.ctx.xiq := by unfold State.setM; split <;> rfl
@[simp] theorem State.setM_ctx_opn (s : State) (n : Fin 8) (v : MWord) :
    (s.setM n v).ctx.opn = s.ctx.opn := by unfold State.setM; split <;> rfl
@[simp] theorem State.setM_ctx_joins (s : State) (n : Fin 8) (v : MWord) :
    (s.setM n v).ctx.joins = s.ctx.joins := by unfold State.setM; split <;> rfl
@[simp] theorem State.setM_ctx_wpend (s : State) (n : Fin 8) (v : MWord) :
    (s.setM n v).ctx.wpend = s.ctx.wpend := by unfold State.setM; split <;> rfl
@[simp] theorem State.setM_ctx_from_ (s : State) (n : Fin 8) (v : MWord) :
    (s.setM n v).ctx.from_ = s.ctx.from_ := by unfold State.setM; split <;> rfl
@[simp] theorem State.setM_ctx_echg (s : State) (n : Fin 8) (v : MWord) :
    (s.setM n v).ctx.echg = s.ctx.echg := by unfold State.setM; split <;> rfl
@[simp] theorem State.setM_ctx_eput (s : State) (n : Fin 8) (v : MWord) :
    (s.setM n v).ctx.eput = s.ctx.eput := by unfold State.setM; split <;> rfl
@[simp] theorem State.setM_ctx_obk (s : State) (n : Fin 8) (v : MWord) :
    (s.setM n v).ctx.obk = s.ctx.obk := by unfold State.setM; split <;> rfl
@[simp] theorem State.setM_ctx_owa (s : State) (n : Fin 8) (v : MWord) :
    (s.setM n v).ctx.owa = s.ctx.owa := by unfold State.setM; split <;> rfl
@[simp] theorem State.setM_ctx_frlen (s : State) (n : Fin 8) (v : MWord) :
    (s.setM n v).ctx.frlen = s.ctx.frlen := by unfold State.setM; split <;> rfl
@[simp] theorem State.setM_ctx_epoch (s : State) (n : Fin 8) (v : MWord) :
    (s.setM n v).ctx.epoch = s.ctx.epoch := by unfold State.setM; split <;> rfl
@[simp] theorem State.setM_ctx_ordSeq (s : State) (n : Fin 8) (v : MWord) :
    (s.setM n v).ctx.ordSeq = s.ctx.ordSeq := by unfold State.setM; split <;> rfl
@[simp] theorem State.setM_ctx_lastOp (s : State) (n : Fin 8) (v : MWord) :
    (s.setM n v).ctx.lastOp = s.ctx.lastOp := by unfold State.setM; split <;> rfl
@[simp] theorem State.setM_ctx_qsam (s : State) (n : Fin 8) (v : MWord) :
    (s.setM n v).ctx.qsam = s.ctx.qsam := by unfold State.setM; split <;> rfl
@[simp] theorem State.setM_ctx_wordWait (s : State) (n : Fin 8) (v : MWord) :
    (s.setM n v).ctx.wordWait = s.ctx.wordWait := by unfold State.setM; split <;> rfl
@[simp] theorem State.setM_ctx_arrived (s : State) (n : Fin 8) (v : MWord) :
    (s.setM n v).ctx.arrived = s.ctx.arrived := by unfold State.setM; split <;> rfl
@[simp] theorem State.setM_ctx_hbuf (s : State) (n : Fin 8) (v : MWord) :
    (s.setM n v).ctx.hbuf = s.ctx.hbuf := by unfold State.setM; split <;> rfl
@[simp] theorem State.setM_ctx_haddr (s : State) (n : Fin 8) (v : MWord) :
    (s.setM n v).ctx.haddr = s.ctx.haddr := by unfold State.setM; split <;> rfl
@[simp] theorem State.setM_ctx_waitStart (s : State) (n : Fin 8) (v : MWord) :
    (s.setM n v).ctx.waitStart = s.ctx.waitStart := by unfold State.setM; split <;> rfl
@[simp] theorem State.setM_ctx_lastWait (s : State) (n : Fin 8) (v : MWord) :
    (s.setM n v).ctx.lastWait = s.ctx.lastWait := by unfold State.setM; split <;> rfl
@[simp] theorem State.setM_ctx_owed (s : State) (n : Fin 8) (v : MWord) :
    (s.setM n v).ctx.owed = s.ctx.owed := by unfold State.setM; split <;> rfl
@[simp] theorem State.setM_ctx_setter (s : State) (n : Fin 8) (v : MWord) :
    (s.setM n v).ctx.setter = s.ctx.setter := by unfold State.setM; split <;> rfl
@[simp] theorem State.setM_ctx_preq (s : State) (n : Fin 8) (v : MWord) :
    (s.setM n v).ctx.preq = s.ctx.preq := by unfold State.setM; split <;> rfl

/-! The write of a vector register. -/

@[simp] theorem State.setV_going (s : State) (n : VReg) (v : VWord) (k : BitVec 4) : (s.setV n v k).going = s.going := rfl
@[simp] theorem State.setV_foc (s : State) (n : VReg) (v : VWord) (k : BitVec 4) : (s.setV n v k).foc = s.foc := rfl
@[simp] theorem State.setV_core (s : State) (n : VReg) (v : VWord) (k : BitVec 4) : (s.setV n v k).core = s.core := rfl
@[simp] theorem State.setV_die (s : State) (n : VReg) (v : VWord) (k : BitVec 4) : (s.setV n v k).die = s.die := rfl
@[simp] theorem State.setV_ctxs (s : State) (n : VReg) (v : VWord) (k : BitVec 4) : (s.setV n v k).ctxs = s.ctxs := rfl
@[simp] theorem State.setV_cores (s : State) (n : VReg) (v : VWord) (k : BitVec 4) : (s.setV n v k).cores = s.cores := rfl
@[simp] theorem State.setV_dies (s : State) (n : VReg) (v : VWord) (k : BitVec 4) : (s.setV n v k).dies = s.dies := rfl
@[simp] theorem State.setV_pkgs (s : State) (n : VReg) (v : VWord) (k : BitVec 4) : (s.setV n v k).pkgs = s.pkgs := rfl
@[simp] theorem State.setV_npkg (s : State) (n : VReg) (v : VWord) (k : BitVec 4) : (s.setV n v k).npkg = s.npkg := rfl
@[simp] theorem State.setV_launches (s : State) (n : VReg) (v : VWord) (k : BitVec 4) : (s.setV n v k).launches = s.launches := rfl
@[simp] theorem State.setV_groups (s : State) (n : VReg) (v : VWord) (k : BitVec 4) : (s.setV n v k).groups = s.groups := rfl
@[simp] theorem State.setV_mem (s : State) (n : VReg) (v : VWord) (k : BitVec 4) : (s.setV n v k).mem = s.mem := rfl
@[simp] theorem State.setV_poison (s : State) (n : VReg) (v : VWord) (k : BitVec 4) : (s.setV n v k).poison = s.poison := rfl
@[simp] theorem State.setV_hist (s : State) (n : VReg) (v : VWord) (k : BitVec 4) : (s.setV n v k).hist = s.hist := rfl
@[simp] theorem State.setV_flight (s : State) (n : VReg) (v : VWord) (k : BitVec 4) : (s.setV n v k).flight = s.flight := rfl
@[simp] theorem State.setV_cycle (s : State) (n : VReg) (v : VWord) (k : BitVec 4) : (s.setV n v k).cycle = s.cycle := rfl
@[simp] theorem State.setV_fresh (s : State) (n : VReg) (v : VWord) (k : BitVec 4) : (s.setV n v k).fresh = s.fresh := rfl
@[simp] theorem State.setV_agenda (s : State) (n : VReg) (v : VWord) (k : BitVec 4) : (s.setV n v k).agenda = s.agenda := rfl
@[simp] theorem State.setV_ctx_x (s : State) (n : VReg) (v : VWord) (k : BitVec 4) :
    (s.setV n v k).ctx.x = s.ctx.x := rfl
@[simp] theorem State.setV_ctx_q (s : State) (n : VReg) (v : VWord) (k : BitVec 4) :
    (s.setV n v k).ctx.q = s.ctx.q := rfl
@[simp] theorem State.setV_ctx_m (s : State) (n : VReg) (v : VWord) (k : BitVec 4) :
    (s.setV n v k).ctx.m = s.ctx.m := rfl
@[simp] theorem State.setV_ctx_w (s : State) (n : VReg) (v : VWord) (k : BitVec 4) :
    (s.setV n v k).ctx.w = s.ctx.w := rfl
@[simp] theorem State.setV_ctx_cb (s : State) (n : VReg) (v : VWord) (k : BitVec 4) :
    (s.setV n v k).ctx.cb = s.ctx.cb := rfl
@[simp] theorem State.setV_ctx_pk (s : State) (n : VReg) (v : VWord) (k : BitVec 4) :
    (s.setV n v k).ctx.pk = s.ctx.pk := rfl
@[simp] theorem State.setV_ctx_sh (s : State) (n : VReg) (v : VWord) (k : BitVec 4) :
    (s.setV n v k).ctx.sh = s.ctx.sh := rfl
@[simp] theorem State.setV_ctx_ht (s : State) (n : VReg) (v : VWord) (k : BitVec 4) :
    (s.setV n v k).ctx.ht = s.ctx.ht := rfl
@[simp] theorem State.setV_ctx_pw (s : State) (n : VReg) (v : VWord) (k : BitVec 4) :
    (s.setV n v k).ctx.pw = s.ctx.pw := rfl
@[simp] theorem State.setV_ctx_lv (s : State) (n : VReg) (v : VWord) (k : BitVec 4) :
    (s.setV n v k).ctx.lv = s.ctx.lv := rfl
@[simp] theorem State.setV_ctx_cstat (s : State) (n : VReg) (v : VWord) (k : BitVec 4) :
    (s.setV n v k).ctx.cstat = s.ctx.cstat := rfl
@[simp] theorem State.setV_ctx_cview (s : State) (n : VReg) (v : VWord) (k : BitVec 4) :
    (s.setV n v k).ctx.cview = s.ctx.cview := rfl
@[simp] theorem State.setV_ctx_pp (s : State) (n : VReg) (v : VWord) (k : BitVec 4) :
    (s.setV n v k).ctx.pp = s.ctx.pp := rfl
@[simp] theorem State.setV_ctx_phase (s : State) (n : VReg) (v : VWord) (k : BitVec 4) :
    (s.setV n v k).ctx.phase = s.ctx.phase := rfl
@[simp] theorem State.setV_ctx_dstep (s : State) (n : VReg) (v : VWord) (k : BitVec 4) :
    (s.setV n v k).ctx.dstep = s.ctx.dstep := rfl
@[simp] theorem State.setV_ctx_gstart (s : State) (n : VReg) (v : VWord) (k : BitVec 4) :
    (s.setV n v k).ctx.gstart = s.ctx.gstart := rfl
@[simp] theorem State.setV_ctx_pc (s : State) (n : VReg) (v : VWord) (k : BitVec 4) :
    (s.setV n v k).ctx.pc = s.ctx.pc := rfl
@[simp] theorem State.setV_ctx_tvec (s : State) (n : VReg) (v : VWord) (k : BitVec 4) :
    (s.setV n v k).ctx.tvec = s.ctx.tvec := rfl
@[simp] theorem State.setV_ctx_tscr (s : State) (n : VReg) (v : VWord) (k : BitVec 4) :
    (s.setV n v k).ctx.tscr = s.ctx.tscr := rfl
@[simp] theorem State.setV_ctx_trap (s : State) (n : VReg) (v : VWord) (k : BitVec 4) :
    (s.setV n v k).ctx.trap = s.ctx.trap := rfl
@[simp] theorem State.setV_ctx_inh (s : State) (n : VReg) (v : VWord) (k : BitVec 4) :
    (s.setV n v k).ctx.inh = s.ctx.inh := rfl
@[simp] theorem State.setV_ctx_fwd (s : State) (n : VReg) (v : VWord) (k : BitVec 4) :
    (s.setV n v k).ctx.fwd = s.ctx.fwd := rfl
@[simp] theorem State.setV_ctx_pend (s : State) (n : VReg) (v : VWord) (k : BitVec 4) :
    (s.setV n v k).ctx.pend = s.ctx.pend := rfl
@[simp] theorem State.setV_ctx_ib (s : State) (n : VReg) (v : VWord) (k : BitVec 4) :
    (s.setV n v k).ctx.ib = s.ctx.ib := rfl
@[simp] theorem State.setV_ctx_done (s : State) (n : VReg) (v : VWord) (k : BitVec 4) :
    (s.setV n v k).ctx.done = s.ctx.done := rfl
@[simp] theorem State.setV_ctx_slot (s : State) (n : VReg) (v : VWord) (k : BitVec 4) :
    (s.setV n v k).ctx.slot = s.ctx.slot := rfl
@[simp] theorem State.setV_ctx_slotEnd (s : State) (n : VReg) (v : VWord) (k : BitVec 4) :
    (s.setV n v k).ctx.slotEnd = s.ctx.slotEnd := rfl
@[simp] theorem State.setV_ctx_xfer (s : State) (n : VReg) (v : VWord) (k : BitVec 4) :
    (s.setV n v k).ctx.xfer = s.ctx.xfer := rfl
@[simp] theorem State.setV_ctx_loopStart (s : State) (n : VReg) (v : VWord) (k : BitVec 4) :
    (s.setV n v k).ctx.loopStart = s.ctx.loopStart := rfl
@[simp] theorem State.setV_ctx_eretPend (s : State) (n : VReg) (v : VWord) (k : BitVec 4) :
    (s.setV n v k).ctx.eretPend = s.ctx.eretPend := rfl
@[simp] theorem State.setV_ctx_reissue (s : State) (n : VReg) (v : VWord) (k : BitVec 4) :
    (s.setV n v k).ctx.reissue = s.ctx.reissue := rfl
@[simp] theorem State.setV_ctx_exempt (s : State) (n : VReg) (v : VWord) (k : BitVec 4) :
    (s.setV n v k).ctx.exempt = s.ctx.exempt := rfl
@[simp] theorem State.setV_ctx_grpR (s : State) (n : VReg) (v : VWord) (k : BitVec 4) :
    (s.setV n v k).ctx.grpR = s.ctx.grpR := rfl
@[simp] theorem State.setV_ctx_grpW (s : State) (n : VReg) (v : VWord) (k : BitVec 4) :
    (s.setV n v k).ctx.grpW = s.ctx.grpW := rfl
@[simp] theorem State.setV_ctx_saved (s : State) (n : VReg) (v : VWord) (k : BitVec 4) :
    (s.setV n v k).ctx.saved = s.ctx.saved := rfl
@[simp] theorem State.setV_ctx_defer (s : State) (n : VReg) (v : VWord) (k : BitVec 4) :
    (s.setV n v k).ctx.defer = s.ctx.defer := rfl
@[simp] theorem State.setV_ctx_bundles (s : State) (n : VReg) (v : VWord) (k : BitVec 4) :
    (s.setV n v k).ctx.bundles = s.ctx.bundles := rfl
@[simp] theorem State.setV_ctx_ecnt (s : State) (n : VReg) (v : VWord) (k : BitVec 4) :
    (s.setV n v k).ctx.ecnt = s.ctx.ecnt := rfl
@[simp] theorem State.setV_ctx_status (s : State) (n : VReg) (v : VWord) (k : BitVec 4) :
    (s.setV n v k).ctx.status = s.ctx.status := rfl
@[simp] theorem State.setV_ctx_ctrl (s : State) (n : VReg) (v : VWord) (k : BitVec 4) :
    (s.setV n v k).ctx.ctrl = s.ctx.ctrl := rfl
@[simp] theorem State.setV_ctx_task (s : State) (n : VReg) (v : VWord) (k : BitVec 4) :
    (s.setV n v k).ctx.task = s.ctx.task := rfl
@[simp] theorem State.setV_ctx_seq (s : State) (n : VReg) (v : VWord) (k : BitVec 4) :
    (s.setV n v k).ctx.seq = s.ctx.seq := rfl
@[simp] theorem State.setV_ctx_loads (s : State) (n : VReg) (v : VWord) (k : BitVec 4) :
    (s.setV n v k).ctx.loads = s.ctx.loads := rfl
@[simp] theorem State.setV_ctx_stores (s : State) (n : VReg) (v : VWord) (k : BitVec 4) :
    (s.setV n v k).ctx.stores = s.ctx.stores := rfl
@[simp] theorem State.setV_ctx_points (s : State) (n : VReg) (v : VWord) (k : BitVec 4) :
    (s.setV n v k).ctx.points = s.ctx.points := rfl
@[simp] theorem State.setV_ctx_sq (s : State) (n : VReg) (v : VWord) (k : BitVec 4) :
    (s.setV n v k).ctx.sq = s.ctx.sq := rfl
@[simp] theorem State.setV_ctx_ordSet (s : State) (n : VReg) (v : VWord) (k : BitVec 4) :
    (s.setV n v k).ctx.ordSet = s.ctx.ordSet := rfl
@[simp] theorem State.setV_ctx_xiq (s : State) (n : VReg) (v : VWord) (k : BitVec 4) :
    (s.setV n v k).ctx.xiq = s.ctx.xiq := rfl
@[simp] theorem State.setV_ctx_opn (s : State) (n : VReg) (v : VWord) (k : BitVec 4) :
    (s.setV n v k).ctx.opn = s.ctx.opn := rfl
@[simp] theorem State.setV_ctx_joins (s : State) (n : VReg) (v : VWord) (k : BitVec 4) :
    (s.setV n v k).ctx.joins = s.ctx.joins := rfl
@[simp] theorem State.setV_ctx_wpend (s : State) (n : VReg) (v : VWord) (k : BitVec 4) :
    (s.setV n v k).ctx.wpend = s.ctx.wpend := rfl
@[simp] theorem State.setV_ctx_from_ (s : State) (n : VReg) (v : VWord) (k : BitVec 4) :
    (s.setV n v k).ctx.from_ = s.ctx.from_ := rfl
@[simp] theorem State.setV_ctx_echg (s : State) (n : VReg) (v : VWord) (k : BitVec 4) :
    (s.setV n v k).ctx.echg = s.ctx.echg := rfl
@[simp] theorem State.setV_ctx_eput (s : State) (n : VReg) (v : VWord) (k : BitVec 4) :
    (s.setV n v k).ctx.eput = s.ctx.eput := rfl
@[simp] theorem State.setV_ctx_obk (s : State) (n : VReg) (v : VWord) (k : BitVec 4) :
    (s.setV n v k).ctx.obk = s.ctx.obk := rfl
@[simp] theorem State.setV_ctx_owa (s : State) (n : VReg) (v : VWord) (k : BitVec 4) :
    (s.setV n v k).ctx.owa = s.ctx.owa := rfl
@[simp] theorem State.setV_ctx_frlen (s : State) (n : VReg) (v : VWord) (k : BitVec 4) :
    (s.setV n v k).ctx.frlen = s.ctx.frlen := rfl
@[simp] theorem State.setV_ctx_epoch (s : State) (n : VReg) (v : VWord) (k : BitVec 4) :
    (s.setV n v k).ctx.epoch = s.ctx.epoch := rfl
@[simp] theorem State.setV_ctx_ordSeq (s : State) (n : VReg) (v : VWord) (k : BitVec 4) :
    (s.setV n v k).ctx.ordSeq = s.ctx.ordSeq := rfl
@[simp] theorem State.setV_ctx_lastOp (s : State) (n : VReg) (v : VWord) (k : BitVec 4) :
    (s.setV n v k).ctx.lastOp = s.ctx.lastOp := rfl
@[simp] theorem State.setV_ctx_qsam (s : State) (n : VReg) (v : VWord) (k : BitVec 4) :
    (s.setV n v k).ctx.qsam = s.ctx.qsam := rfl
@[simp] theorem State.setV_ctx_wordWait (s : State) (n : VReg) (v : VWord) (k : BitVec 4) :
    (s.setV n v k).ctx.wordWait = s.ctx.wordWait := rfl
@[simp] theorem State.setV_ctx_arrived (s : State) (n : VReg) (v : VWord) (k : BitVec 4) :
    (s.setV n v k).ctx.arrived = s.ctx.arrived := rfl
@[simp] theorem State.setV_ctx_hbuf (s : State) (n : VReg) (v : VWord) (k : BitVec 4) :
    (s.setV n v k).ctx.hbuf = s.ctx.hbuf := rfl
@[simp] theorem State.setV_ctx_haddr (s : State) (n : VReg) (v : VWord) (k : BitVec 4) :
    (s.setV n v k).ctx.haddr = s.ctx.haddr := rfl
@[simp] theorem State.setV_ctx_waitStart (s : State) (n : VReg) (v : VWord) (k : BitVec 4) :
    (s.setV n v k).ctx.waitStart = s.ctx.waitStart := rfl
@[simp] theorem State.setV_ctx_lastWait (s : State) (n : VReg) (v : VWord) (k : BitVec 4) :
    (s.setV n v k).ctx.lastWait = s.ctx.lastWait := rfl
@[simp] theorem State.setV_ctx_owed (s : State) (n : VReg) (v : VWord) (k : BitVec 4) :
    (s.setV n v k).ctx.owed = s.ctx.owed := rfl
@[simp] theorem State.setV_ctx_setter (s : State) (n : VReg) (v : VWord) (k : BitVec 4) :
    (s.setV n v k).ctx.setter = s.ctx.setter := rfl
@[simp] theorem State.setV_ctx_preq (s : State) (n : VReg) (v : VWord) (k : BitVec 4) :
    (s.setV n v k).ctx.preq = s.ctx.preq := rfl

/-! The raise of sticky flags. -/

@[simp] theorem State.raiseBits_going (s : State) (n : Nat) : (s.raiseBits n).going = s.going := rfl
@[simp] theorem State.raiseBits_foc (s : State) (n : Nat) : (s.raiseBits n).foc = s.foc := rfl
@[simp] theorem State.raiseBits_core (s : State) (n : Nat) : (s.raiseBits n).core = s.core := rfl
@[simp] theorem State.raiseBits_die (s : State) (n : Nat) : (s.raiseBits n).die = s.die := rfl
@[simp] theorem State.raiseBits_ctxs (s : State) (n : Nat) : (s.raiseBits n).ctxs = s.ctxs := rfl
@[simp] theorem State.raiseBits_cores (s : State) (n : Nat) : (s.raiseBits n).cores = s.cores := rfl
@[simp] theorem State.raiseBits_dies (s : State) (n : Nat) : (s.raiseBits n).dies = s.dies := rfl
@[simp] theorem State.raiseBits_pkgs (s : State) (n : Nat) : (s.raiseBits n).pkgs = s.pkgs := rfl
@[simp] theorem State.raiseBits_npkg (s : State) (n : Nat) : (s.raiseBits n).npkg = s.npkg := rfl
@[simp] theorem State.raiseBits_launches (s : State) (n : Nat) : (s.raiseBits n).launches = s.launches := rfl
@[simp] theorem State.raiseBits_groups (s : State) (n : Nat) : (s.raiseBits n).groups = s.groups := rfl
@[simp] theorem State.raiseBits_mem (s : State) (n : Nat) : (s.raiseBits n).mem = s.mem := rfl
@[simp] theorem State.raiseBits_poison (s : State) (n : Nat) : (s.raiseBits n).poison = s.poison := rfl
@[simp] theorem State.raiseBits_hist (s : State) (n : Nat) : (s.raiseBits n).hist = s.hist := rfl
@[simp] theorem State.raiseBits_flight (s : State) (n : Nat) : (s.raiseBits n).flight = s.flight := rfl
@[simp] theorem State.raiseBits_cycle (s : State) (n : Nat) : (s.raiseBits n).cycle = s.cycle := rfl
@[simp] theorem State.raiseBits_fresh (s : State) (n : Nat) : (s.raiseBits n).fresh = s.fresh := rfl
@[simp] theorem State.raiseBits_agenda (s : State) (n : Nat) : (s.raiseBits n).agenda = s.agenda := rfl
@[simp] theorem State.raiseBits_ctx_x (s : State) (n : Nat) :
    (s.raiseBits n).ctx.x = s.ctx.x := rfl
@[simp] theorem State.raiseBits_ctx_q (s : State) (n : Nat) :
    (s.raiseBits n).ctx.q = s.ctx.q := rfl
@[simp] theorem State.raiseBits_ctx_v (s : State) (n : Nat) :
    (s.raiseBits n).ctx.v = s.ctx.v := rfl
@[simp] theorem State.raiseBits_ctx_vtag (s : State) (n : Nat) :
    (s.raiseBits n).ctx.vtag = s.ctx.vtag := rfl
@[simp] theorem State.raiseBits_ctx_m (s : State) (n : Nat) :
    (s.raiseBits n).ctx.m = s.ctx.m := rfl
@[simp] theorem State.raiseBits_ctx_w (s : State) (n : Nat) :
    (s.raiseBits n).ctx.w = s.ctx.w := rfl
@[simp] theorem State.raiseBits_ctx_cb (s : State) (n : Nat) :
    (s.raiseBits n).ctx.cb = s.ctx.cb := rfl
@[simp] theorem State.raiseBits_ctx_pk (s : State) (n : Nat) :
    (s.raiseBits n).ctx.pk = s.ctx.pk := rfl
@[simp] theorem State.raiseBits_ctx_sh (s : State) (n : Nat) :
    (s.raiseBits n).ctx.sh = s.ctx.sh := rfl
@[simp] theorem State.raiseBits_ctx_ht (s : State) (n : Nat) :
    (s.raiseBits n).ctx.ht = s.ctx.ht := rfl
@[simp] theorem State.raiseBits_ctx_pw (s : State) (n : Nat) :
    (s.raiseBits n).ctx.pw = s.ctx.pw := rfl
@[simp] theorem State.raiseBits_ctx_lv (s : State) (n : Nat) :
    (s.raiseBits n).ctx.lv = s.ctx.lv := rfl
@[simp] theorem State.raiseBits_ctx_cview (s : State) (n : Nat) :
    (s.raiseBits n).ctx.cview = s.ctx.cview := rfl
@[simp] theorem State.raiseBits_ctx_pp (s : State) (n : Nat) :
    (s.raiseBits n).ctx.pp = s.ctx.pp := rfl
@[simp] theorem State.raiseBits_ctx_phase (s : State) (n : Nat) :
    (s.raiseBits n).ctx.phase = s.ctx.phase := rfl
@[simp] theorem State.raiseBits_ctx_dstep (s : State) (n : Nat) :
    (s.raiseBits n).ctx.dstep = s.ctx.dstep := rfl
@[simp] theorem State.raiseBits_ctx_gstart (s : State) (n : Nat) :
    (s.raiseBits n).ctx.gstart = s.ctx.gstart := rfl
@[simp] theorem State.raiseBits_ctx_pc (s : State) (n : Nat) :
    (s.raiseBits n).ctx.pc = s.ctx.pc := rfl
@[simp] theorem State.raiseBits_ctx_tvec (s : State) (n : Nat) :
    (s.raiseBits n).ctx.tvec = s.ctx.tvec := rfl
@[simp] theorem State.raiseBits_ctx_tscr (s : State) (n : Nat) :
    (s.raiseBits n).ctx.tscr = s.ctx.tscr := rfl
@[simp] theorem State.raiseBits_ctx_trap (s : State) (n : Nat) :
    (s.raiseBits n).ctx.trap = s.ctx.trap := rfl
@[simp] theorem State.raiseBits_ctx_inh (s : State) (n : Nat) :
    (s.raiseBits n).ctx.inh = s.ctx.inh := rfl
@[simp] theorem State.raiseBits_ctx_fwd (s : State) (n : Nat) :
    (s.raiseBits n).ctx.fwd = s.ctx.fwd := rfl
@[simp] theorem State.raiseBits_ctx_pend (s : State) (n : Nat) :
    (s.raiseBits n).ctx.pend = s.ctx.pend := rfl
@[simp] theorem State.raiseBits_ctx_ib (s : State) (n : Nat) :
    (s.raiseBits n).ctx.ib = s.ctx.ib := rfl
@[simp] theorem State.raiseBits_ctx_done (s : State) (n : Nat) :
    (s.raiseBits n).ctx.done = s.ctx.done := rfl
@[simp] theorem State.raiseBits_ctx_slot (s : State) (n : Nat) :
    (s.raiseBits n).ctx.slot = s.ctx.slot := rfl
@[simp] theorem State.raiseBits_ctx_slotEnd (s : State) (n : Nat) :
    (s.raiseBits n).ctx.slotEnd = s.ctx.slotEnd := rfl
@[simp] theorem State.raiseBits_ctx_xfer (s : State) (n : Nat) :
    (s.raiseBits n).ctx.xfer = s.ctx.xfer := rfl
@[simp] theorem State.raiseBits_ctx_loopStart (s : State) (n : Nat) :
    (s.raiseBits n).ctx.loopStart = s.ctx.loopStart := rfl
@[simp] theorem State.raiseBits_ctx_eretPend (s : State) (n : Nat) :
    (s.raiseBits n).ctx.eretPend = s.ctx.eretPend := rfl
@[simp] theorem State.raiseBits_ctx_reissue (s : State) (n : Nat) :
    (s.raiseBits n).ctx.reissue = s.ctx.reissue := rfl
@[simp] theorem State.raiseBits_ctx_exempt (s : State) (n : Nat) :
    (s.raiseBits n).ctx.exempt = s.ctx.exempt := rfl
@[simp] theorem State.raiseBits_ctx_grpR (s : State) (n : Nat) :
    (s.raiseBits n).ctx.grpR = s.ctx.grpR := rfl
@[simp] theorem State.raiseBits_ctx_grpW (s : State) (n : Nat) :
    (s.raiseBits n).ctx.grpW = s.ctx.grpW := rfl
@[simp] theorem State.raiseBits_ctx_saved (s : State) (n : Nat) :
    (s.raiseBits n).ctx.saved = s.ctx.saved := rfl
@[simp] theorem State.raiseBits_ctx_defer (s : State) (n : Nat) :
    (s.raiseBits n).ctx.defer = s.ctx.defer := rfl
@[simp] theorem State.raiseBits_ctx_bundles (s : State) (n : Nat) :
    (s.raiseBits n).ctx.bundles = s.ctx.bundles := rfl
@[simp] theorem State.raiseBits_ctx_ecnt (s : State) (n : Nat) :
    (s.raiseBits n).ctx.ecnt = s.ctx.ecnt := rfl
@[simp] theorem State.raiseBits_ctx_status (s : State) (n : Nat) :
    (s.raiseBits n).ctx.status = s.ctx.status := rfl
@[simp] theorem State.raiseBits_ctx_ctrl (s : State) (n : Nat) :
    (s.raiseBits n).ctx.ctrl = s.ctx.ctrl := rfl
@[simp] theorem State.raiseBits_ctx_task (s : State) (n : Nat) :
    (s.raiseBits n).ctx.task = s.ctx.task := rfl
@[simp] theorem State.raiseBits_ctx_seq (s : State) (n : Nat) :
    (s.raiseBits n).ctx.seq = s.ctx.seq := rfl
@[simp] theorem State.raiseBits_ctx_loads (s : State) (n : Nat) :
    (s.raiseBits n).ctx.loads = s.ctx.loads := rfl
@[simp] theorem State.raiseBits_ctx_stores (s : State) (n : Nat) :
    (s.raiseBits n).ctx.stores = s.ctx.stores := rfl
@[simp] theorem State.raiseBits_ctx_points (s : State) (n : Nat) :
    (s.raiseBits n).ctx.points = s.ctx.points := rfl
@[simp] theorem State.raiseBits_ctx_sq (s : State) (n : Nat) :
    (s.raiseBits n).ctx.sq = s.ctx.sq := rfl
@[simp] theorem State.raiseBits_ctx_ordSet (s : State) (n : Nat) :
    (s.raiseBits n).ctx.ordSet = s.ctx.ordSet := rfl
@[simp] theorem State.raiseBits_ctx_xiq (s : State) (n : Nat) :
    (s.raiseBits n).ctx.xiq = s.ctx.xiq := rfl
@[simp] theorem State.raiseBits_ctx_opn (s : State) (n : Nat) :
    (s.raiseBits n).ctx.opn = s.ctx.opn := rfl
@[simp] theorem State.raiseBits_ctx_joins (s : State) (n : Nat) :
    (s.raiseBits n).ctx.joins = s.ctx.joins := rfl
@[simp] theorem State.raiseBits_ctx_wpend (s : State) (n : Nat) :
    (s.raiseBits n).ctx.wpend = s.ctx.wpend := rfl
@[simp] theorem State.raiseBits_ctx_from_ (s : State) (n : Nat) :
    (s.raiseBits n).ctx.from_ = s.ctx.from_ := rfl
@[simp] theorem State.raiseBits_ctx_echg (s : State) (n : Nat) :
    (s.raiseBits n).ctx.echg = s.ctx.echg := rfl
@[simp] theorem State.raiseBits_ctx_eput (s : State) (n : Nat) :
    (s.raiseBits n).ctx.eput = s.ctx.eput := rfl
@[simp] theorem State.raiseBits_ctx_obk (s : State) (n : Nat) :
    (s.raiseBits n).ctx.obk = s.ctx.obk := rfl
@[simp] theorem State.raiseBits_ctx_owa (s : State) (n : Nat) :
    (s.raiseBits n).ctx.owa = s.ctx.owa := rfl
@[simp] theorem State.raiseBits_ctx_frlen (s : State) (n : Nat) :
    (s.raiseBits n).ctx.frlen = s.ctx.frlen := rfl
@[simp] theorem State.raiseBits_ctx_epoch (s : State) (n : Nat) :
    (s.raiseBits n).ctx.epoch = s.ctx.epoch := rfl
@[simp] theorem State.raiseBits_ctx_ordSeq (s : State) (n : Nat) :
    (s.raiseBits n).ctx.ordSeq = s.ctx.ordSeq := rfl
@[simp] theorem State.raiseBits_ctx_lastOp (s : State) (n : Nat) :
    (s.raiseBits n).ctx.lastOp = s.ctx.lastOp := rfl
@[simp] theorem State.raiseBits_ctx_qsam (s : State) (n : Nat) :
    (s.raiseBits n).ctx.qsam = s.ctx.qsam := rfl
@[simp] theorem State.raiseBits_ctx_wordWait (s : State) (n : Nat) :
    (s.raiseBits n).ctx.wordWait = s.ctx.wordWait := rfl
@[simp] theorem State.raiseBits_ctx_arrived (s : State) (n : Nat) :
    (s.raiseBits n).ctx.arrived = s.ctx.arrived := rfl
@[simp] theorem State.raiseBits_ctx_hbuf (s : State) (n : Nat) :
    (s.raiseBits n).ctx.hbuf = s.ctx.hbuf := rfl
@[simp] theorem State.raiseBits_ctx_haddr (s : State) (n : Nat) :
    (s.raiseBits n).ctx.haddr = s.ctx.haddr := rfl
@[simp] theorem State.raiseBits_ctx_waitStart (s : State) (n : Nat) :
    (s.raiseBits n).ctx.waitStart = s.ctx.waitStart := rfl
@[simp] theorem State.raiseBits_ctx_lastWait (s : State) (n : Nat) :
    (s.raiseBits n).ctx.lastWait = s.ctx.lastWait := rfl
@[simp] theorem State.raiseBits_ctx_owed (s : State) (n : Nat) :
    (s.raiseBits n).ctx.owed = s.ctx.owed := rfl
@[simp] theorem State.raiseBits_ctx_setter (s : State) (n : Nat) :
    (s.raiseBits n).ctx.setter = s.ctx.setter := rfl
@[simp] theorem State.raiseBits_ctx_preq (s : State) (n : Nat) :
    (s.raiseBits n).ctx.preq = s.ctx.preq := rfl

/-! The charge of energy. -/

@[simp] theorem State.chargeEnergy_going (s : State) (n : Nat) : (s.chargeEnergy n).going = s.going := rfl
@[simp] theorem State.chargeEnergy_foc (s : State) (n : Nat) : (s.chargeEnergy n).foc = s.foc := rfl
@[simp] theorem State.chargeEnergy_core (s : State) (n : Nat) : (s.chargeEnergy n).core = s.core := rfl
@[simp] theorem State.chargeEnergy_ctxs (s : State) (n : Nat) : (s.chargeEnergy n).ctxs = s.ctxs := rfl
@[simp] theorem State.chargeEnergy_cores (s : State) (n : Nat) : (s.chargeEnergy n).cores = s.cores := rfl
@[simp] theorem State.chargeEnergy_dies (s : State) (n : Nat) : (s.chargeEnergy n).dies = s.dies := rfl
@[simp] theorem State.chargeEnergy_pkgs (s : State) (n : Nat) : (s.chargeEnergy n).pkgs = s.pkgs := rfl
@[simp] theorem State.chargeEnergy_npkg (s : State) (n : Nat) : (s.chargeEnergy n).npkg = s.npkg := rfl
@[simp] theorem State.chargeEnergy_launches (s : State) (n : Nat) : (s.chargeEnergy n).launches = s.launches := rfl
@[simp] theorem State.chargeEnergy_groups (s : State) (n : Nat) : (s.chargeEnergy n).groups = s.groups := rfl
@[simp] theorem State.chargeEnergy_mem (s : State) (n : Nat) : (s.chargeEnergy n).mem = s.mem := rfl
@[simp] theorem State.chargeEnergy_poison (s : State) (n : Nat) : (s.chargeEnergy n).poison = s.poison := rfl
@[simp] theorem State.chargeEnergy_hist (s : State) (n : Nat) : (s.chargeEnergy n).hist = s.hist := rfl
@[simp] theorem State.chargeEnergy_flight (s : State) (n : Nat) : (s.chargeEnergy n).flight = s.flight := rfl
@[simp] theorem State.chargeEnergy_cycle (s : State) (n : Nat) : (s.chargeEnergy n).cycle = s.cycle := rfl
@[simp] theorem State.chargeEnergy_fresh (s : State) (n : Nat) : (s.chargeEnergy n).fresh = s.fresh := rfl
@[simp] theorem State.chargeEnergy_agenda (s : State) (n : Nat) : (s.chargeEnergy n).agenda = s.agenda := rfl
@[simp] theorem State.chargeEnergy_ctx_x (s : State) (n : Nat) :
    (s.chargeEnergy n).ctx.x = s.ctx.x := rfl
@[simp] theorem State.chargeEnergy_ctx_q (s : State) (n : Nat) :
    (s.chargeEnergy n).ctx.q = s.ctx.q := rfl
@[simp] theorem State.chargeEnergy_ctx_v (s : State) (n : Nat) :
    (s.chargeEnergy n).ctx.v = s.ctx.v := rfl
@[simp] theorem State.chargeEnergy_ctx_vtag (s : State) (n : Nat) :
    (s.chargeEnergy n).ctx.vtag = s.ctx.vtag := rfl
@[simp] theorem State.chargeEnergy_ctx_m (s : State) (n : Nat) :
    (s.chargeEnergy n).ctx.m = s.ctx.m := rfl
@[simp] theorem State.chargeEnergy_ctx_w (s : State) (n : Nat) :
    (s.chargeEnergy n).ctx.w = s.ctx.w := rfl
@[simp] theorem State.chargeEnergy_ctx_cb (s : State) (n : Nat) :
    (s.chargeEnergy n).ctx.cb = s.ctx.cb := rfl
@[simp] theorem State.chargeEnergy_ctx_pk (s : State) (n : Nat) :
    (s.chargeEnergy n).ctx.pk = s.ctx.pk := rfl
@[simp] theorem State.chargeEnergy_ctx_sh (s : State) (n : Nat) :
    (s.chargeEnergy n).ctx.sh = s.ctx.sh := rfl
@[simp] theorem State.chargeEnergy_ctx_ht (s : State) (n : Nat) :
    (s.chargeEnergy n).ctx.ht = s.ctx.ht := rfl
@[simp] theorem State.chargeEnergy_ctx_pw (s : State) (n : Nat) :
    (s.chargeEnergy n).ctx.pw = s.ctx.pw := rfl
@[simp] theorem State.chargeEnergy_ctx_lv (s : State) (n : Nat) :
    (s.chargeEnergy n).ctx.lv = s.ctx.lv := rfl
@[simp] theorem State.chargeEnergy_ctx_cview (s : State) (n : Nat) :
    (s.chargeEnergy n).ctx.cview = s.ctx.cview := rfl
@[simp] theorem State.chargeEnergy_ctx_pp (s : State) (n : Nat) :
    (s.chargeEnergy n).ctx.pp = s.ctx.pp := rfl
@[simp] theorem State.chargeEnergy_ctx_phase (s : State) (n : Nat) :
    (s.chargeEnergy n).ctx.phase = s.ctx.phase := rfl
@[simp] theorem State.chargeEnergy_ctx_dstep (s : State) (n : Nat) :
    (s.chargeEnergy n).ctx.dstep = s.ctx.dstep := rfl
@[simp] theorem State.chargeEnergy_ctx_gstart (s : State) (n : Nat) :
    (s.chargeEnergy n).ctx.gstart = s.ctx.gstart := rfl
@[simp] theorem State.chargeEnergy_ctx_pc (s : State) (n : Nat) :
    (s.chargeEnergy n).ctx.pc = s.ctx.pc := rfl
@[simp] theorem State.chargeEnergy_ctx_tvec (s : State) (n : Nat) :
    (s.chargeEnergy n).ctx.tvec = s.ctx.tvec := rfl
@[simp] theorem State.chargeEnergy_ctx_tscr (s : State) (n : Nat) :
    (s.chargeEnergy n).ctx.tscr = s.ctx.tscr := rfl
@[simp] theorem State.chargeEnergy_ctx_trap (s : State) (n : Nat) :
    (s.chargeEnergy n).ctx.trap = s.ctx.trap := rfl
@[simp] theorem State.chargeEnergy_ctx_inh (s : State) (n : Nat) :
    (s.chargeEnergy n).ctx.inh = s.ctx.inh := rfl
@[simp] theorem State.chargeEnergy_ctx_fwd (s : State) (n : Nat) :
    (s.chargeEnergy n).ctx.fwd = s.ctx.fwd := rfl
@[simp] theorem State.chargeEnergy_ctx_pend (s : State) (n : Nat) :
    (s.chargeEnergy n).ctx.pend = s.ctx.pend := rfl
@[simp] theorem State.chargeEnergy_ctx_ib (s : State) (n : Nat) :
    (s.chargeEnergy n).ctx.ib = s.ctx.ib := rfl
@[simp] theorem State.chargeEnergy_ctx_done (s : State) (n : Nat) :
    (s.chargeEnergy n).ctx.done = s.ctx.done := rfl
@[simp] theorem State.chargeEnergy_ctx_slot (s : State) (n : Nat) :
    (s.chargeEnergy n).ctx.slot = s.ctx.slot := rfl
@[simp] theorem State.chargeEnergy_ctx_slotEnd (s : State) (n : Nat) :
    (s.chargeEnergy n).ctx.slotEnd = s.ctx.slotEnd := rfl
@[simp] theorem State.chargeEnergy_ctx_xfer (s : State) (n : Nat) :
    (s.chargeEnergy n).ctx.xfer = s.ctx.xfer := rfl
@[simp] theorem State.chargeEnergy_ctx_loopStart (s : State) (n : Nat) :
    (s.chargeEnergy n).ctx.loopStart = s.ctx.loopStart := rfl
@[simp] theorem State.chargeEnergy_ctx_eretPend (s : State) (n : Nat) :
    (s.chargeEnergy n).ctx.eretPend = s.ctx.eretPend := rfl
@[simp] theorem State.chargeEnergy_ctx_reissue (s : State) (n : Nat) :
    (s.chargeEnergy n).ctx.reissue = s.ctx.reissue := rfl
@[simp] theorem State.chargeEnergy_ctx_exempt (s : State) (n : Nat) :
    (s.chargeEnergy n).ctx.exempt = s.ctx.exempt := rfl
@[simp] theorem State.chargeEnergy_ctx_grpR (s : State) (n : Nat) :
    (s.chargeEnergy n).ctx.grpR = s.ctx.grpR := rfl
@[simp] theorem State.chargeEnergy_ctx_grpW (s : State) (n : Nat) :
    (s.chargeEnergy n).ctx.grpW = s.ctx.grpW := rfl
@[simp] theorem State.chargeEnergy_ctx_saved (s : State) (n : Nat) :
    (s.chargeEnergy n).ctx.saved = s.ctx.saved := rfl
@[simp] theorem State.chargeEnergy_ctx_defer (s : State) (n : Nat) :
    (s.chargeEnergy n).ctx.defer = s.ctx.defer := rfl
@[simp] theorem State.chargeEnergy_ctx_bundles (s : State) (n : Nat) :
    (s.chargeEnergy n).ctx.bundles = s.ctx.bundles := rfl
@[simp] theorem State.chargeEnergy_ctx_status (s : State) (n : Nat) :
    (s.chargeEnergy n).ctx.status = s.ctx.status := rfl
@[simp] theorem State.chargeEnergy_ctx_ctrl (s : State) (n : Nat) :
    (s.chargeEnergy n).ctx.ctrl = s.ctx.ctrl := rfl
@[simp] theorem State.chargeEnergy_ctx_task (s : State) (n : Nat) :
    (s.chargeEnergy n).ctx.task = s.ctx.task := rfl
@[simp] theorem State.chargeEnergy_ctx_seq (s : State) (n : Nat) :
    (s.chargeEnergy n).ctx.seq = s.ctx.seq := rfl
@[simp] theorem State.chargeEnergy_ctx_loads (s : State) (n : Nat) :
    (s.chargeEnergy n).ctx.loads = s.ctx.loads := rfl
@[simp] theorem State.chargeEnergy_ctx_stores (s : State) (n : Nat) :
    (s.chargeEnergy n).ctx.stores = s.ctx.stores := rfl
@[simp] theorem State.chargeEnergy_ctx_points (s : State) (n : Nat) :
    (s.chargeEnergy n).ctx.points = s.ctx.points := rfl
@[simp] theorem State.chargeEnergy_ctx_sq (s : State) (n : Nat) :
    (s.chargeEnergy n).ctx.sq = s.ctx.sq := rfl
@[simp] theorem State.chargeEnergy_ctx_ordSet (s : State) (n : Nat) :
    (s.chargeEnergy n).ctx.ordSet = s.ctx.ordSet := rfl
@[simp] theorem State.chargeEnergy_ctx_xiq (s : State) (n : Nat) :
    (s.chargeEnergy n).ctx.xiq = s.ctx.xiq := rfl
@[simp] theorem State.chargeEnergy_ctx_opn (s : State) (n : Nat) :
    (s.chargeEnergy n).ctx.opn = s.ctx.opn := rfl
@[simp] theorem State.chargeEnergy_ctx_joins (s : State) (n : Nat) :
    (s.chargeEnergy n).ctx.joins = s.ctx.joins := rfl
@[simp] theorem State.chargeEnergy_ctx_wpend (s : State) (n : Nat) :
    (s.chargeEnergy n).ctx.wpend = s.ctx.wpend := rfl
@[simp] theorem State.chargeEnergy_ctx_cstat (s : State) (n : Nat) :
    (s.chargeEnergy n).ctx.cstat = s.ctx.cstat := rfl
@[simp] theorem State.chargeEnergy_ctx_from_ (s : State) (n : Nat) :
    (s.chargeEnergy n).ctx.from_ = s.ctx.from_ := rfl
@[simp] theorem State.chargeEnergy_ctx_ecnt (s : State) (n : Nat) :
    (s.chargeEnergy n).ctx.ecnt = s.ctx.ecnt := rfl
@[simp] theorem State.chargeEnergy_ctx_eput (s : State) (n : Nat) :
    (s.chargeEnergy n).ctx.eput = s.ctx.eput := rfl
@[simp] theorem State.chargeEnergy_ctx_obk (s : State) (n : Nat) :
    (s.chargeEnergy n).ctx.obk = s.ctx.obk := rfl
@[simp] theorem State.chargeEnergy_ctx_owa (s : State) (n : Nat) :
    (s.chargeEnergy n).ctx.owa = s.ctx.owa := rfl
@[simp] theorem State.chargeEnergy_ctx_frlen (s : State) (n : Nat) :
    (s.chargeEnergy n).ctx.frlen = s.ctx.frlen := rfl
@[simp] theorem State.chargeEnergy_ctx_epoch (s : State) (n : Nat) :
    (s.chargeEnergy n).ctx.epoch = s.ctx.epoch := rfl
@[simp] theorem State.chargeEnergy_ctx_ordSeq (s : State) (n : Nat) :
    (s.chargeEnergy n).ctx.ordSeq = s.ctx.ordSeq := rfl
@[simp] theorem State.chargeEnergy_ctx_lastOp (s : State) (n : Nat) :
    (s.chargeEnergy n).ctx.lastOp = s.ctx.lastOp := rfl
@[simp] theorem State.chargeEnergy_ctx_qsam (s : State) (n : Nat) :
    (s.chargeEnergy n).ctx.qsam = s.ctx.qsam := rfl
@[simp] theorem State.chargeEnergy_ctx_wordWait (s : State) (n : Nat) :
    (s.chargeEnergy n).ctx.wordWait = s.ctx.wordWait := rfl
@[simp] theorem State.chargeEnergy_ctx_arrived (s : State) (n : Nat) :
    (s.chargeEnergy n).ctx.arrived = s.ctx.arrived := rfl
@[simp] theorem State.chargeEnergy_ctx_hbuf (s : State) (n : Nat) :
    (s.chargeEnergy n).ctx.hbuf = s.ctx.hbuf := rfl
@[simp] theorem State.chargeEnergy_ctx_haddr (s : State) (n : Nat) :
    (s.chargeEnergy n).ctx.haddr = s.ctx.haddr := rfl
@[simp] theorem State.chargeEnergy_ctx_waitStart (s : State) (n : Nat) :
    (s.chargeEnergy n).ctx.waitStart = s.ctx.waitStart := rfl
@[simp] theorem State.chargeEnergy_ctx_lastWait (s : State) (n : Nat) :
    (s.chargeEnergy n).ctx.lastWait = s.ctx.lastWait := rfl
@[simp] theorem State.chargeEnergy_ctx_owed (s : State) (n : Nat) :
    (s.chargeEnergy n).ctx.owed = s.ctx.owed := rfl
@[simp] theorem State.chargeEnergy_ctx_setter (s : State) (n : Nat) :
    (s.chargeEnergy n).ctx.setter = s.ctx.setter := rfl
@[simp] theorem State.chargeEnergy_ctx_preq (s : State) (n : Nat) :
    (s.chargeEnergy n).ctx.preq = s.ctx.preq := rfl

/-! The change of a loop level. -/

@[simp] theorem State.setLevel_going (s : State) (n : Fin 6) (l : LoopLevel) : (s.setLevel n l).going = s.going := rfl
@[simp] theorem State.setLevel_foc (s : State) (n : Fin 6) (l : LoopLevel) : (s.setLevel n l).foc = s.foc := rfl
@[simp] theorem State.setLevel_core (s : State) (n : Fin 6) (l : LoopLevel) : (s.setLevel n l).core = s.core := rfl
@[simp] theorem State.setLevel_die (s : State) (n : Fin 6) (l : LoopLevel) : (s.setLevel n l).die = s.die := rfl
@[simp] theorem State.setLevel_ctxs (s : State) (n : Fin 6) (l : LoopLevel) : (s.setLevel n l).ctxs = s.ctxs := rfl
@[simp] theorem State.setLevel_cores (s : State) (n : Fin 6) (l : LoopLevel) : (s.setLevel n l).cores = s.cores := rfl
@[simp] theorem State.setLevel_dies (s : State) (n : Fin 6) (l : LoopLevel) : (s.setLevel n l).dies = s.dies := rfl
@[simp] theorem State.setLevel_pkgs (s : State) (n : Fin 6) (l : LoopLevel) : (s.setLevel n l).pkgs = s.pkgs := rfl
@[simp] theorem State.setLevel_npkg (s : State) (n : Fin 6) (l : LoopLevel) : (s.setLevel n l).npkg = s.npkg := rfl
@[simp] theorem State.setLevel_launches (s : State) (n : Fin 6) (l : LoopLevel) : (s.setLevel n l).launches = s.launches := rfl
@[simp] theorem State.setLevel_groups (s : State) (n : Fin 6) (l : LoopLevel) : (s.setLevel n l).groups = s.groups := rfl
@[simp] theorem State.setLevel_mem (s : State) (n : Fin 6) (l : LoopLevel) : (s.setLevel n l).mem = s.mem := rfl
@[simp] theorem State.setLevel_poison (s : State) (n : Fin 6) (l : LoopLevel) : (s.setLevel n l).poison = s.poison := rfl
@[simp] theorem State.setLevel_hist (s : State) (n : Fin 6) (l : LoopLevel) : (s.setLevel n l).hist = s.hist := rfl
@[simp] theorem State.setLevel_flight (s : State) (n : Fin 6) (l : LoopLevel) : (s.setLevel n l).flight = s.flight := rfl
@[simp] theorem State.setLevel_cycle (s : State) (n : Fin 6) (l : LoopLevel) : (s.setLevel n l).cycle = s.cycle := rfl
@[simp] theorem State.setLevel_fresh (s : State) (n : Fin 6) (l : LoopLevel) : (s.setLevel n l).fresh = s.fresh := rfl
@[simp] theorem State.setLevel_agenda (s : State) (n : Fin 6) (l : LoopLevel) : (s.setLevel n l).agenda = s.agenda := rfl
@[simp] theorem State.setLevel_ctx_x (s : State) (n : Fin 6) (l : LoopLevel) :
    (s.setLevel n l).ctx.x = s.ctx.x := rfl
@[simp] theorem State.setLevel_ctx_q (s : State) (n : Fin 6) (l : LoopLevel) :
    (s.setLevel n l).ctx.q = s.ctx.q := rfl
@[simp] theorem State.setLevel_ctx_v (s : State) (n : Fin 6) (l : LoopLevel) :
    (s.setLevel n l).ctx.v = s.ctx.v := rfl
@[simp] theorem State.setLevel_ctx_vtag (s : State) (n : Fin 6) (l : LoopLevel) :
    (s.setLevel n l).ctx.vtag = s.ctx.vtag := rfl
@[simp] theorem State.setLevel_ctx_m (s : State) (n : Fin 6) (l : LoopLevel) :
    (s.setLevel n l).ctx.m = s.ctx.m := rfl
@[simp] theorem State.setLevel_ctx_w (s : State) (n : Fin 6) (l : LoopLevel) :
    (s.setLevel n l).ctx.w = s.ctx.w := rfl
@[simp] theorem State.setLevel_ctx_cb (s : State) (n : Fin 6) (l : LoopLevel) :
    (s.setLevel n l).ctx.cb = s.ctx.cb := rfl
@[simp] theorem State.setLevel_ctx_pk (s : State) (n : Fin 6) (l : LoopLevel) :
    (s.setLevel n l).ctx.pk = s.ctx.pk := rfl
@[simp] theorem State.setLevel_ctx_sh (s : State) (n : Fin 6) (l : LoopLevel) :
    (s.setLevel n l).ctx.sh = s.ctx.sh := rfl
@[simp] theorem State.setLevel_ctx_ht (s : State) (n : Fin 6) (l : LoopLevel) :
    (s.setLevel n l).ctx.ht = s.ctx.ht := rfl
@[simp] theorem State.setLevel_ctx_pw (s : State) (n : Fin 6) (l : LoopLevel) :
    (s.setLevel n l).ctx.pw = s.ctx.pw := rfl
@[simp] theorem State.setLevel_ctx_cstat (s : State) (n : Fin 6) (l : LoopLevel) :
    (s.setLevel n l).ctx.cstat = s.ctx.cstat := rfl
@[simp] theorem State.setLevel_ctx_cview (s : State) (n : Fin 6) (l : LoopLevel) :
    (s.setLevel n l).ctx.cview = s.ctx.cview := rfl
@[simp] theorem State.setLevel_ctx_pp (s : State) (n : Fin 6) (l : LoopLevel) :
    (s.setLevel n l).ctx.pp = s.ctx.pp := rfl
@[simp] theorem State.setLevel_ctx_phase (s : State) (n : Fin 6) (l : LoopLevel) :
    (s.setLevel n l).ctx.phase = s.ctx.phase := rfl
@[simp] theorem State.setLevel_ctx_dstep (s : State) (n : Fin 6) (l : LoopLevel) :
    (s.setLevel n l).ctx.dstep = s.ctx.dstep := rfl
@[simp] theorem State.setLevel_ctx_gstart (s : State) (n : Fin 6) (l : LoopLevel) :
    (s.setLevel n l).ctx.gstart = s.ctx.gstart := rfl
@[simp] theorem State.setLevel_ctx_pc (s : State) (n : Fin 6) (l : LoopLevel) :
    (s.setLevel n l).ctx.pc = s.ctx.pc := rfl
@[simp] theorem State.setLevel_ctx_tvec (s : State) (n : Fin 6) (l : LoopLevel) :
    (s.setLevel n l).ctx.tvec = s.ctx.tvec := rfl
@[simp] theorem State.setLevel_ctx_tscr (s : State) (n : Fin 6) (l : LoopLevel) :
    (s.setLevel n l).ctx.tscr = s.ctx.tscr := rfl
@[simp] theorem State.setLevel_ctx_trap (s : State) (n : Fin 6) (l : LoopLevel) :
    (s.setLevel n l).ctx.trap = s.ctx.trap := rfl
@[simp] theorem State.setLevel_ctx_inh (s : State) (n : Fin 6) (l : LoopLevel) :
    (s.setLevel n l).ctx.inh = s.ctx.inh := rfl
@[simp] theorem State.setLevel_ctx_fwd (s : State) (n : Fin 6) (l : LoopLevel) :
    (s.setLevel n l).ctx.fwd = s.ctx.fwd := rfl
@[simp] theorem State.setLevel_ctx_pend (s : State) (n : Fin 6) (l : LoopLevel) :
    (s.setLevel n l).ctx.pend = s.ctx.pend := rfl
@[simp] theorem State.setLevel_ctx_ib (s : State) (n : Fin 6) (l : LoopLevel) :
    (s.setLevel n l).ctx.ib = s.ctx.ib := rfl
@[simp] theorem State.setLevel_ctx_done (s : State) (n : Fin 6) (l : LoopLevel) :
    (s.setLevel n l).ctx.done = s.ctx.done := rfl
@[simp] theorem State.setLevel_ctx_slot (s : State) (n : Fin 6) (l : LoopLevel) :
    (s.setLevel n l).ctx.slot = s.ctx.slot := rfl
@[simp] theorem State.setLevel_ctx_slotEnd (s : State) (n : Fin 6) (l : LoopLevel) :
    (s.setLevel n l).ctx.slotEnd = s.ctx.slotEnd := rfl
@[simp] theorem State.setLevel_ctx_xfer (s : State) (n : Fin 6) (l : LoopLevel) :
    (s.setLevel n l).ctx.xfer = s.ctx.xfer := rfl
@[simp] theorem State.setLevel_ctx_loopStart (s : State) (n : Fin 6) (l : LoopLevel) :
    (s.setLevel n l).ctx.loopStart = s.ctx.loopStart := rfl
@[simp] theorem State.setLevel_ctx_eretPend (s : State) (n : Fin 6) (l : LoopLevel) :
    (s.setLevel n l).ctx.eretPend = s.ctx.eretPend := rfl
@[simp] theorem State.setLevel_ctx_reissue (s : State) (n : Fin 6) (l : LoopLevel) :
    (s.setLevel n l).ctx.reissue = s.ctx.reissue := rfl
@[simp] theorem State.setLevel_ctx_exempt (s : State) (n : Fin 6) (l : LoopLevel) :
    (s.setLevel n l).ctx.exempt = s.ctx.exempt := rfl
@[simp] theorem State.setLevel_ctx_grpR (s : State) (n : Fin 6) (l : LoopLevel) :
    (s.setLevel n l).ctx.grpR = s.ctx.grpR := rfl
@[simp] theorem State.setLevel_ctx_grpW (s : State) (n : Fin 6) (l : LoopLevel) :
    (s.setLevel n l).ctx.grpW = s.ctx.grpW := rfl
@[simp] theorem State.setLevel_ctx_saved (s : State) (n : Fin 6) (l : LoopLevel) :
    (s.setLevel n l).ctx.saved = s.ctx.saved := rfl
@[simp] theorem State.setLevel_ctx_defer (s : State) (n : Fin 6) (l : LoopLevel) :
    (s.setLevel n l).ctx.defer = s.ctx.defer := rfl
@[simp] theorem State.setLevel_ctx_bundles (s : State) (n : Fin 6) (l : LoopLevel) :
    (s.setLevel n l).ctx.bundles = s.ctx.bundles := rfl
@[simp] theorem State.setLevel_ctx_ecnt (s : State) (n : Fin 6) (l : LoopLevel) :
    (s.setLevel n l).ctx.ecnt = s.ctx.ecnt := rfl
@[simp] theorem State.setLevel_ctx_status (s : State) (n : Fin 6) (l : LoopLevel) :
    (s.setLevel n l).ctx.status = s.ctx.status := rfl
@[simp] theorem State.setLevel_ctx_ctrl (s : State) (n : Fin 6) (l : LoopLevel) :
    (s.setLevel n l).ctx.ctrl = s.ctx.ctrl := rfl
@[simp] theorem State.setLevel_ctx_task (s : State) (n : Fin 6) (l : LoopLevel) :
    (s.setLevel n l).ctx.task = s.ctx.task := rfl
@[simp] theorem State.setLevel_ctx_seq (s : State) (n : Fin 6) (l : LoopLevel) :
    (s.setLevel n l).ctx.seq = s.ctx.seq := rfl
@[simp] theorem State.setLevel_ctx_loads (s : State) (n : Fin 6) (l : LoopLevel) :
    (s.setLevel n l).ctx.loads = s.ctx.loads := rfl
@[simp] theorem State.setLevel_ctx_stores (s : State) (n : Fin 6) (l : LoopLevel) :
    (s.setLevel n l).ctx.stores = s.ctx.stores := rfl
@[simp] theorem State.setLevel_ctx_points (s : State) (n : Fin 6) (l : LoopLevel) :
    (s.setLevel n l).ctx.points = s.ctx.points := rfl
@[simp] theorem State.setLevel_ctx_sq (s : State) (n : Fin 6) (l : LoopLevel) :
    (s.setLevel n l).ctx.sq = s.ctx.sq := rfl
@[simp] theorem State.setLevel_ctx_ordSet (s : State) (n : Fin 6) (l : LoopLevel) :
    (s.setLevel n l).ctx.ordSet = s.ctx.ordSet := rfl
@[simp] theorem State.setLevel_ctx_xiq (s : State) (n : Fin 6) (l : LoopLevel) :
    (s.setLevel n l).ctx.xiq = s.ctx.xiq := rfl
@[simp] theorem State.setLevel_ctx_opn (s : State) (n : Fin 6) (l : LoopLevel) :
    (s.setLevel n l).ctx.opn = s.ctx.opn := rfl
@[simp] theorem State.setLevel_ctx_joins (s : State) (n : Fin 6) (l : LoopLevel) :
    (s.setLevel n l).ctx.joins = s.ctx.joins := rfl
@[simp] theorem State.setLevel_ctx_wpend (s : State) (n : Fin 6) (l : LoopLevel) :
    (s.setLevel n l).ctx.wpend = s.ctx.wpend := rfl
@[simp] theorem State.setLevel_ctx_from_ (s : State) (n : Fin 6) (l : LoopLevel) :
    (s.setLevel n l).ctx.from_ = s.ctx.from_ := rfl
@[simp] theorem State.setLevel_ctx_echg (s : State) (n : Fin 6) (l : LoopLevel) :
    (s.setLevel n l).ctx.echg = s.ctx.echg := rfl
@[simp] theorem State.setLevel_ctx_eput (s : State) (n : Fin 6) (l : LoopLevel) :
    (s.setLevel n l).ctx.eput = s.ctx.eput := rfl
@[simp] theorem State.setLevel_ctx_obk (s : State) (n : Fin 6) (l : LoopLevel) :
    (s.setLevel n l).ctx.obk = s.ctx.obk := rfl
@[simp] theorem State.setLevel_ctx_owa (s : State) (n : Fin 6) (l : LoopLevel) :
    (s.setLevel n l).ctx.owa = s.ctx.owa := rfl
@[simp] theorem State.setLevel_ctx_frlen (s : State) (n : Fin 6) (l : LoopLevel) :
    (s.setLevel n l).ctx.frlen = s.ctx.frlen := rfl
@[simp] theorem State.setLevel_ctx_epoch (s : State) (n : Fin 6) (l : LoopLevel) :
    (s.setLevel n l).ctx.epoch = s.ctx.epoch := rfl
@[simp] theorem State.setLevel_ctx_ordSeq (s : State) (n : Fin 6) (l : LoopLevel) :
    (s.setLevel n l).ctx.ordSeq = s.ctx.ordSeq := rfl
@[simp] theorem State.setLevel_ctx_lastOp (s : State) (n : Fin 6) (l : LoopLevel) :
    (s.setLevel n l).ctx.lastOp = s.ctx.lastOp := rfl
@[simp] theorem State.setLevel_ctx_qsam (s : State) (n : Fin 6) (l : LoopLevel) :
    (s.setLevel n l).ctx.qsam = s.ctx.qsam := rfl
@[simp] theorem State.setLevel_ctx_wordWait (s : State) (n : Fin 6) (l : LoopLevel) :
    (s.setLevel n l).ctx.wordWait = s.ctx.wordWait := rfl
@[simp] theorem State.setLevel_ctx_arrived (s : State) (n : Fin 6) (l : LoopLevel) :
    (s.setLevel n l).ctx.arrived = s.ctx.arrived := rfl
@[simp] theorem State.setLevel_ctx_hbuf (s : State) (n : Fin 6) (l : LoopLevel) :
    (s.setLevel n l).ctx.hbuf = s.ctx.hbuf := rfl
@[simp] theorem State.setLevel_ctx_haddr (s : State) (n : Fin 6) (l : LoopLevel) :
    (s.setLevel n l).ctx.haddr = s.ctx.haddr := rfl
@[simp] theorem State.setLevel_ctx_waitStart (s : State) (n : Fin 6) (l : LoopLevel) :
    (s.setLevel n l).ctx.waitStart = s.ctx.waitStart := rfl
@[simp] theorem State.setLevel_ctx_lastWait (s : State) (n : Fin 6) (l : LoopLevel) :
    (s.setLevel n l).ctx.lastWait = s.ctx.lastWait := rfl
@[simp] theorem State.setLevel_ctx_owed (s : State) (n : Fin 6) (l : LoopLevel) :
    (s.setLevel n l).ctx.owed = s.ctx.owed := rfl
@[simp] theorem State.setLevel_ctx_setter (s : State) (n : Fin 6) (l : LoopLevel) :
    (s.setLevel n l).ctx.setter = s.ctx.setter := rfl
@[simp] theorem State.setLevel_ctx_preq (s : State) (n : Fin 6) (l : LoopLevel) :
    (s.setLevel n l).ctx.preq = s.ctx.preq := rfl

/-! The change of pc. -/

@[simp] theorem State.goTo_going (s : State) (a : Word) : (s.goTo a).going = s.going := rfl
@[simp] theorem State.goTo_foc (s : State) (a : Word) : (s.goTo a).foc = s.foc := rfl
@[simp] theorem State.goTo_core (s : State) (a : Word) : (s.goTo a).core = s.core := rfl
@[simp] theorem State.goTo_die (s : State) (a : Word) : (s.goTo a).die = s.die := rfl
@[simp] theorem State.goTo_ctxs (s : State) (a : Word) : (s.goTo a).ctxs = s.ctxs := rfl
@[simp] theorem State.goTo_cores (s : State) (a : Word) : (s.goTo a).cores = s.cores := rfl
@[simp] theorem State.goTo_dies (s : State) (a : Word) : (s.goTo a).dies = s.dies := rfl
@[simp] theorem State.goTo_pkgs (s : State) (a : Word) : (s.goTo a).pkgs = s.pkgs := rfl
@[simp] theorem State.goTo_npkg (s : State) (a : Word) : (s.goTo a).npkg = s.npkg := rfl
@[simp] theorem State.goTo_launches (s : State) (a : Word) : (s.goTo a).launches = s.launches := rfl
@[simp] theorem State.goTo_groups (s : State) (a : Word) : (s.goTo a).groups = s.groups := rfl
@[simp] theorem State.goTo_mem (s : State) (a : Word) : (s.goTo a).mem = s.mem := rfl
@[simp] theorem State.goTo_poison (s : State) (a : Word) : (s.goTo a).poison = s.poison := rfl
@[simp] theorem State.goTo_hist (s : State) (a : Word) : (s.goTo a).hist = s.hist := rfl
@[simp] theorem State.goTo_flight (s : State) (a : Word) : (s.goTo a).flight = s.flight := rfl
@[simp] theorem State.goTo_cycle (s : State) (a : Word) : (s.goTo a).cycle = s.cycle := rfl
@[simp] theorem State.goTo_fresh (s : State) (a : Word) : (s.goTo a).fresh = s.fresh := rfl
@[simp] theorem State.goTo_agenda (s : State) (a : Word) : (s.goTo a).agenda = s.agenda := rfl
@[simp] theorem State.goTo_ctx_x (s : State) (a : Word) :
    (s.goTo a).ctx.x = s.ctx.x := rfl
@[simp] theorem State.goTo_ctx_q (s : State) (a : Word) :
    (s.goTo a).ctx.q = s.ctx.q := rfl
@[simp] theorem State.goTo_ctx_v (s : State) (a : Word) :
    (s.goTo a).ctx.v = s.ctx.v := rfl
@[simp] theorem State.goTo_ctx_vtag (s : State) (a : Word) :
    (s.goTo a).ctx.vtag = s.ctx.vtag := rfl
@[simp] theorem State.goTo_ctx_m (s : State) (a : Word) :
    (s.goTo a).ctx.m = s.ctx.m := rfl
@[simp] theorem State.goTo_ctx_w (s : State) (a : Word) :
    (s.goTo a).ctx.w = s.ctx.w := rfl
@[simp] theorem State.goTo_ctx_cb (s : State) (a : Word) :
    (s.goTo a).ctx.cb = s.ctx.cb := rfl
@[simp] theorem State.goTo_ctx_pk (s : State) (a : Word) :
    (s.goTo a).ctx.pk = s.ctx.pk := rfl
@[simp] theorem State.goTo_ctx_sh (s : State) (a : Word) :
    (s.goTo a).ctx.sh = s.ctx.sh := rfl
@[simp] theorem State.goTo_ctx_ht (s : State) (a : Word) :
    (s.goTo a).ctx.ht = s.ctx.ht := rfl
@[simp] theorem State.goTo_ctx_pw (s : State) (a : Word) :
    (s.goTo a).ctx.pw = s.ctx.pw := rfl
@[simp] theorem State.goTo_ctx_lv (s : State) (a : Word) :
    (s.goTo a).ctx.lv = s.ctx.lv := rfl
@[simp] theorem State.goTo_ctx_cstat (s : State) (a : Word) :
    (s.goTo a).ctx.cstat = s.ctx.cstat := rfl
@[simp] theorem State.goTo_ctx_cview (s : State) (a : Word) :
    (s.goTo a).ctx.cview = s.ctx.cview := rfl
@[simp] theorem State.goTo_ctx_pp (s : State) (a : Word) :
    (s.goTo a).ctx.pp = s.ctx.pp := rfl
@[simp] theorem State.goTo_ctx_phase (s : State) (a : Word) :
    (s.goTo a).ctx.phase = s.ctx.phase := rfl
@[simp] theorem State.goTo_ctx_dstep (s : State) (a : Word) :
    (s.goTo a).ctx.dstep = s.ctx.dstep := rfl
@[simp] theorem State.goTo_ctx_gstart (s : State) (a : Word) :
    (s.goTo a).ctx.gstart = s.ctx.gstart := rfl
@[simp] theorem State.goTo_ctx_tvec (s : State) (a : Word) :
    (s.goTo a).ctx.tvec = s.ctx.tvec := rfl
@[simp] theorem State.goTo_ctx_tscr (s : State) (a : Word) :
    (s.goTo a).ctx.tscr = s.ctx.tscr := rfl
@[simp] theorem State.goTo_ctx_trap (s : State) (a : Word) :
    (s.goTo a).ctx.trap = s.ctx.trap := rfl
@[simp] theorem State.goTo_ctx_inh (s : State) (a : Word) :
    (s.goTo a).ctx.inh = s.ctx.inh := rfl
@[simp] theorem State.goTo_ctx_fwd (s : State) (a : Word) :
    (s.goTo a).ctx.fwd = s.ctx.fwd := rfl
@[simp] theorem State.goTo_ctx_pend (s : State) (a : Word) :
    (s.goTo a).ctx.pend = s.ctx.pend := rfl
@[simp] theorem State.goTo_ctx_ib (s : State) (a : Word) :
    (s.goTo a).ctx.ib = s.ctx.ib := rfl
@[simp] theorem State.goTo_ctx_done (s : State) (a : Word) :
    (s.goTo a).ctx.done = s.ctx.done := rfl
@[simp] theorem State.goTo_ctx_slot (s : State) (a : Word) :
    (s.goTo a).ctx.slot = s.ctx.slot := rfl
@[simp] theorem State.goTo_ctx_slotEnd (s : State) (a : Word) :
    (s.goTo a).ctx.slotEnd = s.ctx.slotEnd := rfl
@[simp] theorem State.goTo_ctx_xfer (s : State) (a : Word) :
    (s.goTo a).ctx.xfer = s.ctx.xfer := rfl
@[simp] theorem State.goTo_ctx_loopStart (s : State) (a : Word) :
    (s.goTo a).ctx.loopStart = s.ctx.loopStart := rfl
@[simp] theorem State.goTo_ctx_eretPend (s : State) (a : Word) :
    (s.goTo a).ctx.eretPend = s.ctx.eretPend := rfl
@[simp] theorem State.goTo_ctx_reissue (s : State) (a : Word) :
    (s.goTo a).ctx.reissue = s.ctx.reissue := rfl
@[simp] theorem State.goTo_ctx_exempt (s : State) (a : Word) :
    (s.goTo a).ctx.exempt = s.ctx.exempt := rfl
@[simp] theorem State.goTo_ctx_grpR (s : State) (a : Word) :
    (s.goTo a).ctx.grpR = s.ctx.grpR := rfl
@[simp] theorem State.goTo_ctx_grpW (s : State) (a : Word) :
    (s.goTo a).ctx.grpW = s.ctx.grpW := rfl
@[simp] theorem State.goTo_ctx_saved (s : State) (a : Word) :
    (s.goTo a).ctx.saved = s.ctx.saved := rfl
@[simp] theorem State.goTo_ctx_defer (s : State) (a : Word) :
    (s.goTo a).ctx.defer = s.ctx.defer := rfl
@[simp] theorem State.goTo_ctx_bundles (s : State) (a : Word) :
    (s.goTo a).ctx.bundles = s.ctx.bundles := rfl
@[simp] theorem State.goTo_ctx_ecnt (s : State) (a : Word) :
    (s.goTo a).ctx.ecnt = s.ctx.ecnt := rfl
@[simp] theorem State.goTo_ctx_status (s : State) (a : Word) :
    (s.goTo a).ctx.status = s.ctx.status := rfl
@[simp] theorem State.goTo_ctx_ctrl (s : State) (a : Word) :
    (s.goTo a).ctx.ctrl = s.ctx.ctrl := rfl
@[simp] theorem State.goTo_ctx_task (s : State) (a : Word) :
    (s.goTo a).ctx.task = s.ctx.task := rfl
@[simp] theorem State.goTo_ctx_seq (s : State) (a : Word) :
    (s.goTo a).ctx.seq = s.ctx.seq := rfl
@[simp] theorem State.goTo_ctx_loads (s : State) (a : Word) :
    (s.goTo a).ctx.loads = s.ctx.loads := rfl
@[simp] theorem State.goTo_ctx_stores (s : State) (a : Word) :
    (s.goTo a).ctx.stores = s.ctx.stores := rfl
@[simp] theorem State.goTo_ctx_points (s : State) (a : Word) :
    (s.goTo a).ctx.points = s.ctx.points := rfl
@[simp] theorem State.goTo_ctx_sq (s : State) (a : Word) :
    (s.goTo a).ctx.sq = s.ctx.sq := rfl
@[simp] theorem State.goTo_ctx_ordSet (s : State) (a : Word) :
    (s.goTo a).ctx.ordSet = s.ctx.ordSet := rfl
@[simp] theorem State.goTo_ctx_xiq (s : State) (a : Word) :
    (s.goTo a).ctx.xiq = s.ctx.xiq := rfl
@[simp] theorem State.goTo_ctx_opn (s : State) (a : Word) :
    (s.goTo a).ctx.opn = s.ctx.opn := rfl
@[simp] theorem State.goTo_ctx_joins (s : State) (a : Word) :
    (s.goTo a).ctx.joins = s.ctx.joins := rfl
@[simp] theorem State.goTo_ctx_wpend (s : State) (a : Word) :
    (s.goTo a).ctx.wpend = s.ctx.wpend := rfl
@[simp] theorem State.goTo_ctx_echg (s : State) (a : Word) :
    (s.goTo a).ctx.echg = s.ctx.echg := rfl
@[simp] theorem State.goTo_ctx_eput (s : State) (a : Word) :
    (s.goTo a).ctx.eput = s.ctx.eput := rfl
@[simp] theorem State.goTo_ctx_obk (s : State) (a : Word) :
    (s.goTo a).ctx.obk = s.ctx.obk := rfl
@[simp] theorem State.goTo_ctx_owa (s : State) (a : Word) :
    (s.goTo a).ctx.owa = s.ctx.owa := rfl
@[simp] theorem State.goTo_ctx_frlen (s : State) (a : Word) :
    (s.goTo a).ctx.frlen = s.ctx.frlen := rfl
@[simp] theorem State.goTo_ctx_epoch (s : State) (a : Word) :
    (s.goTo a).ctx.epoch = s.ctx.epoch := rfl
@[simp] theorem State.goTo_ctx_ordSeq (s : State) (a : Word) :
    (s.goTo a).ctx.ordSeq = s.ctx.ordSeq := rfl
@[simp] theorem State.goTo_ctx_lastOp (s : State) (a : Word) :
    (s.goTo a).ctx.lastOp = s.ctx.lastOp := rfl
@[simp] theorem State.goTo_ctx_qsam (s : State) (a : Word) :
    (s.goTo a).ctx.qsam = s.ctx.qsam := rfl
@[simp] theorem State.goTo_ctx_wordWait (s : State) (a : Word) :
    (s.goTo a).ctx.wordWait = s.ctx.wordWait := rfl
@[simp] theorem State.goTo_ctx_arrived (s : State) (a : Word) :
    (s.goTo a).ctx.arrived = s.ctx.arrived := rfl
@[simp] theorem State.goTo_ctx_hbuf (s : State) (a : Word) :
    (s.goTo a).ctx.hbuf = s.ctx.hbuf := rfl
@[simp] theorem State.goTo_ctx_haddr (s : State) (a : Word) :
    (s.goTo a).ctx.haddr = s.ctx.haddr := rfl
@[simp] theorem State.goTo_ctx_waitStart (s : State) (a : Word) :
    (s.goTo a).ctx.waitStart = s.ctx.waitStart := rfl
@[simp] theorem State.goTo_ctx_lastWait (s : State) (a : Word) :
    (s.goTo a).ctx.lastWait = s.ctx.lastWait := rfl
@[simp] theorem State.goTo_ctx_owed (s : State) (a : Word) :
    (s.goTo a).ctx.owed = s.ctx.owed := rfl
@[simp] theorem State.goTo_ctx_setter (s : State) (a : Word) :
    (s.goTo a).ctx.setter = s.ctx.setter := rfl
@[simp] theorem State.goTo_ctx_preq (s : State) (a : Word) :
    (s.goTo a).ctx.preq = s.ctx.preq := rfl

/-! The change of a package. -/

@[simp] theorem State.setPkgAt_going (s : State) (p : Nat) (k : Package) : (s.setPkgAt p k).going = s.going := rfl
@[simp] theorem State.setPkgAt_foc (s : State) (p : Nat) (k : Package) : (s.setPkgAt p k).foc = s.foc := rfl
@[simp] theorem State.setPkgAt_ctx (s : State) (p : Nat) (k : Package) : (s.setPkgAt p k).ctx = s.ctx := rfl
@[simp] theorem State.setPkgAt_core (s : State) (p : Nat) (k : Package) : (s.setPkgAt p k).core = s.core := rfl
@[simp] theorem State.setPkgAt_die (s : State) (p : Nat) (k : Package) : (s.setPkgAt p k).die = s.die := rfl
@[simp] theorem State.setPkgAt_ctxs (s : State) (p : Nat) (k : Package) : (s.setPkgAt p k).ctxs = s.ctxs := rfl
@[simp] theorem State.setPkgAt_cores (s : State) (p : Nat) (k : Package) : (s.setPkgAt p k).cores = s.cores := rfl
@[simp] theorem State.setPkgAt_dies (s : State) (p : Nat) (k : Package) : (s.setPkgAt p k).dies = s.dies := rfl
@[simp] theorem State.setPkgAt_npkg (s : State) (p : Nat) (k : Package) : (s.setPkgAt p k).npkg = s.npkg := rfl
@[simp] theorem State.setPkgAt_launches (s : State) (p : Nat) (k : Package) : (s.setPkgAt p k).launches = s.launches := rfl
@[simp] theorem State.setPkgAt_groups (s : State) (p : Nat) (k : Package) : (s.setPkgAt p k).groups = s.groups := rfl
@[simp] theorem State.setPkgAt_mem (s : State) (p : Nat) (k : Package) : (s.setPkgAt p k).mem = s.mem := rfl
@[simp] theorem State.setPkgAt_poison (s : State) (p : Nat) (k : Package) : (s.setPkgAt p k).poison = s.poison := rfl
@[simp] theorem State.setPkgAt_hist (s : State) (p : Nat) (k : Package) : (s.setPkgAt p k).hist = s.hist := rfl
@[simp] theorem State.setPkgAt_flight (s : State) (p : Nat) (k : Package) : (s.setPkgAt p k).flight = s.flight := rfl
@[simp] theorem State.setPkgAt_cycle (s : State) (p : Nat) (k : Package) : (s.setPkgAt p k).cycle = s.cycle := rfl
@[simp] theorem State.setPkgAt_fresh (s : State) (p : Nat) (k : Package) : (s.setPkgAt p k).fresh = s.fresh := rfl
@[simp] theorem State.setPkgAt_agenda (s : State) (p : Nat) (k : Package) : (s.setPkgAt p k).agenda = s.agenda := rfl

/-! The change of a context. -/

@[simp] theorem State.setCtxAt_going (s : State) (c : CtxId) (k : Ctx) : (s.setCtxAt c k).going = s.going := by unfold State.setCtxAt; split <;> rfl
@[simp] theorem State.setCtxAt_foc (s : State) (c : CtxId) (k : Ctx) : (s.setCtxAt c k).foc = s.foc := by unfold State.setCtxAt; split <;> rfl
@[simp] theorem State.setCtxAt_core (s : State) (c : CtxId) (k : Ctx) : (s.setCtxAt c k).core = s.core := by unfold State.setCtxAt; split <;> rfl
@[simp] theorem State.setCtxAt_die (s : State) (c : CtxId) (k : Ctx) : (s.setCtxAt c k).die = s.die := by unfold State.setCtxAt; split <;> rfl
@[simp] theorem State.setCtxAt_cores (s : State) (c : CtxId) (k : Ctx) : (s.setCtxAt c k).cores = s.cores := by unfold State.setCtxAt; split <;> rfl
@[simp] theorem State.setCtxAt_dies (s : State) (c : CtxId) (k : Ctx) : (s.setCtxAt c k).dies = s.dies := by unfold State.setCtxAt; split <;> rfl
@[simp] theorem State.setCtxAt_pkgs (s : State) (c : CtxId) (k : Ctx) : (s.setCtxAt c k).pkgs = s.pkgs := by unfold State.setCtxAt; split <;> rfl
@[simp] theorem State.setCtxAt_npkg (s : State) (c : CtxId) (k : Ctx) : (s.setCtxAt c k).npkg = s.npkg := by unfold State.setCtxAt; split <;> rfl
@[simp] theorem State.setCtxAt_launches (s : State) (c : CtxId) (k : Ctx) : (s.setCtxAt c k).launches = s.launches := by unfold State.setCtxAt; split <;> rfl
@[simp] theorem State.setCtxAt_groups (s : State) (c : CtxId) (k : Ctx) : (s.setCtxAt c k).groups = s.groups := by unfold State.setCtxAt; split <;> rfl
@[simp] theorem State.setCtxAt_mem (s : State) (c : CtxId) (k : Ctx) : (s.setCtxAt c k).mem = s.mem := by unfold State.setCtxAt; split <;> rfl
@[simp] theorem State.setCtxAt_poison (s : State) (c : CtxId) (k : Ctx) : (s.setCtxAt c k).poison = s.poison := by unfold State.setCtxAt; split <;> rfl
@[simp] theorem State.setCtxAt_hist (s : State) (c : CtxId) (k : Ctx) : (s.setCtxAt c k).hist = s.hist := by unfold State.setCtxAt; split <;> rfl
@[simp] theorem State.setCtxAt_flight (s : State) (c : CtxId) (k : Ctx) : (s.setCtxAt c k).flight = s.flight := by unfold State.setCtxAt; split <;> rfl
@[simp] theorem State.setCtxAt_cycle (s : State) (c : CtxId) (k : Ctx) : (s.setCtxAt c k).cycle = s.cycle := by unfold State.setCtxAt; split <;> rfl
@[simp] theorem State.setCtxAt_fresh (s : State) (c : CtxId) (k : Ctx) : (s.setCtxAt c k).fresh = s.fresh := by unfold State.setCtxAt; split <;> rfl
@[simp] theorem State.setCtxAt_agenda (s : State) (c : CtxId) (k : Ctx) : (s.setCtxAt c k).agenda = s.agenda := by unfold State.setCtxAt; split <;> rfl

/-! The change of a core. -/

@[simp] theorem State.setCoreAt_going (s : State) (p : CoreId) (k : Core) : (s.setCoreAt p k).going = s.going := by unfold State.setCoreAt; split <;> rfl
@[simp] theorem State.setCoreAt_foc (s : State) (p : CoreId) (k : Core) : (s.setCoreAt p k).foc = s.foc := by unfold State.setCoreAt; split <;> rfl
@[simp] theorem State.setCoreAt_ctx (s : State) (p : CoreId) (k : Core) : (s.setCoreAt p k).ctx = s.ctx := by unfold State.setCoreAt; split <;> rfl
@[simp] theorem State.setCoreAt_die (s : State) (p : CoreId) (k : Core) : (s.setCoreAt p k).die = s.die := by unfold State.setCoreAt; split <;> rfl
@[simp] theorem State.setCoreAt_ctxs (s : State) (p : CoreId) (k : Core) : (s.setCoreAt p k).ctxs = s.ctxs := by unfold State.setCoreAt; split <;> rfl
@[simp] theorem State.setCoreAt_dies (s : State) (p : CoreId) (k : Core) : (s.setCoreAt p k).dies = s.dies := by unfold State.setCoreAt; split <;> rfl
@[simp] theorem State.setCoreAt_pkgs (s : State) (p : CoreId) (k : Core) : (s.setCoreAt p k).pkgs = s.pkgs := by unfold State.setCoreAt; split <;> rfl
@[simp] theorem State.setCoreAt_npkg (s : State) (p : CoreId) (k : Core) : (s.setCoreAt p k).npkg = s.npkg := by unfold State.setCoreAt; split <;> rfl
@[simp] theorem State.setCoreAt_launches (s : State) (p : CoreId) (k : Core) : (s.setCoreAt p k).launches = s.launches := by unfold State.setCoreAt; split <;> rfl
@[simp] theorem State.setCoreAt_groups (s : State) (p : CoreId) (k : Core) : (s.setCoreAt p k).groups = s.groups := by unfold State.setCoreAt; split <;> rfl
@[simp] theorem State.setCoreAt_mem (s : State) (p : CoreId) (k : Core) : (s.setCoreAt p k).mem = s.mem := by unfold State.setCoreAt; split <;> rfl
@[simp] theorem State.setCoreAt_poison (s : State) (p : CoreId) (k : Core) : (s.setCoreAt p k).poison = s.poison := by unfold State.setCoreAt; split <;> rfl
@[simp] theorem State.setCoreAt_hist (s : State) (p : CoreId) (k : Core) : (s.setCoreAt p k).hist = s.hist := by unfold State.setCoreAt; split <;> rfl
@[simp] theorem State.setCoreAt_flight (s : State) (p : CoreId) (k : Core) : (s.setCoreAt p k).flight = s.flight := by unfold State.setCoreAt; split <;> rfl
@[simp] theorem State.setCoreAt_cycle (s : State) (p : CoreId) (k : Core) : (s.setCoreAt p k).cycle = s.cycle := by unfold State.setCoreAt; split <;> rfl
@[simp] theorem State.setCoreAt_fresh (s : State) (p : CoreId) (k : Core) : (s.setCoreAt p k).fresh = s.fresh := by unfold State.setCoreAt; split <;> rfl
@[simp] theorem State.setCoreAt_agenda (s : State) (p : CoreId) (k : Core) : (s.setCoreAt p k).agenda = s.agenda := by unfold State.setCoreAt; split <;> rfl

/-! The change of a die. -/

@[simp] theorem State.setDieAt_going (s : State) (d : Nat) (k : Die) : (s.setDieAt d k).going = s.going := by unfold State.setDieAt; split <;> rfl
@[simp] theorem State.setDieAt_foc (s : State) (d : Nat) (k : Die) : (s.setDieAt d k).foc = s.foc := by unfold State.setDieAt; split <;> rfl
@[simp] theorem State.setDieAt_ctx (s : State) (d : Nat) (k : Die) : (s.setDieAt d k).ctx = s.ctx := by unfold State.setDieAt; split <;> rfl
@[simp] theorem State.setDieAt_core (s : State) (d : Nat) (k : Die) : (s.setDieAt d k).core = s.core := by unfold State.setDieAt; split <;> rfl
@[simp] theorem State.setDieAt_ctxs (s : State) (d : Nat) (k : Die) : (s.setDieAt d k).ctxs = s.ctxs := by unfold State.setDieAt; split <;> rfl
@[simp] theorem State.setDieAt_cores (s : State) (d : Nat) (k : Die) : (s.setDieAt d k).cores = s.cores := by unfold State.setDieAt; split <;> rfl
@[simp] theorem State.setDieAt_pkgs (s : State) (d : Nat) (k : Die) : (s.setDieAt d k).pkgs = s.pkgs := by unfold State.setDieAt; split <;> rfl
@[simp] theorem State.setDieAt_npkg (s : State) (d : Nat) (k : Die) : (s.setDieAt d k).npkg = s.npkg := by unfold State.setDieAt; split <;> rfl
@[simp] theorem State.setDieAt_launches (s : State) (d : Nat) (k : Die) : (s.setDieAt d k).launches = s.launches := by unfold State.setDieAt; split <;> rfl
@[simp] theorem State.setDieAt_groups (s : State) (d : Nat) (k : Die) : (s.setDieAt d k).groups = s.groups := by unfold State.setDieAt; split <;> rfl
@[simp] theorem State.setDieAt_mem (s : State) (d : Nat) (k : Die) : (s.setDieAt d k).mem = s.mem := by unfold State.setDieAt; split <;> rfl
@[simp] theorem State.setDieAt_poison (s : State) (d : Nat) (k : Die) : (s.setDieAt d k).poison = s.poison := by unfold State.setDieAt; split <;> rfl
@[simp] theorem State.setDieAt_hist (s : State) (d : Nat) (k : Die) : (s.setDieAt d k).hist = s.hist := by unfold State.setDieAt; split <;> rfl
@[simp] theorem State.setDieAt_flight (s : State) (d : Nat) (k : Die) : (s.setDieAt d k).flight = s.flight := by unfold State.setDieAt; split <;> rfl
@[simp] theorem State.setDieAt_cycle (s : State) (d : Nat) (k : Die) : (s.setDieAt d k).cycle = s.cycle := by unfold State.setDieAt; split <;> rfl
@[simp] theorem State.setDieAt_fresh (s : State) (d : Nat) (k : Die) : (s.setDieAt d k).fresh = s.fresh := by unfold State.setDieAt; split <;> rfl
@[simp] theorem State.setDieAt_agenda (s : State) (d : Nat) (k : Die) : (s.setDieAt d k).agenda = s.agenda := by unfold State.setDieAt; split <;> rfl

/-! The change of focus. -/

@[simp] theorem State.focusOn_going (s : State) (c : CtxId) : (s.focusOn c).going = s.going := by unfold State.focusOn; split <;> rfl
@[simp] theorem State.focusOn_pkgs (s : State) (c : CtxId) : (s.focusOn c).pkgs = s.pkgs := by unfold State.focusOn; split <;> rfl
@[simp] theorem State.focusOn_npkg (s : State) (c : CtxId) : (s.focusOn c).npkg = s.npkg := by unfold State.focusOn; split <;> rfl
@[simp] theorem State.focusOn_launches (s : State) (c : CtxId) : (s.focusOn c).launches = s.launches := by unfold State.focusOn; split <;> rfl
@[simp] theorem State.focusOn_groups (s : State) (c : CtxId) : (s.focusOn c).groups = s.groups := by unfold State.focusOn; split <;> rfl
@[simp] theorem State.focusOn_mem (s : State) (c : CtxId) : (s.focusOn c).mem = s.mem := by unfold State.focusOn; split <;> rfl
@[simp] theorem State.focusOn_poison (s : State) (c : CtxId) : (s.focusOn c).poison = s.poison := by unfold State.focusOn; split <;> rfl
@[simp] theorem State.focusOn_hist (s : State) (c : CtxId) : (s.focusOn c).hist = s.hist := by unfold State.focusOn; split <;> rfl
@[simp] theorem State.focusOn_flight (s : State) (c : CtxId) : (s.focusOn c).flight = s.flight := by unfold State.focusOn; split <;> rfl
@[simp] theorem State.focusOn_cycle (s : State) (c : CtxId) : (s.focusOn c).cycle = s.cycle := by unfold State.focusOn; split <;> rfl
@[simp] theorem State.focusOn_fresh (s : State) (c : CtxId) : (s.focusOn c).fresh = s.fresh := by unfold State.focusOn; split <;> rfl
@[simp] theorem State.focusOn_agenda (s : State) (c : CtxId) : (s.focusOn c).agenda = s.agenda := by unfold State.focusOn; split <;> rfl

/-! Registers read back. -/

theorem State.getX_setX (s : State) (n r : XReg) (v : Word) :
    (s.setX n v).getX r = if r = n ∧ r ≠ 0 then v else s.getX r := by
  unfold State.setX State.getX
  by_cases h : n = 0
  · by_cases e : r = 0
    · simp [h, e]
    · simp [h, e]
  · by_cases e : r = 0
    · simp [e]
    · by_cases q : r = n
      · subst q; simp [e]
      · have : ¬n.val = r.val := fun k => q (Fin.ext k.symm)
        simp [h, e, q, this]

theorem State.getQ_setQ (s : State) (n r : Fin 8) (v : Bool) :
    (s.setQ n v).getQ r = if r = n ∧ r ≠ 0 then v else s.getQ r := by
  unfold State.setQ State.getQ
  by_cases h : n = 0
  · by_cases e : r = 0
    · simp [h, e]
    · simp [h, e]
  · by_cases e : r = 0
    · simp [h, e]
    · by_cases q : r = n
      · subst q; simp [e]
      · have : ¬n.val = r.val := fun k => q (Fin.ext k.symm)
        simp [h, e, q, this]

theorem State.getM_setM (s : State) (n r : Fin 8) (v : MWord) :
    (s.setM n v).getM r = if r = n ∧ r ≠ 0 then v else s.getM r := by
  unfold State.setM State.getM
  by_cases h : n = 0
  · by_cases e : r = 0
    · simp [h, e]
    · simp [h, e]
  · by_cases e : r = 0
    · simp [e]
    · by_cases q : r = n
      · subst q; simp [e]
      · have : ¬n.val = r.val := fun k => q (Fin.ext k.symm)
        simp [h, e, q, this]

theorem State.getV_setV (s : State) (n r : VReg) (v : VWord) (k : BitVec 4) :
    (s.setV n v k).getV r = if r = n then v else s.getV r := by
  unfold State.setV State.getV
  by_cases q : r = n
  · subst q; simp
  · have : ¬n.val = r.val := fun k => q (Fin.ext k.symm)
    simp [q, this]

theorem State.getTag_setV (s : State) (n r : VReg) (v : VWord) (k : BitVec 4) :
    (s.setV n v k).getTag r = if r = n then k else s.getTag r := by
  unfold State.setV State.getTag
  by_cases q : r = n
  · subst q; simp
  · have : ¬n.val = r.val := fun k => q (Fin.ext k.symm)
    simp [q, this]

/-- A write of an x register is a change of those registers and nothing else. -/
theorem State.setX_eq (s : State) (n : XReg) (v : Word) :
    s.setX n v = { s with ctx := { s.ctx with x := (s.setX n v).ctx.x } } := by
  unfold State.setX; split <;> rfl

/-- A write of a predicate is a change of those registers and nothing else. -/
theorem State.setQ_eq (s : State) (n : Fin 8) (v : Bool) :
    s.setQ n v = { s with ctx := { s.ctx with q := (s.setQ n v).ctx.q } } := by
  unfold State.setQ; split <;> rfl

/-- A write of a mask is a change of those registers and nothing else. -/
theorem State.setM_eq (s : State) (n : Fin 8) (v : MWord) :
    s.setM n v = { s with ctx := { s.ctx with m := (s.setM n v).ctx.m } } := by
  unfold State.setM; split <;> rfl

/-! Agents by their position. -/

theorem lookup_cons_same {α β : Type} [BEq α] [LawfulBEq α] (l : List (α × β)) (a : α) (v : β) :
    ((a, v) :: l).lookup a = some v := by simp [List.lookup]

theorem lookup_cons_other {α β : Type} [BEq α] [LawfulBEq α] (l : List (α × β)) {a b : α} (h : b ≠ a) (v : β) :
    ((a, v) :: l).lookup b = l.lookup b := by
  have : (b == a) = false := by simpa using h
  simp [List.lookup, this]

theorem lookup_replaced {α β : Type} [BEq α] [LawfulBEq α] (l : List (α × β)) (a b : α) (v : β) :
    (l.map fun p => if p.1 == a then (a, v) else p).lookup b =
      if b == a then (if l.any (fun p => p.1 == a) then some v else none) else l.lookup b := by
  induction l with
  | nil => simp
  | cons c l ih =>
    obtain ⟨k, u⟩ := c
    rw [List.map_cons, List.any_cons]
    by_cases h : k = a
    · subst h
      simp only [beq_self_eq_true, if_true, Bool.true_or]
      by_cases e : b = k
      · subst e; rw [lookup_cons_same]; simp
      · rw [lookup_cons_other _ e, lookup_cons_other _ e, ih]; simp [e]
    · have hk : (k == a) = false := by simpa using h
      simp only [hk, Bool.false_eq_true, if_false, Bool.false_or]
      by_cases f : b = k
      · subst f; rw [lookup_cons_same, lookup_cons_same]; simp [hk]
      · rw [lookup_cons_other _ f, lookup_cons_other _ f, ih]

theorem lookup_appended {α β : Type} [BEq α] [LawfulBEq α] (l : List (α × β)) (a b : α) (v : β)
    (h : l.any (fun p => p.1 == a) = false) :
    (l ++ [(a, v)]).lookup b = if b == a then some v else l.lookup b := by
  induction l with
  | nil =>
    by_cases e : b = a
    · subst e; simp
    · rw [List.nil_append, lookup_cons_other _ e]; simp [e]
  | cons c l ih =>
    obtain ⟨k, u⟩ := c
    simp only [List.any_cons, Bool.or_eq_false_iff] at h
    rw [List.cons_append]
    by_cases f : b = k
    · subst f; rw [lookup_cons_same, lookup_cons_same, h.1]; simp
    · rw [lookup_cons_other _ f, lookup_cons_other _ f, ih h.2]

theorem lookup_assocSet {α β : Type} [BEq α] [LawfulBEq α] (l : List (α × β)) (a b : α) (v : β) :
    (assocSet l a v).lookup b = if b == a then some v else l.lookup b := by
  unfold assocSet
  by_cases h : l.any (fun p => p.1 == a) = true
  · rw [if_pos h, lookup_replaced, if_pos h]
  · rw [if_neg h]; exact lookup_appended l a b v (Bool.not_eq_true _ ▸ h)

theorem lookup_assocErase {α β : Type} [BEq α] [LawfulBEq α] (l : List (α × β)) (a b : α) :
    (assocErase l a).lookup b = if b == a then none else l.lookup b := by
  induction l with
  | nil => simp [assocErase]
  | cons c l ih =>
    obtain ⟨k, u⟩ := c
    by_cases h : k = a
    · have hc : assocErase ((k, u) :: l) a = assocErase l a := by simp [assocErase, h]
      subst h
      rw [hc, ih]
      by_cases e : b = k
      · simp [e]
      · rw [lookup_cons_other _ e]
    · have hc : assocErase ((k, u) :: l) a = (k, u) :: assocErase l a := by simp [assocErase, h]
      rw [hc]
      by_cases e : b = k
      · subst e; rw [lookup_cons_same, lookup_cons_same]; simp [h]
      · rw [lookup_cons_other _ e, lookup_cons_other _ e, ih]

@[simp] theorem State.ctxAt_foc (s : State) : s.ctxAt s.foc = s.ctx := by simp [State.ctxAt]

@[simp] theorem State.coreAt_foc (s : State) : s.coreAt s.foc.coreId = s.core := by simp [State.coreAt]

@[simp] theorem State.dieAt_foc (s : State) : s.dieAt s.foc.die = s.die := by simp [State.dieAt]

theorem State.ctxAt_setCtxAt (s : State) (c k : CtxId) (x : Ctx) :
    (s.setCtxAt c x).ctxAt k = if k = c then x else s.ctxAt k := by
  unfold State.setCtxAt State.ctxAt
  by_cases h : c = s.foc
  · subst h; by_cases e : k = s.foc <;> simp [e]
  · by_cases e : k = c
    · subst e; simp [h, lookup_assocSet]
    · by_cases f : k = s.foc
      · subst f; simp [h, e]
      · simp [h, e, f, lookup_assocSet]

theorem State.coreAt_setCoreAt (s : State) (c k : CoreId) (x : Core) :
    (s.setCoreAt c x).coreAt k = if k = c then x else s.coreAt k := by
  unfold State.setCoreAt State.coreAt
  by_cases h : c = s.foc.coreId
  · subst h; by_cases e : k = s.foc.coreId <;> simp [e]
  · by_cases e : k = c
    · subst e; simp [h, lookup_assocSet]
    · by_cases f : k = s.foc.coreId
      · subst f; simp [h, e]
      · simp [h, e, f, lookup_assocSet]

theorem State.dieAt_setDieAt (s : State) (c k : Nat) (x : Die) :
    (s.setDieAt c x).dieAt k = if k = c then x else s.dieAt k := by
  unfold State.setDieAt State.dieAt
  by_cases h : c = s.foc.die
  · subst h; by_cases e : k = s.foc.die <;> simp [e]
  · by_cases e : k = c
    · subst e; simp [h, lookup_assocSet]
    · by_cases f : k = s.foc.die
      · subst f; simp [h, e]
      · simp [h, e, f, lookup_assocSet]

theorem State.pkgAt_setPkgAt (s : State) (c k : Nat) (x : Package) :
    (s.setPkgAt c x).pkgAt k = if k = c then x else s.pkgAt k := by
  unfold State.setPkgAt State.pkgAt
  by_cases e : k = c
  · subst e; simp [lookup_assocSet]
  · simp [e, lookup_assocSet]

/-- Changing the focus changes no context. -/
theorem State.ctxAt_focusOn (s : State) (c k : CtxId) : (s.focusOn c).ctxAt k = s.ctxAt k := by
  by_cases h : c = s.foc
  · simp [State.focusOn, h]
  · by_cases e : k = c
    · subst e; simp [State.focusOn, State.ctxAt, h, lookup_assocSet]
    · by_cases f : k = s.foc
      · subst f; simp [State.focusOn, State.ctxAt, h, e, lookup_assocSet, lookup_assocErase]
      · simp [State.focusOn, State.ctxAt, h, e, f, lookup_assocSet, lookup_assocErase]

/-- Changing the focus changes no core. -/
theorem State.coreAt_focusOn (s : State) (c : CtxId) (k : CoreId) : (s.focusOn c).coreAt k = s.coreAt k := by
  by_cases h : c = s.foc
  · simp [State.focusOn, h]
  · by_cases e : k = c.coreId
    · subst e
      by_cases f : c.coreId = s.foc.coreId <;> simp [State.focusOn, State.coreAt, h, f, lookup_assocSet]
    · by_cases f : k = s.foc.coreId
      · subst f; simp [State.focusOn, State.coreAt, h, e, lookup_assocSet, lookup_assocErase]
      · simp [State.focusOn, State.coreAt, h, e, f, lookup_assocSet, lookup_assocErase]

/-- Changing the focus changes no die. -/
theorem State.dieAt_focusOn (s : State) (c : CtxId) (k : Nat) : (s.focusOn c).dieAt k = s.dieAt k := by
  by_cases h : c = s.foc
  · simp [State.focusOn, h]
  · by_cases e : k = c.die
    · subst e
      by_cases f : c.die = s.foc.die <;> simp [State.focusOn, State.dieAt, h, f, lookup_assocSet]
    · by_cases f : k = s.foc.die
      · subst f; simp [State.focusOn, State.dieAt, h, e, lookup_assocSet, lookup_assocErase]
      · simp [State.focusOn, State.dieAt, h, e, f, lookup_assocSet, lookup_assocErase]

/-- The context brought into focus. -/
theorem State.focusOn_foc (s : State) (c : CtxId) : (s.focusOn c).foc = c := by
  unfold State.focusOn; split <;> simp_all

end Sys2Proof.Machine
end

