-- ==== Sys2Proof/Laws/Ops.lean ====
section
/-! SUPPORT. What the shared operations can do, each said once: a write to memory, the records of waits and traces, the end of a
wait, deferred writes and the taking of a trap. -/

namespace Sys2Proof.Machine

/-- What a context keeps when something else happens to memory or to its wait: `t` is `x` but for its word wait, the agent that
set it off, its wait records and its status. -/
def Ctx.Kept (x t : Ctx) : Prop :=
  t = { x with wordWait := t.wordWait, setter := t.setter, lastWait := t.lastWait, owed := t.owed, status := t.status }

theorem Ctx.Kept.refl (x : Ctx) : x.Kept x := rfl

theorem Ctx.Kept.trans {x y z : Ctx} (h : x.Kept y) (k : y.Kept z) : x.Kept z := by
  unfold Ctx.Kept at *; rw [k, h]

/-! Writes to memory. -/

theorem settle_wf (nd : Nat) (fs : List Flight) {m : List Host.Cell} (h : Mem.wf m = true) :
    Mem.wf (settle nd fs m).2 = true := by
  induction fs generalizing m with
  | nil => exact h
  | cons w fs ih =>
    unfold settle; split
    · exact ih (Mem.setAll_wf h w.cells)
    · exact h

theorem State.settled_wf {s : State} (h : Mem.wf s.mem = true) : Mem.wf s.settled.mem = true := settle_wf _ _ h

theorem State.reach_wf {s : State} (h : Mem.wf s.mem = true) (id d : Nat) : Mem.wf (s.reach id d).mem = true :=
  State.settled_wf (by exact h)

theorem State.carry_wf {s : State} (h : Mem.wf s.mem = true) (d e : Nat) : Mem.wf (s.carry d e).mem = true :=
  State.settled_wf (by exact h)

@[simp] theorem State.retest_mem (s : State) (ps : List Nat) (who : Nat) : (s.retest ps who).mem = s.mem := rfl

/-- A write keeps the canonical form. -/
theorem State.performWrite_wf {s : State} (h : Mem.wf s.mem = true) (writer : Option CtxId) (who seq d : Nat)
    (cells : List Host.Cell) : Mem.wf (s.performWrite writer who seq d cells).mem = true := by
  unfold State.performWrite
  cases cells with
  | nil => exact h
  | cons c cs =>
    simp only [State.retest_mem]
    split
    · exact State.settled_wf (by exact h)
    · refine Mem.setAll_wf ?_ _
      split
      · exact State.carry_wf (State.carry_wf (by exact h) _ _) _ _
      · exact h

theorem State.unitWrite_wf {s : State} (h : Mem.wf s.mem = true) (who d a : Nat) (bs : List Byte) :
    Mem.wf (s.unitWrite who d a bs).mem = true := State.performWrite_wf h _ _ _ _ _

theorem State.retestCtx_kept (s : State) (ps : List Nat) (who d : Nat) (x : Ctx) : x.Kept (s.retestCtx ps who d x) := by
  unfold State.retestCtx Ctx.Kept; split
  · split <;> rfl
  · rfl

/-- A write leaves the context in focus as it was, but for a word wait that it ends, and the core, the die and the launches
altogether. -/
theorem State.performWrite_rest (s : State) (writer : Option CtxId) (who seq d : Nat) (cells : List Host.Cell) :
    let t := s.performWrite writer who seq d cells
    s.ctx.Kept t.ctx ∧ t.foc = s.foc ∧ t.core = s.core ∧ t.die = s.die ∧ t.cores = s.cores ∧ t.dies = s.dies ∧
      t.pkgs = s.pkgs ∧ t.npkg = s.npkg ∧ t.launches = s.launches ∧ t.groups = s.groups ∧ t.hist = s.hist ∧
      t.cycle = s.cycle ∧ t.agenda = s.agenda ∧ t.going = s.going := by
  unfold State.performWrite
  cases cells with
  | nil => exact ⟨rfl, rfl, rfl, rfl, rfl, rfl, rfl, rfl, rfl, rfl, rfl, rfl, rfl, rfl⟩
  | cons c cs =>
    by_cases h : isWide c.1 = true
    · simp only [h, if_true]
      exact ⟨State.retestCtx_kept _ _ _ _ _, rfl, rfl, rfl, rfl, rfl, rfl, rfl, rfl, rfl, rfl, rfl, rfl, rfl⟩
    · by_cases k : isSquare c.1 = true
      · simp only [h, k, if_true, Bool.false_eq_true, if_false]
        exact ⟨State.retestCtx_kept _ _ _ _ _, rfl, rfl, rfl, rfl, rfl, rfl, rfl, rfl, rfl, rfl, rfl, rfl, rfl⟩
      · simp only [h, k, Bool.false_eq_true, if_false]
        exact ⟨State.retestCtx_kept _ _ _ _ _, rfl, rfl, rfl, rfl, rfl, rfl, rfl, rfl, rfl, rfl, rfl, rfl, rfl⟩

/-- A unit's write does no more to the state than `performWrite_rest` says. -/
theorem State.unitWrite_kept (s : State) (who d a : Nat) (bs : List Byte) : s.ctx.Kept (s.unitWrite who d a bs).ctx :=
  (State.performWrite_rest s none who 0 d (cellsAt a bs)).1

@[simp] theorem State.unitWrite_foc (s : State) (who d a : Nat) (bs : List Byte) : (s.unitWrite who d a bs).foc = s.foc :=
  (State.performWrite_rest s none who 0 d (cellsAt a bs)).2.1

@[simp] theorem State.unitWrite_core (s : State) (who d a : Nat) (bs : List Byte) : (s.unitWrite who d a bs).core = s.core :=
  (State.performWrite_rest s none who 0 d (cellsAt a bs)).2.2.1

@[simp] theorem State.unitWrite_die (s : State) (who d a : Nat) (bs : List Byte) : (s.unitWrite who d a bs).die = s.die :=
  (State.performWrite_rest s none who 0 d (cellsAt a bs)).2.2.2.1

/-! Trace records and wait records. -/

theorem ite_of {α : Type} {P : α → Prop} {c : Prop} [Decidable c] {a b : α} (h : P a) (k : P b) : P (if c then a else b) := by
  split <;> assumption

/-! Another die in focus leaves the rest. -/

theorem State.withDie_mem (t : State) (d : Die) : { t with die := d }.mem = t.mem := rfl
theorem State.withDie_ctx (t : State) (d : Die) : { t with die := d }.ctx = t.ctx := rfl
theorem State.withDie_foc (t : State) (d : Die) : { t with die := d }.foc = t.foc := rfl
theorem State.withDie_core (t : State) (d : Die) : { t with die := d }.core = t.core := rfl

theorem State.trace_wf {s : State} (h : Mem.wf s.mem = true) (kind slot aux : Nat) (pc data : Word) :
    Mem.wf (s.trace kind slot aux pc data).mem = true := by
  unfold State.trace; dsimp only
  refine @ite_of State (fun t => Mem.wf t.mem = true) _ _ _ _ h ?_
  rw [State.withDie_mem]; exact State.unitWrite_wf h ..

theorem State.trace_kept (s : State) (kind slot aux : Nat) (pc data : Word) : s.ctx.Kept (s.trace kind slot aux pc data).ctx := by
  unfold State.trace; dsimp only
  refine @ite_of State (fun t => s.ctx.Kept t.ctx) _ _ _ _ (.refl _) ?_
  rw [State.withDie_ctx]; exact State.unitWrite_kept s ..

@[simp] theorem State.trace_foc (s : State) (kind slot aux : Nat) (pc data : Word) : (s.trace kind slot aux pc data).foc = s.foc := by
  unfold State.trace; dsimp only
  refine @ite_of State (fun t => t.foc = s.foc) _ _ _ _ rfl ?_
  rw [State.withDie_foc]; exact State.unitWrite_foc s ..

@[simp] theorem State.trace_core (s : State) (kind slot aux : Nat) (pc data : Word) : (s.trace kind slot aux pc data).core = s.core := by
  unfold State.trace; dsimp only
  refine @ite_of State (fun t => t.core = s.core) _ _ _ _ rfl ?_
  rw [State.withDie_core]; exact State.unitWrite_core s ..

theorem State.writeWait_wf {s : State} (h : Mem.wf s.mem = true) (waiter : Nat) (r : Vector Word 4) (cyc : Nat) :
    Mem.wf (s.writeWait waiter r cyc).mem = true := by
  unfold State.writeWait; dsimp only
  refine @ite_of State (fun t => Mem.wf t.mem = true) _ _ _ _ h ?_
  rw [State.withDie_mem]; exact State.unitWrite_wf h ..

theorem State.writeWait_kept (s : State) (waiter : Nat) (r : Vector Word 4) (cyc : Nat) : s.ctx.Kept (s.writeWait waiter r cyc).ctx := by
  unfold State.writeWait; dsimp only
  refine @ite_of State (fun t => s.ctx.Kept t.ctx) _ _ _ _ (.refl _) ?_
  rw [State.withDie_ctx]; exact State.unitWrite_kept s ..

@[simp] theorem State.writeWait_foc (s : State) (waiter : Nat) (r : Vector Word 4) (cyc : Nat) : (s.writeWait waiter r cyc).foc = s.foc := by
  unfold State.writeWait; dsimp only
  refine @ite_of State (fun t => t.foc = s.foc) _ _ _ _ rfl ?_
  rw [State.withDie_foc]; exact State.unitWrite_foc s ..

@[simp] theorem State.writeWait_core (s : State) (waiter : Nat) (r : Vector Word 4) (cyc : Nat) : (s.writeWait waiter r cyc).core = s.core := by
  unfold State.writeWait; dsimp only
  refine @ite_of State (fun t => t.core = s.core) _ _ _ _ rfl ?_
  rw [State.withDie_core]; exact State.unitWrite_core s ..

theorem State.logWait_wf {s : State} (h : Mem.wf s.mem = true) (o : Option OwedWait) : Mem.wf (s.logWait o).mem = true := by
  unfold State.logWait; split
  · exact h
  · split
    · exact h
    · exact State.writeWait_wf (by exact h) _ _ _

theorem State.logWait_kept (s : State) (o : Option OwedWait) : s.ctx.Kept (s.logWait o).ctx := by
  unfold State.logWait; split
  · exact .refl _
  · split
    · exact .refl _
    · refine Ctx.Kept.trans ?_ (State.writeWait_kept _ _ _ _); rfl

@[simp] theorem State.logWait_foc (s : State) (o : Option OwedWait) : (s.logWait o).foc = s.foc := by
  unfold State.logWait; split
  · rfl
  · split
    · rfl
    · exact State.writeWait_foc _ _ _ _

@[simp] theorem State.logWait_core (s : State) (o : Option OwedWait) : (s.logWait o).core = s.core := by
  unfold State.logWait; split
  · rfl
  · split
    · rfl
    · exact State.writeWait_core _ _ _ _

theorem State.logUnit_wf {s : State} (h : Mem.wf s.mem = true) (waiter setter kind fin : Nat) (obj : Word) (cyc : Nat) :
    Mem.wf (s.logUnit waiter setter kind fin obj cyc).mem = true := State.writeWait_wf h _ _ _

/-! The end of a wait. -/

theorem State.payWait_wf {s : State} (h : Mem.wf s.mem = true) : Mem.wf s.payWait.mem = true :=
  State.logWait_wf (s := { s with ctx := { s.ctx with owed := none } }) h _

theorem State.payWait_kept (s : State) : s.ctx.Kept s.payWait.ctx :=
  Ctx.Kept.trans (by rfl) (State.logWait_kept { s with ctx := { s.ctx with owed := none } } _)

@[simp] theorem State.payWait_foc (s : State) : s.payWait.foc = s.foc := State.logWait_foc { s with ctx := { s.ctx with owed := none } } _

@[simp] theorem State.payWait_core (s : State) : s.payWait.core = s.core := State.logWait_core { s with ctx := { s.ctx with owed := none } } _

theorem State.endWait_wf {s : State} (h : Mem.wf s.mem = true) (fin : Nat) : Mem.wf (s.endWait fin).mem = true := by
  unfold State.endWait; dsimp only; split
  · exact State.logWait_wf (State.payWait_wf h) _
  · exact State.payWait_wf h

theorem State.endWait_kept (s : State) (fin : Nat) : s.ctx.Kept (s.endWait fin).ctx := by
  unfold State.endWait; dsimp only; split
  · exact ((State.payWait_kept s).trans (State.logWait_kept s.payWait _)).trans rfl
  · exact State.payWait_kept s

@[simp] theorem State.endWait_foc (s : State) (fin : Nat) : (s.endWait fin).foc = s.foc := by
  unfold State.endWait; dsimp only; split
  · exact (State.logWait_foc s.payWait _).trans (State.payWait_foc s)
  · exact State.payWait_foc s

@[simp] theorem State.endWait_core (s : State) (fin : Nat) : (s.endWait fin).core = s.core := by
  unfold State.endWait; dsimp only; split
  · exact (State.logWait_core s.payWait _).trans (State.payWait_core s)
  · exact State.payWait_core s

/-! Deferred writes. -/

/-- The fields of a context that a special register stands for. -/
theorem Ctx.putSys_eq (x : Ctx) (n : Nat) (v : Word) : ∃ a b c d e f g h,
    x.putSys n v = { x with cstat := a, cview := b, tvec := c, tscr := d, trap := e, eput := f, obk := g, owa := h } := by
  unfold Ctx.putSys
  repeat' (first | refine @ite_of Ctx (fun y => ∃ a b c d e f g h, y =
    { x with cstat := a, cview := b, tvec := c, tscr := d, trap := e, eput := f, obk := g, owa := h }) _ _ _ _ ?_ ?_)
  all_goals exact ⟨_, _, _, _, _, _, _, _, rfl⟩

/-- What a deferred write leaves: all but the special registers, the dither state, the frame, a ring and a codebook. -/
theorem State.applyDefer_rest (s : State) (d : Deferred) :
    let t := s.applyDefer d
    t.mem = s.mem ∧ t.flight = s.flight ∧ t.poison = s.poison ∧ t.foc = s.foc ∧ t.ctxs = s.ctxs ∧
      t.cores = s.cores ∧ t.dies = s.dies ∧ t.launches = s.launches ∧ t.cycle = s.cycle ∧ t.ctx.x = s.ctx.x ∧
      t.ctx.q = s.ctx.q ∧ t.ctx.v = s.ctx.v ∧ t.ctx.vtag = s.ctx.vtag ∧ t.ctx.m = s.ctx.m ∧ t.ctx.lv = s.ctx.lv ∧
      t.ctx.pc = s.ctx.pc ∧ t.ctx.inh = s.ctx.inh ∧ t.ctx.ctrl = s.ctx.ctrl ∧ t.ctx.status = s.ctx.status ∧
      t.ctx.ib = s.ctx.ib ∧ t.ctx.xfer = s.ctx.xfer ∧ t.ctx.loopStart = s.ctx.loopStart ∧ t.ctx.reissue = s.ctx.reissue ∧
      t.ctx.pend = s.ctx.pend ∧ t.ctx.seq = s.ctx.seq ∧ t.ctx.defer = s.ctx.defer := by
  cases d with
  | sys n v =>
    obtain ⟨a, b, c, d, e, f, g, h, hp⟩ := Ctx.putSys_eq s.ctx n v
    unfold State.applyDefer; dsimp only; unfold State.putSys
    split
    · split <;> exact ⟨rfl, rfl, rfl, rfl, rfl, rfl, rfl, rfl, rfl, rfl, rfl, rfl, rfl, rfl, rfl, rfl, rfl, rfl, rfl,
        rfl, rfl, rfl, rfl, rfl, rfl, rfl⟩
    · rw [hp]
      exact ⟨rfl, rfl, rfl, rfl, rfl, rfl, rfl, rfl, rfl, rfl, rfl, rfl, rfl, rfl, rfl, rfl, rfl, rfl, rfl, rfl, rfl,
        rfl, rfl, rfl, rfl, rfl⟩
  | dither _ _ | frame _ _ | ring _ _ _ | book _ _ =>
    exact ⟨rfl, rfl, rfl, rfl, rfl, rfl, rfl, rfl, rfl, rfl, rfl, rfl, rfl, rfl, rfl, rfl, rfl, rfl, rfl, rfl, rfl, rfl,
      rfl, rfl, rfl, rfl⟩

theorem State.applyDefers_mem (s : State) (ds : List Deferred) : (ds.foldl State.applyDefer s).mem = s.mem := by
  induction ds generalizing s with
  | nil => rfl
  | cons d ds ih => rw [List.foldl_cons, ih]; exact (State.applyDefer_rest s d).1

theorem State.applyDefers_foc (s : State) (ds : List Deferred) : (ds.foldl State.applyDefer s).foc = s.foc := by
  induction ds generalizing s with
  | nil => rfl
  | cons d ds ih => rw [List.foldl_cons, ih]; exact (State.applyDefer_rest s d).2.2.2.1

/-! Traps. -/

@[simp] theorem State.breakLoops_mem (s : State) (t : Transfer) : (s.breakLoops t).mem = s.mem := by
  unfold State.breakLoops; split <;> rfl

@[simp] theorem State.breakLoops_foc (s : State) (t : Transfer) : (s.breakLoops t).foc = s.foc := by
  unfold State.breakLoops; split <;> rfl

theorem State.recordTrap_mem (s : State) (cause : Nat) (addr info bundle : Word) (slot done : Nat) (next : Option Word) :
    (s.recordTrap cause addr info bundle slot done next).mem = s.mem := by
  have k (u : State) : (u.ctx.xfer.elim u u.breakLoops).mem = u.mem := by
    cases u.ctx.xfer with
    | none => rfl
    | some t => exact State.breakLoops_mem u t
  exact (k _).trans (State.applyDefers_mem s _)

theorem State.noteTrap_wf {s : State} (h : Mem.wf s.mem = true) (cause slot : Nat) (addr bundle : Word) :
    Mem.wf (s.noteTrap cause slot addr bundle).mem = true := by
  have k : Mem.wf (if s.traces 3 then s.trace 4 slot cause bundle addr else s).mem = true :=
    @ite_of State (fun t => Mem.wf t.mem = true) _ _ _ _ (State.trace_wf h ..) h
  exact @ite_of State (fun t => Mem.wf t.mem = true) _ _ _ _ (by exact k) k

/-- Where a cause goes changes the status, pc and inh of the context, and the boot stage of a die that stops. -/
theorem State.routeTrap_rest (s : State) (cause : Nat) :
    let t := s.routeTrap cause
    t.mem = s.mem ∧ t.foc = s.foc ∧ t.core = s.core ∧
      t.ctx = { s.ctx with status := t.ctx.status, pc := t.ctx.pc, inh := t.ctx.inh } ∧
      t.die = { s.die with boot := t.die.boot, failcode := t.die.failcode } := by
  dsimp only; unfold State.routeTrap
  split
  · split <;> exact ⟨rfl, rfl, rfl, rfl, rfl⟩
  · split <;> exact ⟨rfl, rfl, rfl, rfl, rfl⟩

/-- Taking a trap keeps the form of the memory: at most a trace record is written. -/
theorem State.takeTrap_wf {s : State} (h : Mem.wf s.mem = true) (cause : Nat) (addr info bundle : Word) (slot done : Nat)
    (next : Option Word) : Mem.wf (s.takeTrap cause addr info bundle slot done next).mem = true := by
  unfold State.takeTrap
  rw [(State.routeTrap_rest _ cause).1]
  refine State.noteTrap_wf ?_ ..
  rw [State.recordTrap_mem]; exact h

theorem State.stop_wf {s : State} (h : Mem.wf s.mem = true) (cause : Nat) (addr info : Word) :
    Mem.wf (s.stop cause addr info).mem = true := State.takeTrap_wf (State.endWait_wf h 2) ..

end Sys2Proof.Machine
end

