-- ==== Sys2Proof/Tests/Slice0.lean ====
section
/-! SUPPORT. Tests: words of every encoding, terms that well-formedness refuses, single steps with results worked out from the
spec, and for each statement states that meet its hypotheses. -/

namespace Sys2Proof.Tests

open Sys2Proof Sys2Proof.Machine Sys2Proof.Claims

set_option Elab.async false

/-! Words of each family, made from the fields that the encoding tables of the spec give them (bits of the opcode, then the
operands), with the instruction that each stands for. -/

theorem test_decode_scalar : ∀ p ∈ ([
    (0x00000000, .nop), (0x024a9080, .add 9 20 33), (0x024a9081, .sub 9 20 33), (0x024a9082, .band 9 20 33),
    (0x024a9083, .bor 9 20 33), (0x024a9084, .bxor 9 20 33), (0x024a9085, .andn 9 20 33), (0x024a9086, .shl 9 20 33),
    (0x024a9087, .shr 9 20 33), (0x024a9088, .sar 9 20 33), (0x024a9089, .rot 9 20 33), (0x024a908a, .smin 9 20 33),
    (0x024a908b, .smax 9 20 33), (0x024a908c, .minu 9 20 33), (0x024a908d, .maxu 9 20 33), (0x044a9080, .mul 9 20 33),
    (0x044a9081, .mulh 9 20 33), (0x044a9082, .mulhu 9 20 33), (0x044a9083, .div 9 20 33), (0x044a9084, .divu 9 20 33),
    (0x044a9085, .rem 9 20 33), (0x044a9086, .remu 9 20 33), (0x064a8000, .clz 9 20), (0x064a8001, .ctz 9 20),
    (0x064a8002, .popc 9 20), (0x064a8103, .sext .w 9 20), (0x064a8084, .zext .h 9 20), (0x064a8005, .mov 9 20),
    (0x09429083, .cmp .ltu 5 20 33), (0x0a4a942e, .bfx 9 20 40 23), (0x0a4a88dd, .bfi 9 20 17 46),
    (0x0c4a9fff, .addi 9 20 ⟨8191, none⟩), (0x0e4a9001, .andi 9 20 ⟨4097, none⟩), (0x104a8005, .ori 9 20 ⟨5, none⟩),
    (0x124a8006, .xori 9 20 ⟨6, none⟩), (0x144a9f80, .shli 9 20 63), (0x144a9001, .shri 9 20 32), (0x144a8082, .sari 9 20 1),
    (0x144a8f83, .roti 9 20 31), (0x17628007, .cmpi .le 5 20 ⟨7, none⟩), (0x184c5678, .li 9 ⟨0x45678, none⟩),
    (0x1a492345, .lio 9 ⟨0x12345, none⟩), (0x1c4a90e8, .sel 9 6 true 20 33), (0x1f730000, .pand 5 6 3),
    (0x1f730001, .por 5 6 3), (0x1f730002, .pxor 5 6 3), (0x1f730003, .pandn 5 6 3), (0x1f408404, .pset 5 33),
    (0x1e308405, .pget 33 6)] : List (Nat × Instr)),
    p.1 < 2 ^ 31 ∧ decode none p.1 = some p.2 ∧ p.2.wf = true ∧ encode p.2 = some p.1 := by decide +kernel

theorem test_decode_control : ∀ p ∈ ([
    (0x20fffffb, .br 3 true 0x1ffffb), (0x22800001, .jmp 0x800001), (0x237ffffe, .call 0x7ffffe), (0x24028000, .jr 20),
    (0x244a8001, .callr 9 20), (0x2407e002, .ret 63), (0x27429003, .lpset 5 20 0x1003), (0x270e0302, .lpseti 4 0x301 0x102),
    (0x26d29080, .lpstr 3 20 33), (0x269d8000, .lpbrk 2 5 true), (0x26629800, .lprd 20 1 6), (0x276a9c00, .lpwr 5 7 20),
    (0x2f856000, .qtst .done 6 5), (0x5c001828, .trap 0x305), (0x5c000001, .eret), (0x5c00100c, .brk 0x201)] : List (Nat × Instr)),
    p.1 < 2 ^ 31 ∧ decode none p.1 = some p.2 ∧ p.2.wf = true ∧ encode p.2 = some p.1 := by decide +kernel

theorem test_decode_memory : ∀ p ∈ ([
    (0x284a9203, .ld .w 9 20 ⟨0x203, none⟩), (0x2a4a87ff, .st .h 9 20 ⟨0x3ff, none⟩),
    (0x2c4ca601, .ldp true 9 2 20 ⟨0x201, none⟩), (0x38352101, .vld .w1024 3 20 ⟨0x101, none⟩),
    (0x383513ff, .vst .w512 3 20 ⟨0x1ff, none⟩), (0x38351541, .vldx .w512 3 20 0x41 2), (0x383506ff, .vldt .w256 3 20 0x7f 1),
    (0x38350800, .pkset 3 20), (0x5e029084, .tagset 20 33), (0x5e4a8005, .taggetTag 9 20), (0x5e4a908d, .taggetHist 9 20 33)] : List (Nat × Instr)),
    p.1 < 2 ^ 31 ∧ decode none p.1 = some p.2 ∧ p.2.wf = true ∧ encode p.2 = some p.1 := by decide +kernel

theorem test_decode_vector : ∀ p ∈ ([
    (0x30365580, .vadd .i16 .w512 3 12 21), (0x30365581, .vsub .i16 .w512 3 12 21), (0x30365582, .vmul .i16 .w512 3 12 21),
    (0x30365583, .vfma .i16 .w512 3 12 21), (0x30365584, .vfms .i16 .w512 3 12 21), (0x30365585, .vfnma .i16 .w512 3 12 21),
    (0x30365586, .vmin .i16 .w512 3 12 21), (0x30365587, .vmax .i16 .w512 3 12 21), (0x3036558a, .vand .i16 .w512 3 12 21),
    (0x3036558b, .vor .i16 .w512 3 12 21), (0x3036558c, .vxor .i16 .w512 3 12 21), (0x3036558d, .vandn .i16 .w512 3 12 21),
    (0x3036558e, .vshl .i16 .w512 3 12 21), (0x3036558f, .vshr .i16 .w512 3 12 21), (0x30365590, .vsar .i16 .w512 3 12 21),
    (0x34365585, .vperm .i16 .w512 3 12 21), (0x36365581, .vgat .i16 .w512 3 12 21), (0x36365582, .vsct .i16 .w512 3 12 21),
    (0x30360188, .vabs .i16 .w512 3 12), (0x30360189, .vneg .i16 .w512 3 12), (0x30360191, .vcpy .i16 .w512 3 12),
    (0x33665580, .vcmp .lt .i16 .w512 6 12 21), (0x323655c1, .vsel .w512 3 12 21 6), (0x326a3002, .vmand 6 5 3),
    (0x326a3003, .vmor 6 5 3), (0x326a0004, .vmnot 6 5), (0x324e0185, .vmcnt .i16 .w512 9 6),
    (0x324e0186, .vmfst .i16 .w512 9 6), (0x34384180, .vbcast .i16 .w512 3 33), (0x34352181, .vins .i16 3 20 33),
    (0x344b2182, .vext .i16 9 12 33), (0x34360983, .vred .max .i16 .w512 3 12), (0x34360584, .vscan .min .i16 .w512 3 12),
    (0x34361586, .vshuf .p5 .i16 .w512 3 12), (0x34365587, .vslide .i16 .w512 3 12 21),
    (0x34361988, .vcomp .i16 .w512 3 12 6), (0x36301980, .vpart .i16 .w512 3 6)] : List (Nat × Instr)),
    p.1 < 2 ^ 31 ∧ decode none p.1 = some p.2 ∧ p.2.wf = true ∧ encode p.2 = some p.1 := by decide +kernel

theorem test_decode_approximation : ∀ p ∈ ([
    (0x3a3601c0, .vrcp true .f16 .w512 3 12), (0x3a3601c1, .vrsq true .f16 .w512 3 12),
    (0x3a3601c2, .vsqrt true .f16 .w512 3 12), (0x3a3601c3, .vexp2 true .f16 .w512 3 12),
    (0x3a3601c4, .vlog2 true .f16 .w512 3 12), (0x3a3601c5, .vtanh true .f16 .w512 3 12),
    (0x3a3601c6, .vsigm true .f16 .w512 3 12), (0x3a3601c7, .vgelu true .f16 .w512 3 12),
    (0x3a3601c8, .vsin true .f16 .w512 3 12), (0x3a3601c9, .vcos true .f16 .w512 3 12), (0x3a36052a, .vrfn .bf16 .w512 3 12 1)] : List (Nat × Instr)),
    p.1 < 2 ^ 31 ∧ decode none p.1 = some p.2 ∧ p.2.wf = true ∧ encode p.2 = some p.1 := by decide +kernel

theorem test_decode_conversion : ∀ p ∈ ([
    (0x3c366bd4, .vcvt .e3m4 .int8 .rd true false .w1024 3 12), (0x3c36790a, .vcvt .fp32 .e4m3 .rne false true .w512 3 12),
    (0x3e365520, .vqnt .bf16 .w512 3 12 21), (0x3e365601, .vdqnt .f32 .w1024 3 12 21), (0x3e360142, .vscl .f16 .w512 3 12),
    (0x3e260003, .cbld 2 12), (0x3e364944, .cbq true .f16 .w512 3 12 2), (0x3e360d45, .cbx false .f16 .w512 3 12 3),
    (0x3e4a9006, .dthset 9 20 true), (0x3e365507, .vpk 21 .w512 3 12), (0x3e361d08, .vupk 7 .w512 3 12)] : List (Nat × Instr)),
    p.1 < 2 ^ 31 ∧ decode none p.1 = some p.2 ∧ p.2.wf = true ∧ encode p.2 = some p.1 := by decide +kernel

theorem test_decode_matrix : ∀ p ∈ ([
    (0x40a793a0, .mma 5 3 12 9 6 true), (0x40a79390, .mmz 5 3 12 9 6 false), (0x42328000, .pcw 6 20),
    (0x42735340, .pcwr 6 3 20 13), (0x4294d000, .accz 5 3 4), (0x42eaaa41, .accrd 21 5 20 65),
    (0x4316aa42, .accwr 5 21 20 66), (0x43600040, .mwait 0x8001), (0x45229080, .rset 9 20 33),
    (0x452a8007, .rget ⟨7, none⟩ 20 9), (0x45300040, .rpush 9 ⟨64, none⟩), (0x45380001, .rpop 9 ⟨1, none⟩)] : List (Nat × Instr)),
    p.1 < 2 ^ 31 ∧ decode none p.1 = some p.2 ∧ p.2.wf = true ∧ encode p.2 = some p.1 := by decide +kernel

theorem test_decode_wavelet : ∀ p ∈ ([
    (0x48298138, .ppst 5 3 0 9 true 2), (0x4829a804, .ppst 5 3 20 0 false 1), (0x48a54000, .ppcfgWord 2 1 20),
    (0x48f14000, .ppcfgThreshold 6 20), (0x492991a0, .htag 20 200 13), (0x49a90b00, .hrec 20 33 6),
    (0x4a361900, .hthr .w512 3 12 6), (0x4a465501, .hfwd .w512 4 12 21), (0x4a465602, .hinv .w1024 4 12 21)] : List (Nat × Instr)),
    p.1 < 2 ^ 31 ∧ decode none p.1 = some p.2 ∧ p.2.wf = true ∧ encode p.2 = some p.1 := by decide +kernel

theorem test_decode_copy : ∀ p ∈ ([
    (0x4ca42489, .cp 2 20 33 9 true), (0x4ca42499, .cpt 2 20 33 9 true), (0x4ca424a9, .cpx 2 20 33 9 true),
    (0x4ca424b9, .cpg 2 20 33 9 true), (0x4ca424f9, .tmv 2 20 33 9 true), (0x4ca424ca, .cps true 2 20 33 9 false),
    (0x4ca424dd, .cpr false 3 20 33 9 true), (0x4ca42064, .cpsig 1 20 33), (0x4e4ca000, .shape 9 2 20),
    (0x4ea9a000, .qstat .faddr 20 6), (0x4f500000, .qcan 5), (0x4fe00000, .qrty 6), (0x50480000, .fence .full .qtr),
    (0x50820c00, .qfence 0x83)] : List (Nat × Instr)),
    p.1 < 2 ^ 31 ∧ decode none p.1 = some p.2 ∧ p.2.wf = true ∧ encode p.2 = some p.1 := by decide +kernel

theorem test_decode_square : ∀ p ∈ ([
    (0x51014000, .harvest 20), (0x524a90e0, .amoadd true true false 9 20 33), (0x524a90e1, .amoand true true false 9 20 33),
    (0x524a90e2, .amoor true true false 9 20 33), (0x524a90e3, .amoxor true true false 9 20 33),
    (0x524a90e4, .amomin true true false 9 20 33), (0x524a90e5, .amomax true true false 9 20 33),
    (0x524a90e6, .amominu true true false 9 20 33), (0x524a90e7, .amomaxu true true false 9 20 33),
    (0x524a90e8, .amoswap true true false 9 20 33), (0x524a90e9, .amocas true true false 9 20 33),
    (0x544a90c8, .amofadd false true .pkg 9 20 33), (0x544a90a0, .amofadd true false .die 9 20 33),
    (0x544a90c9, .amofmin true .pkg 9 20 33), (0x544a908a, .amofmax false .pkg 9 20 33),
    (0x540290e3, .redfadd true true .die 20 33), (0x540290c4, .binadd true .die 20 33), (0x544a804d, .binfold true .pkg 9 20),
    (0x5402908e, .bininit .pkg 20 33), (0x56029080, .barinit 20 33), (0x564a8001, .arrive 9 20), (0x57429082, .bwait 5 20 33),
    (0x57428003, .arrwt 5 20), (0x56029084, .bexpect 20 33), (0x574290dd, .waitw .geu true 5 20 33), (0x56028006, .wake 20)] : List (Nat × Instr)),
    p.1 < 2 ^ 31 ∧ decode none p.1 = some p.2 ∧ p.2.wf = true ∧ encode p.2 = some p.1 := by decide +kernel

theorem test_decode_fabric : ∀ p ∈ ([
    (0x58028060, .xag 6 20), (0x58028069, .xrs true 6 20), (0x58028052, .xar false 5 20), (0x58028063, .xbc 6 20),
    (0x58028064, .xsig 6 20), (0x584a8065, .xgrp 9 6 20), (0x58029096, .stmc true 20 33),
    (0x584a806f, .ldrd true .max true 9 20)] : List (Nat × Instr)),
    p.1 < 2 ^ 31 ∧ decode none p.1 = some p.2 ∧ p.2.wf = true ∧ encode p.2 = some p.1 := by decide +kernel

theorem test_decode_launch : ∀ p ∈ ([
    (0x5a4a8000, .launch 9 20), (0x5a4a8001, .lwait 9 20), (0x5a028002, .ltear 20), (0x5a000003, .yield), (0x5a000004, .done),
    (0x5a480065, .getc 6 9), (0x5a400186, .ckpt 0x8003), (0x5a028007, .twait 20), (0x5a480048, .tget .sync 9),
    (0x5a029089, .frset 20 33), (0x5c48102a, .sysrd 9 0x205), (0x5c028823, .syswr 0x104 20),
    (0x5c0290cd, .tlbinv .as_ .qtr 20 33), (0x5e4a8038, .eget .wgt 9 20), (0x5e028069, .eset 13 20),
    (0x5e4a8002, .gvhintRsv 9 20), (0x5e00000a, .gvhintRel), (0x5e029083, .trc 20 33), (0x5e4a801e, .wlrd .last 9 20)] : List (Nat × Instr)),
    p.1 < 2 ^ 31 ∧ decode none p.1 = some p.2 ∧ p.2.wf = true ∧ encode p.2 = some p.1 := by decide +kernel

/-! Well-formedness: a term that each check refuses, and its neighbour that it admits. -/

theorem test_wf_scalar : [Instr.bfx 1 2 40 24, .bfi 1 2 63 1, .sel 1 0 true 2 3, .br 0 true 5, .lpset 0 1 0, .lpseti 1 4 0,
    .lpbrk 2 0 true, .lpwr 0 1 3].map Instr.wf = List.replicate 8 false ∧
  [Instr.bfx 1 2 40 23, .bfi 1 2 63 0, .sel 1 0 false 2 3, .br 1 true 5, .lpset 0 1 1, .lpseti 1 4 1, .lpbrk 2 1 true,
    .lpwr 0 2 3].map Instr.wf = List.replicate 8 true := by decide +kernel

theorem test_wf_vector : [Instr.vshl .f32 .w256 1 2 3, .vshr .bf16 .w256 1 2 3, .vsar .f16 .w256 1 2 3, .vpart .f32 .w256 1 0,
    .vrfn .f32 .w256 1 2 2, .vcvt .cb4 .bf16 .rne false false .w256 1 2, .vcvt .bf16 .cb2 .rne false false .w256 1 2,
    .vcvt .fp32 .bf16 .rd false true .w256 1 2, .vqnt .f32 .w512 1 2 3, .vdqnt .i16 .w512 1 2 3, .vscl .i16 .w512 1 2,
    .cbq false .u8 .w256 1 2 0, .cbx true .i32 .w256 1 2 0, .dthset 1 2 false, .hfwd .w256 3 1 2, .hinv .w256 5 1 2].map
      Instr.wf = List.replicate 16 false := by decide +kernel

theorem test_wf_matrix : [Instr.mma 9 7 1 2 0 false, .mmz 15 1 1 2 0 true, .pcwr 0 0 1 15, .accz 8 8 0, .accz 0 0 6,
    .rget ⟨8, none⟩ 1 0, .rget ⟨7, some 1⟩ 1 0, .rpush 0 ⟨0, none⟩, .rpop 0 ⟨65, none⟩, .ppst 9 7 0 1 true 0, .ppst 0 0 1 1 true 0,
    .ppst 0 0 1 1 false 0, .ppcfgWord 0 3 1, .htag 1 2 6, .htag 1 2 14].map Instr.wf = List.replicate 15 false := by
  decide +kernel

theorem test_wf_system : [Instr.qfence 0, .amofadd true false .pkg 1 2 3, .redfadd true true .pkg 1 2, .eget .gest 1 2,
    .wlrd .ring 1 2].map Instr.wf = List.replicate 5 false := by decide +kernel

theorem test_wf_agents : [Instr.issueTurnEnd ⟨16, 0, 0⟩, .dividerFree ⟨0, 97, 0⟩, .passStart ⟨0, 97⟩, .grampWrite 8 0, .governorTick 8,
    .hostNop 16, .flitRetry 0 18, .lanePause 16 0 0, .fabricPathFailed 0 18, .stmcMemberWrite ⟨0, 0, 0⟩ 8208, .launchRecordArrival 0 256 0,
    .holdRequest 1 0 [⟨0, 0, 4⟩], .writePerformed (.reach 0 16), .writePerformed (.perform ⟨0, 0, 4⟩ 0),
    .faultServiced ⟨⟨0, 97, 0⟩, 0, [], [], [], true⟩, .switchGroupInstall ⟨1, [0, 8208], 0⟩].map Instr.wf = List.replicate 16 false := by
  decide +kernel

theorem test_wf_header : (⟨0, true, .every, false⟩ : Qual).wf = false ∧ (⟨0, false, .every, true⟩ : Qual).wf = false ∧
    (⟨1, true, .every, true⟩ : Qual).wf = true ∧ (Header.imm 0 5).wf = false ∧ (Header.imm 1 5).wf = true := by decide +kernel

/-! Small states. -/

/-- The machine after reset with a change to the context in focus. -/
def ctxIs (f : Ctx → Ctx) : State := { State.reset with ctx := f State.reset.ctx }

/-- The machine after reset with a change to the core in focus. -/
def coreIs (f : Core → Core) : State := { State.reset with core := f State.reset.core }

/-- The machine after reset with a change to the die in focus. -/
def dieIs (f : Die → Die) : State := { State.reset with die := f State.reset.die }

/-- Reset with some x registers. -/
def withX (l : List (XReg × Word)) : State :=
  ctxIs fun x => { x with x := l.foldl (fun v p => v.set p.1 p.2) x.x }

/-- The state that an outcome leaves. -/
def left (o : Host.Outcome State Fault Refusal) : State :=
  match o with
  | .next t => t
  | _ => State.reset

/-- Lanes of 32 bits as a register's value. -/
def lanes (l : List Nat) : BitVec 1024 := BitVec.ofNat 1024 (l.foldr (fun v n => n * 2 ^ 32 + v) 0)

/-- Reset with vector registers. -/
def withV (l : List (VReg × List Nat)) (f : Ctx → Ctx) : State :=
  ctxIs fun x => f { x with v := l.foldl (fun v p => v.set p.1 (lanes p.2)) x.v }

/-- A task that may name every ring, tile and queue. -/
def task0 : Task := ⟨7, 0, 0, 0, 0, 0, 0, 0, 0x100000000, 65536, 0x100000000, 65535, 65535, 15, 255, 1, 0, 0⟩

/-- A task runs in the context in focus. -/
def running (f : Ctx → Ctx) : State := ctxIs fun x => f { x with task := some task0, status := .ready, pc := 0x100000000 }

/-- Offset 0. -/
def z10 : Imm 1024 := ⟨0, none⟩
def z9 : Imm 512 := ⟨0, none⟩

/-- A loop level that is active. -/
def level (rem : Nat) (start stop : Word) : LoopLevel :=
  { LoopLevel.init with act := true, rem := rem, start := start, stop := stop }

theorem ok_of {α ε : Type} {x : Except ε α} (h : x.toBool = true) : ∃ r, x = .ok r := by
  cases x with
  | ok r => exact ⟨r, rfl⟩
  | error _ => cases h

/-! Witnesses: scalar instructions and control. -/

theorem witness_scalarResult : scalarResult (.add 3 1 2) (withX [(1, 5), (2, -1)]) = some (3, 4) ∧
    scalarResult (.mov 0 1) (withX [(1, 5)]) = some (0, 5) := by decide +kernel

theorem witness_scalarBits : (∃ f, scalarBits (.shl 3 1 2) (withX [(1, 1), (2, 64)]) = some (3, f)) ∧ (Instr.shl 3 1 2).wf ∧
    (∃ f, scalarBits (.bfi 3 1 0 63) State.reset = some (3, f)) ∧ (Instr.bfi 3 1 0 63).wf :=
  ⟨⟨_, rfl⟩, rfl, ⟨_, rfl⟩, rfl⟩

theorem witness_predicate : scalarTruth (.cmp .lt 4 1 2) (withX [(1, -1), (2, 0)]) = some (4, true) ∧
    scalarTruth (.cmp .ltu 4 1 2) (withX [(1, -1), (2, 0)]) = some (4, false) := by decide +kernel

theorem witness_division : State.reset.core.divBusy.length < 2 ∧ State.reset.getX 2 = 0 ∧ (withX [(2, -1)]).getX 2 ≠ 0 ∧
    2 ≤ (coreIs fun k => { k with divBusy := [0, 1] }).core.divBusy.length := by decide +kernel

theorem witness_transfer : transferOf (.br 3 true 0x1ffffb) State.reset = some (some (-80, false)) ∧
    transferOf (.br 3 false 7) State.reset = some none ∧ transferOf (.ret 63) State.reset = some (some (0, true)) := by
  decide +kernel

theorem witness_transferTaken :
    let s (a : Nat) : State := ctxIs fun x => { x with xfer := some ⟨BitVec.ofNat 64 a, false, none⟩ }
    ∀ a ∈ [0, 16, 8, 2 ^ 64 - 16, 2 ^ 64 - 1], (s a).ctx.reissue = none ∧ (s a).ctx.eretPend = false ∧
      (s a).ctx.xfer = some ⟨BitVec.ofNat 64 a, false, none⟩ := by decide +kernel

theorem witness_loopStarts :
    let s (n : Fin 6) (c : Nat) : State := ctxIs fun x => { x with loopStart := some ⟨n, c, 64⟩ }
    let busy : State := ctxIs fun x => { x with lv := x.lv.set 0 (level 2 0 0), loopStart := some ⟨0, 1, 64⟩ }
    let atEnd : State := ctxIs fun x => { x with lv := x.lv.set 0 (level 2 0 0), loopStart := some ⟨1, 1, 64⟩ }
    (∀ c ∈ [0, 1, 2 ^ 32 - 1, 2 ^ 32], Plain (s 0 c) ∧ (s 0 c).ctx.xfer = none ∧ (s 0 c).ctx.loopStart = some ⟨0, c, 64⟩ ∧
      ¬∃ k : Fin 6, (s 0 c).ctx.lv[k].act = true) ∧
    (Plain (s 1 1) ∧ (s 1 1).ctx.loopStart = some ⟨1, 1, 64⟩ ∧ (s 1 1).ctx.lv[(0 : Fin 6)].act = false) ∧
    (Plain busy ∧ busy.ctx.loopStart = some ⟨0, 1, 64⟩ ∧ busy.ctx.lv[(0 : Fin 6)].act = true) ∧
    (Plain atEnd ∧ atEnd.ctx.loopStart = some ⟨1, 1, 64⟩ ∧ atEnd.ctx.lv[(0 : Fin 6)].stop = atEnd.ctx.pc) := by
  unfold Plain; decide +kernel

theorem witness_stridePair :
    let full : State := ctxIs fun x => { x with
      lv := x.lv.set 2 { LoopLevel.init with pairs := Vector.replicate 4 ⟨5, 1, true, none⟩ } }
    let three : State := ctxIs fun x => { x with
      lv := x.lv.set 2 { LoopLevel.init with pairs := (Vector.replicate 4 ⟨5, 1, true, none⟩).set 3 ⟨0, 0, false, none⟩ } }
    State.reset.ctx.lv[(2 : Fin 6)].pairs[(0 : Fin 4)].valid = false ∧
    (three.ctx.lv[(2 : Fin 6)].pairs[(3 : Fin 4)].valid = false ∧
      ∀ j < (3 : Fin 4), three.ctx.lv[(2 : Fin 6)].pairs[j].valid = true) ∧
    ∀ k : Fin 4, full.ctx.lv[(2 : Fin 6)].pairs[k].valid = true := by decide +kernel

theorem witness_loopIterates : ∀ p ∈ [(0, 2), (16, 2 ^ 32 - 1)],
    let s : State := ctxIs fun x => { x with lv := x.lv.set 0 (level p.2 (BitVec.ofNat 64 p.1) 0) }
    Plain s ∧ s.ctx.xfer = none ∧ s.ctx.loopStart = none ∧ s.ctx.lv[(0 : Fin 6)].act = true ∧
      (∀ k : Fin 6, 0 < k → s.ctx.lv[k].act = false) ∧ s.ctx.lv[(0 : Fin 6)].stop = s.ctx.pc ∧
      1 < s.ctx.lv[(0 : Fin 6)].rem ∧ s.ctx.lv[(0 : Fin 6)].pendRem = none ∧ s.ctx.lv[(0 : Fin 6)].pendStart = none ∧
      s.ctx.lv[(0 : Fin 6)].pendStop = none ∧ ∀ j : Fin 4, s.ctx.lv[(0 : Fin 6)].pairs[j].pending = none := by
  unfold Plain; decide +kernel

theorem witness_loopEnds :
    let s : State := ctxIs fun x => { x with lv := (x.lv.set 0 (level 2 0 32)).set 1 (level 1 0 0) }
    Plain s ∧ s.ctx.xfer = none ∧ s.ctx.loopStart = none ∧ s.ctx.lv[(1 : Fin 6)].act = true ∧
      (∀ k : Fin 6, 1 < k → s.ctx.lv[k].act = false) ∧ s.ctx.lv[(1 : Fin 6)].stop = s.ctx.pc ∧
      s.ctx.lv[(1 : Fin 6)].rem = 1 ∧ s.ctx.lv[(1 : Fin 6)].pendRem = none ∧
      ∀ k : Fin 6, k < 1 → s.ctx.lv[k].stop ≠ s.ctx.pc := by unfold Plain; decide +kernel

theorem witness_loopBreaks :
    let s : State := ctxIs fun x => { x with lv := x.lv.set 0 (level 2 0 32) }
    State.reset.ctx.lv[(0 : Fin 6)].act = false ∧ s.ctx.lv[(0 : Fin 6)].act = true ∧ Plain s ∧
      xor (s.getQ 0) false = true ∧ xor (s.getQ 1) false = false ∧ (s.ctx.lv[(0 : Fin 6)].stop + 16).toNat % 16 = 0 := by
  unfold Plain; decide +kernel

theorem witness_loopField :
    let s (v : Nat) : State := ctxIs fun x => { x with x := x.x.set 1 (BitVec.ofNat 64 v), lv := x.lv.set 0 (level 2 0 32) }
    (∀ v ∈ [0, 2 ^ 32 - 1, 2 ^ 32], (s v).ctx.lv[(0 : Fin 6)].act = true ∧ ((s v).getX 1).toNat = v) ∧
      ((s 8).getX 1).toNat % 16 ≠ 0 ∧ ((s 16).getX 1).toNat % 16 = 0 ∧
      (s 0).ctx.lv[(0 : Fin 6)].pairs[(0 : Fin 4)].valid = false ∧ State.reset.ctx.lv[(0 : Fin 6)].act = false := by decide +kernel

/-! Witnesses: traps. -/

theorem witness_trap :
    let s (t : Word) (inh : Bool) : State := ctxIs fun x => { x with tvec := t, inh := inh }
    (s 64 false).ctx.ctrl = false ∧ ((s 64 false).stop 3 0 0).ctx.tvec ≠ 0 ∧ (s 64 false).ctx.inh = false ∧
      ((s 0 false).stop 3 0 0).ctx.tvec = 0 ∧ (s 64 true).ctx.inh = true ∧ State.reset.ctx.reissue = none := by decide +kernel

theorem witness_grangerTrap :
    let s (inh : Bool) : State := ctxIs fun x => { x with ctrl := true, inh := inh }
    (s false).ctx.ctrl = true ∧ (s false).ctx.inh = false ∧ (s true).ctx.inh = true := by decide +kernel

theorem witness_softwareTrap :
    let s (k : Nat) : State := ctxIs fun x => { x with ib := some (Vector.replicate 4 0), slot := k, tvec := 64 }
    ∀ k ∈ [0, 3], (s k).ctx.ib = some (Vector.replicate 4 0) ∧ (s k).ctx.slot < 4 ∧ (s k).ctx.ctrl = false ∧
      (s k).ctx.inh = false ∧ ((s k).stop 0x13 0 0).ctx.tvec ≠ 0 := by decide +kernel

theorem witness_eret :
    let s (done next : Nat) (fs : List AsyncFault) : State := ctxIs fun x => { x with
      inh := true, eretPend := true, pend := fs, trap := { x.trap with done := BitVec.ofNat 64 done, next := BitVec.ofNat 64 next } }
    (∀ d ∈ [15, 0, 7], ∀ n ∈ [0, 33], (s d n []).ctx.reissue = none ∧ (s d n []).ctx.eretPend = true ∧
      (s d n []).ctx.pend = [] ∧ (s d n []).ctx.saved.bind SavedGroup.loopStart = none ∧ (s d n []).ctx.trap.done.toNat = d) ∧
    (s 15 0 [⟨6, 0, 0⟩]).ctx.pend = ⟨6, 0, 0⟩ :: [] ∧ State.reset.ctx.ctrl = false ∧ State.reset.ctx.inh = false := by
  decide +kernel

/-! Witnesses: memory. -/

theorem unhindered_ctxIs (f : Ctx → Ctx) (h : (f State.reset.ctx).points = [])
    (k : (f State.reset.ctx).owa = Vector.replicate 2 0) : Unhindered (ctxIs f) := ⟨h, k, rfl⟩

theorem witness_cribLoad : Unhindered (withX [(1, 2097144)]) ∧
    CribAddress (scaledAddress (withX [(1, 2097144)]) 1 z10 8) 8 8 ∧
    CribAddress (scaledAddress (withX [(1, 2097144)]) 0 (⟨3, none⟩ : Imm 1024) 1) 1 1 := by
  refine ⟨unhindered_ctxIs _ rfl (by decide +kernel), ?_, ?_⟩ <;> unfold CribAddress <;> decide +kernel

theorem witness_misaligned :
    let s := withX [(1, 1), (2, 2097151)]
    s.ctx.points = [] ∧ keyOk (scaledAddress s 1 z10 2) ∧ (scaledAddress s 1 z10 2).toNat % 2 ≠ 0 ∧
      keyOk (scaledAddress s 2 z10 8) ∧ (scaledAddress s 2 z10 8).toNat % 8 ≠ 0 := by decide +kernel

theorem witness_store :
    let s := withX [(1, 2097144), (2, 5)]
    s.ctx.points = [] ∧ s.ctx.owa = Vector.replicate 2 0 ∧ modeOf s.ctx.cstat = 0 ∧
      ∃ r, s.checkAccess (scaledAddress s 1 z10 8) 8 8 (.scalar 8) true = .ok r :=
  ⟨rfl, by decide +kernel, by decide +kernel, ok_of (by decide +kernel)⟩

theorem witness_parameterLoad :
    let s (n o : Nat) : State := ctxIs fun x => { x with
      pw := x.pw.set 0 ⟨0, n⟩, x := x.x.set 1 (BitVec.ofNat 64 o) }
    State.reset.ctx.pw[(0 : Fin 4)].size = 0 ∧
    ((s 8 8).ctx.pw[(0 : Fin 4)].size = 8 ∧ ((s 8 8).getX 1).toNat = 8) ∧
    (Unhindered (s 16 8) ∧ (s 16 8).ctx.pw[(0 : Fin 4)] = ⟨0, 16⟩ ∧ ((s 16 8).getX 1).toNat + 8 ≤ 16) := by
  refine ⟨by decide +kernel, by decide +kernel, unhindered_ctxIs _ rfl (by decide +kernel), by decide +kernel, by decide +kernel⟩

theorem witness_cribVector :
    let s := withX [(1, 2097152 - 128)]
    Unhindered s ∧ wordBits s.ctx.cview 19 17 = 0 ∧ CribAddress (scaledAddress s 1 z9 32) 128 32 ∧
      modeOf s.ctx.cstat = 0 ∧ s.getTag 3 = 0 := by
  refine ⟨unhindered_ctxIs _ rfl (by decide +kernel), by decide +kernel, ?_, by decide +kernel, by decide +kernel⟩
  unfold CribAddress; decide +kernel

theorem witness_pattern :
    let s : State := ctxIs fun x => { x with pk := x.pk.set 1 0x20083f, x := x.x.set 1 64 }
    Unhindered s ∧ wordBits s.ctx.cview 19 17 = 0 ∧ CribAddress (s.getX 1) 128 1 ∧
      wordBits s.ctx.pk[(1 : Fin 4)] 39 20 % 4 = 2 ∧ wordBits s.ctx.pk[(1 : Fin 4)] 39 20 % 1 = 0 := by
  refine ⟨unhindered_ctxIs _ rfl (by decide +kernel), by decide +kernel, ?_, by decide +kernel, by decide +kernel⟩
  unfold CribAddress; decide +kernel

theorem witness_harvestStore :
    let s : State := ctxIs fun x => { x with cstat := 0x400000, x := x.x.set 1 0x80000000 }
    s.ctx.points = [] ∧ s.ctx.owa = Vector.replicate 2 0 ∧ s.ctx.stores = [] ∧ s.harvestRoom 8 = true ∧
      (∃ r, s.checkAccess (scaledAddress s 1 z10 8) 8 8 (.scalar 8) true = .ok r) ∧
      (match s.checkAccess (scaledAddress s 1 z10 8) 8 8 (.scalar 8) true with
        | .ok r => s.buffered (r.places.headD 0)
        | .error _ => false) = true :=
  ⟨rfl, by decide +kernel, rfl, by decide +kernel, ok_of (by decide +kernel), by decide +kernel⟩

/-! Witnesses: vectors and conversions. -/

/-- Two registers, one with a domain tag. -/
def tagged (t : BitVec 4) : State := ctxIs fun x => { x with vtag := x.vtag.set 1 t, v := x.v.set 1 0x3f8000007f800000 }

theorem witness_intLanes : (∃ o, intLanes (.vadd .i32 .w256 3 1 2) (tagged 0) = some o ∧ o.et.isFloat = false ∧ o.ok) ∧
    ∃ o, intLanes (.vadd .i32 .w256 3 1 2) (tagged 2) = some o ∧ o.et.isFloat = false ∧ ¬o.ok :=
  ⟨⟨_, rfl, rfl, (by decide +kernel : (tagged 0).getTag 1 = (tagged 0).getTag 2 ∧ ((tagged 0).getTag 1).toNat % 8 ≤ 5)⟩,
    ⟨_, rfl, rfl, (by decide +kernel : ¬((tagged 2).getTag 1 = (tagged 2).getTag 2 ∧ ((tagged 2).getTag 1).toNat % 8 ≤ 5))⟩⟩

theorem witness_bitLanes : (∃ o, bitLanes (.vand .i32 .w256 3 1 2) (tagged 0) = some o ∧ o.ok) ∧
    ∃ o, bitLanes (.vgat .i32 .w256 3 2 1) (tagged 2) = some o ∧ ¬o.ok :=
  ⟨⟨_, rfl, (by decide +kernel : (tagged 0).getTag 1 = 0 ∧ (tagged 0).getTag 2 = 0)⟩,
    ⟨_, rfl, (by decide +kernel : ¬((tagged 2).getTag 1 = 0 ∧ ((tagged 2).getTag 2).toNat % 8 ≤ 5))⟩⟩

theorem witness_floatLanes : (∃ o, floatLanes (.vadd .f32 .w256 3 1 2) (tagged 0) = some o ∧ o.et.isFloat = true ∧ o.ok) ∧
    (∃ o, floatLanes (.vadd .f32 .w256 3 1 2) (tagged 2) = some o ∧ o.et.isFloat = true ∧ ¬o.ok) ∧
    ∀ f : FlagSet, ¬Enabled (tagged 0).ctx.cstat f :=
  ⟨⟨_, rfl, rfl, (by decide +kernel : (tagged 0).getTag 1 = (tagged 0).getTag 2 ∧ ((tagged 0).getTag 1).toNat % 8 ≤ 5)⟩,
    ⟨_, rfl, rfl, (by decide +kernel : ¬((tagged 2).getTag 1 = (tagged 2).getTag 2 ∧ ((tagged 2).getTag 1).toNat % 8 ≤ 5))⟩,
    fun f h => by rcases h with h | h | h | h | h <;> exact absurd h.2 (by decide +kernel)⟩

/-- NV enabled, and a product of 0 and infinity in lane 0. -/
def nanState : State := ctxIs fun x => { x with cstat := 0x4000000, v := x.v.set 1 0x7f800000 }

theorem witness_enabledFlag : ∃ o, floatLanes (.vmul .f32 .w256 3 1 2) nanState = some o ∧ o.et.isFloat = true ∧ o.ok ∧
    Enabled nanState.ctx.cstat (o.lane 0).2 :=
  ⟨_, rfl, rfl, (by decide +kernel : (nanState.getTag 1 = 0 ∨ nanState.getTag 2 = 0) ∧ (nanState.getTag 1).toNat % 8 ≤ 5 ∧ (nanState.getTag 2).toNat % 8 ≤ 5), .inl (by decide +kernel)⟩

theorem witness_comparison : (tagged 0).getTag 1 = 0 ∧ (tagged 0).getTag 2 = 0 ∧ (tagged 0).ctx.cstat.getLsbD 26 = false ∧
    ¬((tagged 2).getTag 1 = 0 ∧ (tagged 2).getTag 2 = 0) := by decide +kernel

theorem witness_singleLane :
    let s (i : Nat) : State := withX [(2, BitVec.ofNat 64 i)]
    (s 31).getTag 1 = 0 ∧ ((s 31).getX 2).toNat < 1024 / 32 ∧ 1024 / 32 ≤ ((s 32).getX 2).toNat ∧ (tagged 2).getTag 1 ≠ 0 := by
  decide +kernel

theorem witness_reductions : ElTy.isFloat .i16 = false ∧ ElTy.isFloat .bf16 = true ∧
    ¬(RedOp.min = .add ∨ (tagged 2).getTag 1 = 0) ∧ (RedOp.max = .add ∨ (tagged 0).getTag 1 = 0) ∧
    (tagged 0).ctx.cstat.toNat / 2 ^ 26 % 32 = 0 := by decide +kernel

theorem witness_codes : (∃ o, codesWritten (.vcvt .fp32 .e4m3 .rne false true .w512 3 1) (tagged 0) = some o ∧ (tagged 0).getTag o.va = 0) ∧
    (Instr.vcvt .fp32 .e4m3 .rne false true .w512 3 1).wf ∧
    ∃ o, codesWritten (.cbq true .f16 .w512 3 1 2) (tagged 2) = some o ∧ (tagged 2).getTag o.va ≠ 0 :=
  ⟨⟨_, rfl, (by decide +kernel : (tagged 0).getTag 1 = 0)⟩, rfl, ⟨_, rfl, (by decide +kernel : (tagged 2).getTag 1 ≠ 0)⟩⟩

theorem witness_scale : ElTy.isFloat .f32 = true ∧ (tagged 0).getTag 1 = 0 ∧ (tagged 0).getTag 2 = 0 ∧
    ¬((tagged 2).getTag 1 = 0 ∧ (tagged 2).getTag 2 = 0) := by decide +kernel

theorem witness_subBlock : subBlockOk .f32 .w1024 ∧ subBlockOk .bf16 .w512 ∧ NoTraps (tagged 0) ∧ (3 : VReg) ≠ 2 ∧
    (tagged 0).getTag 1 = 0 ∧ (tagged 0).getTag 2 = 0 := by unfold NoTraps; decide +kernel

/-! Witnesses: the matrix queue, rings and post-processing. -/

/-- A task, a ring 0 of the A role with four slots of 32 KiB and a ring 1 of the B role with two of 128 KiB. -/
def ringed (n : Nat) (who : Option Task) : State :=
  { State.reset with
    ctx := { State.reset.ctx with task := who, pc := 0x100000000 }
    core := { State.reset.core with
      mq := List.replicate n ⟨⟨0, 0, 0⟩, 0, .zero 0 1 0, 0, 0, 0, 0, 0, none, [], [], none, none, 0, none, false, []⟩
      ppq := List.replicate n ⟨⟨0, 0, 0⟩, 0, .rebuild 0 0 1, 0, 0, 0, 0, 0, false, 0, none, none, []⟩
      rings := (State.reset.core.rings.set 0 ⟨0x0000040800000000, 0, 3, 4, 3, 0, [], 65535, 0⟩).set 1
        ⟨0x0001022000020000, 0x80, 0, 1, 0, 0, [], 65535, 0⟩ } }

theorem witness_matrixProducts :
    let s := ringed 0 (some task0)
    let a := s.core.rings[(0 : Fin 16)]
    let b := s.core.rings[(1 : Fin 16)]
    8 ≤ (ringed 8 none).core.mq.length ∧ (ringed 7 none).core.mq.length < 8 ∧ s.core.mq.length < 8 ∧ RingGranted s 0 ∧ RingGranted s 1 ∧
      TilesGranted s 0 16 ∧ ¬RingGranted (ringed 0 none) 0 ∧
      (a.nslot ≠ 0 ∧ b.nslot ≠ 0 ∧ a.role = 0 ∧ b.role = 1 ∧ 4 ≤ a.nslot ∧ 1024 * (pcwAFmt (s.getW 0)).bits ≤ a.slotSize ∧
        8192 * (pcwBFmt (s.getW 0)).bits ≤ b.slotSize) ∧ s.core.rings[(2 : Fin 16)].nslot = 0 := by
  refine ⟨by decide +kernel, by decide +kernel, by decide +kernel, ⟨by decide +kernel, task0, rfl, by decide +kernel⟩,
    ⟨by decide +kernel, task0, rfl, by decide +kernel⟩, ⟨by decide +kernel, task0, rfl, fun k _ h => ?_⟩, fun ⟨_, t, h, _⟩ => ?_, by decide +kernel, by decide +kernel⟩
  · have h : k < 16 := by omega
    exact (by decide +kernel : ∀ k < 16, task0.amask.testBit k = true) k h
  · cases h

theorem witness_pairs :
    let s : State := { ringed 0 (some task0) with ctx := { (ringed 0 (some task0)).ctx with w := Vector.replicate 8 0x1000 } }
    (s.getW 0).toNat / 2 ^ 12 % 4 = 1 := by decide +kernel

theorem witness_tileAccess : (withX [(1, 128)]).getX 1 = 128 ∧ 128 + 127 ≤ 255 ∧ 255 < ((withX [(1, 129)]).getX 1).toNat + 127 := by
  decide +kernel

theorem witness_precisionWord : pcwValid (State.reset.getX 0) = true ∧ pcwValid ((withX [(1, -1)]).getX 1) = false ∧
    pcwField 14 = pcwField 14 := by decide +kernel

theorem witness_matrixWait :
    (∃ e ∈ (ringed 1 none).core.mq, e.who = (ringed 1 none).foc ∧ (0 = 0 ∨ ∃ k ∈ e.op.tiles, (0 : Nat).testBit k = true)) ∧
    ¬∃ e ∈ State.reset.core.mq, e.who = State.reset.foc :=
  ⟨⟨_, List.mem_cons_self, rfl, .inl rfl⟩, fun ⟨_, h, _⟩ => by cases h⟩

theorem witness_ringConfig :
    let s : State := ringed 0 (some task0)
    RingGranted s 0 ∧ RingWords 0x0001400100000000 0x3fff = False ∧ RingWords 0x0000400100000000 0x3800 ∧ s.core.ringBusy 0 = false ∧
      (ringed 1 (some task0)).core.ringBusy 0 = false ∧ s.core.rings[(2 : Fin 16)].nslot = 0 ∧ s.core.rings[(0 : Fin 16)].nslot = 4 ∧
      Occupied s.core.rings[(0 : Fin 16)] = 1 ∧ Occupied State.reset.core.rings[(0 : Fin 16)] = 0 ∧
      (⟨7, none⟩ : Imm 128).uval < 8 := by
  refine ⟨⟨by decide +kernel, task0, rfl, by decide +kernel⟩, ?_, ?_, by decide +kernel, by decide +kernel, by decide +kernel, by decide +kernel, by decide +kernel,
    by decide +kernel, by decide +kernel⟩
  · exact eq_false fun h => absurd h.2.2.2.2.2.2.2.2.2 (by decide +kernel)
  · exact ⟨by decide +kernel, ⟨6, by decide, by decide +kernel⟩, by decide +kernel, by decide +kernel, by decide +kernel,
      by decide +kernel, by decide +kernel, by decide +kernel, by decide +kernel, by decide +kernel⟩

theorem witness_ringFull :
    let r : Ring := ⟨0x0000040800000000, 0, 3, 7, 3, 0, [], 65535, 0⟩
    r.nslot ≠ 0 ∧ r.nslot - Occupied r - r.resv = 0 ∧ r.nslot < Occupied r + 1 ∧ r.resv = 0 ∧ Occupied r + 0 ≤ r.nslot ∧ 4 ≤ Occupied r := by
  decide +kernel

theorem witness_pushPop :
    let s : State := ringed 0 (some task0)
    let r := s.core.rings[(0 : Fin 16)]
    RingGranted s 0 ∧ s.ctx.stores = [] ∧ s.ctx.loads = [] ∧ r.resv = 0 ∧ Occupied r + 3 ≤ r.nslot ∧ r.nslot < Occupied r + 4 ∧
      1 ≤ Occupied r ∧ Occupied r < 2 ∧ s.core.ringBusy 0 = false ∧ s.die.owring.toNat % 2 ^ 16 = 0 := by
  exact ⟨⟨by decide +kernel, task0, rfl, by decide +kernel⟩, rfl, rfl, by decide +kernel⟩

theorem witness_postProcessing :
    let s : State := ringed 0 (some task0)
    8 ≤ (ringed 8 none).core.ppq.length ∧ s.core.ppq.length < 8 ∧ TilesGranted s 0 1 ∧ RingGranted s 0 ∧
      (s.getX 0).toNat % (32 * 16) = 0 ∧ (s.getX 0).toNat % 32768 = 0 ∧ (s.getX 0).toNat + 256 ≤ 16384 ∧
      16384 < ((withX [(1, 16129)]).getX 1).toNat + 256 ∧ ¬((withX [(1, 5)]).getX 1).toNat % 32768 = 0 := by
  refine ⟨by decide +kernel, by decide +kernel, ⟨by decide +kernel, task0, rfl, fun k _ h => ?_⟩,
    ⟨by decide +kernel, task0, rfl, by decide +kernel⟩, by decide +kernel⟩
  have h : k < 16 := by omega
  exact (by decide +kernel : ∀ k < 16, task0.amask.testBit k = true) k h

theorem witness_haar :
    let s (a b : BitVec 4) : State := ctxIs fun x => { x with vtag := (x.vtag.set 1 a).set 2 b }
    (∀ t ∈ [1, 5], 1 ≤ ((s (BitVec.ofNat 4 t) 0).getTag 1).toNat % 8 ∧ ((s (BitVec.ofNat 4 t) 0).getTag 1).toNat % 8 ≤ 5) ∧
      ¬(1 ≤ (State.reset.getTag 1).toNat % 8) ∧ (s 4 4).getTag 1 = (s 4 4).getTag 2 ∧ (s 4 5).getTag 1 ≠ (s 4 5).getTag 2 ∧
      NoTraps (s 4 4) := by unfold NoTraps; decide +kernel

/-! Witnesses: the copy engine and queues. -/

/-- An operation of a copy queue as it enters it. -/
def copyOp (kind : CopyKind) (xa xb : Word) (shape : Vector Word 4) : CopyOp :=
  { who := ⟨0, 0, 0⟩, kind := kind, ord := false, sig := false, xa := xa, xb := xb, shape := shape, view := 0, opn := 0, slot := 0,
    seq := 0, since := 0, state := .queued, units := 0, bytes := 0, pos := 0, reported := 0, reserved := none, faddr := 0, cause := 0,
    reason := 0, told := false, flags := 0, old := [], free := 0, won := [], idx := [], entries := [], cast := [], applied := [],
    ahead := [], lastPos := none, signalled := false, kib := 0, after := [] }

/-- A task with operations in queue 0 of its core. -/
def copying (l : List CopyOp) : State :=
  { State.reset with
    ctx := { State.reset.ctx with task := some task0 }
    core := { State.reset.core with cq := State.reset.core.cq.set 0 l } }

theorem witness_copies :
    let s := copying []
    let sh : Vector Word 4 := Vector.replicate 4 0
    (∃ c, copyCommand (.cpsig 0 0 0) s = some c ∧ NewCopy s c (copyOp .cpsig 0 0 sh) ∧ c.2.2.2.1 = 0) ∧ s.ctx.points = [] ∧
      QueueGranted s 0 ∧ s.core.cq[(0 : Fin 4)].length < 16 ∧ (copyOp .cpsig 0 0 sh).issueReason = none ∧
      (∃ c, copyCommand (.cp 0 0 0 0 false) s = some c ∧ NewCopy s c (copyOp .cp 0 0 sh)) ∧
      (copyOp .cp 0 0 sh).issueReason = some 33 ∧ (copyOp .cp 0 0 sh).toRing = false ∧
      16 ≤ (copying (List.replicate 16 (copyOp .cp 0 0 sh))).core.cq[(0 : Fin 4)].length ∧ ¬QueueGranted State.reset 0 := by
  refine ⟨⟨_, rfl, by unfold NewCopy; decide +kernel, rfl⟩, rfl, ⟨task0, rfl, by decide +kernel⟩, by decide +kernel, by decide +kernel,
    ⟨_, rfl, by unfold NewCopy; decide +kernel⟩, by decide +kernel, by decide +kernel, by decide +kernel, fun ⟨t, h, _⟩ => by cases h⟩

theorem witness_copyRing :
    let sh : Vector Word 4 := #v[0x1f000000, 0, 0, 0x400000000000000]
    let e := copyOp .cpx 2 0 sh
    e.toRing = true ∧ e.xa.toNat < 16 ∧ e.issueReason = none ∧ RingGranted (copying []) e.ring ∧ e.ringSuits State.reset.core.rings[(2 : Fin 16)] = false :=
  ⟨by decide +kernel, by decide +kernel, by decide +kernel, ⟨by decide +kernel, task0, rfl, by decide +kernel⟩, by decide +kernel⟩

theorem witness_queueFaulted :
    let o := { copyOp .cp 0 0 (Vector.replicate 4 0) with state := .faulted }
    let s := copying [o]
    let e : MqEntry := ⟨⟨0, 0, 0⟩, 0, .zero 0 1 0, 0, 0, 0, 0, 0, none, [], [], none, none, 0, some ⟨1, 0, false, 0, 0, 0⟩, false, []⟩
    let m := coreIs fun k => { k with mq := [] ++ e :: [] }
    (QueueGranted s 0 ∧ s.core.cq[(0 : Fin 4)] = [] ++ o :: [] ∧ o.who = s.foc ∧ o.state = .faulted) ∧
      (m.core.mq = [] ++ e :: [] ∧ e.who = m.foc ∧ e.fault.isSome) ∧
      (NoFaulted State.reset 0 ∧ NoFaulted State.reset 5) ∧ (∀ r ∈ State.reset.ctx.sq, r.fault = none) ∧
      State.reset.stoppedBatch = none ∧ State.reset.ctx.xiq = [] := by
  refine ⟨⟨⟨task0, rfl, by decide +kernel⟩, by decide +kernel, rfl, rfl⟩, ⟨rfl, rfl, rfl⟩, ⟨⟨?_, ?_⟩, ?_, ?_⟩, ?_, by decide +kernel, rfl⟩
  · exact fun r h => by rw [(by decide +kernel : State.reset.records 0 = [])] at h; cases h
  · exact fun h => absurd h (by decide +kernel)
  · exact fun r h => by rw [(by decide +kernel : State.reset.records 5 = [])] at h; cases h
  · exact fun _ e h => by cases h
  · exact fun r h => by cases h

/-! Witnesses: Square space. -/

/-- A barrier of `exp` tasks with so many arrived, its PHASE 0, at the start of Square space. -/
def barrierAt (exp arr : Nat) (f : Ctx → Ctx) : State :=
  { State.reset with
    ctx := f { State.reset.ctx with x := State.reset.ctx.x.set 1 0xc0000000, task := some task0 }
    launches := []
    mem := [(2 ^ 67, BitVec.ofNat 8 exp)] ++ if arr = 0 then [] else [(2 ^ 67 + 2, BitVec.ofNat 8 (16 * arr))] }

theorem witness_squareRequest :
    let s := barrierAt 1 0 id
    (∃ f, squareForm (.amoadd true true true 3 1 2) s = some f ∧ s.ctx.sq.length < 16 ∧
      ∃ p, s.checkSquare (s.getX f.xa) f.align f.pkg = .ok p) ∧ s.ctx.points = [] ∧ s.ctx.owa = Vector.replicate 2 0 ∧
      (∃ f, squareForm (.amofadd true false .die 3 1 2) s = some f ∧ orderedOf (.amofadd true false .die 3 1 2) s = some (3, 0)) ∧
      (∃ f, squareForm (.bininit .die 2 1) s = some f ∧ ∃ e, s.checkSquare (s.getX f.xa) f.align f.pkg = .error e) ∧
      ∃ f, squareForm (.barinit 1 4) { s with ctx := { s.ctx with x := s.ctx.x.set 4 0xfffff } } = some f :=
  ⟨⟨_, rfl, by decide +kernel, ok_of (by decide +kernel)⟩, rfl, by decide +kernel, ⟨_, rfl, by decide +kernel⟩,
    ⟨_, rfl, ⟨_, rfl⟩⟩, ⟨_, rfl⟩⟩

theorem witness_barrier :
    let s := barrierAt 1 0 id
    let p : Nat := 2 ^ 67
    s.ctx.points = [] ∧ s.ctx.reissue = none ∧ s.ctx.sq.length < 16 ∧ SquareAddress s (s.getX 1) 16 true p ∧ s.poison = [] ∧
      s.squareBacked p = true ∧ barrierObject s p % 2 ^ 20 ≠ 0 ∧ barrierObject s p / 2 ^ 122 = 0 ∧
      barrierObject s p / 2 ^ 40 % 2 ^ 32 = (s.getX 0).toNat % 2 ^ 32 ∧ barrierObject s p / 2 ^ 40 % 2 ^ 32 ≠ (s.getX 1).toNat % 2 ^ 32 := by
  refine ⟨rfl, rfl, by decide +kernel, ⟨by decide +kernel, rfl⟩, rfl, by decide +kernel, by decide +kernel, by decide +kernel,
    by decide +kernel, by decide +kernel⟩

theorem witness_word :
    let s := withX [(1, 2097144), (2, 1)]
    Unhindered s ∧ CribAddress (s.getX 1) 8 8 ∧ s.ctx.stores = [] ∧ s.ctx.loads = [] ∧ s.ctx.sq = [] ∧ (s.getX 1).toNat < 2097152 ∧
      wordCondition .eq 8 (byteSum (fun k => s.seenByte 0 (cribPlace ⟨0, 0⟩ (2097144 + k))) 8) 0 ∧
      ¬wordCondition .eq 8 (byteSum (fun k => s.seenByte 0 (cribPlace ⟨0, 0⟩ (2097144 + k))) 8) 1 := by
  refine ⟨unhindered_ctxIs _ rfl (by decide +kernel), by unfold CribAddress; decide +kernel, rfl, rfl, rfl, by decide +kernel, ?_, ?_⟩ <;>
    (unfold wordCondition; decide +kernel)

theorem witness_queueFence : (∀ q < 4, (q < 8 ∧ (131 : Nat).testBit q = true) → QueueGranted (copying []) q) ∧
    ∃ q < 4, (q < 8 ∧ (131 : Nat).testBit q = true) ∧ ¬QueueGranted State.reset q := by
  refine ⟨fun q h _ => ⟨task0, rfl, ?_⟩, 0, by decide, by decide, fun ⟨t, h, _⟩ => by cases h⟩
  exact (by decide +kernel : ∀ q < 4, task0.cqm.testBit q = true) q h

/-! Witnesses: the collective engine. -/

/-- A launch of one task on die 0 with its group entry 0 filled. -/
def launch0 : Launch :=
  { handle := 7, home := 0, record := List.replicate 128 0, bale := [], state := .running, prio := 0, arrival := 0, aged := 0,
    parent := none, depth := 0, fromHost := true, hostValid := true, status := 0, cause := 0, tplace := 0, tend := 0, dropped := 0,
    preempt := 0, holds := [], spared := [], asn := 1, root := 0, harea := 0, hcap := 0, tasks := [(0, .on ⟨0, 0, 0⟩)], saved := [],
    groups := [(0, 0, ⟨3, 0x100000000, 65536, 0⟩)] }

/-- Its task runs, and switch group 3 has two members. -/
def fabric (f : Ctx → Ctx) (cells : List Host.Cell) : State :=
  { State.reset with
    ctx := f { State.reset.ctx with task := some task0, x := State.reset.ctx.x.set 1 0x100000008 }
    die := { State.reset.die with views := [⟨3, 2, 0, 0⟩], gqdn := 16 }
    launches := [launch0], groups := [⟨3, [0, 1], 0⟩], mem := cells }

/-- A descriptor at 0: SRC 0x1000, DST 0x2000, eight elements of BF16, group entry 0. -/
def descriptor : List Host.Cell :=
  [(cribPlace ⟨0, 0⟩ 1, 0x10), (cribPlace ⟨0, 0⟩ 9, 0x20), (cribPlace ⟨0, 0⟩ 16, 8)]

theorem witness_collective :
    let s := fabric id descriptor
    collectiveOf (.xar true 2 0) = some (.allReduce, true, 2, 0) ∧ s.ctx.points = [] ∧ s.poison = [] ∧ s.ctx.xiUsed < 8 ∧
      s.ctx.task = some task0 ∧ task0.xqm.testBit 2 = true ∧ { task0 with xqm := 251 }.xqm.testBit 2 = false ∧
      s.pendingBind 2 = none ∧ (s.getX 0).toNat < 2097152 ∧ (s.getX 0).toNat % 64 = 0 ∧
      (s.myLaunch.bind fun l => l.entry 0 (descriptorAt s 0 / 2 ^ 128 % 2 ^ 64 / 2 ^ 48 % 8)) = some ⟨3, 0x100000000, 65536, 0⟩ ∧
      s.viewOf 0 3 = some ⟨3, 2, 0, 0⟩ ∧ GoodDescriptor .allReduce (descriptorAt s 0) 2 ∧
      (State.reset.myLaunch.bind fun l => l.entry 0 0) = none := by
  refine ⟨rfl, rfl, rfl, by decide +kernel, rfl, by decide +kernel, by decide +kernel, by decide +kernel, by decide +kernel,
    by decide +kernel, by decide +kernel, by decide +kernel, ?_, by decide +kernel⟩
  unfold GoodDescriptor; decide +kernel

theorem witness_group :
    let s := fabric id [(cribPlace ⟨0, 0⟩ 0, 3)]
    let v := descriptorAt s 0
    s.ctx.points = [] ∧ s.poison = [] ∧ (s.getX 0).toNat % 64 = 0 ∧ (s.getX 1).toNat % 64 ≠ 0 ∧ v % 2 ^ 16 = 3 ∧ v / 2 ^ 16 = 0 ∧
      s.viewOf 0 (v % 2 ^ 16) = some ⟨3, 2, 0, 0⟩ ∧ State.reset.viewOf 0 3 = none ∧ s.myLaunch = some launch0 ∧
      descriptorAt (fabric id descriptor) 0 / 2 ^ 128 % 2 ^ 64 % 65536 ≠ 0 := by decide +kernel

theorem witness_fabricAccess :
    let s := fabric id []
    s.ctx.points = [] ∧ s.ctx.xiUsed < 8 ∧ s.aperture (s.getX 1) = some ⟨3, 0x100000000, 65536, 0⟩ ∧ (s.getX 1).toNat % 8 = 0 ∧
      s.aperture (s.getX 0) = none ∧ s.pendingBind 0 = none ∧ (s.getX 1).toNat / 2 ^ 13 ≠ 0 ∧
      ¬((s.getX 0).toNat / 2 ^ 13 ≠ 0 ∨ (s.getX 0).toNat / 2 ^ 7 % 2 = 1) := by decide +kernel

theorem witness_rebind :
    let e : XiEntry := ⟨.bind 0 5, 0, 0, 0, [], none, [], none, []⟩
    (fabric (fun x => { x with xiq := [e] }) []).pendingBind 0 = some (e, 5) := by decide +kernel

theorem witness_fabricMisaligned : ((withX [(1, 0x100000002)]).getX 1).toNat % 4 ≠ 0 := by decide +kernel

/-! Witnesses: system registers, launches and tags. -/

theorem witness_task : (running id).ctx.task = some task0 := rfl

theorem witness_systemRegister :
    (0x06b, State.reset.die.owring) ∈ systemRegisters State.reset 0 0 ∧ ¬NamedRegister State.reset 0xff ∧ ¬NamedRegister State.reset 6 ∧
      (ctxIs fun x => { x with ctrl := true }).ctx.ctrl = true ∧
      (⟨0, 96, 3⟩ : CtxId).ok = true ∧ (dieIs fun d => { d with gsel := 0x183 }).die.gsel.toNat / 4 % 128 = 96 ∧
      (dieIs fun d => { d with gsel := 0x183 }).die.gsel.toNat % 4 = 3 := by
  refine ⟨by decide +kernel, ?_, ?_, by decide +kernel, by decide +kernel, by decide +kernel, by decide +kernel⟩ <;>
    (unfold NamedRegister; decide +kernel)

theorem witness_systemWrite :
    State.reset.ctx.ctrl = false ∧ NoDeferred State.reset ∧ ((withX [(1, 0x9ffff)]).getX 1).toNat / 2 ^ 17 % 8 ≤ 4 ∧
      4 < ((withX [(1, 0xa0000)]).getX 1).toNat / 2 ^ 17 % 8 ∧ State.reset.ctx.inh = false ∧
      (ctxIs fun x => { x with inh := true }).ctx.inh = true ∧ NamedRegister State.reset 2 ∧ NamedRegister State.reset 0x40 := by
  refine ⟨rfl, rfl, by decide +kernel, by decide +kernel, rfl, rfl, ?_, ?_⟩ <;> (unfold NamedRegister; decide +kernel)

theorem witness_launch :
    let s := withX [(1, 2097024)]
    Unhindered s ∧ s.ctx.stores = [] ∧ s.ctx.loads = [] ∧ s.ctx.sq = [] ∧ s.flight = [] ∧ s.closedAdds s.foc = [] ∧
      (s.getX 1).toNat + 128 ≤ 2097152 ∧ (s.getX 1).toNat % 64 = 0 ∧ s.die.arrivals = [] ∧ s.queueRoom 0 0 = true ∧
      s.childOf (s.getX 1) = none := by
  exact ⟨unhindered_ctxIs _ rfl (by decide +kernel), rfl, rfl, rfl, rfl, by decide +kernel⟩

/-- A child of the launch of the task in focus. -/
def child (st : LaunchState) : State :=
  { running (fun x => { x with x := x.x.set 1 9 }) with launches := [launch0, { launch0 with handle := 9, parent := some 7, state := st }] }

theorem witness_child :
    ((child .retired).childOf 9).map Launch.state = some .retired ∧ ((child .queued).childOf 9).map Launch.state = some .queued ∧
      (child .queued).ctx.ctrl = false := by decide +kernel

theorem witness_done :
    let s := child .retired
    s.ctx.pend = [] ∧ s.drained = true ∧ s.entryFault = none ∧ s.ctx.task = some task0 ∧ s.launchOf 7 = some launch0 ∧
      0 ∈ launch0.tasks.map Prod.fst ∧ State.reset.ctx.cstat.getLsbD 21 = false := by decide +kernel

theorem witness_time : (State.reset.dtime - State.reset.getX 0).toNat < 2 ^ 63 ∧
    2 ^ 63 ≤ (State.reset.dtime - (withX [(1, 1)]).getX 1).toNat ∧ State.reset.entryAt 0 = none := by decide +kernel

theorem witness_controller :
    let s : State := ctxIs fun x => { x with ctrl := true }
    s.ctx.ctrl = true ∧ s.ctx.points = [] ∧ State.reset.die.otring.toNat % 2 ^ 16 = 0 ∧
      (coreIs fun k => { k with otctl := 4 }).core.otctl.getLsbD 2 = true ∧
      (dieIs fun d => { d with otring := 1 }).die.otring.toNat % 2 ^ 16 ≠ 0 := by decide +kernel

/-- A tagged page of 2 MiB that the task may write, at the start of mapped space. -/
def paged (f : Ctx → Ctx) : State :=
  { running f with die := { State.reset.die with gqdn := 16, tlb := [⟨0, 1, 0x100000000, 0x200000, 0x1f⟩] } }

theorem witness_tags :
    let s := paged fun x => { x with x := (x.x.set 1 0x0500000100000000).set 2 4096 }
    s.ctx.points = [] ∧ s.ctx.owa = Vector.replicate 2 0 ∧ (s.getX 2).toNat ≠ 0 ∧ (∃ p, s.tagPage (s.getX 1) 4096 = .ok p) ∧
      (∃ p, s.readPage (s.getX 1) = .ok p) ∧ ¬keyOk (0x1000000100000000 : Word) ∧ keyOk (0x100000010 : Word) ∧
      (0x100000010 : Word).toNat % 32 ≠ 0 ∧ keyOk (0 : Word) ∧ (0 : Word).toNat % 2 ^ 48 < 2 ^ 32 ∧
      (match s.tagPage (s.getX 1) 4096 with
        | .ok p => (s.pagePlace p.1 (locOf (s.getX 1))).getD 0 % 32 == 0
        | .error _ => false) = true :=
  ⟨rfl, by decide +kernel, by decide +kernel, ok_of (by decide +kernel), ok_of (by decide +kernel), by decide +kernel,
    by decide +kernel, by decide +kernel, by decide +kernel, by decide +kernel, by decide +kernel⟩

/-! Witnesses: turns and waits. -/

/-- The context in focus waits. -/
def waits (w : Wait) (f : Ctx → Ctx) : State := running fun x => f { x with status := .waiting w }

/-- An instruction's word in slot 0 of the bundle in issue. -/
def inSlot (i : Instr) (x : Ctx) : Ctx :=
  { x with ib := some ((Vector.replicate 4 0).set 0 (BitVec.ofNat 32 ((encode i).getD 0))), slot := 0 }

theorem witness_absent : absentAgent (.governorTick 8) ∧ absentAgent (.loadReturn ⟨0, 97, 0⟩ 0) ∧ absentAgent (.flitRetry 0 18) := by
  unfold absentAgent; decide

theorem witness_turnEnd :
    let s : State := { coreIs fun k => { k with turn := 64 } with ctxs := [(⟨0, 0, 2⟩, { Ctx.init 2 false with status := .ready })] }
    let x := s.coreAt ⟨0, 0⟩
    (⟨0, 0, 0⟩ : CtxId).ok = true ∧ x.primary = 0 ∧ 64 ≤ x.turn ∧ (s.ctxAt ⟨0, 0, (0 + 1 + 1) % 4⟩).status = .ready ∧
      ∀ m < 1, (s.ctxAt ⟨0, 0, (0 + m + 1) % 4⟩).status ≠ .ready := by decide +kernel

theorem witness_stamp :
    let s := waits (.stamp 0) fun x => { x with frlen := 5 }
    (s.focusOn ⟨0, 0, 0⟩).ctx.status = .waiting (.stamp 0) ∧ (s.focusOn ⟨0, 0, 0⟩).beforeEpoch = false ∧
      0 ≤ (s.focusOn ⟨0, 0, 0⟩).frcnt ∧ State.reset.ctx.frlen ≤ 0 := by decide +kernel

theorem witness_asyncFault :
    let s (st : CtxStatus) (b : Option (Vector SlotWord 4)) : State := running fun x => { x with pend := [⟨0x1d, 1, 2⟩], status := st, ib := b }
    (∀ st ∈ [CtxStatus.ready, .waiting .tick], ∀ b ∈ [none, some (Vector.replicate 4 0)],
      let u := (s st b).focusOn ⟨0, 0, 0⟩
      u.ctx.pend = ⟨0x1d, 1, 2⟩ :: [] ∧ u.ctx.inh = false ∧ u.ctx.status = st ∧ u.ctx.ib = b ∧ u.ctx.reissue = none) := by
  decide +kernel

theorem witness_divider :
    (⟨0, 95, 3⟩ : CtxId).ok = true ∧ 3 ∈ ((coreIs fun k => { k with divBusy := [3] }).coreAt ⟨0, 0⟩).divBusy := by decide +kernel

theorem witness_matrixWaits :
    let w : State := waits (.matrix 1) id
    let h : State := { ringed 0 (some task0) with
      ctx := inSlot (.rget ⟨6, none⟩ 5 0) { (ringed 0 (some task0)).ctx with status := .waiting (.ringHead 0) } }
    let t : State := { ringed 0 (some task0) with
      ctx := inSlot (.rget ⟨7, none⟩ 5 0) { (ringed 0 (some task0)).ctx with status := .waiting (.ringTail 0) } }
    ((w.focusOn ⟨0, 0, 0⟩).ctx.status = .waiting (.matrix 1) ∧ (w.focusOn ⟨0, 0, 0⟩).core.mq = []) ∧
      (AtSlot (h.focusOn ⟨0, 0, 0⟩) (.rget ⟨6, none⟩ 5 0) ∧ (h.focusOn ⟨0, 0, 0⟩).ctx.status = .waiting (.ringHead 0) ∧
        Occupied (h.focusOn ⟨0, 0, 0⟩).core.rings[(0 : Fin 16)] ≠ 0) ∧
      (AtSlot (t.focusOn ⟨0, 0, 0⟩) (.rget ⟨7, none⟩ 5 0) ∧ (t.focusOn ⟨0, 0, 0⟩).ctx.status = .waiting (.ringTail 0) ∧
        Occupied (t.focusOn ⟨0, 0, 0⟩).core.rings[(0 : Fin 16)] + (t.focusOn ⟨0, 0, 0⟩).core.rings[(0 : Fin 16)].resv <
          (t.focusOn ⟨0, 0, 0⟩).core.rings[(0 : Fin 16)].nslot) := by
  exact ⟨by decide +kernel, ⟨⟨_, rfl, by decide +kernel⟩, by decide +kernel⟩, ⟨⟨_, rfl, by decide +kernel⟩, by decide +kernel⟩⟩

theorem witness_launchWaits :
    let s : State := { child .retired with ctx := inSlot (.lwait 5 1) { (child .retired).ctx with status := .waiting (.child 9) } }
    let u := s.focusOn ⟨0, 0, 0⟩
    let w : State := (waits (.time 0) id).focusOn ⟨0, 0, 0⟩
    let d : State := { child .retired with ctx := { (child .retired).ctx with status := .waiting .doneDrain } }
    (AtSlot u (.lwait 5 1) ∧ u.ctx.status = .waiting (.child 9) ∧ (s.launchOf 9).map Launch.state = some .retired) ∧
      (w.ctx.status = .waiting (.time 0) ∧ (w.dtime - 0).toNat < 2 ^ 63) ∧
      ((d.focusOn ⟨0, 0, 0⟩).ctx.status = .waiting .doneDrain ∧ (d.focusOn ⟨0, 0, 0⟩).drained = true ∧
        (d.focusOn ⟨0, 0, 0⟩).ctx.pend = [] ∧ d.launchOf 7 = some launch0) := by
  exact ⟨⟨⟨_, rfl, by decide +kernel⟩, by decide +kernel⟩, by decide +kernel, by decide +kernel⟩

/-- A wait on the barrier at the start of Square space, on a phase that has passed. -/
def wordWait : WordWait := ⟨.eq, false, 3, 2 ^ 67, true, false, 1, some true, none⟩

theorem witness_squareWaits :
    let s (w : Wait) (i : Instr) (f : Ctx → Ctx) : State := barrierAt 1 0 fun x => inSlot i (f { x with status := .waiting w })
    let b := (s (.barrier 2 0xc0000000) (.bwait 3 1 2) fun x => { x with wordWait := some wordWait }).focusOn ⟨0, 0, 0⟩
    let e : ArrivedAt := ⟨0, 0, 0, 2 ^ 67, some 5, none⟩
    let h := (s (.barrier 4 0xc0000000) (.harvest 1) fun x => { x with arrived := [e] }).focusOn ⟨0, 0, 0⟩
    let w := (s (.word 0) (.waitw .eq false 3 1 2) fun x => { x with wordWait := some wordWait }).focusOn ⟨0, 0, 0⟩
    (AtSlot b (.bwait 3 1 2) ∧ b.ctx.status = .waiting (.barrier 2 0xc0000000) ∧ b.ctx.wordWait = some wordWait ∧
      barrierObject b (2 ^ 67) / 2 ^ 40 % 2 ^ 32 ≠ wordWait.y.toNat) ∧
      (AtSlot h (.harvest 1) ∧ h.ctx.status = .waiting (.barrier 4 0xc0000000) ∧
        FirstIn h.ctx.arrived (fun e => e.bundle = h.ctx.pc ∧ e.slot = h.ctx.slot) e ∧ e.phase = some 5 ∧
        5 ≠ barrierObject h e.place / 2 ^ 40 % 2 ^ 32) ∧
      (w.ctx.status = .waiting (.word 0) ∧ w.ctx.wordWait = some wordWait ∧ wordWait.hit = some true) := by
  exact ⟨⟨⟨_, rfl, by decide +kernel⟩, by decide +kernel⟩,
    ⟨⟨_, rfl, by decide +kernel⟩, by decide +kernel, ⟨[], [], rfl, ⟨by decide +kernel, by decide +kernel⟩, by simp⟩, rfl, by decide +kernel⟩,
    by decide +kernel⟩

/-! Witnesses: the array and the post-processing engine. -/

/-- A die keeps no records. -/
abbrev Keepsless (d : Die) : Prop := d.otring.toNat % 2 ^ 16 = 0 ∧ d.owring.toNat % 2 ^ 16 = 0

theorem noRecords_dies {s : State} (h : ∀ e ∈ s.dies, Keepsless e.2) (k : Keepsless s.die) : NoRecords s := by
  intro d
  unfold State.dieAt
  split
  · exact k
  · cases l : s.dies.lookup d with
    | none => exact (by decide +kernel : Keepsless Die.init)
    | some y =>
      obtain ⟨a, b, m, -⟩ := List.lookup_eq_some_iff.mp l
      exact h (d, y) (by simp [m])

theorem noRecords_of {s : State} (h : s.dies = []) (k : s.die.otring.toNat % 2 ^ 16 = 0 ∧ s.die.owring.toNat % 2 ^ 16 = 0) :
    NoRecords s := by
  intro d
  unfold State.dieAt
  split
  · exact k
  · rw [h]; exact (by decide +kernel : Die.init.otring.toNat % 2 ^ 16 = 0 ∧ Die.init.owring.toNat % 2 ^ 16 = 0)

/-- An entry of the matrix queue. -/
def entry (op : MqOp) : MqEntry :=
  ⟨⟨0, 0, 0⟩, 0, op, 0x100000000, 0, 0, 0, 0, none, [], [], none, none, 0, none, false, []⟩

/-- One pass on the tile that ring 0 of `ringed` has at position 3 and the one that ring 1 has at position 0. -/
def mul0 : MulArgs := ⟨false, 0, 1, 0, 1, 3, 0, false, 0, 0, 0, 0, 0⟩

/-- The sequence tags of their records (R192). -/
def tagCells : List Host.Cell :=
  ((List.range 32).map fun k => (sidePlace ⟨0, 0⟩ (16 * (96 + k)) + 10, BitVec.ofNat 8 (21 + k))) ++
    (List.range 255).map fun k => (sidePlace ⟨0, 0⟩ (16 * (129 + k)) + 10, BitVec.ofNat 8 (k + 1))

/-- An entry at work on those tiles, with no charge for a pass. -/
def working (e : MqEntry) : State :=
  { ringed 0 (some task0) with
    core := { (ringed 0 (some task0)).core with mq := [e] }
    die := { State.reset.die with weights := Vector.replicate 16 0 }
    mem := tagCells }

theorem witness_staging :
    let s := working (entry (.mul mul0))
    let u := AtEntry s ⟨0, 0⟩ ⟨0, 0, 0⟩
    let sp := u.core.rings[mul0.rb].span mul0.pb (pcwBFmt mul0.pcw).bits
    (⟨0, 0⟩ : CoreId).ok = true ∧ (s.focusCore ⟨0, 0⟩).nextStage = some (entry (.mul mul0), mul0) ∧ u.core.staged = [] ∧
      u.core.stageRoom = some [] ∧ u.ctx.clearBefore 0 (sp.has ⟨0, 0⟩) (fun _ => false) = true ∧ u.tilePoison ⟨0, 0⟩ sp = none ∧
      ((u.fetchTile ⟨0, 0⟩ sp).records.zipIdx.all fun r => recSeq r.1 == seqTag mul0.pb r.2 && recTag r.1 == 0) = true ∧
      (({ s with mem := [] }.fetchTile ⟨0, 0⟩ sp).records.map recSeq)[1]? = some 0 ∧ seqTag mul0.pb 1 ≠ 0 := by decide +kernel

/-- That entry with its B tile staged. -/
def staged0 : MqEntry := { entry (.mul mul0) with staged := some ⟨[], []⟩ }

theorem witness_passStart :
    let s := working staged0
    let u := AtEntry s ⟨0, 0⟩ ⟨0, 0, 0⟩
    let sp := u.core.rings[mul0.ra].span 3 (pcwAFmt mul0.pcw).bits
    let a := u.fetchTile ⟨0, 0⟩ sp
    (s.focusCore ⟨0, 0⟩).nextPass = some (staged0, mul0, ⟨[], []⟩) ∧ u.ctx.clearBefore 0 (sp.has ⟨0, 0⟩) (fun _ => false) = true ∧
      u.tilePoison ⟨0, 0⟩ sp = none ∧ (a.records.zipIdx.all fun r => recSeq r.1 == seqTag 3 r.2 && recTag r.1 == 0) = true ∧
      recTag (a.records.headD 0) % 8 = 0 ∧ (∀ k ∈ passTiles 0 0 0, u.core.levelLeft 0 k = 0) ∧ u.die.weights[8] = 0 ∧
      u.excessTwice 0 = 0 ∧ u.die.throttled = false ∧ pcwAlt mul0.pcw = false := by decide +kernel

/-- That entry with its A tile, before and after its pass commits. -/
def fetched0 (n : Nat) : MqEntry := { staged0 with fetched := [⟨[], []⟩], committed := n }

theorem witness_passCommit :
    let s := working (fetched0 0)
    (s.focusCore ⟨0, 0⟩).nextCommit = some (fetched0 0, mul0) ∧ (fetched0 0).fetched[0]? = some ⟨[], []⟩ ∧
      (fetched0 0).staged = some ⟨[], []⟩ ∧ ∀ k ∈ (fetched0 0).reads mul0, (AtEntry s ⟨0, 0⟩ ⟨0, 0, 0⟩).poisonIn (tilePlace ⟨0, 0⟩ k) 32768 = none := by
  decide +kernel

theorem witness_matrixRetire :
    let s := working (fetched0 1)
    let c := working { entry (.mul mul0) with cancelled := true }
    let first (q : List MqEntry) (f : MqEntry) : Prop := ∀ g ∈ q, f.ord ≤ g.ord ∨ ∀ r ∈ g.op.rings, r ∉ f.op.rings
    mul0.ra ≠ mul0.rb ∧ FirstIn (s.coreAt ⟨0, 0⟩).mq (fun f => (∃ n, f.op = .mul n ∧ f.committed = n.np) ∧ f.fault = none ∧
        f.cancelled = false ∧ first (s.coreAt ⟨0, 0⟩).mq f) (fetched0 1) ∧
      FirstIn (c.coreAt ⟨0, 0⟩).mq (fun f => f.cancelled = true ∧ first (c.coreAt ⟨0, 0⟩).mq f ∧ (c.coreAt ⟨0, 0⟩).claimsPresent f = true)
        { entry (.mul mul0) with cancelled := true } ∧ NoRecords s := by
  refine ⟨by decide, ⟨[], [], rfl, ⟨⟨mul0, rfl, rfl⟩, rfl, rfl, ?_⟩, by simp⟩, ⟨[], [], rfl, ⟨rfl, ?_, by decide +kernel⟩, by simp⟩,
    noRecords_of rfl (by decide +kernel)⟩ <;>
  · intro g h
    simp only [working, State.coreAt] at h
    exact .inl (Nat.zero_le _)

theorem witness_tileWork : ∀ op ∈ [MqOp.zero 0 16 5, .read 3 15 255, .write 15 7 0 255], NoRecords (working (entry op)) ∧
    ((working (entry op)).focusCore ⟨0, 0⟩).core.mq = [] ++ entry op :: [] ∧
      ((working (entry op)).focusCore ⟨0, 0⟩).tilesFree (entry op) = true ∧
      ((working (entry op)).focusCore ⟨0, 0⟩).poisonIn (accPlace ⟨0, 0⟩ (32768 * 15) + 128 * 255) 128 = none ∧
      (((working (entry op)).coreAt ⟨0, 0⟩).tileL[(15 : Fin 16)]).zeroExtend 4 = (0 : BitVec 4) := by
  intro op h
  refine ⟨noRecords_of rfl
    (by decide +kernel : State.reset.die.otring.toNat % 2 ^ 16 = 0 ∧ State.reset.die.owring.toNat % 2 ^ 16 = 0), rfl, ?_⟩
  revert op; decide +kernel

/-- A store of tile 0 to the crib, to a ring, and the other operations of the post-processing engine. -/
def store0 (r : Option (Fin 16)) : PpArgs := ⟨0, 1, r, 0, Vector.replicate 3 0, Vector.replicate 8 0, 0, 0, 0, 0⟩
def ppEntry (op : PpOp) (started : Bool) : PpEntry := ⟨⟨0, 0, 0⟩, 0, op, 0, 0, 0, 0, 0, started, 0, none, none, []⟩
def storing (op : PpOp) (started : Bool) : State :=
  { ringed 0 (some task0) with core := { (ringed 0 (some task0)).core with ppq := [ppEntry op started] } }

theorem witness_ringSlot :
    let u := (storing (.store (store0 (some 0))) true).focusCore ⟨0, 0⟩
    u.producersFor 0 ≠ [] ∧ Occupied u.core.rings[(0 : Fin 16)] + u.core.rings[(0 : Fin 16)].resv < u.core.rings[(0 : Fin 16)].nslot := by
  decide +kernel

theorem witness_postStart :
    let e := ppEntry (.store (store0 none)) false
    let u := (storing (.store (store0 none)) false).focusCore ⟨0, 0⟩
    u.core.ppq = e :: [] ∧ e.started = false ∧ e.fault = none ∧ u.joined e.who e.after = true ∧ u.core.sourcesReady e = true := by
  decide +kernel

theorem witness_postWork :
    let e (op : PpOp) := ppEntry op true
    let u (op : PpOp) := AtEntry (storing op true) ⟨0, 0⟩ ⟨0, 0, 0⟩
    let st : PpOp := .store (store0 none)
    let d : TileDest := ⟨0, some 0, 0⟩
    let sp := rebuildSpan 32768 0
    (∀ op ∈ [st, .rebuild 0 32768 1, .retag 0 16384 3], ((storing op true).focusCore ⟨0, 0⟩).core.ppq = e op :: [] ∧
      (u op).core.sourcesReady (e op) = true ∧ (u op).excessTwice ((u op).die.weights[9] * 1024) = 0 ∧ (u op).die.throttled = false) ∧
      (u st).storeDest (e st) (store0 none) = some d ∧
      (u st).ctx.clearBefore 0 (storeReads ⟨0, 0⟩ (store0 none)) (storeWrites ⟨0, 0⟩ (store0 none) d) = true ∧
      (u st).storePoison (e st) (store0 none) = none ∧
      (u (.rebuild 0 32768 1)).ctx.clearBefore 0 (sp.has ⟨0, 0⟩) ((rebuildSpan 0 0).has ⟨0, 0⟩) = true ∧
      (u (.rebuild 0 32768 1)).tilePoison ⟨0, 0⟩ sp = none ∧
      (∀ r ∈ ((u (.rebuild 0 32768 1)).fetchTile ⟨0, 0⟩ sp).records, recTag r = 0) ∧
      Mem.wf (storing (.retag 0 16384 3) true).mem = true := by decide +kernel

/-! Witnesses: the copy engine at work, and Square space. -/

/-- A copy operation that runs. -/
def underWay (kind : CopyKind) (xa xb : Word) (shape : Vector Word 4) : CopyOp :=
  { copyOp kind xa xb shape with state := .running }

theorem witness_copyStarts :
    let s := copying [copyOp .cpsig 0 0 (Vector.replicate 4 0)]
    (s.focusCore ⟨0, 0⟩).core.cq[(0 : Fin 4)] = copyOp .cpsig 0 0 (Vector.replicate 4 0) :: [] ∧
      (s.focusCore ⟨0, 0⟩).joined ⟨0, 0, 0⟩ [] = true := by decide +kernel

/-- One row of three bytes, gathered by an index at an address. -/
def gather (at_ : Word) : CopyOp := underWay .cpg 0x100 0x200 #v[3, 0, at_, 0]

/-- Queue 0 has its turn, with every link open. -/
def turnOf (s : State) (o : CopyOp) : State :=
  let e := AtEntry s ⟨0, 0⟩ o.who
  { e with core := { e.core with cqTurn := 1 } }

theorem unitTurn_of {s : State} {o : CopyOp} (h : (AtEntry s ⟨0, 0⟩ o.who).copyTurn = some 0) (k : (turnOf s o).linksClear = true) :
    UnitTurn s ⟨0, 0⟩ 0 o (turnOf s o) := ⟨h, rfl, k⟩

/-- The next bytes of a stream are clear to move, at no charge: how many can be moved, and whether a fault follows. -/
def streamOn (u : State) (o : CopyOp) (n : Nat) : Option (Nat × Bool) :=
  let m := u.nextMoves o n
  let r := u.tryMoves m.op m.moves
  let v := u.holdTlb u.foc.die (m.held ++ r.2.1)
  if !u.rootHolds o (m.moves.map ByteMove.dst) && u.unitClear o (m.places ++ r.1.map fun e => e.2.1) (r.1.map fun e => e.2.2) &&
      v.excessTwice (u.die.weights.getD o.class_ 0 * ((o.bytes + r.1.length) / 1024 - o.kib)) == 0 && !v.die.throttled &&
      !v.behindOthers ⟨3, v.foc⟩ then
    some (r.1.length, (r.2.2.or m.fault).isSome)
  else none

theorem witness_copyStream :
    let o := gather 0
    let far := gather 0x100000000
    let cut := underWay .cpg 0x407ffffe 0x200 #v[3, 0, 0, 0]
    let u (o : CopyOp) := turnOf (copying [o]) o
    (∀ o ∈ [gather 0, gather 0x100000000, underWay .cpg 0x407ffffe 0x200 #v[3, 0, 0, 0]],
        CopyRuns (copying [o]) ⟨0, 0⟩ 0 o [] ∧ UnitTurn (copying [o]) ⟨0, 0⟩ 0 o (u o)) ∧
      ((u o).streamBytes o = some 3 ∧ streamOn (u o) o 3 = some (3, false)) ∧
      ((u far).streamBytes far = some 3 ∧ streamOn (u far) far 3 = some (0, true)) ∧
      (u cut).streamBytes cut = some 3 ∧ streamOn (u cut) cut 3 = some (2, true) := by
  refine ⟨fun o h => ⟨⟨rfl, rfl, ?_, ?_⟩, unitTurn_of ?_ ?_⟩, by decide +kernel⟩ <;> (revert o; decide +kernel)

/-- One sheaf of one-bit elements from one form to the other. -/
def turned (xa xb : Word) : CopyOp := underWay .cpt xa xb (Vector.replicate 4 0)

/-- Its next sheaf can be moved now, at no charge. -/
def sheafOn (u : State) (o : CopyOp) : Bool :=
  match u.nextSheaf o with
  | some (.ok r) => match u.writeAddrs o.view o.entries r.move.dst with
    | .ok w =>
      let v := u.holdTlb u.foc.die (r.held ++ w.2)
      !u.rootHolds o r.move.dst && u.unitClear o r.places w.1 && !v.die.throttled && !v.behindOthers ⟨3, v.foc⟩ &&
        v.excessTwice (u.die.weights.getD o.class_ 0 * ((o.bytes + r.move.taken) / 1024 - o.kib)) == 0
    | .error _ => false
  | _ => false

/-- Whether its next sheaf cannot be read, or can be read and not be written. -/
def sheafStops (u : State) (o : CopyOp) : Bool × Bool :=
  match u.nextSheaf o with
  | some (.error _) => (true, false)
  | some (.ok r) => (false, !(u.writeAddrs o.view o.entries r.move.dst).toBool)
  | none => (false, false)

theorem witness_copySheaf :
    let u (o : CopyOp) := turnOf (copying [o]) o
    (∀ o ∈ [turned 0x1000 0x2000, turned 0x1000 0x100000000, turned 0x100000000 0x2000],
      CopyRuns (copying [o]) ⟨0, 0⟩ 0 o [] ∧ UnitTurn (copying [o]) ⟨0, 0⟩ 0 o (u o) ∧ o.bySheaf = true) ∧
      sheafOn (u (turned 0x1000 0x2000)) (turned 0x1000 0x2000) = true ∧
      [turned 0x1000 0x100000000, turned 0x100000000 0x2000].map (fun o => sheafStops (u o) o) = [(true, false), (false, true)] := by
  refine ⟨fun o h => ⟨⟨rfl, rfl, ?_, ?_⟩, unitTurn_of ?_ ?_, ?_⟩, by decide +kernel⟩ <;> (revert o; decide +kernel)

theorem witness_copySignal :
    let o := underWay .cpsig 0x1ffff8 77 (Vector.replicate 4 0)
    let s := copying [o]
    let u := turnOf s o
    CopyRuns s ⟨0, 0⟩ 0 o [] ∧ UnitTurn s ⟨0, 0⟩ 0 o u ∧ o.xa.toNat + 8 ≤ 2097152 ∧ Mem.wf s.mem = true ∧ s.flight = [] ∧
      u.ctx.clearBefore o.seq (fun _ => false) (within (cribPlace ⟨0, 0⟩ o.xa.toNat) 8) = true ∧ Admitted u 3 0 := by
  refine ⟨⟨rfl, by decide +kernel, rfl, rfl⟩, unitTurn_of (by decide +kernel) (by decide +kernel), by decide +kernel, by decide +kernel,
    rfl, by decide +kernel, ?_⟩
  unfold Admitted; decide +kernel

theorem witness_copyReports :
    let o : CopyOp := { underWay .cpg 0 0 #v[8, 0, 0, 2 ^ 57] with bytes := 5 }
    let s := { copying [o] with mem := [(2 ^ 67, 1)] }
    let u := AtEntry s ⟨0, 0⟩ o.who
    u.delivered o = false ∧ o.binds = true ∧ o.kind ≠ .cpsig ∧ o.reported < o.counted ∧
      u.barrierFault (boundBarrier ⟨0, 0⟩ o.bidx) = none := by decide +kernel

theorem witness_copyCompletes :
    let o : CopyOp := { underWay .cpg 0 0 #v[8, 0, 0, 5] with sig := true, bytes := 8 }
    let s := copying [o]
    let u := AtEntry s ⟨0, 0⟩ o.who
    (NoRecords s ∧ s.flight = []) ∧ u.delivered o = true ∧ u.tailPassed o = true ∧ o.binds = false ∧ Mem.wf s.mem = true ∧
      u.ctx.clearBefore o.seq (fun _ => false) (within (cribPlace ⟨0, 0⟩ (8 * o.sigidx)) 8) = true := by
  refine ⟨⟨noRecords_of rfl (by decide +kernel : State.reset.die.otring.toNat % 2 ^ 16 = 0 ∧ State.reset.die.owring.toNat % 2 ^ 16 = 0), rfl⟩, ?_⟩
  decide +kernel

/-- A request at the head of its queue, for the object at the first byte of Square space. -/
def request (op : SqOp) : SqRequest := ⟨op, false, false, false, 0xc0000000, 2 ^ 67, some 3, 0, 0, 0, 0, [], none⟩

/-- A Square with an object and a request for it. -/
def requesting (op : SqOp) (exp arr : Nat) : State := barrierAt exp arr fun x => { x with sq := [request op] }

theorem witness_squareApplies :
    ∀ op ∈ [SqOp.int 9 5 1, .float 0 0x3f800000, .float 2 5, .ordered 5, .binAdd 0x3f800000, .binFold, .binInit 3, .barInit 6], 
      let s := requesting op 1 0
      (NoRecords s ∧ s.flight = [] ∧ s.poison = []) ∧ Mem.wf s.mem = true ∧ (s.focusOn ⟨0, 0, 0⟩).ctx.sq = request op :: [] ∧
        (s.focusOn ⟨0, 0, 0⟩).sqReady (request op) = true ∧ (s.focusOn ⟨0, 0, 0⟩).squareBacked (2 ^ 67) = true := by
  intro op h
  refine ⟨⟨noRecords_of rfl (by decide +kernel : State.reset.die.otring.toNat % 2 ^ 16 = 0 ∧ State.reset.die.owring.toNat % 2 ^ 16 = 0), rfl, rfl⟩, ?_⟩
  revert op; decide +kernel

theorem witness_barrierCounts : ∀ op ∈ [SqOp.arrive false, .expect 5, .expect 0xffffffffffffffff],
    let s := requesting op 9 7
    (NoRecords s ∧ s.flight = [] ∧ s.poison = []) ∧ Mem.wf s.mem = true ∧ (s.focusOn ⟨0, 0, 0⟩).ctx.sq = request op :: [] ∧
        (s.focusOn ⟨0, 0, 0⟩).sqReady (request op) = true ∧ (s.focusOn ⟨0, 0, 0⟩).squareBacked (2 ^ 67) = true ∧
        barrierObject s (2 ^ 67) % 2 ^ 20 = 9 ∧ barrierObject s (2 ^ 67) / 2 ^ 20 % 2 ^ 20 = 7 ∧ barrierObject s (2 ^ 67) / 2 ^ 122 = 0 ∧
        s.ctx.ordSet = [] ∧ s.ctx.task.isSome = true ∧ (s.dieAt 0).heldArr.all (fun h => h.place != 2 ^ 67) = true := by
  intro op h
  refine ⟨⟨noRecords_of rfl (by decide +kernel : State.reset.die.otring.toNat % 2 ^ 16 = 0 ∧ State.reset.die.owring.toNat % 2 ^ 16 = 0), rfl, rfl⟩, ?_⟩
  revert op; decide +kernel

/-- Two adds to one word. -/
def add0 (task : Nat) (v : Word) : OrderedAdd := ⟨⟨0, 0, 0⟩, 7, task, 0, 0, false, 0xc0000000, 2 ^ 67, v, some 3, 0, 0, 0, none⟩
def batch0 : Batch := ⟨[add0 1 0x3f800000, add0 0 0x40000000], none, true, none⟩

theorem witness_orderedBatch :
    let s := { dieIs fun d => { d with batches := [batch0] } with mem := [] }
    s.flight = [] ∧ Mem.wf s.mem = true ∧ s.poison = [] ∧ (s.dieAt 0).batches.findIdx? s.batchReady = some 0 ∧
      (s.dieAt 0).batches[0]? = some batch0 ∧ batch0.barrier = none ∧
      (∀ a ∈ batch0.adds, s.squareBacked a.place = true ∧ 2 ^ 67 ≤ a.place ∧ a.place + 8 ≤ 2 ^ 68 ∧
        a.place % (if a.dbl then 8 else 4) = 0) ∧
      ∀ a ∈ batch0.adds, ∀ e ∈ batch0.adds, a.place / 8 = e.place / 8 → a.dbl = e.dbl := by decide +kernel

/-! Witnesses: the fabric at work. -/

/-- A collective of two bytes on rank 0 of switch group 3: BF16, one element, from 0x1000 to 0x2000. -/
def xop (kind : XKind) : XOp :=
  { who := ⟨0, 0, 0⟩, launch := 7, task := 0, opn := 5, slot := 0, seq := 0, kind := kind, ord := true, g := ⟨3, 0x100000000, 65536, 0⟩,
    seqNo := 2, src := 0x1000, dst := 0x2000, dlen := 2, ctl := 1, bsw := 0, bind := none, asn := 1, root := 0, issued := 0, since := 0,
    state := .queued, checked := false, matched := false, units := 0, bytes := 0, reported := 0, reserved := none, faddr := 0, cause := 0,
    reason := 0, told := false, flags := 0, old := [], late := [], lastPos := none, signalled := false, kib := 0, after := [] }

/-- It stands in queue 2 of die 0, and one of the same group stands on die 1. -/
def fabricOps (a b : XOp) (f : Ctx → Ctx) : State :=
  let s := fabric f []
  { s with die := { s.die with xq := s.die.xq.set 2 [a] }, dies := [(1, { Die.init with xq := Die.init.xq.set 2 [b] })] }

theorem witness_collectiveStarts :
    let s (o : XOp) := fabricOps o o id
    let o := xop .allReduce
    (∀ e ∈ [o, { o with src := 0x1fffff }, { o with dst := 0x1fffff }],
      (s e).xHead 0 2 = some e ∧ e.state = .queued ∧ (s e).isDead 0 e = false ∧ (s e).xJoined e = true) ∧
      (s o).checkRange 0 o o.src (o.srcLen 2) false = none ∧ (s o).checkRange 0 o o.dst o.dlen true = none ∧
      ((s o).checkRange 0 o 0x1fffff 2 false).isSome ∧ ((s o).checkRange 0 o 0x1fffff 2 true).isSome := by decide +kernel

/-- It runs, and its headers have matched. -/
def running0 (m : Bool) : XOp := { xop .allReduce with state := .running, checked := true, matched := m }

theorem witness_headersAreMatched :
    let o := running0 false
    ∀ b ∈ [o, { o with ctl := 3 }],
      let s := fabricOps o b id
      s.xHead 0 2 = some o ∧ s.xAll o = some [(0, 2, o), (1, 2, b)] ∧
        (∀ e ∈ [(0, (2 : Fin 8), o), (1, (2 : Fin 8), b)], e.2.2.state ≠ .faulted ∧ s.isDead e.1 e.2.2 = false) ∧
        s.linksClear = true ∧ NoRecords s := by
  intro o b h
  refine ⟨?_, ?_, ?_, ?_, noRecords_dies ?_ ?_⟩ <;> (revert b; decide +kernel)

/-- The next bytes of a collective are read, and it may deliver them at no charge. -/
def readsOn (s : State) (o : XOp) (n : Nat) (writes : List Nat) : Bool :=
  match s.readRuns o (o.runs (s.xSize o) (s.xRank o 0) o.bytes n) with
  | .bytes _ u => u.xClear o (fun _ => false) writes.contains && u.taskCtx o.launch o.task == some ⟨0, 0, 0⟩ &&
      (u.focusOn ⟨0, 0, 0⟩).excessTwice (xCost u 0 o n) == 0 && !(u.focusOn ⟨0, 0, 0⟩).die.throttled && s.linksClear &&
      !(u.focusOn ⟨0, 0, 0⟩).behindOthers ⟨9, (u.focusOn ⟨0, 0, 0⟩).foc⟩
  | _ => false

/-- The next bytes of a collective that is not bound go to addresses of its die. -/
def deliversOn (s : State) (o : XOp) (n : Nat) : Bool :=
  match s.checkX 0 o (word (o.dst + o.bytes)) n true with
  | .ok r => readsOn (s.holdTlb 0 r.held) o n r.places
  | .error _ => false

theorem witness_collectiveDelivers :
    let o := running0 true
    let s := fabricOps o o id
    let far : XOp := { o with dst := 0x1fffff }
    s.xDelivering 0 2 = some o ∧ deliversOn s o 2 = true ∧ (fabricOps far far id).xDelivering 0 2 = some far ∧
      ((fabricOps far far id).checkX 0 far (word 0x1fffff) 2 true).toBool = false := by decide +kernel

/-- An all-gather of 4 KiB blocks into a ring whose slot 4 is reserved for its first tile. -/
def gathered : XOp :=
  { running0 true with kind := .allGather, bind := some ⟨⟨0, 0⟩, 0⟩, dlen := 8192, ctl := 2048, src := 0x10000, reserved := some 4 }
def intoRing : State :=
  let s := fabricOps gathered gathered id
  { s with core := { s.core with rings := s.core.rings.set 0 ⟨0x0001040100000000, 0, 3, 4, 3, 1, [], 65535, 0⟩ } }

theorem witness_collectiveTile :
    let o := gathered
    let s := intoRing
    let r := (s.coreAt ⟨0, 0⟩).rings[(0 : Fin 16)]
    s.xDelivering 0 2 = some o ∧ r.role ≠ 0 ∧ o.bytes + r.slotSize ≤ o.dlen ∧ r.tail = 4 ∧ r.filled = [] ∧ r.resv ≠ 0 ∧
      readsOn s o r.slotSize ((List.range r.slotSize).map fun k => cribPlace ⟨0, 0⟩ (r.slotOff 4 + k)) = true := by
  decide +kernel

theorem witness_collectiveEnds :
    let o : XOp := { running0 true with bytes := 2, bsw := 2 ^ 58 + 2 ^ 18 + 5 }
    let s := fabricOps o o id
    let s₀ := fabricOps o { o with bytes := 2 } id
    NoRecords s ∧ s₀.taskCtx 7 0 = some ⟨0, 0, 0⟩ ∧ Settled s₀ ∧ o.binds = false ∧ s.xDelivering 0 2 = some o ∧ s.srcRead 0 o = true ∧
      s.xTailPassed o = true ∧ s.xClear o (fun _ => false) (within (cribPlace ⟨0, 0⟩ (8 * o.sigidx)) 8) = true := by
  refine ⟨noRecords_dies (by decide +kernel) (by decide +kernel), ?_⟩
  unfold Settled; decide +kernel

theorem witness_peerCancel :
    let o := running0 true
    let s := fabricOps o o id
    let x := { s with die := { s.die with dead := [(3, 2)] } }
    FirstIn (x.dieAt 0).xq[(2 : Fin 8)] (fun e => x.isDead 0 e = true) o ∧ o.bind = none ∧ x.linksClear = true ∧
      x.taskCtx 7 0 = some ⟨0, 0, 0⟩ :=
  ⟨⟨[], [], by decide +kernel, by decide +kernel, by simp⟩, rfl, by decide +kernel, by decide +kernel⟩

/-- A multicast store, and a reducing load, in the collective issue queue. -/
def own (op : XiOp) : XiEntry := ⟨op, 5, 0, 0, [], none, [], none, []⟩
def gentry : GroupEntry := ⟨3, 0x100000000, 65536, 0⟩
def issuing (op : XiOp) : State := fabric (fun x => { x with xiq := [own op] }) []

/-- Launches have group entry 0 on dies 0 and 1, with the receive area at its address. -/
def received (s : State) (rbase : Nat) : State :=
  { s with launches := [{ launch0 with groups := [(0, 0, { gentry with rbase := rbase }), (1, 0, { gentry with rbase := rbase })] }]
           die := { s.die with tlb := [⟨97, 1, 0x100000000, 0x200000, 0x1f⟩] } }

def st0 (left : List Nat) : XiOp := .store gentry 8 [1, 2, 3, 4] left

theorem witness_multicastStore :
    let s := received (issuing (st0 [0, 1])) 0x100000000
    let u := s.focusOn ⟨0, 0, 0⟩
    u.storeFor 0 = some (own (st0 [0, 1]), gentry, 8, [1, 2, 3, 4], [0, 1]) ∧ Settled s ∧
      (match u.checkMember 0 3 8 4 true with
      | .ok r => u.ctx.clearBefore 0 (fun _ => false) r.places.contains && r.places.length == 4
      | .error _ => false) = true ∧ (u.checkMember 1 3 8 4 true).toBool = false ∧
      FirstIn ((issuing (st0 [])).focusOn ⟨0, 0, 0⟩).ctx.xiq AllApplied (own (st0 [])) := by
  refine ⟨by decide +kernel, by unfold Settled; decide +kernel, by decide +kernel, by decide +kernel,
    ⟨[], [], by decide +kernel, ⟨gentry, 8, [1, 2, 3, 4], rfl⟩, by simp⟩⟩

/-- Two members read, by rank. -/
def red (got : List (Nat × Nat)) : XiOp := .reduce gentry 8 true .add false 3 got

theorem witness_reducingLoad :
    let s (got : List (Nat × Nat)) := received (issuing (red got)) 0x100000000
    let left (got : List (Nat × Nat)) := (((s got).focusOn ⟨0, 0, 0⟩).membersOf 3).filter fun m => (got.lookup m).isNone
    FirstIn ((s []).focusOn ⟨0, 0, 0⟩).ctx.xiq OwnAccess (own (red [])) ∧
      ((s []).focusOn ⟨0, 0, 0⟩).joined ⟨0, 0, 0⟩ [] = true ∧ left [(0, 1), (1, 2)] = [] ∧ left [(1, 2)] = [0] ∧
      (match ((s [(1, 2)]).focusOn ⟨0, 0, 0⟩).checkMember 0 3 8 4 false with
      | .ok r => ((s [(1, 2)]).focusOn ⟨0, 0, 0⟩).ctx.clearBefore 0 r.places.contains (fun _ => false)
      | .error _ => false) = true :=
  ⟨⟨[], [], by decide +kernel, .inr ⟨gentry, 8, true, .add, false, 3, [], rfl⟩, by simp⟩, by decide +kernel, by decide +kernel,
    by decide +kernel, by decide +kernel⟩

/-- A copy that reads HBM of die 2, in another package, on a die whose path to it is out. -/
def farCopy : CopyOp := underWay .cpg 0x100 0x100000000 #v[3, 0, 0, 0]
def linked (f : Die → Die) : State :=
  let s := copying [farCopy]
  { s with die := f { s.die with gqdn := 16, tlb := [⟨0, 1, 0x100000000, 0x200000, 0x800000001f⟩] }
           dies := [(2, { Die.init with gqdn := 18 })] }

/-- The port of die 0 that leads to die 2. -/
def port2 : Nat := (Config.route 0 2).val

/-- Its copy's links, over the port, in a state. -/
theorem copyLinks_linked : ⟨0, 2, 0⟩ ∈ (linked id).copyLinks farCopy := by decide +kernel

theorem overPort2 : OverPort 0 port2 ⟨0, 2, 0⟩ := .inl ⟨rfl, rfl⟩

theorem witness_linkFails :
    let s := linked fun d => { d with resends := [(port2, List.replicate 64 0)] }
    s.cores = [] ∧ s.foc.die = 0 ∧ s.core.cq[(0 : Fin 4)] = farCopy :: [] ∧ (∀ k : Fin 4, k ≠ 0 → s.core.cq[k] = []) ∧
      farCopy.state = .running ∧ farCopy.who = s.foc ∧ (recentResends s 0 port2).length = 64 ∧ NoRecords (linked id) ∧
      (recentResends State.reset 0 port2).length < 64 ∧ port2 < 18 := by
  refine ⟨rfl, rfl, by decide +kernel, by decide +kernel, rfl, rfl, ?_, ?_, by simp [recentResends, State.reset, State.dieAt, Die.init],
    (Config.route 0 2).isLt⟩
  · simp [recentResends, linked, copying, State.dieAt, State.reset]
  · exact noRecords_dies (by decide +kernel) (by decide +kernel)

theorem witness_switchGroup :
    let g : SwitchGroup := ⟨5, [3, 1, 15, 8207], 2⟩
    (∀ m ∈ g.members, m < 8208) ∧ State.reset.npkg ≤ 8 ∧ g.swg < 4096 ∧ 2 ≤ g.members.length ∧ g.members.Nodup := by
  decide +kernel

/-! Witnesses: launches and tasks. -/

/-- A bale of one bundle of zeros, as the bytes of its image that are not 0, its CHECK being 0xad53811d. -/
def baleCells : List Host.Cell :=
  [(0, 66), (1, 65), (2, 76), (3, 69), (4, 1), (8, 80), (12, 16), (20, 255), (21, 255), (22, 255), (23, 255), (68, 29), (69, 129),
    (70, 83), (71, 173)]

/-- A record of one task at that bale, with the first block of the crib. -/
def record0 : List Byte := (List.range 128).map fun k => if k = 4 then 1 else if k = 0x10 then 1 else if k = 0x4a then 1 else 0

/-- The record waits in die 0's dispatcher, which holds the translation of the bale's page. -/
def arriving (r : List Byte) (issuer : Option (CtxId × Word)) (f : Ctx → Ctx) : State :=
  { ctxIs f with
    die := { State.reset.die with gqdn := 16, tlb := [⟨98, 1, 0x100000000, 0x200000, 0x1f⟩], arrivals := [⟨r, 0, issuer⟩] }
    mem := baleCells }

theorem witness_launchRecord :
    let s := arriving record0 none id
    let bad := arriving (List.replicate 128 0) none id
    let own (r : List Byte) := arriving r (some (⟨0, 0, 0⟩, 0)) fun x => inSlot (.launch 3 4) { x with status := .waiting (.launch 0) }
    let result (s : State) (host : Bool) (r : List Byte) := (recordTaken s 0 0).refusalOf r ((recordTaken s 0 0).baleImage 0 1 0 (recBale r)) host 0
    s.nextArrival 0 = some (0, ⟨record0, 0, none⟩) ∧ result s true record0 = none ∧
      bad.nextArrival 0 = some (0, ⟨List.replicate 128 0, 0, none⟩) ∧ result bad true (List.replicate 128 0) = some 1 ∧
      bad.launchOf (nextHandle bad 0) = none ∧
      (own record0).nextArrival 0 = some (0, ⟨record0, 0, some (⟨0, 0, 0⟩, 0)⟩) ∧ result (own record0) false record0 = none ∧
      (own record0).ctx.ib.isSome = true ∧ ((own record0).ctx.ib.map fun ws => slotInstrD ws 0) = some (.launch 3 4) ∧
      ((own (List.replicate 128 0)).nextArrival 0).isSome = true ∧
      result (own (List.replicate 128 0)) false (List.replicate 128 0) = some 1 := by decide +kernel

/-- A launch of that record. -/
def launch1 : Launch := { launch0 with record := record0, state := .queued, tasks := [], groups := [] }
def queueing (l : Launch) : State :=
  { State.reset with die := { State.reset.die with gqdn := 16, gage := 0 }, launches := [l] }

theorem witness_aging :
    let s := queueing launch1
    let late := queueing { launch1 with arrival := 2 ^ 64 - 1 }
    (s.launchOf 7 = some launch1 ∧ launch1.state = .queued ∧ launch1.prio < 7) ∧
      ((((launch1.aged + 1) * (s.dieAt 0).gage * 65536000 : Nat) : Int) ≤ ((s.dtimeOf (s.dieAt 0)).toNat - launch1.arrival) % 2 ^ 64) ∧
      ((((late.dtimeOf (late.dieAt 0)).toNat : Int) - (2 ^ 64 - 1 : Nat)) % 2 ^ 64 < ((0 + 1) * 10000 * 65536000 : Nat)) := by
  decide +kernel

theorem witness_hold :
    let s := queueing launch1
    let big : Launch := { launch1 with record := (record0.set 0x0c 0xff).set 0x0d 0xe1 }
    HoldTurn s launch1 0 ∧ s.launchOf 7 = some launch1 ∧ s.behind launch1 0 = false ∧ s.fits [] launch1 0 = true ∧
      s.coversStep launch1 0 = true ∧ s.spotsOk launch1 0 [⟨0, 5, 2⟩] = true ∧ (queueing big).fits [] big 0 = false :=
  ⟨⟨by decide +kernel, [], [], by decide +kernel, by simp, by simp⟩, by decide +kernel, by decide +kernel, by decide +kernel,
    by decide +kernel, by decide +kernel, by decide +kernel⟩

theorem witness_placement :
    let l : Launch := { launch1 with holds := [(0, [⟨0, 5, 2⟩])] }
    let s := queueing l
    s.launchOf 7 = some l ∧ l.state = .queued ∧ (∀ d ∈ s.launchDies l, ∃ e ∈ l.holds, e.1 = d) ∧ s.launchDies l = [0] ∧
      (∀ d ∈ s.launchDies l, ¬Ahead s l d) ∧ recPin l.record = false ∧ (l.holds.flatMap Prod.snd).Nodup := by
  unfold Ahead; decide +kernel

theorem witness_lapse :
    let s (st : CtxStatus) (n : Nat) := running fun x => { x with status := st, preq := some (9, n) }
    ∀ n ∈ [0, 5], ((s .ready n).ctxAt ⟨0, 0, 0⟩).preq = some (9, n) ∧ ((s .ready n).ctxAt ⟨0, 0, 0⟩).task = some task0 ∧
      ((s (.saving 5) 0).ctxAt ⟨0, 0, 0⟩).status = .saving 5 ∧ (s .ready 0).cycle = 0 := by decide +kernel

/-- A bale with one live-range entry: checkpoint 5, x1. -/
def liveBale : List Byte :=
  (List.range 256).map fun k => if k = 0x20 then 128 else if k = 0x24 then 1 else if k = 128 then 5 else if k = 136 then 2 else 0

/-- A task drains at checkpoint 5. -/
def saving (f : Ctx → Ctx) : State :=
  { running (fun x => f { x with status := .saving 5 }) with launches := [{ launch0 with bale := liveBale }] }

theorem witness_save :
    let s := (saving id).focusOn ⟨0, 0, 0⟩
    let r := { request .binFold with fault := some (1, 2, true) }
    let h := (saving fun x => { x with sq := [r] }).focusOn ⟨0, 0, 0⟩
    s.ctx.status = .saving 5 ∧ s.myLaunch.isSome = true ∧ s.ctx.task = some task0 ∧
      (s.entryAt 5).map (fun e => (e.n, e.x)) = some (5, 2) ∧ s.heldByFault = false ∧ s.quiet = true ∧ h.heldByFault = true := by
  decide +kernel

/-- A task that was saved, as its launch holds it. -/
def saved0 : SavedTask := ⟨0, 0, { State.reset.ctx with task := some task0 }, [], [], ⟨[], []⟩, [], [], []⟩

theorem witness_resume :
    let l : Launch := { launch0 with tasks := [(0, .saved)], saved := [saved0] }
    let s := queueing l
    s.launchOf 7 = some l ∧ FirstIn l.saved (fun v => v.index = 0) saved0 ∧ s.mayResume l saved0 ⟨0, 9, 1⟩ = true ∧
      (⟨0, 9, 1⟩ : CtxId).ok = true :=
  ⟨by decide +kernel, ⟨[], [], rfl, rfl, by simp⟩, by decide +kernel, by decide +kernel⟩

theorem witness_retire :
    let l : Launch := { launch0 with tasks := [(0, .done)] }
    let s := queueing l
    let p := { s with launches := [l, { launch0 with handle := 8, parent := some 7 }] }
    let r : Launch := { l with record := record0.set 0x74 1, state := .draining }
    let w := { queueing r with die := { State.reset.die with tlb := [⟨98, 1, 0x100000000, 0x200000, 0x1f⟩], gqdn := 16 } }
    (s.launchOf 7 = some l ∧ l.state = .running ∧ (∀ e ∈ l.tasks, e.2 = .done) ∧ s.owesChild 7 = false ∧ p.owesChild 7 = true) ∧
      Settled s ∧ recSiga l.record = 0 ∧ recCrec l.record = 0 ∧
      recCrec r.record ≠ 0 ∧ keyOk (word (recCrec r.record)) = true ∧ winOf (locOf (word (recCrec r.record))) = some .mapped ∧
        (w.checkMapped 0 dispatcherOwner r.asn r.root ⟨true, false, false, false⟩ (word (recCrec r.record)) 64).toBool = true := by
  unfold Settled; decide +kernel

theorem witness_pinnedTask :
    let s (e : Word) := running fun x => { x with status := .waiting .epoch, epoch := e }
    ((s 5).focusOn ⟨0, 0, 0⟩).ctx.status = .waiting .epoch ∧ ((s 5).focusOn ⟨0, 0, 0⟩).ctx.task = some task0 ∧
      ((s 5).focusOn ⟨0, 0, 0⟩).beforeEpoch = true ∧ ((s 0).focusOn ⟨0, 0, 0⟩).beforeEpoch = false := by decide +kernel

/-! Witnesses: time, power, the granger and the host. -/

theorem witness_timeKept : State.reset.die.boot = 0 ∧ (dieIs fun d => { d with boot := 7 }).die.boot ≠ 0 ∧
    (dieIs fun d => { d with boot := 7 }).die.boot ≠ 255 ∧ (-200 : Int) ≤ (⟨200, true⟩ : PtpMsg).rate := by decide +kernel

theorem witness_tick :
    let s := { State.reset with cycle := 64 }
    let g (n : Nat) := { dieIs fun d => { d with grants := [⟨none, some 7, 5, some n⟩] } with cycle := 64 }
    State.reset.cycle < 64 * ((State.reset.pkgAt 0).tick + 1) ∧ 64 * ((s.pkgAt 0).tick + 1) ≤ s.cycle ∧ NoBallast s 0 ∧ NoBallast s 1 ∧
      ((s.dieAt 0).grants.filter fun g => g.expires.any fun e => decide (e ≤ (s.pkgAt 0).tick)) = [] ∧
      (((g 0).dieAt 0).grants.filter fun k => k.expires.any fun e => decide (e ≤ ((g 0).pkgAt 0).tick)) ≠ [] := by
  unfold NoBallast; decide +kernel

theorem witness_samples :
    let s := { coreIs fun k => { k with otctl := 2 } with cycle := 63, ctx := { State.reset.ctx with status := .ready } }
    (⟨0, 0⟩ : CoreId).ok = true ∧ State.reset.sampleDue ⟨0, 0⟩ = false ∧ s.sampleDue ⟨0, 0⟩ = true ∧ placeDie 12 = some 0 ∧
      placeDie (2 ^ 71 + 8) = some 0 ∧ 8 ∉ s.poison := by decide +kernel

theorem witness_granger :
    let s (f : Ctx → Ctx) := { running (fun x => f { x with status := .trapped }) with launches := [launch0] }
    Trapped ((s id).focusOn ⟨0, 0, 0⟩) ∧ ((s id).focusOn ⟨0, 0, 0⟩).ctx.pend = [] ∧
      ((s id).focusOn ⟨0, 0, 0⟩).ctx.trap.done.toNat % 16 ≠ 15 ∧ ((s id).focusOn ⟨0, 0, 0⟩).myLaunch = some launch0 ∧
      launch0.state ≠ .retired ∧ Trapped ((s fun x => { x with tvec := 0x100000000 }).focusOn ⟨0, 0, 0⟩) ∧
      ((s fun x => { x with tvec := 0x100000000 }).focusOn ⟨0, 0, 0⟩).ctx.tvec ≠ 0 ∧ (s id).ctx.inh = false ∧
      ¬Trapped ((running id).focusOn ⟨0, 0, 0⟩) := by
  unfold Trapped; decide +kernel

theorem witness_registersWritten : (0x9ffff : Word).toNat / 2 ^ 17 % 8 ≤ 4 ∧ 4 < (0xa0000 : Word).toNat / 2 ^ 17 % 8 ∧
    ((running id).focusOn ⟨0, 0, 0⟩).ctx.ib = none ∧ ((running (inSlot .nop)).focusOn ⟨0, 0, 0⟩).ctx.ib ≠ none ∧
    16 ≤ (0x10010 : Word).toNat % 2 ^ 9 ∧ (0x10010 : Word).toNat / 2 ^ 16 % 2 ^ 10 ≠ 0 ∧ (0x1000f : Word).toNat % 2 ^ 9 < 16 := by
  decide +kernel

/-- An outstanding load of two words, the first of them read or not. -/
def load0 (dest : LoadDest) (g : Option (List Byte)) : PendingLoad := ⟨5, 0, dest, [⟨[0, 1], [], g⟩, ⟨[2, 3], [(3, 9)], none⟩], 0⟩

theorem witness_loads :
    ∀ d ∈ [LoadDest.scalar 3 true, .vector 4],
      let s (g : Option (List Byte)) := running fun x => { x with loads := [load0 d g] }
      ((s none).ctxAt ⟨0, 0, 0⟩).unreadWords[0]? = some (load0 d none, 0) ∧
        ((s (some [7, 8])).ctxAt ⟨0, 0, 0⟩).unreadWords[0]? = some (load0 d (some [7, 8]), 1) ∧
        ((s none).ctxAt ⟨0, 0, 0⟩).mayRead (load0 d none) [0, 1] = true ∧
        ((s (some [7, 8])).ctxAt ⟨0, 0, 0⟩).mayRead (load0 d (some [7, 8])) [2, 3] = true := by decide +kernel

theorem witness_writes :
    let p : PendingStore := ⟨5, [(8, 1), (9, 2)]⟩
    let q : PendingStore := ⟨6, [(2 ^ 68, 1)]⟩
    let s := running fun x => { x with stores := [p, q] }
    let f : Flight := ⟨3, none, 0, [], [(8, 1)], [0]⟩
    let w := { s with flight := [f] }
    (s.ctxAt ⟨0, 0, 0⟩).stores[0]? = some p ∧ (s.ctxAt ⟨0, 0, 0⟩).mayPerform p 0 = true ∧
      (s.ctxAt ⟨0, 0, 0⟩).stores[1]? = some q ∧ (s.ctxAt ⟨0, 0, 0⟩).mayPerform q 1 = true ∧
      p.cells.all (fun e => isHbm e.1) = true ∧ (∀ e ∈ p.cells, ∀ b ∈ p.cells, isHbm e.1 = isHbm b.1) ∧ s.flight = [] ∧
      Mem.wf s.mem = true ∧ w.mayReach f 1 = true ∧ w.flight = [] ++ f :: [] := by decide +kernel

/-- A copy operation that stopped on a page which the granger now looks at. -/
def faulted0 : CopyOp := { gather 0 with state := .faulted, cause := causePageFault, reason := 6, faddr := 0x100000000 }

theorem witness_serviced :
    let s := copying [faulted0]
    let r : SqRequest := { request .binFold with fault := some (causePageFault, 6, false) }
    let w := requesting .binFold 1 0
    FirstIn ((s.focusOn ⟨0, 0, 0⟩).myCopies 0) (fun o => o.state = .faulted ∧ o.told = false) faulted0 ∧ faulted0.opn < 2 ^ 16 ∧
      faulted0.cause < 2 ^ 8 ∧ faulted0.slot < 4 ∧ faulted0.reason < 2 ^ 8 ∧
      FirstIn (({ w with ctx := { w.ctx with sq := [r] } }).focusOn ⟨0, 0, 0⟩).ctx.sq (fun r => ∃ a b, r.fault = some (a, b, false)) r ∧
      (⟨⟨0, 0, 0⟩, 6, [], [], [], true⟩ : Service).stores = [] :=
  ⟨⟨[], [], by decide +kernel, ⟨rfl, rfl⟩, by simp⟩, by decide +kernel, by decide +kernel, by decide +kernel, by decide +kernel,
    ⟨[], [], by decide +kernel, ⟨_, _, rfl⟩, by simp⟩, rfl⟩

theorem witness_harvestArea :
    let s := { running (fun x => { x with status := .waiting .harvestArea }) with launches := [launch0] }
    (s.focusOn ⟨0, 0, 0⟩).ctx.status = .waiting .harvestArea ∧ (s.focusOn ⟨0, 0, 0⟩).myLaunch = some launch0 ∧
      launch0.state ≠ .retired := by decide +kernel

/-- A command: its operation and its arguments. -/
def command (opc : Nat) (args : List Nat) : List Byte :=
  let b := leBytes 8 opc ++ args.flatMap (leBytes 8)
  b ++ List.replicate (256 - b.length) 0

/-- Die 0 runs and its granger has taken a command, with some of its state else. -/
def taking (opc : Nat) (args : List Nat) (f : Die → Die) : State :=
  dieIs fun d => f { d with boot := 7, cmd := some (command opc args) }

theorem witness_taken : ∀ n ∈ List.range 10, Taken (taking n [0, 0] id) 0 (command n [0, 0]) n := by
  unfold Taken; decide +kernel

theorem witness_commands :
    let s (boot : Nat) (c : List Byte) :=
      { dieIs fun d => { d with boot := boot, ctail := 1 } with
        mem := (c.take 16).zipIdx.filterMap fun e => if e.1 = 0 then none else some (2 ^ 72 + 2 ^ 16 + e.2, e.1) }
    let polled (s : State) : List Byte := (List.range 256).map fun k => s.seenByte 0 (2 ^ 72 + 2 ^ 16 + k)
    (s 7 (command 9 [])).die.cmd = none ∧ commandsWaiting (s 7 (command 9 [])).die ≠ 0 ∧
      responsesWaiting (s 7 (command 9 [])).die < 1024 ∧ Performs 7 9 ∧ Performs 7 10 ∧ ¬Performs 0 9 ∧
      polled (s 7 (command 9 [])) = command 9 [] ∧ cmdOpc (polled (s 7 (command 10 []))) = 10 ∧ commandsWaiting State.reset.die = 0 := by
  unfold Performs; decide +kernel

theorem witness_goodCommand : GoodCommand (command 9 []) ∧ ¬GoodCommand (command 10 []) := by
  have h : ∀ k ∈ List.range 128, 32 ≤ k → (command 9 []).getD k 0 = 0 := by decide +kernel
  exact ⟨⟨by decide +kernel, by decide +kernel, fun k a b => h k (List.mem_range.mpr b) a,
    fun h => absurd h (by decide +kernel)⟩, fun h => absurd h.1 (by decide +kernel)⟩

theorem witness_hostLaunch :
    let s := taking 1 [5] id
    Taken s 0 (command 1 [5]) 1 ∧ (∀ a ∈ (s.dieAt 0).arrivals, a.issuer ≠ none) ∧ s.queueRoom 0 5 = true ∧
      (taking 1 [5] fun d => { d with lq := Vector.replicate 32 (List.range 64) }).queueRoom 0 5 = false := by
  unfold Taken; decide +kernel

theorem witness_hostTear :
    let s (n : Nat) := { taking 2 [n] id with launches := [launch0] }
    Taken (s 7) 0 (command 2 [7]) 2 ∧ (s 7).launchOf (cmdArg (command 2 [7]) 0) = some launch0 ∧
      (launch0.fromHost = true ∧ launch0.hostValid = true) ∧ launch0.state ≠ .retired ∧
      (s 8).launchOf (cmdArg (command 2 [8]) 0) = none := by
  unfold Taken; decide +kernel

theorem leBytes_length (n v : Nat) : (leBytes n v).length = n := by
  induction n generalizing v with
  | zero => rfl
  | succ n ih => simp [leBytes, ih]

/-- The length of a section whose entries have its size. -/
theorem section_length (k n : Nat) (es : List (List Byte)) (h : ∀ e ∈ es, e.length = n) :
    (section_ k n es).length = 16 + n * es.length := by
  have : es.flatten.length = n * es.length := by
    induction es with
    | nil => rfl
    | cons a l ih =>
      have := ih fun e m => h e (.tail _ m)
      simp [this, h a (.head _), Nat.mul_add, Nat.add_comm]
  simp [section_, this, leBytes_length]; omega

theorem openEntry_length (k n : Nat) (fs : List Nat) : (openEntry k n fs).length = n := by simp [openEntry]

/-- The length of a summary (Table 15-10). -/
theorem summary_length (s : State) (d : Nat) :
    let ds := [2 * (d / 2), 2 * (d / 2) + 1]
    (s.summary d).length = 208 + 64 * (s.launchEntries ds).length + 16 * (s.queueEntries ds).length + 64 * (s.ctxEntries ds).length +
      48 * (s.opEntries ds).length + 48 * (s.faultEntries ds).length + 48 * (s.powerEntries ds).length +
      88 * (s.counterEntries ds).length + 32 * (s.timeEntries ds).length + 128 * (s.firmwareEntries ds).length := by
  intro ds
  have h1 := section_length 1 64 (s.launchEntries ds) (by
    intro e h; simp only [State.launchEntries, List.mem_map] at h; obtain ⟨_, _, rfl⟩ := h; simp [openEntry_length])
  have h2 := section_length 2 16 (s.queueEntries ds) (by
    intro e h; simp only [State.queueEntries, List.mem_flatMap, List.mem_map] at h; obtain ⟨_, _, _, _, rfl⟩ := h; simp [openEntry_length])
  have h3 := section_length 3 64 (s.ctxEntries ds) (by
    intro e h; simp only [State.ctxEntries, List.mem_map] at h; obtain ⟨_, _, rfl⟩ := h; simp [openEntry_length])
  have h4 := section_length 4 48 (s.opEntries ds) (by
    intro e h; simp only [State.opEntries, List.mem_flatMap, List.mem_map] at h; obtain ⟨_, _, _, _, _, _, rfl⟩ := h; simp [openEntry_length])
  have h5 := section_length 5 48 (s.faultEntries ds) (by
    intro e h
    simp only [State.faultEntries, List.mem_flatMap, List.mem_append, List.mem_map] at h
    obtain ⟨_, _, h | ⟨_, _, rfl⟩⟩ := h
    · split at h
      · rw [List.mem_singleton.mp h]; simp [openEntry_length]
      · cases h
    · simp [openEntry_length])
  have h6 := section_length 6 48 (s.powerEntries ds) (by
    intro e h; simp only [State.powerEntries, List.mem_map] at h; obtain ⟨_, _, rfl⟩ := h; simp [leBytes_length])
  have h7 := section_length 7 88 (s.counterEntries ds) (by
    intro e h
    simp only [State.counterEntries, List.mem_flatMap, List.mem_append, List.mem_map, List.mem_singleton] at h
    obtain ⟨_, _, ⟨_, _, rfl⟩ | rfl⟩ := h <;> simp [leBytes_length, List.range_succ])
  have h8 := section_length 8 32 (s.timeEntries ds) (by
    intro e h; simp only [State.timeEntries, List.mem_map] at h; obtain ⟨_, _, rfl⟩ := h; simp [openEntry_length])
  have h9 := section_length 9 128 (s.firmwareEntries ds) (by
    intro e h; simp only [State.firmwareEntries, List.mem_map] at h; obtain ⟨_, _, rfl⟩ := h; simp [openEntry_length])
  simp only [State.summary, List.length_append, List.length_replicate, leBytes_length]
  simp only [ds] at h1 h2 h3 h4 h5 h6 h7 h8 h9 ⊢
  omega

theorem witness_resync :
    Taken (taking 3 [0, 131072] id) 0 (command 3 [0, 131072]) 3 ∧ (taking 3 [0, 131072] id).ringClear 1 = true ∧
      ((taking 3 [0, 131072] id).summary 0).length ≤ cmdArg (command 3 [0, 131072]) 1 ∧
      cmdArg (command 3 [0, 0]) 1 < ((taking 3 [0, 0] id).summary 0).length := by
  have h : cmdArg (command 3 [0, 0]) 1 = 0 := by decide +kernel
  have b : ((taking 3 [0, 131072] id).summary 0).length ≤ cmdArg (command 3 [0, 131072]) 1 := by
    rw [summary_length]; decide +kernel
  exact ⟨by unfold Taken; decide +kernel, by decide +kernel, b, by rw [summary_length, h]; omega⟩

theorem witness_firmware :
    let a := command 4 [2 ^ 63, 16]
    Taken (taking 4 [2 ^ 63, 16] id) 0 a 4 ∧ cmdArg a 0 + cmdArg a 1 ≤ 2 ^ 64 ∧ 2 ^ 64 < cmdArg (command 4 [2 ^ 64 - 1, 2]) 0 + 2 ∧
      ((taking 5 [1] id).pkgAt 0).banks[(1 : Fin 2)].valid = false ∧
      (({ taking 5 [1] id with pkgs := [(0, { Package.init with banks := Vector.replicate 2 ⟨[], true⟩ })] }).pkgAt 0).banks[(1 : Fin 2)].valid = true := by
  unfold Taken; decide +kernel

theorem witness_attest :
    Taken (taking 6 [0, 4096, 416] id) 0 (command 6 [0, 4096, 416]) 6 ∧ 416 ≤ cmdArg (command 6 [0, 4096, 416]) 2 ∧
      cmdArg (command 6 [0, 4096, 415]) 2 < 416 ∧ 2 ^ 64 < cmdArg (command 6 [0, 2 ^ 64 - 415, 416]) 1 + 416 ∧
      cmdArg (command 6 [0, 4096, 416]) 0 + 48 ≤ 2 ^ 64 ∧ cmdArg (command 6 [0, 4096, 416]) 1 + 416 ≤ 2 ^ 64 := by
  unfold Taken; decide +kernel

theorem witness_config : ∀ k ∈ [2, 3, 4, 16, 17, 18, 32, 33, 34], Taken (taking 8 [k, 100] id) 0 (command 8 [k, 100]) 8 ∧
    cmdArg (command 8 [k, 100]) 0 = k := by
  unfold Taken; decide +kernel

theorem witness_bringUp :
    let s (n : Nat) (l : Bool) := dieIs fun d => { d with boot := n, lock := l, gqdn := 16 }
    State.reset.die.boot = 0 ∧ (0 : Fin 2).val = (State.reset.pkgAt 0).active ∧ (s 5 true).die.gqdn.getLsbD 4 = true ∧
      (s 5 true).die.lock = true ∧ (s 5 false).die.lock = false ∧ (s 7 true).die.boot = 7 := by decide +kernel

/-! Witnesses: bundles and steps. -/

/-- The machine after reset with one `addi x3, x0, 5` to run. -/
def placed : State := State.reset.withFetchWord 32 0x0c180005

/-- The primary of core 0 at its bundle. -/
def opened : State :=
  ((State.focusOn { placed with agenda := [] } ⟨0, 0, 0⟩).makePrimary 0).chargeStatic

/-- What its fetch finds. -/
def fetchOk (u : State) : Bool :=
  match u.checkMapped u.foc.die u.foc.core u.space.1 u.space.2 ⟨false, true, true, u.ctx.ctrl⟩ u.ctx.pc 16 with
  | .ok r => r.places.length == 16 && (r.places.all fun a => !u.poison.contains (wordOf a)) &&
      (List.range 4).all fun k => (List.range 4).all fun j =>
        ((#v[0x0c180005, 0, 0, 0x80000000] : Vector SlotWord 4).getD k 0).toNat / 256 ^ j % 256 ==
          ((r.places[4 * k + j]?).map fun a => (u.seenByte u.foc.die a).toNat).getD 0
  | .error _ => false

theorem witness_opens : Opens placed opened ⟨0, 0⟩ :=
  ⟨[], 0, by decide +kernel, by decide +kernel, by decide +kernel, by decide +kernel, by decide +kernel, rfl, by decide +kernel,
    by decide +kernel⟩

theorem witness_bundle :
    let u := opened
    let ws : Vector SlotWord 4 := #v[0x0c180005, 0, 0, 0x80000000]
    u.ctx.reissue = none ∧ u.inCode = true ∧ keyOk u.ctx.pc = true ∧ fetchOk u = true ∧ (u.wholeFault ws 0).isNone = true ∧
      u.stampOf ws = none ∧ Admitted u 0 (u.bundleCost ws 0) := by
  unfold Admitted; decide +kernel

/-- A bundle in issue, at a slot. -/
def issuingBundle (ws : Vector SlotWord 4) (slot : Nat) (f : Ctx → Ctx) : State :=
  { running (fun x => f { x with ib := some ws, slot := slot }) with going := true }

theorem witness_stepRuns :
    let ws : Vector SlotWord 4 := #v[0x0c180005, 0, 0, 0x80000000]
    let s := issuingBundle ws 0 id
    s.going = true ∧ s.ctx.ib = some ws ∧ s.ctx.slot < 4 ∧ slotInstr ws 0 = some (.addi 3 0 ⟨5, none⟩) ∧ s.breakAt 0 = none ∧
      (match trial Machine.exec ws (groupEnd ws 0) 4 (s.closeForUse ws 0 (groupEnd ws 0)) with
      | .fits => true
      | .held _ => false) = true ∧ (s.closeForUse ws 0 (groupEnd ws 0)).strideBusy = false := by decide +kernel

theorem witness_slotsCommit :
    let ws : Vector SlotWord 4 := #v[0x0c180005, 0, 0, 0x80000000]
    let s := issuingBundle ws 0 id
    s.going = true ∧ s.ctx.ib = some ws ∧ s.ctx.slot < 4 ∧ s.ctx.slotEnd = .commit ∧ Plain s ∧ s.ctx.xfer = none ∧
      s.ctx.loopStart = none ∧ (∀ k : Fin 6, s.ctx.lv[k].act = false) ∧
      (issuingBundle ws 0 fun x => { x with slotEnd := .hold }).ctx.slotEnd ≠ .commit := by
  unfold Plain; decide +kernel

/-- The bytes of a bundle, fetched. -/
def fetches (ws : Vector SlotWord 4) : State := (State.reset.loadBundle ws).focusOn ⟨0, 0, 0⟩

theorem witness_bundleRefused :
    let fetched (ws : Vector SlotWord 4) : Bool := match (fetches ws).fetch with
      | .ok r => r.1 == ws
      | .error _ => false
    let two : Vector SlotWord 4 := #v[0x0c180005, 0, 0x0c180006, 0x80000000]
    let dep : Vector SlotWord 4 := #v[0x0c180005, 0x0c206006, 0, 0x80000000]
    [(#v[0x46000000, 0, 0, 0] : Vector SlotWord 4), two, dep].all fetched = true ∧ (fetches two).asyncDue = false ∧
      (fetches two).ctx.reissue = none ∧ slotInstr #v[0x46000000, 0, 0, 0] 0 = none ∧ BothWrite two 0 2 (.x 3) ∧
      illegalSlots dep 0 (fetches dep).isPinned = [] ∧ Depends dep 0 1 (.x 3) ∧
      ∀ n, 0 ≤ n → n < 1 → wordStop (slotWord dep n) = false := by
  refine ⟨by decide +kernel, by decide +kernel, by decide +kernel, by decide +kernel, by unfold BothWrite; decide +kernel,
    by decide +kernel, by unfold Depends; decide +kernel, fun n _ h => ?_⟩
  exact (by decide +kernel : ∀ n < 1, wordStop (slotWord #v[0x0c180005, 0x0c206006, 0, 0x80000000] n) = false) n h

theorem witness_encodes : (Instr.addi 3 0 ⟨0x345, some 9⟩).wf ∧ encode (.addi 3 0 ⟨0x345, some 9⟩) = some 0x0c180345 := by
  unfold Instr.wf; decide +kernel

theorem witness_stepKeeps : State.reset.memOk = true ∧ ∃ t, Machine.step State.reset = .next t := by
  refine ⟨by decide +kernel, ?_⟩
  have h : (match Machine.step State.reset with
    | .next _ => true
    | _ => false) = true := by decide +kernel
  revert h
  cases Machine.step State.reset with
  | next t => exact fun _ => ⟨t, rfl⟩
  | fault _ => exact fun h => by cases h
  | refused _ => exact fun h => by cases h

/-! Witnesses: the further cases of statements with several clauses. -/

/-- A machine with a store outstanding before a fence, and one without. -/
def fenced (s : State) : State :=
  { s with ctx := { s.ctx with points := [⟨.full, .die, 1⟩], stores := [⟨0, [(5, 1)]⟩], seq := 2 } }

theorem witness_accessReady : ∀ s ∈ [ringed 0 (some task0), running id],
    s.accessReady true = true ∧ s.accessReady false = true ∧ (fenced s).accessReady true = false := by decide +kernel

/-- A scalar load passes its checks: whether all its bytes lie in the own crib. -/
def loadsOn (s : State) (a : Word) : Option Bool :=
  match s.checkAccess a 8 8 (.scalar 8) false with
  | .ok r => if (s.readPoison r.places).isNone && (s.watched (locsOf a 8) true false).isNone && s.accessReady false then
      some (r.places.all fun p => placeLevel p == 0) else none
  | .error _ => none

/-- A parameter window of 20 bytes in a page of mapped space. -/
def windowed (base : Word) : State := paged fun x => { x with pw := x.pw.set 1 ⟨base, 20⟩ }

/-- The bytes of a parameter load at an offset pass their checks. -/
def paramOn (s : State) (a : Word) (n : Nat) : Bool :=
  match s.checkAccess a n 1 .param false with
  | .ok r => (s.readPoison r.places).isNone && (s.watched (locsOf a n) true false).isNone && s.accessReady false
  | .error _ => false

theorem witness_scalarLoads : loadsOn (paged id) 0x1ffff8 = some true ∧ loadsOn (paged id) 0x100000000 = some false ∧
    loadsOn (paged id) 0x40000000 = some false ∧ paramOn (windowed 0x100001000) 0x100001000 8 = true ∧
    paramOn (windowed 0x100001000) 0x100001010 4 = true ∧ 2 ^ 32 ≤ locOf 0x100001010 ∧
    (windowed 0x1000).ctx.pw[(1 : Fin 4)].base.toNat + 8 + 8 ≤ 2097152 ∧ (windowed 0x1000).accessReady false = true := by
  decide +kernel

/-- A lane of an addition whose flag is enabled, in a state with all of FPTE set: infinities of both signs. -/
def trapping (lo hi : Nat) : State :=
  withV [(1, [0x3f800000, lo]), (2, [0x3f800000, hi])] fun x => { x with cstat := 0x7c000000 }

theorem witness_reducedLanes : (∃ o, reducedLanes (.vred .max .f32 .w256 3 1) (tagged 0) = some o ∧ o.et.isFloat = true ∧ o.ok) ∧
    (∃ o, reducedLanes (.vscan .min .bf16 .w1024 3 1) (tagged 2) = some o ∧ o.et.isFloat = true ∧ ¬o.ok) ∧
    ∃ o, reducedLanes (.vscan .add .f32 .w256 3 1) (trapping 0x7f800001 0) = some o ∧ o.ok ∧
      ¬Enabled (trapping 0x7f800001 0).ctx.cstat (o.lane 0).2 ∧ Enabled (trapping 0x7f800001 0).ctx.cstat (o.lane 1).2 :=
  ⟨⟨_, rfl, rfl, (by decide +kernel : (tagged 0).getTag 1 = 0)⟩, ⟨_, rfl, rfl, (by decide +kernel : ¬(tagged 2).getTag 1 = 0)⟩,
    ⟨_, rfl, (by decide +kernel : ((trapping 0x7f800001 0).getTag 1).toNat % 8 ≤ 5),
      fun h => by rcases h with h | h | h | h | h <;> exact absurd h.1 (by decide +kernel), .inl (by decide +kernel)⟩⟩

theorem witness_malformedTag : ∃ o, intLanes (.vneg .i32 .w256 3 1) (tagged 6) = some o ∧ o.et.isFloat = false ∧ ¬o.ok :=
  ⟨_, rfl, rfl, (by decide +kernel : ¬((tagged 6).getTag 1).toNat % 8 ≤ 5)⟩

theorem witness_codesTrap : ∃ o, codesWritten (.vcvt .fp32 .e4m3 .rne false false .w512 3 1) (trapping 0x7f000000 0) = some o ∧
    (trapping 0x7f000000 0).getTag o.va = 0 ∧ 1 < o.n ∧ Enabled (trapping 0x7f000000 0).ctx.cstat (o.code 1).2 :=
  ⟨_, rfl, (by decide +kernel : (trapping 0x7f000000 0).getTag 1 = 0), by decide +kernel, .inr (.inr (.inl (by decide +kernel)))⟩

theorem witness_haarTrap : Enabled (trapping 0x7f800000 0xff800000).ctx.cstat (haarSum 0x7f800000 0xff800000 false true).2 :=
  .inl (by decide +kernel)

theorem witness_matrixRefused :
    let s := ringed 0 (some task0)
    (s.getX 0).toNat / 2 ^ 12 % 4 ≠ 1 ∧ s.core.rings[(1 : Fin 16)].role ≠ 0 ∧ (15 : Fin 16).val % 2 = 1 ∧
      ¬TilesGranted (ringed 0 (some { task0 with amask := 1 })) 0 2 := by
  refine ⟨by decide +kernel, by decide +kernel, by decide, fun ⟨_, t, h, k⟩ => ?_⟩
  cases h; exact absurd (k 1 (by decide) (by decide)) (by decide)

theorem witness_matrixWaitGranted :
    let granted (s : State) (m : Nat) : Prop := m = 0 ∨ (s.foc.core ≠ 96 ∧ ∃ t, s.ctx.task = some t ∧
      ∀ k < 16, m.testBit k = true → t.amask.testBit k = true)
    granted (running id) 0xffff ∧ ¬granted (running fun x => { x with task := some { task0 with amask := 1 } }) 2 := by
  refine ⟨.inr ⟨by decide +kernel, task0, rfl, by decide +kernel⟩, fun h => ?_⟩
  rcases h with h | ⟨_, t, h, k⟩
  · cases h
  · cases h; exact absurd (k 1 (by decide) (by decide)) (by decide)

/-- The granger's core in focus. -/
def onGranger (f : Ctx → Ctx) : State := { running f with foc := ⟨0, 96, 1⟩ }

theorem witness_granger96 : (onGranger id).foc.core = 96 ∧ (onGranger id).ctx.task = some task0 ∧ ¬RingGranted (onGranger id) 0 :=
  ⟨rfl, rfl, fun h => h.1 rfl⟩

theorem witness_copyToRing :
    let e := copyOp .cpx 2 0 #v[0x1f000000, 0, 0, 0x400000000000000]
    let s : State := { copying [] with ctx := { (copying []).ctx with task := some { task0 with rmask := 1 } } }
    e.kind.fills = true ∧ e.dring = true ∧ RingGranted (copying []) e.ring ∧ ¬RingGranted s e.ring := by
  refine ⟨rfl, by decide +kernel, ⟨by decide +kernel, task0, rfl, by decide +kernel⟩, fun ⟨_, t, h, k⟩ => ?_⟩
  cases h; exact absurd k (by decide +kernel)

theorem witness_sampledTest :
    let s := running fun x => { x with qsam := [(5, [true, true, false, true])] }
    State.reset.ctx.qsam.lookup 5 = none ∧ s.ctx.qsam.lookup 5 ≠ none ∧
      ∀ l, s.ctx.qsam.lookup 5 = some l → l.length = 4 := by
  refine ⟨rfl, by decide +kernel, fun l h => ?_⟩
  cases h; rfl

theorem witness_arrivalMade :
    let s := barrierAt 1 0 fun x => { x with reissue := some (0, none), arrived := [⟨0, 0, 0, 2 ^ 67, none, none⟩] }
    s.ctx.reissue ≠ none ∧ (∃ r ∈ s.ctx.arrived, r.bundle = s.ctx.pc ∧ r.slot = s.ctx.slot) ∧ s.ctx.owed = none := by
  decide +kernel

/-- An address in a block of Square space that is not backed. -/
def unbacked (f : Ctx → Ctx) : State :=
  ctxIs fun x => f { x with x := x.x.set 1 0xc0400000, task := some task0 }

theorem witness_unbacked :
    let p : Nat := 2 ^ 67 + 0x400000
    SquareAddress (unbacked id) ((unbacked id).getX 1) 16 true p ∧ WordPlace (unbacked id) ((unbacked id).getX 1) 8 p ∧
      (unbacked id).squareBacked p = false ∧ Unhindered (unbacked id) ∧ 2 ^ 67 ≤ p ∧ p < 2 ^ 68 := by
  refine ⟨⟨by decide +kernel, rfl⟩, .inr ⟨by decide +kernel, rfl⟩, by decide +kernel, unhindered_ctxIs _ rfl (by decide +kernel), by decide,
    by decide⟩

theorem witness_squareWord :
    let s := barrierAt 5 0 id
    WordPlace s (s.getX 1) 8 (2 ^ 67) ∧ WordPlace s (s.getX 1) 1 (2 ^ 67) ∧ s.squareBacked (2 ^ 67) = true ∧
      wordCondition .eq 8 (wordAt s (2 ^ 67) 8) 5 ∧ ¬wordCondition .eq 8 (wordAt s (2 ^ 67) 8) 6 := by
  refine ⟨.inr ⟨by decide +kernel, rfl⟩, .inr ⟨by decide +kernel, rfl⟩, by decide +kernel, ?_, ?_⟩ <;>
    (unfold wordCondition; decide +kernel)

theorem witness_wake :
    let w : WordWait := { wordWait with hit := none }
    let s := barrierAt 1 0 fun x => { x with status := .waiting (.word 0xc0000000), wordWait := some w }
    ⟨0, 0, 0⟩ ∈ s.knownCtxs ∧ (s.ctxAt ⟨0, 0, 0⟩).status = .waiting (.word 0xc0000000) ∧ (s.ctxAt ⟨0, 0, 0⟩).wordWait = some w ∧
      w.place / 8 * 8 ∉ s.poison ∧ w.place / 8 = 2 ^ 67 / 8 := by decide +kernel

theorem witness_descriptorStored :
    let s := fabric (fun x => { x with stores := [⟨0, [(cribPlace ⟨0, 0⟩ 63, 1)]⟩] }) []
    ¬(∀ p ∈ s.ctx.stores, ∀ b ∈ p.places, within (cribPlace s.foc.coreId 0) 64 b = false) := by decide +kernel

/-- A task with a pre-emption request at its checkpoint 5. -/
def asked (preq : Option (Nat × Nat)) (f : Ctx → Ctx) : State :=
  { running (fun x => f { inSlot (.ckpt 5) x with preq := preq }) with launches := [{ launch0 with bale := liveBale }] }

theorem witness_ckpt :
    let s := asked (some (9, 100)) id
    ((s.entryAt 5).isSome ∧ s.ctx.preq ≠ none ∧ s.keptOn = false ∧ s.ctx.ib ≠ none ∧ Plain s ∧ s.ctx.xfer = none ∧
      s.ctx.loopStart = none ∧ ∀ k : Fin 6, s.ctx.lv[k].act = false) ∧ (asked none id).ctx.preq = none ∧
      (asked (some (9, 100)) fun x => { x with inh := true }).keptOn = true := by
  unfold Plain; decide +kernel

theorem witness_doneFaults :
    let s := child .retired
    let f := { s with ctx := { s.ctx with pend := [⟨6, 0, 0⟩] } }
    let m := { s with core := { s.core with mq := [{ entry (.zero 0 1 0) with fault := some ⟨1, 0, false, 0, 0, 0⟩ }] } }
    let w := { s with ctx := { s.ctx with stores := [⟨0, [(5, 1)]⟩] } }
    f.ctx.pend = ⟨6, 0, 0⟩ :: [] ∧ (m.ctx.pend = [] ∧ m.entryFault.isSome) ∧ w.ctx.pend = [] ∧ w.entryFault = none ∧ w.drained = false := by
  decide +kernel

theorem witness_reserve :
    let s (n : Nat) := { dieIs id with pkgs := [(0, { Package.init with pool := n })] }
    min (5 * 194560) ((s 194560).pkgAt 0).pool ≠ 0 ∧ min (5 * 194560) ((s 0).pkgAt 0).pool = 0 := by decide +kernel

theorem witness_turnHeld :
    let s : State := { coreIs id with
      ctx := { State.reset.ctx with status := .waiting .tick }
      ctxs := [(⟨0, 0, 2⟩, { Ctx.init 2 false with status := .ready })] }
    s.isReady ⟨0, 0⟩ 0 = false ∧ s.isReady ⟨0, 0⟩ ((0 + 1 + 1) % 4) = true ∧ ∀ m < 1, s.isReady ⟨0, 0⟩ ((0 + m + 1) % 4) = false := by
  decide +kernel

theorem witness_squareFaultless :
    let s := barrierAt 1 0 id
    wordWait.fault = none ∧ s.squareFault wordWait.place 16 = none ∧
      (running id).strideBusy = false := by decide +kernel

/-- An entry of the matrix queue that reads its B tile, with some steps left. -/
def stagingAt (left : Nat) : MqEntry := { entry (.mul mul0) with bread := some ⟨[], left⟩ }

theorem witness_stagingOn :
    let u (left : Nat) := AtEntry (working (stagingAt left)) ⟨0, 0⟩ ⟨0, 0, 0⟩
    ∀ n ∈ [0, 3], ((working (stagingAt n)).focusCore ⟨0, 0⟩).nextStage = some (stagingAt n, mul0) ∧
      (u n).tilePoison ⟨0, 0⟩ ((u n).core.rings[mul0.rb].span mul0.pb (pcwBFmt mul0.pcw).bits) = none ∧
      ((readOff (u n) ⟨0, 0⟩ ((u n).core.rings[mul0.rb].span mul0.pb (pcwBFmt mul0.pcw).bits) []).records.zipIdx.all fun r =>
        recSeq r.1 == seqTag mul0.pb r.2 && recTag r.1 == 0) = true := by decide +kernel

/-- Three tiles of a ring of four, two of them staged and needed, by operations of the same core. -/
def crowded : State :=
  let e (n : Nat) (st : Bool) : MqEntry :=
    { entry (.mul { mul0 with pb := n, rb := 2 }) with ord := n, staged := if st then some ⟨[], []⟩ else none }
  let s := working (entry (.mul mul0))
  { s with core := { s.core with
      rings := s.core.rings.set 2 ⟨0x0001042000020000, 0x80, 0, 4, 0, 0, [], 65535, 0⟩
      staged := [⟨2, 0, ⟨[], []⟩⟩, ⟨2, 1, ⟨[], []⟩⟩], mq := [e 0 true, e 1 true, e 2 false] } }

theorem witness_noRoom :
    (crowded.focusCore ⟨0, 0⟩).nextStage.map (fun e => e.1.ord) = some 2 ∧ crowded.core.stageRoom = none := by decide +kernel

/-- An entry whose next pass reads its A tile, with some steps left. -/
def filling (left : Nat) : MqEntry := { staged0 with aread := some ⟨[], left⟩ }

theorem witness_passFills : ∀ n ∈ [0, 3],
    let u := AtEntry (working (filling n)) ⟨0, 0⟩ ⟨0, 0, 0⟩
    let sp := u.core.rings[mul0.ra].span 3 (pcwAFmt mul0.pcw).bits
    ((working (filling n)).focusCore ⟨0, 0⟩).nextPass = some (filling n, mul0, ⟨[], []⟩) ∧ u.tilePoison ⟨0, 0⟩ sp = none ∧
      u.linksClear = true ∧ u.die.heldOld = [] ∧ u.behindOthers ⟨1, u.foc⟩ = false ∧
      ((readOff u ⟨0, 0⟩ sp []).records.zipIdx.all fun r => recSeq r.1 == seqTag 3 r.2 && recTag r.1 == 0) = true := by decide +kernel

theorem witness_passWrites :
    ∀ k ∈ passTiles mul0.acc mul0.pcw 0, (AtEntry (working (fetched0 0)) ⟨0, 0⟩ ⟨0, 0, 0⟩).poisonIn (accPlace ⟨0, 0⟩ (32768 * k)) 32768 = none := by
  decide +kernel

theorem witness_tileTag :
    let s : State := working (entry (.read 3 15 255))
    5 < ({ s with core := { s.core with tileL := s.core.tileL.set 15 6 } }.coreAt ⟨0, 0⟩).tileL[(15 : Fin 16)].toNat := by decide +kernel

theorem witness_barrierRefuses :
    let o : CopyOp := { underWay .cpg 0 0 #v[8, 0, 0, 2 ^ 57] with bytes := 5 }
    let u := AtEntry (copying [o]) ⟨0, 0⟩ o.who
    CopyRuns (copying [o]) ⟨0, 0⟩ 0 o [] ∧ u.delivered o = false ∧ o.binds = true ∧ o.reported < o.counted ∧
      (u.barrierFault (boundBarrier ⟨0, 0⟩ o.bidx)).isSome = true := by
  unfold CopyRuns; decide +kernel

theorem witness_links :
    let o := farCopy
    let failed := linked fun d => { d with lost := [port2] }
    let paused := linked fun d => { d with paused := [(port2, 1)] }
    CopyRuns (linked id) ⟨0, 0⟩ 0 o [] ∧ (∀ s ∈ [failed, paused], s.linksClear = false) ∧ (linked id).linksClear = true ∧
      ⟨0, 2, 0⟩ ∈ (linked id).copyLinks o ∧ ⟨2, 0, 1⟩ ∈ (linked id).copyLinks o ∧ failed.linkFailed ⟨0, 2, 0⟩ = true ∧
      paused.linkFailed ⟨2, 0, 1⟩ = false ∧ paused.linkOpen ⟨2, 0, 1⟩ = false := by
  refine ⟨by unfold CopyRuns; decide +kernel, by simp [State.linksClear, linked], by decide +kernel, copyLinks_linked, by decide +kernel, ?_, ?_, ?_⟩ <;>
    simp [State.linkFailed, State.linkOpen, fabricPort, linked, copying, State.dieAt, State.reset, port2, Die.init]

theorem witness_pinnedHold :
    let l : Launch := { launch1 with record := (record0.set 0x12 0x20).set 0x14 5, holds := [(0, [⟨0, 5, 2⟩])] }
    let s := { queueing l with pkgs := [(0, { Package.init with pool := 0 })] }
    s.launchOf 7 = some l ∧ l.state = .queued ∧ s.launchDies l = [0] ∧ recPin l.record = true ∧ s.coversStep l 0 = false ∧
      ∀ d ∈ s.launchDies l, ¬Ahead s l d := by
  unfold Ahead; decide +kernel

theorem witness_restored :
    let s := running fun x => { x with status := .restoring }
    (s.ctxAt ⟨0, 0, 0⟩).status = .restoring ∧ (s.ctxAt ⟨0, 0, 0⟩).isTask 7 0 = true := by decide +kernel

theorem witness_pageServiced :
    let s := running fun x => { x with status := .trapped, trap := { x.trap with cause := 6, done := 7 } }
    let u := s.focusOn ⟨0, 0, 0⟩
    Trapped u ∧ u.ctx.trap.cause = BitVec.ofNat 64 causePageFault ∧ u.ctx.pend = [] ∧ u.ctx.trap.done.toNat % 16 ≠ 15 := by
  unfold Trapped; decide +kernel

theorem witness_latePoison :
    let l := load0 (.scalar 3 true) none
    let s := running fun x => { x with loads := [l] }
    let w : LoadWord := ⟨[0, 1], [], none⟩
    l.words[0]? = some w ∧ s.latePoison l w = false ∧ { s with poison := [0] }.latePoison l w = true ∧ s.linksClear = true := by
  decide +kernel

theorem witness_slotRuns :
    let ws : Vector SlotWord 4 := #v[0x0c180005, 0, 0, 0x80000000]
    (issuingBundle ws 0 id).idleSlot ws 0 = false ∧ illegalSlots #v[0x0c180005, 0x0c206006, 0, 0x80000000] 0
      (fetches #v[0x0c180005, 0x0c206006, 0, 0x80000000]).stamps = [] := by decide +kernel

theorem witness_trapAtBoundary :
    let ws : Vector SlotWord 4 := (Vector.replicate 4 0).set 3 (BitVec.ofNat 32 ((encode (.trap 5)).getD 0))
    let s : State := running fun x => { x with ib := some ws, slot := 3, done := 7, tvec := 64, lv := x.lv.set 0 (level 2 0x200000000 0x100000000) }
    let v := (s.endWait 0).doneSlot ws
    4 ≤ v.ctx.slot ∧ v.endBundle.ctx.slotEnd = .trapped ∧ s.ctx.ctrl = false := by decide +kernel

/-! Single steps and operations, with results from the spec's worked examples. -/

theorem test_add_wraps : (left (exec (.add 3 1 2) (withX [(1, 0xffffffffffffffff), (2, 1)]))).getX 3 = 0 := by decide +kernel

/-- Example 3-1. -/
theorem test_lio_example : (left (exec (.lio 5 ⟨0x3cdef, some 0xcf135⟩) (withX [(5, 0x12345)]))).getX 5 = 0x123456789abcdef ∧
    decode (some 0xcf135) 0x1a2bcdef = some (.lio 5 ⟨0x3cdef, some 0xcf135⟩) ∧ slotExt (some (.imm 1 0xcf135)) 1 = some 0xcf135 := by
  decide +kernel

/-- R57: an unsigned comparison with −1 is true of every other value. -/
theorem test_cmpi_minus_one : (left (exec (.cmpi .ltu 1 4 ⟨0x1fff, none⟩) (withX [(4, 7)]))).getQ 1 = true := by decide +kernel

/-- Example 3-2: five bundles back. -/
theorem test_branch_back : decode none 0x20fffffb = some (.br 3 true 0x1ffffb) ∧
    ((left (exec (.br 3 true 0x1ffffb) (ctxIs fun x => { x with pc := 0x100000050 }))).ctx.xfer.map Transfer.target) = some 0x100000000 := by
  decide +kernel

/-- Example 4-1. -/
theorem test_ldp_past_the_end :
    let s := { paged fun x => { x with pw := x.pw.set 1 ⟨0x100001000, 20⟩ } with
      mem := [(hbmPlace 0 0x1010, 7), (hbmPlace 0 0x1014, 9)] }
    let t := left (exec (.loadReturn ⟨0, 0, 0⟩ 0) (left (exec (.ldp true 5 1 3 ⟨2, none⟩) s)))
    decode none 0x2c2a1c02 = some (.ldp true 5 1 3 ⟨2, none⟩) ∧ t.getX 5 = 7 ∧ t.ctx.cstat.getLsbD 16 = true ∧
      (left (exec (.ldp false 6 1 3 ⟨5, none⟩) s)).ctx.cstat.getLsbD 16 = true := by decide +kernel

/-- Example 5-2, in FP32: 2^24, 1, 1, 1, −2^24, 1, 1, 1. -/
def sum0 : State := withV [(0, [0x4b800000, 0x3f800000, 0x3f800000, 0x3f800000, 0xcb800000, 0x3f800000, 0x3f800000, 0x3f800000])] id

theorem test_reduction_tree : decode none 0x34100003 = some (.vred .add .f32 .w256 1 0) ∧
    (left (exec (.vred .add .f32 .w256 1 0) sum0)).getV 1 = lanes [0x40c00000] := by decide +kernel

theorem test_scan_in_order :
    let t := left (exec (.vscan .add .f32 .w256 2 0) sum0)
    t.getV 2 = lanes [0x4b800000, 0x4b800000, 0x4b800000, 0x4b800000, 0, 0x3f800000, 0x40000000, 0x40400000] ∧
      t.ctx.cstat.getLsbD 12 = true := by decide +kernel

/-- Example 5-3. -/
def part0 : State :=
  withV [(0, [0x40400000, 0xbf800000, 0x40800000, 0xbf800000, 0xc0a00000, 0x41100000, 0xc0000000, 0x40c00000]),
    (2, [1, 3, 4, 6, 0, 2, 5, 7])] fun x => { x with m := x.m.set 1 0xf0ff0f0 }

theorem test_compare_mask : decode none 0x33102000 = some (.vcmp .lt .f32 .w256 1 0 8) ∧
    (left (exec (.vcmp .lt .f32 .w256 1 0 8) part0)).getM 1 = 0xf0ff0f0 := by decide +kernel

theorem test_partition : decode none 0x36200460 = some (.vpart .i32 .w256 2 1) ∧
    (left (exec (.vpart .i32 .w256 3 1) part0)).getV 3 = lanes [1, 3, 4, 6, 0, 2, 5, 7] := by decide +kernel

theorem test_gather_lanes : decode none 0x36300801 = some (.vgat .f32 .w256 3 0 2) ∧
    (left (exec (.vgat .f32 .w256 3 0 2) part0)).getV 3 =
      lanes [0xbf800000, 0xbf800000, 0xc0a00000, 0xc0000000, 0x40400000, 0x40800000, 0x41100000, 0x40c00000] := by decide +kernel

theorem test_mask_count : decode none 0x32210005 = some (.vmcnt .f32 .w256 4 1) ∧
    (left (exec (.vmcnt .f32 .w256 4 1) part0)).getX 4 = 4 := by decide +kernel

/-- Example 6-2: the code and the flags, by their bits in cstat, of one conversion. -/
def conversion (src dst : Fmt) (r : Rnd) (sat : Bool) (c : Nat) : Nat × Nat :=
  let t := left (exec (.vcvt src dst r sat false .w256 2 1) (withV [(1, [c])] id))
  ((t.getV 2).toNat % 2 ^ dst.bits, t.ctx.cstat.toNat / 256 % 256)

theorem test_conversions_to_e2m1 : conversion .fp32 .e2m1 .rne false 0x40200000 = (4, 16) ∧
    conversion .fp32 .e2m1 .rne false 0x3e800000 = (0, 24) ∧ conversion .fp32 .e2m1 .rne false 0x40e00000 = (7, 148) ∧
    conversion .fp32 .e2m1 .rne false 0x7fc00000 = (0, 1) := by decide +kernel

theorem test_conversions_to_e4m3 : conversion .fp32 .e4m3 .rne false 0x43eb0000 = (0x7f, 52) ∧
    conversion .fp32 .e4m3 .rne true 0x43eb0000 = (0x7e, 148) ∧ conversion .fp32 .e4m3 .rz false 0x43fa0000 = (0x7e, 20) ∧
    conversion .e5m2 .e4m3 .rne false 0xfc = (0xff, 33) := by decide +kernel

theorem test_conversions_of_integers : conversion .fp32 .int4 .rne false 0xc02ccccd = (0xd, 16) ∧
    conversion .fp32 .int4 .rne false 0x4119999a = (7, 144) ∧ conversion .int16 .int8 .rne false 300 = (0x2c, 0) ∧
    conversion .int16 .int8 .rne true 300 = (0x7f, 128) := by decide +kernel

/-- Example 6-3: elements 0, 2, 4 and 6 round up to 1.5. -/
theorem test_dither : (left (exec (.vcvt .fp32 .e2m1 .rne false true .w256 2 1) (withV [(1, List.replicate 8 0x3f99999a)] id))).getV 2 =
    0x23232323 := by decide +kernel

/-- Example 7-1. -/
theorem test_digits : [3, 2, 1, 0].map (intDigit .int8 false 0xdb) = [-1, 2, -1, -1] ∧
    [4, 3, 2, 1, 0].map (intDigit .uint8 false 200) = [1, -1, 1, -2, 0] ∧ [1, 0].map (sigDigit 2 13) = [3, 1] ∧
    [3, 2, 1, 0].map (sigDigit 2 170) = [2, 2, 2, 2] := by decide +kernel

/-- Example 7-2: the bit at 2^−7 lies below the window, and rounding takes the rest. -/
theorem test_window :
    let e (m : Nat) : BElem := ⟨.num false m (-7), some (-7), [0, 0, 0, if m = 0 then 0 else 2]⟩
    let v := sumV 2 ([.num false 128 33, .num false 129 (-7)] ++ List.replicate 254 (.num false 0 0)) ([e 128, e 128] ++ List.replicate 254 (e 0)) [3]
    v.2 = true ∧ (accUpdate 0 0 (.add v.1)).1 = 0x53800000 := by decide +kernel

/-- Example 9-1: s = 0.5 and d = 0.5 − 2^−25, with NX. -/
theorem test_wavelet :
    let t := left (exec (.hfwd .w256 4 1 2) (withV [(1, [0x3f800000]), (2, [0x33800000])] id))
    t.getV 4 = lanes [0x3f000000] ∧ t.getV 5 = lanes [0x3effffff] ∧ t.ctx.cstat.getLsbD 12 = true := by decide +kernel

/-- Example 12-1: the batch is added in the order of the tasks. -/
theorem test_ordered_adds :
    let a (t : Nat) (v : Word) (x : XReg) : OrderedAdd := { add0 t v with xd := some x }
    let s := { dieIs fun d => { d with batches := [⟨[a 2 0x4b800000 3, a 0 0x3f800000 1, a 1 0xcb800000 2], none, true, none⟩] } with
      mem := [(2 ^ 67 + 2, 0x80), (2 ^ 67 + 3, 0x3f)] }
    (left (exec (.orderedBatchApply 0) s)).mem = [(2 ^ 67 + 3, 0x40)] := by decide +kernel

/-- Example 12-2: four addends leave the two bins, whatever their order, and the fold finds 2^−43. -/
theorem test_bins :
    let run (l : List Nat) : Nat := l.foldl (fun c v => (binAddTo c (fmt32.decode v)).1) 10
    let l := [0x35800001, 0xb5800000, 0x40400000, 0xc0400000]
    run l = 10 + 0x8000000000 * 2 ^ 64 ∧ run l.reverse = run l ∧ binValue (run l) fmt32 = (0x2a000000, FlagSet.none) := by decide +kernel

/-- R386: the record of `trap 5` and where its task goes. -/
theorem test_trap :
    let t := left (exec (.trap 5) (running (inSlot (.trap 5))))
    t.ctx.trap.cause = 0x13 ∧ t.ctx.trap.info = 5 ∧ t.ctx.status = .trapped := by decide +kernel

end Sys2Proof.Tests
end

/-! PROOFS. Operations of agents that the quarter does not have (R12, log 3): each operation that `absentAgent` lists tests the agent
it names before anything else, and stops the machine where the test fails. -/

namespace Sys2Proof.Machine

open Sys2Proof.Claims

/-- `absentAgent` spells out the bounds of R12 that the operations test by `CtxId.ok`. -/
theorem CtxId.not_ok_of_absent {c : CtxId} (h : ¬(c.die < 16 ∧ c.core ≤ 96 ∧ c.ctx < 4)) : (!c.ok) = true :=
  Decidable.byContradiction fun hc => h (by simpa only [CtxId.ok, Bool.not_eq_true, Bool.not_eq_false',
    Bool.and_eq_true, decide_eq_true_eq, and_assoc] using hc)

/-- `absentAgent` spells out the bounds of R12 that the operations test by `CoreId.ok`. -/
theorem CoreId.not_ok_of_absent {p : CoreId} (h : ¬(p.die < 16 ∧ p.core ≤ 96)) : (!p.ok) = true :=
  Decidable.byContradiction fun hp => h (by simpa only [CoreId.ok, Bool.not_eq_true, Bool.not_eq_false',
    Bool.and_eq_true, decide_eq_true_eq] using hp)

/-- No host command is performed on a die that the quarter does not have. -/
theorem onCommand_absent {d : Nat} (h : 16 ≤ d) (opc : Nat) (sel : Option Nat) (s : State) (f : List Byte → State) :
    onCommand d opc sel s f = .fault .noSuchAgent := if_pos h

/-- R265, R267: a store names the context that made it, the reach of a write the die that comes to see it. -/
theorem execWritePerformed_absent (w : WriteStep) (s : State) (h : absentAgent (.writePerformed w)) :
    execWritePerformed w s = .fault .noSuchAgent := by
  cases w with
  | perform c k => exact if_pos (CtxId.not_ok_of_absent h)
  | reach id d =>
    have hd : 16 ≤ d := h
    exact if_pos (by simp only [WriteStep.ok, Nat.not_lt.mpr hd, decide_false, Bool.not_false])

/-- Log 64: members from 16 on are dies of up to 4,096 packages beyond the quarter, which 8208 is past. -/
theorem execStmcMemberWrite_absent (c : CtxId) (m : Nat) (s : State) (h : absentAgent (.stmcMemberWrite c m)) :
    execStmcMemberWrite c m s = .fault .noSuchAgent := by
  refine if_pos ?_
  rcases h with hc | hm
  · simp only [CtxId.not_ok_of_absent hc, Bool.true_or]
  · simp only [hm, decide_true, Bool.or_true]

/-- Log 64: the bound on a member is that of a multicast write. -/
theorem execSwitchGroupInstall_absent (g : SwitchGroup) (s : State) (h : ∃ m ∈ g.members, 8208 ≤ m) :
    execSwitchGroupInstall g s = .fault .noSuchAgent :=
  if_pos (by simpa only [List.any_eq_true, decide_eq_true_eq] using h)

/-- Settles O34, by the kind of agent that the operation names: its own test, which `absentAgent` makes fail, comes first in
its meaning. An instruction that names no agent is never `absentAgent`. -/
theorem absentAgentsStop : Obligations.AbsentAgentsStop := by
  intro i s h
  cases i with
  | issueTurnEnd c | stampedBundleIssue c | asyncFaultDelivery c | dividerFree c | squareRequestApply c
  | barrierWaitReturn c | waitwReturn c | mwaitReturn c | rgetWaitReturn c | lwaitReturn c | twaitReturn c
  | doneDrainEnd c | stmcAcknowledged c | ldrdReturn c | preemptDeadline c | pinnedTaskStart c | contextSave c
  | gcmdResume c | gcmdForward c | gcmdEnd c _ | cviewWrite c _ | ecntWrite c _ | loadReturn c _
  | harvestAreaExtended c _ | taskResume _ _ c | faultServiced f =>
    exact if_pos (CtxId.not_ok_of_absent h)
  | bTileStaging p | passStart p | passCommit p _ | matrixRetire p | cancelledEntryRetire p | acczExecute p
  | accrdExecute p | accwrExecute p | ringSlotReserve p _ | ppeEntryStart p | ppstTileComplete p | hrecTileComplete p
  | htagApply p | copyOperationStart p _ | copyUnitDelivery p _ | copyBarrierReport p _ | copyCompletion p _
  | traceSample p =>
    exact if_pos (CoreId.not_ok_of_absent h)
  | orderedBatchApply d | lockLoss d | heartbeat d | commandRingPoll d | grantExpiry d | collectiveStart d _
  | collectiveHeaderMatch d _ | collectiveDataUnit d _ | xsigTileDelivery d _ | collectiveCompletion d _ | peerCancel d _
  | ptpSyncMessage d _ | bootStageAdvance d _ | otringWrite d _ | owringWrite d _ | quarterDieNumberMessage d _
  | launchRecordArrival d _ _ | patrolScrub d _ _ | holdRequest _ d _ =>
    exact if_pos h
  | hostNop d | hostLaunch d | hostTear d | hostResync d | hostFwstage d | hostFwact d | hostAttest d | hostCert d
  | hostReset d | configGage d | configGdead d | configGqdn d | configGramp d | configGpmax d | configGuncore d
  | configOtring d | configOwring d | configOwmin d =>
    exact onCommand_absent h ..
  | flitRetry d port | lanePause d port _ | fabricPathFailed d port => exact if_pos h
  | governorTick p | grampWrite p _ => exact if_pos h
  | stmcMemberWrite c m => exact execStmcMemberWrite_absent c m s h
  | writePerformed w => exact execWritePerformed_absent w s h
  | switchGroupInstall g => exact execSwitchGroupInstall_absent g s h
  | _ => exact False.elim h

end Sys2Proof.Machine
